-- ==== Sys2Proof/Word.lean ====
section
/-! DEFINITION. The word types of CME: bytes, 32-bit register words, byte sequences of a fixed length
(`00_scope.md` R12, R13). -/

namespace Sys2Proof

/-- A byte, an unsigned value 0 .. 255 (R12). -/
abbrev Byte := BitVec 8

/-- A register word, 32 bits, bit 0 the least significant (R13). -/
abbrev Word := BitVec 32

/-- A byte sequence of length `n`; index 0 is the first byte (R12). -/
@[ext] structure Bytes (n : Nat) where
  list : List Byte
  length_eq : list.length = n
  deriving DecidableEq, Repr

/-- A block: a byte sequence of length 16 (R12). -/
abbrev Block := Bytes 16

/-- `n` bytes of value 0. -/
def Bytes.zero (n : Nat) : Bytes n :=
  ⟨List.replicate n 0, List.length_replicate⟩

end Sys2Proof
end

