-- ==== Sys2Proof/Config.lean ====
section
/-! DEFINITION. The parameters of CME that the spec leaves OPEN (`00_scope.md` R7 to R9,
`92_eei_decisions.md`), and the free values of unspecified buffer bytes. The machine's own choice of each is
opaque: no proof can see a value of it (log 7). -/

namespace Sys2Proof

/-- The two kinds a primitive-level fault on a decrypt path is classified to (`60_exceptions.md` R218). -/
inductive FaultKind where
  | cipherKeyError
  | unknownError
  deriving DecidableEq, Repr, Inhabited

/-- A range of `m` addresses from `a` on and one of `n` addresses from `b` on do not overlap. -/
abbrev Apart (a m b n : Nat) : Prop := a + m ≤ b ∨ b + n ≤ a

/-- The OPEN parameters that are plain data (R7, R8). Their constraints are carried by the types:
`BUF_CAP + 16 < 2^32` by `bufCapBelow`, `CHUNK ≥ 1` by `chunkPos`, "the three apertures do not overlap"
(`10_state.md` R39) by the last three fields. Every state carries the parameters, no operation changes them, so a
claim about every state is a claim about every choice (log 7). -/
structure Params where
  /-- `DEFAULT_IV` (R7). -/
  defaultIv : Block
  /-- `BUF_CAP` (R8). -/
  bufCapBelow : Fin 4294967280
  /-- `CHUNK` (R8). -/
  chunkPos : ℕ+
  /-- `KIND_EMPTY_CT` (R8, `60_exceptions.md` R219). -/
  kindEmptyCt : FaultKind
  /-- `REG_BASE` (`10_state.md` R39). -/
  regBase : Nat
  /-- `IBUF_BASE` (`10_state.md` R39). -/
  ibufBase : Nat
  /-- `OBUF_BASE` (`10_state.md` R39). -/
  obufBase : Nat
  /-- The register aperture, of `0x100` bytes, and the one of `IBUF`, of `BUF_CAP`, do not overlap (R39). -/
  regIbufApart : Apart regBase 0x100 ibufBase bufCapBelow.val
  /-- The register aperture and the one of `OBUF`, of `BUF_CAP + 16` bytes, do not overlap (R39). -/
  regObufApart : Apart regBase 0x100 obufBase (bufCapBelow.val + 16)
  /-- The apertures of the two buffers do not overlap (R39). -/
  ibufObufApart : Apart ibufBase bufCapBelow.val obufBase (bufCapBelow.val + 16)
  deriving DecidableEq, Repr

/-- `BUF_CAP`. -/
abbrev Params.bufCap (P : Params) : Nat := P.bufCapBelow.val

/-- The size of `OBUF`: it has room for the padding block (`10_state.md` R37). -/
abbrev Params.obufCap (P : Params) : Nat := P.bufCap + 16

/-- `CHUNK`. -/
abbrev Params.chunk (P : Params) : Nat := P.chunkPos.val

/-- The OPEN parameters that are functions (R8, R9), and the free values. -/
structure Config where
  /-- `BC_ENC(k, ·)` for a key `k` given by its bytes; its inverse is `BC_DEC(k, ·)`, so that the law of R9 is
  carried by the type (log 8). -/
  cipher : List Byte → Equiv.Perm Block
  /-- `PRIM_KIND` (R8, `60_exceptions.md` R220). -/
  primKind : Byte → FaultKind
  /-- FREE VALUE: what the draw number `n` yields for the buffer byte at address `a` when that byte holds
  no value (`93_implementation_defined.md` V-OBUF, V-RST, V-IBUF; log 5). -/
  unwritten : Nat → Nat → Byte
  deriving Inhabited

/-- The cipher, `PRIM_KIND` and the free values of the machine at hand. -/
opaque Config.machine : Config

/-- The bytes of `DEFAULT_IV` of the machine at hand. -/
opaque Config.defaultIvByte : Fin 16 → Byte
/-- `BUF_CAP` of the machine at hand. -/
opaque Config.bufCapBelow : Fin 4294967280
/-- `CHUNK` of the machine at hand. -/
opaque Config.chunkPos : ℕ+
/-- `KIND_EMPTY_CT` of the machine at hand. -/
opaque Config.kindEmptyCt : FaultKind
/-- The place of each aperture (0 registers, 1 `IBUF`, 2 `OBUF`) in the order of the platform's addresses. -/
opaque Config.apertureRank : Equiv.Perm (Fin 3)
/-- How many addresses lie free right below each aperture. -/
opaque Config.apertureGap : Fin 3 → Nat

/-- The size of each aperture (`10_state.md` R37, R39). -/
def Config.apertureSize : Fin 3 → Nat
  | 0 => 0x100
  | 1 => Config.bufCapBelow.val
  | 2 => Config.bufCapBelow.val + 16

/-- The base of each aperture, `REG_BASE`, `IBUF_BASE` and `OBUF_BASE` of the machine at hand: an aperture begins above
those of lower rank and the free addresses below it. Every three bases of apertures that do not overlap are of this
form (log 7). -/
def Config.apertureBase (k : Fin 3) : Nat :=
  Config.apertureGap k +
    ∑ j, if Config.apertureRank j < Config.apertureRank k then Config.apertureGap j + Config.apertureSize j else 0

/-- The apertures of the machine at hand do not overlap (R39). -/
theorem Config.apertures_apart {j k : Fin 3} (h : j ≠ k) :
    Apart (Config.apertureBase j) (Config.apertureSize j) (Config.apertureBase k) (Config.apertureSize k) := by
  have below : ∀ {j k : Fin 3}, Config.apertureRank j < Config.apertureRank k →
      Config.apertureBase j + Config.apertureSize j ≤ Config.apertureBase k := by
    intro j k hjk
    have hle : ∑ i, (if Config.apertureRank i < Config.apertureRank j then Config.apertureGap i + Config.apertureSize i
          else 0) + (Config.apertureGap j + Config.apertureSize j) ≤
        ∑ i, if Config.apertureRank i < Config.apertureRank k then Config.apertureGap i + Config.apertureSize i else 0 := by
      rw [← Finset.sum_erase_add _ _ (Finset.mem_univ j), ← Finset.sum_erase_add (a := j) _ _ (Finset.mem_univ j),
        if_neg (lt_irrefl _), if_pos hjk, Nat.add_zero]
      refine Nat.add_le_add_right (Finset.sum_le_sum fun i _ => ?_) _
      split
      · rw [if_pos (by omega)]
      · exact Nat.zero_le _
    unfold Config.apertureBase
    omega
  rcases lt_or_gt_of_ne (Config.apertureRank.injective.ne h) with hlt | hlt
  · exact .inl (below hlt)
  · exact .inr (below hlt)

/-- The plain-data parameters of the machine at hand. -/
def Config.params : Params where
  defaultIv := ⟨List.ofFn Config.defaultIvByte, List.length_ofFn⟩
  bufCapBelow := Config.bufCapBelow
  chunkPos := Config.chunkPos
  kindEmptyCt := Config.kindEmptyCt
  regBase := Config.apertureBase 0
  ibufBase := Config.apertureBase 1
  obufBase := Config.apertureBase 2
  regIbufApart := Config.apertures_apart (j := 0) (k := 1) (by decide)
  regObufApart := Config.apertures_apart (j := 0) (k := 2) (by decide)
  ibufObufApart := Config.apertures_apart (j := 1) (k := 2) (by decide)

end Sys2Proof
end

