-- ==== Sys2Proof/Syntax.lean ====
section
/-! DEFINITION. The commands of CME, one constructor per row of the opcode table (`30_encoding.md` R93), and
the raw fields of a command word (R90). -/

namespace Sys2Proof

/-- The eleven commands (R93). All operands but `DIR` come from registers (R92). -/
inductive Instr where
  | cbcEnc
  | cbcDec
  /-- `dir` is the `DIR` bit: true for encrypt (R90). -/
  | cbcInit (dir : Bool)
  | cbcBlocks
  | ctrInit
  | ctrXor
  | ctxDrop
  | ctrEncPath
  | ctrDecPath
  | ctrEncStrm
  | ctrDecStrm
  deriving DecidableEq, Repr

/-- The fields of format `C` (R90): `OPC` bits 7:0, `DIR` bit 8, `RSV` bits 31:9. -/
structure CommandFields where
  opc : BitVec 8
  dir : Bool
  rsv : BitVec 23
  deriving DecidableEq, Repr

end Sys2Proof
end

