-- ==== Sys2Proof/Machine/State.lean ====
section
/-! DEFINITION. The state of one CME instance (`10_state.md` R20) as plain data, the inputs the outside world
gives it, the reasons a step can stop, and the state after reset (R43). -/

namespace Sys2Proof.Machine

/-! ## Results and flags -/

/-- `STATUS.REJCAUSE` (`60_exceptions.md` R228). -/
inductive RejCause where
  | none
  | fatalState
  | illegalOpcode
  | reservedBits
  | lenRange
  | noContext
  | notFullBlocks
  deriving DecidableEq, Repr

/-- `ERRKIND.KIND` (`60_exceptions.md` R210). -/
inductive ErrKind where
  | none
  | invalidKeyLength
  | invalidIvLength
  | paddingError
  | cipherKeyError
  | unknownError
  | ioError
  deriving DecidableEq, Repr

/-- `ERRKIND.IOWHERE`: which request failed (`10_state.md` R26). -/
inductive IoWhere where
  | none
  | openRd
  | createTrunc
  | read
  | write
  deriving DecidableEq, Repr

/-- The stream-port requests that can fail (`60_exceptions.md` R216). -/
inductive IoReq where
  | openRd
  | createTrunc
  | read
  | write
  deriving DecidableEq, Repr

/-- A typed error as a command raises it; an I/O error carries the failing request and the service's code
(`60_exceptions.md` R210, R216). -/
inductive TypedError where
  | invalidKeyLength
  | invalidIvLength
  | paddingError
  | cipherKeyError
  | unknownError
  | ioError (req : IoReq) (code : Word)
  deriving DecidableEq, Repr

/-- How an accepted command ends (`44_system.md` R200). -/
inductive Ending where
  | success
  | error (e : TypedError)
  | fatal
  deriving DecidableEq, Repr

/-! ## Contexts -/

/-- `CTX.KIND` (`10_state.md` R31). -/
inductive CtxKind where
  | none
  | cbcE
  | cbcD
  | ctr
  deriving DecidableEq, Repr

/-- A bound or scratch context (`10_state.md` R31, R34). -/
structure Ctx where
  kind : CtxKind
  klen : Nat
  key : Bytes 32
  chain : Block
  ctr : Block
  ks : Block
  ksPos : Nat
  deriving DecidableEq, Repr

/-- The empty slot: `KIND = NONE`, every other field zero (`10_state.md` R32, R33). -/
def Ctx.empty : Ctx :=
  { kind := .none, klen := 0, key := Bytes.zero 32, chain := Bytes.zero 16, ctr := Bytes.zero 16,
    ks := Bytes.zero 16, ksPos := 0 }

/-! ## The two ports -/

/-- Requests of the stream port (`20_memory.md` R74). -/
inductive StreamReq where
  | openRd (id : Word)
  | createTrunc (id : Word)
  | read (id : Word) (max : Nat)
  | write (id : Word) (d : List Byte)
  | close (id : Word)
  deriving DecidableEq, Repr

/-- Answers of the stream service (`20_memory.md` R74). -/
inductive StreamAnswer where
  | ok
  | data (d : List Byte)
  | eof
  | ioerr (code : Word)
  | ack
  deriving DecidableEq, Repr

/-- Direction of a primitive request, and the direction a streaming command names
(`20_memory.md` R78, `43_streaming.md` R182). -/
inductive Dir where
  | enc
  | dec
  deriving DecidableEq, Repr

/-- Whether the primitive answers a block request with its block or with a fault code (`20_memory.md` R78). -/
inductive PrimAnswer where
  | ok
  | fault (code : Byte)
  deriving DecidableEq, Repr

/-- What a primitive request returned. -/
inductive PrimResult where
  | ok (b : Block)
  | fault (code : Byte)
  deriving DecidableEq, Repr

/-! ## What the outside world does -/

/-- What a host access names: a register offset, a buffer address, or a platform address
(`10_state.md` R39, `20_memory.md` R70). -/
inductive Place where
  | reg (offset : Nat)
  | ibuf (addr : Nat)
  | obuf (addr : Nat)
  | platform (addr : Nat)
  deriving DecidableEq, Repr

/-- One host access of `width` bytes: a write of `data`, or a read (`20_memory.md` R66, R67). -/
structure Access where
  place : Place
  width : Nat
  data : Option Word
  deriving DecidableEq, Repr

/-- One action of the outside world (log 1, log 2, log 3). -/
inductive Input where
  /-- The host reads or writes. -/
  | access (a : Access)
  /-- The stream service settles its next answers. -/
  | serviceAnswers (as : List StreamAnswer)
  /-- The primitive settles its next answers. -/
  | primAnswers (as : List PrimAnswer)
  /-- The hardware reset input (`10_state.md` R42, R44). -/
  | hardwareReset
  deriving DecidableEq, Repr

/-- What an observer of the ports and of the host bus sees, in order (`00_scope.md` R16; log 4). -/
inductive Event where
  | request (r : StreamReq)
  | answer (a : StreamAnswer)
  | prim (dir : Dir) (key : List Byte) (block : Block) (r : PrimResult)
  | hostRead (p : Place) (width : Nat) (value : Word)
  deriving DecidableEq, Repr

/-! ## Sequencing -/

/-- `PHASE` (`10_state.md` R24). -/
inductive Phase where
  | idle
  | run
  | fatal
  deriving DecidableEq, Repr

/-- Path command or handle command (`43_streaming.md` R175). -/
inductive Shape where
  | path
  | handle
  deriving DecidableEq, Repr

/-- The outstanding stream-port request of the running command; a `CLOSE` remembers how the command ends
once its handles are released (`43_streaming.md` R176, R184, R185). -/
inductive Await where
  | openRd
  | createTrunc
  | read
  | write
  | close (e : Ending)
  deriving DecidableEq, Repr

/-- The streaming command in progress (log 4). -/
structure Job where
  shape : Shape
  dir : Dir
  await : Await
  deriving DecidableEq, Repr

/-- A byte memory: address and byte pairs, addresses strictly rising; an unlisted address holds no value (log 5). -/
abbrev Memory := List Host.Cell

/-- The canonical form: addresses strictly rising. An unlisted address holds no value, so no entry can equal
what an unlisted address reads as, and equal memories are equal lists. -/
abbrev Memory.wf (m : Memory) : Prop := m.Pairwise (fun a b => a.1 < b.1)

/-- The state of one CME instance (`10_state.md` R20), and what the outside world has in store for it. -/
structure State where
  /-- The instance's parameters (R21): no operation changes them (log 7). -/
  params : Params
  /-- `KEY` (R22). -/
  key : Bytes 32
  /-- `KLEN` (R22). -/
  klen : Word
  /-- `IV` (R22). -/
  iv : Block
  /-- `IVLEN` (R22). -/
  ivlen : Word
  /-- `ILEN` (R22). -/
  ilen : Word
  /-- `SRC_ID` (R22). -/
  srcId : Word
  /-- `DST_ID` (R22). -/
  dstId : Word
  /-- `STATUS.ERR` (R25). -/
  err : Bool
  /-- `STATUS.REJ` (R25). -/
  rej : Bool
  /-- `STATUS.REJCAUSE` (R25). -/
  rejCause : RejCause
  /-- `ERRKIND.KIND` (R26). -/
  errKind : ErrKind
  /-- `ERRKIND.IOWHERE` (R26). -/
  ioWhere : IoWhere
  /-- `IOERR` (R27). -/
  ioErr : Word
  /-- `OLEN` (R28). -/
  olen : Word
  /-- `IBUF`: the bytes the host has written since reset (R37, R43). -/
  ibuf : Memory
  /-- `OBUF`: the bytes that hold a value, `OBUF[0 : OLEN]` (R37, R38). -/
  obuf : Memory
  /-- The bound context `CTX` (R31); `STATUS.CTXKIND` is a view of its kind. -/
  ctx : Ctx
  /-- `PHASE` (R24); `STATUS.FATAL` is a view of it. -/
  phase : Phase
  /-- The scratch context of a running streaming command (R34). -/
  scratch : Ctx
  /-- `SRC_OPEN` (R35). -/
  srcOpen : Bool
  /-- `DST_OPEN` (R35). -/
  dstOpen : Bool
  /-- The streaming command in progress; the model's own (log 4). -/
  job : Option Job
  /-- Pending actions of the outside world; the model's own (log 1). -/
  inputs : List Input
  /-- The stream service's next answers; the model's own (log 2). -/
  answers : List StreamAnswer
  /-- The primitive's next answers; the model's own (log 3). -/
  primPlan : List PrimAnswer
  /-- Number of draws of unspecified bytes made so far; the model's own (log 5). -/
  draws : Nat
  /-- What was seen on the ports and read by the host, oldest first; the model's own (log 4). -/
  log : List Event
  deriving DecidableEq, Repr

/-- Right after reset (R43), for an instance with the parameters of the machine at hand (log 7). The fields of the model's own are empty (log 1 to log 5). -/
def State.reset : State :=
  { params := Config.params, key := Bytes.zero 32, klen := 0, iv := Bytes.zero 16, ivlen := 0, ilen := 0, srcId := 0, dstId := 0,
    err := false, rej := false, rejCause := .none, errKind := .none, ioWhere := .none, ioErr := 0, olen := 0,
    ibuf := [], obuf := [], ctx := Ctx.empty, phase := .idle, scratch := Ctx.empty, srcOpen := false,
    dstOpen := false, job := none, inputs := [], answers := [], primPlan := [], draws := 0, log := [] }

/-- Why the machine stops with a fault. -/
inductive Fault where
  /-- Raised by a host access to a platform address that no aperture covers (`10_state.md` R39;
  log 11). Safe: the model stops where the platform's bus decides. -/
  | unmappedAddress
  deriving DecidableEq, Repr

/-- Why the model gives no meaning. -/
inductive Refusal where
  /-- Raised by an arm of `exec` that has no meaning yet. Safe. -/
  | notModelled (mnemonic : String)
  /-- Raised by a host access of a width, alignment or offset that `20_memory.md` R67 leaves to the platform
  ("A model *refuses* such an access"; log 11). Safe. -/
  | badAccess
  /-- Raised by a host access, or a command, presented while a command runs
  (`93_implementation_defined.md` X-RUN; log 12). Safe. -/
  | accessWhileRunning
  /-- Raised by a streaming command with `SRC_ID = DST_ID` where it would use the object a second time
  (`43_streaming.md` R194, `93_implementation_defined.md` U2; log 9). Safe. -/
  | sameStreamObject
  /-- Raised by an answer of the stream service outside the shapes of `20_memory.md` R74, which R79 says
  never comes (log 10). Safe. -/
  | badServiceAnswer
  deriving DecidableEq, Repr

/-- The outcome of a step or of a command. -/
abbrev Result := Host.Outcome State Fault Refusal

end Sys2Proof.Machine
end

