-- ==== Sys2Proof/Machine/Flags.lean ====
section
/-! DEFINITION. The flag words `STATUS` and `ERRKIND` as the host reads them, and the write-one-to-clear of
`STATUS.REJ` (`10_state.md` R25 to R27, `60_exceptions.md` R210, R228). No command takes a flag as input (R45). -/

namespace Sys2Proof.Machine

/-- Codes of `STATUS.REJCAUSE` (R228). -/
def RejCause.code : RejCause → BitVec 4
  | .none => 0
  | .fatalState => 1
  | .illegalOpcode => 2
  | .reservedBits => 3
  | .lenRange => 4
  | .noContext => 5
  | .notFullBlocks => 6

/-- Codes of `ERRKIND.KIND` (R210). -/
def ErrKind.code : ErrKind → BitVec 4
  | .none => 0
  | .invalidKeyLength => 1
  | .invalidIvLength => 2
  | .paddingError => 3
  | .cipherKeyError => 4
  | .unknownError => 5
  | .ioError => 6

/-- Codes of `ERRKIND.IOWHERE` (R26). -/
def IoWhere.code : IoWhere → BitVec 4
  | .none => 0
  | .openRd => 1
  | .createTrunc => 2
  | .read => 3
  | .write => 4

/-- Codes of `CTX.KIND` (R31). -/
def CtxKind.code : CtxKind → BitVec 2
  | .none => 0
  | .cbcE => 1
  | .cbcD => 2
  | .ctr => 3

/-- `STATUS.FATAL`: 1 exactly when `PHASE = FATAL` (R25). -/
def State.fatalFlag (s : State) : Bool := s.phase == .fatal

/-- `STATUS` as read: bit 0 `ERR`, 1 `REJ`, 2 `FATAL`, 5:4 `CTXKIND`, 11:8 `REJCAUSE`, the rest 0 (R25). -/
def State.statusWord (s : State) : Word :=
  0#20 ++ s.rejCause.code ++ 0#2 ++ s.ctx.kind.code ++ 0#1 ++ BitVec.ofBool s.fatalFlag ++
    BitVec.ofBool s.rej ++ BitVec.ofBool s.err

/-- `ERRKIND` as read: 3:0 `KIND`, 11:8 `IOWHERE`, the rest 0 (R26). -/
def State.errKindWord (s : State) : Word :=
  0#20 ++ s.ioWhere.code ++ 0#4 ++ s.errKind.code

/-- A host write to `STATUS`: bit 1 set clears `REJ` and `REJCAUSE`; every other written bit is ignored (R25). -/
def State.writeStatus (v : Word) (s : State) : State :=
  if v.getLsbD 1 then { s with rej := false, rejCause := .none } else s

/-- The kind a typed error reports (R210). -/
def TypedError.kind : TypedError → ErrKind
  | .invalidKeyLength => .invalidKeyLength
  | .invalidIvLength => .invalidIvLength
  | .paddingError => .paddingError
  | .cipherKeyError => .cipherKeyError
  | .unknownError => .unknownError
  | .ioError _ _ => .ioError

/-- The `IOWHERE` value of a failing request (R26). -/
def IoReq.ioWhere : IoReq → IoWhere
  | .openRd => .openRd
  | .createTrunc => .createTrunc
  | .read => .read
  | .write => .write

/-- `ERRKIND.IOWHERE` of a typed error: 0 but for `IOError` (R225). -/
def TypedError.ioWhere : TypedError → IoWhere
  | .ioError r _ => r.ioWhere
  | .invalidKeyLength | .invalidIvLength | .paddingError | .cipherKeyError | .unknownError => .none

/-- `IOERR` of a typed error: the service's code bit for bit, 0 but for `IOError` (R27, R225). -/
def TypedError.ioCode : TypedError → Word
  | .ioError _ c => c
  | .invalidKeyLength | .invalidIvLength | .paddingError | .cipherKeyError | .unknownError => 0

end Sys2Proof.Machine
end

