-- ==== Sys2Proof/Machine/Operands.lean ====
section
/-! DEFINITION. Operand assembly (`30_encoding.md` R92): byte packing of register words, blocks, the validator
(`40_validator_padding.md` R120 to R123), the padding codec (R124 to R128), and the counter arithmetic
(`42_ctr.md` R162). -/

namespace Sys2Proof.Machine

/-! ## Words and bytes (`20_memory.md` R64) -/

/-- Byte `i` of a word, byte 0 the least significant. -/
def byteOf (w : Word) (i : Nat) : Byte := w.extractLsb' (8 * i) 8

/-- The word whose byte `i` is `f i`. -/
def wordOf (f : Nat → Byte) : Word := f 3 ++ f 2 ++ f 1 ++ f 0

/-- Word `w` of a byte-array register. -/
def regWord {n : Nat} (b : Bytes n) (w : Nat) : Word :=
  wordOf fun i => b.list.getD (4 * w + i) 0

/-- A write of `v` to word `w` of a byte-array register. -/
def setRegWord {n : Nat} (b : Bytes n) (w : Nat) (v : Word) : Bytes n :=
  ⟨(((b.list.set (4 * w) (byteOf v 0)).set (4 * w + 1) (byteOf v 1)).set (4 * w + 2) (byteOf v 2)).set
      (4 * w + 3) (byteOf v 3), by simp [b.length_eq]⟩

/-! ## Blocks (`00_scope.md` R12) -/

/-- The first `n` bytes of a sequence, zero bytes after its end: a fixed-length register holding it. -/
def bytesOfList (n : Nat) (l : List Byte) : Bytes n :=
  ⟨(l ++ List.replicate n 0).take n, by simp⟩

/-- The first `m` blocks of a sequence: `blk(s, 0), …, blk(s, m-1)`. -/
def toBlocks : Nat → List Byte → List Block
  | 0, _ => []
  | m + 1, s => bytesOfList 16 (s.take 16) :: toBlocks m (s.drop 16)

/-- The concatenation of blocks. -/
def ofBlocks (bs : List Block) : List Byte := (bs.map (·.list)).flatten

/-- `xor16(a, b)`, bytewise. -/
def xor16 (a b : Block) : Block :=
  ⟨List.zipWith (· ^^^ ·) a.list b.list, by simp [a.length_eq, b.length_eq]⟩

/-! ## The CTR counter (`00_scope.md` R14, `42_ctr.md` R162) -/

/-- `be128(b)`: byte 0 most significant. -/
def be128 (b : Block) : Nat := b.list.foldl (fun n x => n * 256 + x.toNat) 0

/-- `bytes128(n)`, the inverse of `be128` on `0 ≤ n < 2^128`. -/
def bytes128 (n : Nat) : Block :=
  ⟨(List.range 16).map fun i => BitVec.ofNat 8 (n / 256 ^ (15 - i)), by simp⟩

/-- `inc128`: one more as a 128-bit big-endian number, modulo `2^128` (R162). -/
def inc128 (cb : Block) : Block := bytes128 ((be128 cb + 1) % 2 ^ 128)

/-! ## The validator (`40_validator_padding.md`) -/

/-- `KLEN` is one of the three legal key lengths (R120). -/
def keyLengthLegal (klen : Word) : Bool := klen == 16#32 || klen == 24#32 || klen == 32#32

/-- `IVLEN` is 0 or 16 (R121). -/
def ivLengthLegal (ivlen : Word) : Bool := ivlen == 0#32 || ivlen == 16#32

/-- `k = KEY[0 : KLEN]` (R122). -/
def State.keyOperand (s : State) : List Byte := s.key.list.take s.klen.toNat

/-- `IV_eff`: `DEFAULT_IV` when `IVLEN = 0`, else `IV[0 : 16]` (R122). -/
def State.ivOperand (s : State) : Block := if s.ivlen = 0#32 then s.params.defaultIv else s.iv

/-- `Validate()`: the key length first, then the IV length; it writes no state (R120 to R123). -/
def validate (s : State) : Except TypedError (List Byte × Block) :=
  if keyLengthLegal s.klen then
    if ivLengthLegal s.ivlen then .ok (s.keyOperand, s.ivOperand)
    else .error .invalidIvLength
  else .error .invalidKeyLength

/-! ## The padding codec (`40_validator_padding.md`) -/

/-- `padLen`, a number in 1 .. 16 (R124). -/
def padLen (len : Nat) : Nat := 16 - len % 16

/-- `Pad(b)` (R124). -/
def pad (b : List Byte) : List Byte :=
  b ++ List.replicate (padLen b.length) (BitVec.ofNat 8 (padLen b.length))

/-- What `Unpad` answers (R126, R128). -/
inductive Unpadded where
  | ok (b : List Byte)
  | paddingError
  /-- The sequence is empty: there is no last byte (R128). -/
  | emptyInput
  deriving DecidableEq, Repr

/-- `Unpad(b)`: only the last byte is looked at (R126, R127). -/
def unpad (b : List Byte) : Unpadded :=
  match b.getLast? with
  | none => .emptyInput
  | some n => if n.toNat > b.length then .paddingError else .ok (b.take (b.length - n.toNat))

/-! ## Contexts (`10_state.md` R31) -/

/-- The bound key `CTX.KEY[0 : CTX.KLEN]` (R31). -/
def Ctx.boundKey (c : Ctx) : List Byte := c.key.list.take c.klen

/-- The context `CBC_INIT` binds (`41_cbc.md` R150). -/
def Ctx.freshCbc (encrypt : Bool) (k : List Byte) (iv : Block) : Ctx :=
  { Ctx.empty with kind := if encrypt then .cbcE else .cbcD, klen := k.length, key := bytesOfList 32 k, chain := iv }

/-- A fresh CTR context: the whole IV is the first counter block and no keystream byte is available yet
(`42_ctr.md` R163, R165). -/
def Ctx.freshCtr (k : List Byte) (iv : Block) : Ctx :=
  { Ctx.empty with kind := .ctr, klen := k.length, key := bytesOfList 32 k, ctr := iv, ksPos := 16 }

end Sys2Proof.Machine
end

