-- ==== Sys2Proof/Machine/Ops.lean ====
section
/-! DEFINITION. The shared operations: the buffer memories, the primitive port, acceptance and rejection of a
command, its three ends (`complete`, `raise`, going FATAL), the error classifier, and reset. -/

namespace Sys2Proof.Machine

/-! ## Buffer memories (`10_state.md` R37, R38, R43) -/

/-- The byte at an address, `none` where it holds no value. -/
def Memory.get : Memory → Nat → Option Byte
  | [], _ => none
  | (a, b) :: m, k => if a = k then some b else Memory.get m k

/-- The memory with one byte written. -/
def Memory.set : Memory → Nat → Byte → Memory
  | [], k, v => [(k, v)]
  | (a, b) :: m, k, v =>
    if k < a then (k, v) :: (a, b) :: m
    else if k = a then (k, v) :: m
    else (a, b) :: Memory.set m k v

/-- The memory that holds a byte sequence from address `a` on, and no other value. -/
def Memory.ofBytes : Nat → List Byte → Memory
  | _, [] => []
  | a, b :: bs => (a, b) :: Memory.ofBytes (a + 1) bs

/-- A read of one byte: a byte that holds no value reads as the free value of this draw (log 5). -/
def readByte (C : Config) (draw : Nat) (m : Memory) (a : Nat) : Byte :=
  (Memory.get m a).getD (C.unwritten draw a)

/-- A read of the bytes at `a .. a+n-1`, one draw for all of them (V-IBUF: "drawn once before the command"). -/
def readBytes (C : Config) (draw : Nat) (m : Memory) (a n : Nat) : List Byte :=
  (List.range n).map fun i => readByte C draw m (a + i)

/-- `MemRead(IBUF, 0, ILEN)` (`00_scope.md` R15). -/
def State.input (C : Config) (s : State) : List Byte := readBytes C s.draws s.ibuf 0 s.ilen.toNat

/-- One more draw has been made. -/
def drawn (s : State) : State := { s with draws := s.draws + 1 }

/-- `MemWrite(OBUF, 0, len(v), v)` and `OLEN <- len(v)`: the result is `OBUF[0 : OLEN]` and nothing else (R38). -/
def putOutput (v : List Byte) (s : State) : State :=
  { s with obuf := Memory.ofBytes 0 v, olen := BitVec.ofNat 32 v.length }

/-! ## The primitive port (`20_memory.md` R78) -/

/-- What one command has left of the primitive's answers, and what it has seen on the ports. -/
structure Port where
  plan : List PrimAnswer
  log : List Event
  deriving DecidableEq, Repr

/-- `BC_ENC` or `BC_DEC` (`00_scope.md` R9). -/
def blockCipher (C : Config) (dir : Dir) (key : List Byte) (b : Block) : Block :=
  match dir with
  | .enc => C.cipher key b
  | .dec => (C.cipher key).symm b

/-- One request on the primitive port: the cipher's block, or a fault code. After the end of the plan the
primitive answers `ok` (log 3). -/
def Port.ask (C : Config) (dir : Dir) (key : List Byte) (b : Block) (p : Port) : Except Byte Block × Port :=
  match p.plan with
  | .fault c :: rest => (.error c, { plan := rest, log := p.log ++ [.prim dir key b (.fault c)] })
  | .ok :: rest =>
    (.ok (blockCipher C dir key b),
      { plan := rest, log := p.log ++ [.prim dir key b (.ok (blockCipher C dir key b))] })
  | [] =>
    (.ok (blockCipher C dir key b),
      { plan := [], log := p.log ++ [.prim dir key b (.ok (blockCipher C dir key b))] })

/-- The primitive port as a command finds it. -/
def State.port (s : State) : Port := { plan := s.primPlan, log := s.log }

/-- The state after a command's primitive requests. -/
def putPort (p : Port) (s : State) : State := { s with primPlan := p.plan, log := p.log }

/-! ## Acceptance and rejection (`44_system.md` R201, R202, `60_exceptions.md` R227) -/

/-- `reject cause`: nothing changes but `STATUS.REJ` and `STATUS.REJCAUSE` (R227). -/
def reject (cause : RejCause) (s : State) : State := { s with rej := true, rejCause := cause }

/-- The acceptance effects, all at once (R202); with `OLEN = 0` no byte of `OBUF` holds a value any more (R38). -/
def accept (s : State) : State :=
  { s with
    phase := .run, err := false, rej := false, rejCause := .none, errKind := .none, ioWhere := .none, ioErr := 0,
    olen := 0, obuf := [] }

/-- The first acceptance check: in FATAL every command is rejected; while a command runs none can be presented
(R201 item 1, R203; log 12). -/
def whenIdle (s : State) (k : State → Result) : Result :=
  match s.phase with
  | .fatal => .next (reject .fatalState s)
  | .run => .refused .accessWhileRunning
  | .idle => k s

/-- Acceptance check 4 of the buffer commands (R201): `ILEN > BUF_CAP` is rejected. -/
def whenInRange (s : State) (k : State → Result) : Result :=
  if s.params.bufCap < s.ilen.toNat then .next (reject .lenRange s) else k s

/-! ## The end of a command (`60_exceptions.md` R221, R224, R225) -/

/-- `complete`: success (R224). -/
def complete (s : State) : State := { s with scratch := Ctx.empty, job := none, phase := .idle }

/-- `raise`, the exception entry of this hardware, less `Release`, which precedes it in the path commands (R225).
There is no handler and no return: the next command is simply accepted (R229). -/
def raise (e : TypedError) (s : State) : State :=
  { s with
    scratch := Ctx.empty, job := none, olen := 0, errKind := e.kind, ioWhere := e.ioWhere, ioErr := e.ioCode,
    err := true, phase := .idle }

/-- Going FATAL, less the release of the handles; `CTX` is not changed (R221). -/
def goFatal (s : State) : State :=
  { s with
    scratch := Ctx.empty, job := none, olen := 0, err := false, errKind := .none, ioWhere := .none, phase := .fatal }

/-- The end of a command. -/
def endCommand (e : Ending) (s : State) : State :=
  match e with
  | .success => complete s
  | .error e => raise e s
  | .fatal => goFatal s

/-- A failed `CBC_INIT` or `CTR_INIT` empties the slot (R225, `10_state.md` R32). -/
def dropCtx (s : State) : State := { s with ctx := Ctx.empty }

/-- The slot holds a context. -/
def bindCtx (c : Ctx) (s : State) : State := { s with ctx := c }

/-! ## The error classifier (`60_exceptions.md` R218 to R221) -/

/-- The causes of a primitive-level fault (R218). -/
inductive FaultCause where
  | notFullBlocks
  | emptyInput
  | prim (code : Byte)
  deriving DecidableEq, Repr

/-- A classified fault as a typed error. -/
def faultError : FaultKind → TypedError
  | .cipherKeyError => .cipherKeyError
  | .unknownError => .unknownError

/-- What a fault inside the decrypt boundary is classified to (R218 to R220). -/
def classify (C : Config) (P : Params) : FaultCause → TypedError
  | .notFullBlocks => .cipherKeyError
  | .emptyInput => faultError P.kindEmptyCt
  | .prim code => faultError (C.primKind code)

/-! ## Reset (`10_state.md` R42 to R44) -/

/-- The reset of the engine: every field as `State.reset`; the parameters stay, and so does what
belongs to the outside world and to the observer (log 14), and later reads of unwritten bytes are new draws (log 5). -/
def resetEngine (s : State) : State :=
  { State.reset with
    params := s.params, inputs := s.inputs, answers := s.answers, primPlan := s.primPlan, draws := s.draws + 1, log := s.log }

end Sys2Proof.Machine
end

