-- ==== Sys2Proof/Machine/Cbc.lean ====
section
/-! DEFINITION. The CBC engine: the chaining functions and the commands `CBC_ENC`, `CBC_DEC`, `CBC_INIT`,
`CBC_BLOCKS` (`41_cbc.md`). -/

namespace Sys2Proof.Machine

/-- `CbcEncBlocks(k, ch, x)`: output blocks and the next chaining value; the first fault stops it (R141, R157). -/
def cbcEncBlocks (C : Config) (k : List Byte) : Block → List Block → Port → Except Byte (List Block × Block) × Port
  | ch, [], p => (.ok ([], ch), p)
  | ch, x :: xs, p =>
    match p.ask C .enc k (xor16 x ch) with
    | (.error c, p) => (.error c, p)
    | (.ok y, p) =>
      match cbcEncBlocks C k y xs p with
      | (.error c, p) => (.error c, p)
      | (.ok (ys, last), p) => (.ok (y :: ys, last), p)

/-- `CbcDecBlocks(k, ch, c)`: output blocks and the last block consumed; the first fault stops it (R142, R157). -/
def cbcDecBlocks (C : Config) (k : List Byte) : Block → List Block → Port → Except Byte (List Block × Block) × Port
  | ch, [], p => (.ok ([], ch), p)
  | ch, c :: cs, p =>
    match p.ask C .dec k c with
    | (.error f, p) => (.error f, p)
    | (.ok t, p) =>
      match cbcDecBlocks C k c cs p with
      | (.error f, p) => (.error f, p)
      | (.ok (xs, last), p) => (.ok (xor16 t ch :: xs, last), p)

/-- `CBC_ENC` (R144). -/
def cbcEnc (C : Config) (s : State) : Result :=
  whenIdle s fun s => whenInRange s fun s =>
    let a := accept s
    match validate a with
    | .error e => .next (raise e a)
    | .ok (k, iv) =>
      let pp := pad (a.input C)
      match cbcEncBlocks C k iv (toBlocks (pp.length / 16) pp) a.port with
      | (.error _, p) => .next (goFatal (putPort p (drawn a)))
      | (.ok (c, _), p) => .next (complete (putOutput (ofBlocks c) (putPort p (drawn a))))

/-- `CBC_DEC` (R146); every fault is inside the decrypt boundary and classified. -/
def cbcDec (C : Config) (s : State) : Result :=
  whenIdle s fun s => whenInRange s fun s =>
    let a := accept s
    match validate a with
    | .error e => .next (raise e a)
    | .ok (k, iv) =>
      if a.ilen.toNat % 16 ≠ 0 then .next (raise (classify C a.params .notFullBlocks) a)
      else
        match cbcDecBlocks C k iv (toBlocks (a.ilen.toNat / 16) (a.input C)) a.port with
        | (.error code, p) => .next (raise (classify C a.params (.prim code)) (putPort p (drawn a)))
        | (.ok (pp, _), p) =>
          match unpad (ofBlocks pp) with
          | .emptyInput => .next (raise (classify C a.params .emptyInput) (putPort p (drawn a)))
          | .paddingError => .next (raise .paddingError (putPort p (drawn a)))
          | .ok b => .next (complete (putOutput b (putPort p (drawn a))))

/-- `CBC_INIT` with its `DIR` bit (R150, R151). -/
def cbcInit (dir : Bool) (s : State) : Result :=
  whenIdle s fun s =>
    let a := accept s
    match validate a with
    | .error e => .next (dropCtx (raise e a))
    | .ok (k, iv) => .next (complete (bindCtx (Ctx.freshCbc dir k iv) a))

/-- `CTX` holds a CBC transform (R153). -/
def Ctx.isCbc (c : Ctx) : Bool := c.kind == .cbcE || c.kind == .cbcD

/-- The blocks of `CBC_BLOCKS` in the direction of the bound context (R153). -/
def cbcBlocksOf (C : Config) (c : Ctx) (x : List Block) (p : Port) : Except Byte (List Block × Block) × Port :=
  if c.kind = .cbcE then cbcEncBlocks C c.boundKey c.chain x p else cbcDecBlocks C c.boundKey c.chain x p

/-- `CBC_BLOCKS` (R153). -/
def cbcBlocks (C : Config) (s : State) : Result :=
  whenIdle s fun s => whenInRange s fun s =>
    if !s.ctx.isCbc then .next (reject .noContext s)
    else if s.ilen.toNat % 16 ≠ 0 then .next (reject .notFullBlocks s)
    else
      let a := accept s
      match cbcBlocksOf C a.ctx (toBlocks (a.ilen.toNat / 16) (a.input C)) a.port with
      | (.error _, p) => .next (goFatal (putPort p (drawn a)))
      | (.ok (y, ch), p) =>
        .next (complete (bindCtx { a.ctx with chain := ch } (putOutput (ofBlocks y) (putPort p (drawn a)))))

/-- The meaning of `CBC_ENC`. -/
def execCbcEnc (s : State) : Result := cbcEnc Config.machine s

/-- The meaning of `CBC_DEC`. -/
def execCbcDec (s : State) : Result := cbcDec Config.machine s

/-- The meaning of `CBC_INIT`. -/
def execCbcInit (dir : Bool) (s : State) : Result := cbcInit dir s

/-- The meaning of `CBC_BLOCKS`. -/
def execCbcBlocks (s : State) : Result := cbcBlocks Config.machine s

end Sys2Proof.Machine
end

