-- ==== Sys2Proof/Machine/Ctr.lean ====
section
/-! DEFINITION. The CTR keystream generator: `KsXor` and the commands `CTR_INIT`, `CTR_XOR` (`42_ctr.md`). -/

namespace Sys2Proof.Machine

/-- The context with at least one unused keystream byte: a new block is requested only when none is left (R163). -/
def ksRefill (C : Config) (c : Ctx) (p : Port) : Except Byte Ctx × Port :=
  if c.ksPos < 16 then (.ok c, p)
  else
    match p.ask C .enc c.boundKey c.ctr with
    | (.error f, p) => (.error f, p)
    | (.ok b, p) => (.ok { c with ks := b, ctr := inc128 c.ctr, ksPos := 0 }, p)

/-- The keystream byte in turn. -/
def Ctx.ksByte (c : Ctx) : Byte := c.ks.list.getD c.ksPos 0

/-- `KsXor(ctx, d)`, byte by byte (R163). -/
def ksXor (C : Config) : Ctx → List Byte → Port → Except Byte (List Byte × Ctx) × Port
  | c, [], p => (.ok ([], c), p)
  | c, d :: ds, p =>
    match ksRefill C c p with
    | (.error f, p) => (.error f, p)
    | (.ok c, p) =>
      match ksXor C { c with ksPos := c.ksPos + 1 } ds p with
      | (.error f, p) => (.error f, p)
      | (.ok (es, c'), p) => (.ok ((d ^^^ c.ksByte) :: es, c'), p)

/-- `CTR_INIT` (R165, R166). -/
def ctrInit (s : State) : Result :=
  whenIdle s fun s =>
    let a := accept s
    match validate a with
    | .error e => .next (dropCtx (raise e a))
    | .ok (k, iv) => .next (complete (bindCtx (Ctx.freshCtr k iv) a))

/-- `CTR_XOR` (R168); a fault is outside any decrypt boundary (R171). -/
def ctrXor (C : Config) (s : State) : Result :=
  whenIdle s fun s => whenInRange s fun s =>
    if s.ctx.kind ≠ .ctr then .next (reject .noContext s)
    else
      let a := accept s
      match ksXor C a.ctx (a.input C) a.port with
      | (.error _, p) => .next (goFatal (putPort p (drawn a)))
      | (.ok (e, c), p) => .next (complete (bindCtx c (putOutput e (putPort p (drawn a)))))

/-- The meaning of `CTR_INIT`. -/
def execCtrInit (s : State) : Result := ctrInit s

/-- The meaning of `CTR_XOR`. -/
def execCtrXor (s : State) : Result := ctrXor Config.machine s

end Sys2Proof.Machine
end

