-- ==== Sys2Proof/Machine/Streaming.lean ====
section
/-! DEFINITION. The streaming adapter: the copy loop, the release of handles, and the commands `CTR_ENC_PATH`,
`CTR_DEC_PATH`, `CTR_ENC_STRM`, `CTR_DEC_STRM` (`43_streaming.md`). A command runs as far as the service's
answers in the state go; where they end, it waits in `PHASE = RUN` (log 2). -/

namespace Sys2Proof.Machine

/-- One request is put on the stream port and its answer awaited (`20_memory.md` R74). -/
def issue (j : Job) (aw : Await) (r : StreamReq) (s : State) : State :=
  { s with job := some { j with await := aw }, log := s.log ++ [.request r] }

/-- `DST_OPEN <- 0`, `SRC_OPEN <- 0`, `DST_OPEN <- 1`, `SRC_OPEN <- 1` (R184, R185). -/
def setDstOpen (b : Bool) (s : State) : State := { s with dstOpen := b }
@[inherit_doc setDstOpen] def setSrcOpen (b : Bool) (s : State) : State := { s with srcOpen := b }

/-- The scratch context. -/
def setScratch (c : Ctx) (s : State) : State := { s with scratch := c }

/-- `Release`, then the end of the command: the sink is closed first, each open handle exactly once; a handle
command closes nothing (R185, R189, `60_exceptions.md` R225). -/
def release (j : Job) (e : Ending) (s : State) : State :=
  if j.shape = .path ∧ s.dstOpen then issue j (.close e) (.close s.dstId) (setDstOpen false s)
  else if j.shape = .path ∧ s.srcOpen then issue j (.close e) (.close s.srcId) (setSrcOpen false s)
  else endCommand e s

/-- Steps 3 and 4 of a path command, 1 and 2 of a handle command: validate, build the scratch context and ask for
the first chunk (R180, R184, R189). -/
def startCopy (j : Job) (s : State) : State :=
  match validate s with
  | .error e => release j (.error e) s
  | .ok (k, iv) => issue j .read (.read s.srcId s.params.chunk) (setScratch (Ctx.freshCtr k iv) s)

/-- How a primitive fault ends a streaming command: classified in the two decrypt commands, FATAL in the two
encrypt commands (R183). -/
def copyFault (C : Config) (P : Params) (dir : Dir) (code : Byte) : Ending :=
  match dir with
  | .dec => .error (classify C P (.prim code))
  | .enc => .fatal

/-- A chunk has arrived: transform it and write it out (R176). -/
def copyChunk (C : Config) (j : Job) (d : List Byte) (s : State) : State :=
  match ksXor C s.scratch d s.port with
  | (.error code, p) => release j (copyFault C s.params j.dir code) (putPort p s)
  | (.ok (e, c), p) => issue j .write (.write s.dstId e) (setScratch c (putPort p s))

/-- A legal `data` answer: 1 to `CHUNK` bytes (`20_memory.md` R74, R75). -/
def chunkLegal (P : Params) (d : List Byte) : Bool := 1 ≤ d.length && d.length ≤ P.chunk

/-- What the running command does with the answer to its outstanding request (R176, R184, R185, R189). -/
def onAnswer (C : Config) (j : Job) (ans : StreamAnswer) (s : State) : Result :=
  match j.await, ans with
  | .openRd, .ok =>
    if s.srcId = s.dstId then .refused .sameStreamObject
    else .next (issue j .createTrunc (.createTrunc s.dstId) (setSrcOpen true s))
  | .openRd, .ioerr c => .next (release j (.error (.ioError .openRd c)) s)
  | .createTrunc, .ok => .next (startCopy j (setDstOpen true s))
  | .createTrunc, .ioerr c => .next (release j (.error (.ioError .createTrunc c)) s)
  | .read, .data d => if chunkLegal s.params d then .next (copyChunk C j d s) else .refused .badServiceAnswer
  | .read, .eof => .next (release j .success s)
  | .read, .ioerr c => .next (release j (.error (.ioError .read c)) s)
  | .write, .ok => .next (issue j .read (.read s.srcId s.params.chunk) s)
  | .write, .ioerr c => .next (release j (.error (.ioError .write c)) s)
  | .close e, .ack => .next (release j e s)
  | _, _ => .refused .badServiceAnswer

/-- One answer of the service is taken and seen on the port. -/
def takeAnswer (a : StreamAnswer) (rest : List StreamAnswer) (s : State) : State :=
  { s with answers := rest, log := s.log ++ [.answer a] }

/-- The running command goes on with the service's answers (those of the state) until it ends or they do
(R176; log 2). What it does from an answer to its next request is not interrupted: a hardware reset
(`10_state.md` R44) lands only where the answers have run out and a request is outstanding, DESIGN CHOICE, log 18. -/
def serve (C : Config) : List StreamAnswer → State → Result
  | [], s => .next s
  | a :: as, s =>
    match s.job with
    | none => .next s
    | some j =>
      match onAnswer C j a (takeAnswer a as s) with
      | .next t => serve C as t
      | .fault f => .fault f
      | .refused r => .refused r

/-- The running command goes on with the answers in the state. -/
def runJob (C : Config) (s : State) : Result := serve C s.answers s

/-- A path command: its first request opens the source (R184). -/
def ctrPath (C : Config) (dir : Dir) (s : State) : Result :=
  whenIdle s fun s => runJob C (issue ⟨.path, dir, .openRd⟩ .openRd (.openRd s.srcId) (accept s))

/-- A handle command: it validates before any request (R189); the two handles must differ (R194; log 9). -/
def ctrStrm (C : Config) (dir : Dir) (s : State) : Result :=
  whenIdle s fun s =>
    let t := startCopy ⟨.handle, dir, .read⟩ (accept s)
    if t.job.isSome ∧ s.srcId = s.dstId then .refused .sameStreamObject else runJob C t

/-- The meaning of `CTR_ENC_PATH` (R187). -/
def execCtrEncPath (s : State) : Result := ctrPath Config.machine .enc s

/-- The meaning of `CTR_DEC_PATH` (R188). -/
def execCtrDecPath (s : State) : Result := ctrPath Config.machine .dec s

/-- The meaning of `CTR_ENC_STRM` (R190). -/
def execCtrEncStrm (s : State) : Result := ctrStrm Config.machine .enc s

/-- The meaning of `CTR_DEC_STRM` (R191). -/
def execCtrDecStrm (s : State) : Result := ctrStrm Config.machine .dec s

end Sys2Proof.Machine
end

