-- ==== Sys2Proof/Machine/System.lean ====
section
/-! DEFINITION. `CTX_DROP` (`44_system.md` R206). -/

namespace Sys2Proof.Machine

/-- `CTX_DROP`: the slot is emptied; dropping an empty slot is a success (R206). -/
def ctxDrop (s : State) : Result :=
  whenIdle s fun s => .next (complete (dropCtx (accept s)))

/-- The meaning of `CTX_DROP`. -/
def execCtxDrop (s : State) : Result := ctxDrop s

end Sys2Proof.Machine
end

