-- ==== Sys2Proof/Machine/Dispatch.lean ====
section
/-! DEFINITION. Which meaning each command has (`30_encoding.md` R93). -/

namespace Sys2Proof.Machine

def exec (i : Instr) (s : State) : Host.Outcome State Fault Refusal :=
  match i with
  | .cbcEnc => Sys2Proof.Machine.execCbcEnc s
  | .cbcDec => Sys2Proof.Machine.execCbcDec s
  | .cbcInit dir => Sys2Proof.Machine.execCbcInit dir s
  | .cbcBlocks => Sys2Proof.Machine.execCbcBlocks s
  | .ctrInit => Sys2Proof.Machine.execCtrInit s
  | .ctrXor => Sys2Proof.Machine.execCtrXor s
  | .ctxDrop => Sys2Proof.Machine.execCtxDrop s
  | .ctrEncPath => Sys2Proof.Machine.execCtrEncPath s
  | .ctrDecPath => Sys2Proof.Machine.execCtrDecPath s
  | .ctrEncStrm => Sys2Proof.Machine.execCtrEncStrm s
  | .ctrDecStrm => Sys2Proof.Machine.execCtrDecStrm s

end Sys2Proof.Machine
end

