-- ==== Sys2Proof/WellFormed.lean ====
section
/-! DEFINITION. Which fields of a command word spell a command (`30_encoding.md` R90, R91). A term of `Instr`
is well formed by its type; the checks concern the raw fields. -/

namespace Sys2Proof

/-- `OPC` is one of the eleven opcodes `0x01 .. 0x0B` (R93, R94). -/
def CommandFields.opcodeLegal (f : CommandFields) : Bool :=
  1#8 ≤ f.opc && f.opc ≤ 0x0B#8

/-- `RSV` is 0 (R90). -/
def CommandFields.reservedZero (f : CommandFields) : Bool :=
  f.rsv == 0#23

/-- `DIR` is 0 in every command but `CBC_INIT` (R90). -/
def CommandFields.dirLegal (f : CommandFields) : Bool :=
  !f.dir || f.opc == 0x03#8

/-- The fields spell a command (R91). -/
def CommandFields.wellFormed (f : CommandFields) : Bool :=
  f.opcodeLegal && f.reservedZero && f.dirLegal

end Sys2Proof
end

