-- ==== Sys2Proof/Decode.lean ====
section
/-! DEFINITION. Decoding of a command word, total on 32 bits and rejecting by name (`30_encoding.md` R91), then
the encoder, written from the table of R93. -/

namespace Sys2Proof

/-- Why a word spells no command (R91). -/
inductive DecodeError where
  /-- `OPC` is none of the eleven opcodes: `reject ILLEGAL_OPCODE`. -/
  | illegalOpcode
  /-- `RSV ≠ 0`, or `DIR = 1` with an opcode other than `CBC_INIT`: `reject RESERVED_BITS`. -/
  | reservedBits
  deriving DecidableEq, Repr

/-- The fields of a word (R90). -/
def CommandFields.ofWord (w : Word) : CommandFields :=
  { opc := w.extractLsb' 0 8, dir := w.getLsbD 8, rsv := w.extractLsb' 9 23 }

/-- The word of the fields (R90). -/
def CommandFields.toWord (f : CommandFields) : Word :=
  f.rsv ++ BitVec.ofBool f.dir ++ f.opc

/-- The command an opcode names, `dir` being the `DIR` bit; `none` for an illegal opcode (R93, R94). -/
def commandOf (opc : BitVec 8) (dir : Bool) : Option Instr :=
  match opc.toNat with
  | 0x01 => some .cbcEnc
  | 0x02 => some .cbcDec
  | 0x03 => some (.cbcInit dir)
  | 0x04 => some .cbcBlocks
  | 0x05 => some .ctrInit
  | 0x06 => some .ctrXor
  | 0x07 => some .ctxDrop
  | 0x08 => some .ctrEncPath
  | 0x09 => some .ctrDecPath
  | 0x0A => some .ctrEncStrm
  | 0x0B => some .ctrDecStrm
  | _ => none

/-- The three outcomes of R91, tried in its order. -/
def decodeFields (f : CommandFields) : Except DecodeError Instr :=
  match commandOf f.opc f.dir with
  | none => .error .illegalOpcode
  | some i =>
    if f.rsv ≠ 0#23 then .error .reservedBits
    else if f.dir ∧ f.opc ≠ 0x03#8 then .error .reservedBits
    else .ok i

/-- What a 32-bit command word spells; nothing but the word is needed (R91). -/
def decode (w : Word) : Except DecodeError Instr :=
  decodeFields (CommandFields.ofWord w)

/-- The opcode of a command (R93). -/
def Instr.opcode : Instr → BitVec 8
  | .cbcEnc => 0x01
  | .cbcDec => 0x02
  | .cbcInit _ => 0x03
  | .cbcBlocks => 0x04
  | .ctrInit => 0x05
  | .ctrXor => 0x06
  | .ctxDrop => 0x07
  | .ctrEncPath => 0x08
  | .ctrDecPath => 0x09
  | .ctrEncStrm => 0x0A
  | .ctrDecStrm => 0x0B

/-- The `DIR` bit of a command: `isEncrypt` for `CBC_INIT`, 0 in every other command (R90). -/
def Instr.dirBit : Instr → Bool
  | .cbcInit dir => dir
  | .cbcEnc | .cbcDec | .cbcBlocks | .ctrInit | .ctrXor | .ctxDrop
  | .ctrEncPath | .ctrDecPath | .ctrEncStrm | .ctrDecStrm => false

/-- The fields of a command's word (R90, R93). -/
def Instr.fields (i : Instr) : CommandFields :=
  { opc := i.opcode, dir := i.dirBit, rsv := 0 }

/-- The word of a command (R93). -/
def encode (i : Instr) : Word := i.fields.toWord

/-- The `match` of a command's row of the table of R93. -/
def Instr.rowMatch : Instr → Word
  | .cbcEnc => 0x00000001
  | .cbcDec => 0x00000002
  | .cbcInit _ => 0x00000003
  | .cbcBlocks => 0x00000004
  | .ctrInit => 0x00000005
  | .ctrXor => 0x00000006
  | .ctxDrop => 0x00000007
  | .ctrEncPath => 0x00000008
  | .ctrDecPath => 0x00000009
  | .ctrEncStrm => 0x0000000A
  | .ctrDecStrm => 0x0000000B

/-- The `mask` of a command's row of the table of R93: all ones, less bit 8 for `CBC_INIT`. -/
def Instr.rowMask : Instr → Word
  | .cbcInit _ => 0xFFFFFEFF
  | .cbcEnc | .cbcDec | .cbcBlocks | .ctrInit | .ctrXor | .ctxDrop
  | .ctrEncPath | .ctrDecPath | .ctrEncStrm | .ctrDecStrm => 0xFFFFFFFF

/-- The data of the `CMD` write that carries an instruction of `nbits` bits `w` (log 15): bit 0 is the least
significant, every bit above `nbits` is 0. -/
def commandWord (nbits w : Nat) : Word := BitVec.ofNat 32 (w % 2 ^ nbits)

/-- What the decoder reads from an instruction as the opcode table numbers its bits. -/
def decodeTableWord (nbits w : Nat) : Option Instr :=
  match decode (commandWord nbits w) with
  | .ok i => some i
  | .error _ => none

end Sys2Proof
end

