-- ==== Sys2Proof/Machine/HostPort.lean ====
section
/-! DEFINITION. The host side: the register map and the two buffer apertures (`10_state.md` R39, R40,
`20_memory.md` R64 to R67), soft reset (`44_system.md` R207), the acceptance of a command word (R201), and how
the next input of the outside world is taken. -/

namespace Sys2Proof.Machine

/-! ## The register aperture (`10_state.md` R39) -/

/-- A read of the register at an offset. `CMD`, `CTRL` and the reserved offsets read 0 (R29, R30, R39). -/
def readReg (s : State) (off : Nat) : Word :=
  if off = 0x004 then s.statusWord
  else if off = 0x008 then s.errKindWord
  else if off = 0x00C then s.ioErr
  else if off = 0x014 then s.klen
  else if off = 0x018 then s.ivlen
  else if off = 0x01C then s.ilen
  else if off = 0x020 then s.olen
  else if off = 0x024 then s.srcId
  else if off = 0x028 then s.dstId
  else if off = 0x02C then 0x00000001#32
  else if 0x040 ≤ off ∧ off ≤ 0x05C then regWord s.key ((off - 0x040) / 4)
  else if 0x060 ≤ off ∧ off ≤ 0x06C then regWord s.iv ((off - 0x060) / 4)
  else if 0x070 ≤ off ∧ off ≤ 0x07C then regWord s.params.defaultIv ((off - 0x070) / 4)
  else 0

/-- A write to `CTRL`: bit 0 resets the engine, every other bit is ignored (R30, `44_system.md` R207). -/
def writeCtrl (v : Word) (s : State) : State := if v.getLsbD 0 then resetEngine s else s

/-- A write of the register at an offset, but for `CMD`. Read-only registers and reserved offsets ignore it (R39, R40). -/
def writeReg (off : Nat) (v : Word) (s : State) : State :=
  if off = 0x004 then s.writeStatus v
  else if off = 0x010 then writeCtrl v s
  else if off = 0x014 then { s with klen := v }
  else if off = 0x018 then { s with ivlen := v }
  else if off = 0x01C then { s with ilen := v }
  else if off = 0x024 then { s with srcId := v }
  else if off = 0x028 then { s with dstId := v }
  else if 0x040 ≤ off ∧ off ≤ 0x05C then { s with key := setRegWord s.key ((off - 0x040) / 4) v }
  else if 0x060 ≤ off ∧ off ≤ 0x06C then { s with iv := setRegWord s.iv ((off - 0x060) / 4) v }
  else s

/-- A register access the spec gives a meaning: a whole aligned word at an offset up to `0x0FC` (`20_memory.md` R66, R67). -/
def regAccessLegal (off width : Nat) : Bool := width == 4 && off % 4 == 0 && decide (off ≤ 0x0FC)

/-! ## The buffer apertures (`20_memory.md` R64, R67) -/

/-- A buffer access the spec gives a meaning: a byte, or an aligned word, inside the buffer (log 11). -/
def bufAccessLegal (size addr width : Nat) : Bool :=
  (width == 1 && decide (addr < size)) || (width == 4 && addr % 4 == 0 && decide (addr + 4 ≤ size))

/-- A read of a byte or of a word, the word packed little-endian; one draw for the access (R64; log 5). -/
def readBuf (C : Config) (s : State) (m : Memory) (addr width : Nat) : Word :=
  if width = 1 then (readByte C s.draws m addr).setWidth 32
  else wordOf fun i => readByte C s.draws m (addr + i)

/-- A write of a byte (bits 7:0 of the data, log 11) or of a word, equal in effect to four byte writes (R67). -/
def writeBuf (m : Memory) (addr width : Nat) (v : Word) : Memory :=
  if width = 1 then Memory.set m addr (byteOf v 0)
  else
    Memory.set (Memory.set (Memory.set (Memory.set m addr (byteOf v 0)) (addr + 1) (byteOf v 1)) (addr + 2)
      (byteOf v 2)) (addr + 3) (byteOf v 3)

/-- The state after the host has read `v`. -/
def hostRead (p : Place) (width : Nat) (v : Word) (s : State) : State :=
  { s with log := s.log ++ [.hostRead p width v] }

/-- The state with `IBUF` written by the host. -/
def putIbuf (m : Memory) (s : State) : State := { s with ibuf := m }

/-! ## One host access -/

/-- What a host access comes to: a command word with the state it meets, or an outcome. -/
inductive HostEffect where
  | command (w : Word) (s : State)
  | outcome (r : Result)

/-- An access to the register aperture; a write of `CMD` presents a command word (R29). -/
def regAccess (off width : Nat) (data : Option Word) (s : State) : HostEffect :=
  if regAccessLegal off width then
    match data with
    | none => .outcome (.next (hostRead (.reg off) width (readReg s off) s))
    | some v => if off = 0x000 then .command v s else .outcome (.next (writeReg off v s))
  else .outcome (.refused .badAccess)

/-- An access to `IBUF` (R37). -/
def ibufAccess (C : Config) (addr width : Nat) (data : Option Word) (s : State) : HostEffect :=
  if bufAccessLegal s.params.bufCap addr width then
    match data with
    | none => .outcome (.next (hostRead (.ibuf addr) width (readBuf C s s.ibuf addr width) (drawn s)))
    | some v => .outcome (.next (putIbuf (writeBuf s.ibuf addr width v) s))
  else .outcome (.refused .badAccess)

/-- An access to `OBUF`; host writes are ignored (R37). -/
def obufAccess (C : Config) (addr width : Nat) (data : Option Word) (s : State) : HostEffect :=
  if bufAccessLegal s.params.obufCap addr width then
    match data with
    | none => .outcome (.next (hostRead (.obuf addr) width (readBuf C s s.obuf addr width) (drawn s)))
    | some _ => .outcome (.next s)
  else .outcome (.refused .badAccess)

/-- Offset of a platform address in an aperture. -/
def inAperture (base size addr : Nat) : Option Nat :=
  if base ≤ addr ∧ addr < base + size then some (addr - base) else none

/-- The place a platform address names: the aperture that covers it, as no two overlap (R39, R70; log 11). -/
def locate (P : Params) (addr : Nat) : Option Place :=
  (inAperture P.regBase 0x100 addr).map .reg <|> (inAperture P.ibufBase P.bufCap addr).map .ibuf <|>
    (inAperture P.obufBase P.obufCap addr).map .obuf

/-- An access to a place inside an aperture. -/
def placedAccess (C : Config) (p : Place) (width : Nat) (data : Option Word) (s : State) : HostEffect :=
  match p with
  | .reg off => regAccess off width data s
  | .ibuf addr => ibufAccess C addr width data s
  | .obuf addr => obufAccess C addr width data s
  | .platform _ => .outcome (.fault .unmappedAddress)

/-- A host access. -/
def hostAccess (C : Config) (a : Access) (s : State) : HostEffect :=
  match a.place with
  | .platform addr =>
    match locate s.params addr with
    | some p => placedAccess C p a.width a.data s
    | none => .outcome (.fault .unmappedAddress)
  | p => placedAccess C p a.width a.data s

/-! ## The next input -/

/-- Answers of the stream service are appended to what it has in store; a waiting command goes on with them (log 2). -/
def serviceAnswers (C : Config) (as : List StreamAnswer) (s : State) : Result :=
  let t := { s with answers := s.answers ++ as }
  if s.phase = .run then runJob C t else .next t

/-- One input of the outside world. While a command runs the host can make no access (`44_system.md` R203; log 12),
and a hardware reset abandons the command (`10_state.md` R44), at the request it waits on (log 18). -/
def takeInput (C : Config) (i : Input) (s : State) : HostEffect :=
  match i with
  | .access a => if s.phase = .run then .outcome (.refused .accessWhileRunning) else hostAccess C a s
  | .serviceAnswers as => .outcome (serviceAnswers C as s)
  | .primAnswers as => .outcome (.next { s with primPlan := s.primPlan ++ as })
  | .hardwareReset => .outcome (.next (resetEngine s))

/-- The next input, taken off the list; with none the engine does nothing (`60_exceptions.md` R233; log 1). -/
def nextInput (C : Config) (s : State) : HostEffect :=
  match s.inputs with
  | [] => .outcome (.next s)
  | i :: rest => takeInput C i { s with inputs := rest }

/-! ## The acceptance of a command word -/

/-- The rejection a word that spells no command gets (`30_encoding.md` R91). -/
def decodeCause : DecodeError → RejCause
  | .illegalOpcode => .illegalOpcode
  | .reservedBits => .reservedBits

/-- Acceptance checks 1 to 3 of a command word: in FATAL any word is rejected first, then come the opcode and the
reserved bits (`44_system.md` R201). -/
def presented (s : State) (w : Word) : Except RejCause Instr :=
  if s.phase = .fatal then .error .fatalState
  else
    match decode w with
    | .error e => .error (decodeCause e)
    | .ok i => .ok i

/-- The input that presents a command word: a whole-word write to `CMD` (R29). -/
def commandInput (w : Word) : Input := .access { place := .reg 0x000, width := 4, data := some w }

/-- The state in which the next step takes that command word: its write stands first among the inputs; a command
still running is abandoned, as nothing could be presented while it runs (log 15). -/
def withCommand (w : Word) (s : State) : State :=
  { s with
    phase := if s.phase = .run then .idle else s.phase
    job := if s.phase = .run then none else s.job
    inputs := commandInput w :: s.inputs }

end Sys2Proof.Machine
end

