-- ==== Sys2Proof/Machine/Step.lean ====
section
/-! DEFINITION. One step of the machine: one input of the outside world (log 1). A command word is decoded and
dispatched (`44_system.md` R200). -/

namespace Sys2Proof.Machine

def step (s : State) : Host.Outcome State Fault Refusal :=
  match nextInput Config.machine s with
  | .outcome r => r
  | .command w t =>
    match presented t w with
    | .error cause => .next (reject cause t)
    | .ok i => exec i t

/-- The command of `nbits` bits `w` where the next step takes it (log 15). -/
def State.withFetchWord (s : State) (nbits w : Nat) : State :=
  withCommand (commandWord nbits w) s

end Sys2Proof.Machine
end

