-- ==== Sys2Proof/Safety.lean ====
section
/-! DEFINITION. What counts as a safe state, a trustworthy result and a safe run, in the terms claims use. -/

namespace Sys2Proof.Machine

/-- The parameters, the operand registers and `IBUF` are the same (`10_state.md` R21, R23, R38). -/
def SameOperands (s t : State) : Prop :=
  t.params = s.params ∧ t.key = s.key ∧ t.klen = s.klen ∧ t.iv = s.iv ∧ t.ivlen = s.ivlen ∧ t.ilen = s.ilen ∧ t.srcId = s.srcId ∧
    t.dstId = s.dstId ∧ t.ibuf = s.ibuf

/-- The result registers and `OBUF` are the same. -/
def SameResults (s t : State) : Prop :=
  t.err = s.err ∧ t.rej = s.rej ∧ t.rejCause = s.rejCause ∧ t.errKind = s.errKind ∧ t.ioWhere = s.ioWhere ∧
    t.ioErr = s.ioErr ∧ t.olen = s.olen ∧ t.obuf = s.obuf

/-- The sequencing state and what is alive only while a command runs are the same (R24, R34, R35). -/
def SameSequencing (s t : State) : Prop :=
  t.phase = s.phase ∧ t.scratch = s.scratch ∧ t.srcOpen = s.srcOpen ∧ t.dstOpen = s.dstOpen ∧ t.job = s.job

/-- What the outside world has in store, and the observer's record, are the same. -/
def SameOutside (s t : State) : Prop :=
  t.inputs = s.inputs ∧ t.answers = s.answers ∧ t.primPlan = s.primPlan ∧ t.draws = s.draws ∧ t.log = s.log

/-- The premise `PrimNeverFaults`: the primitive answers every request `ok` (`60_exceptions.md` R222). -/
def PrimNeverFaults (s : State) : Prop := ∀ a ∈ s.primPlan, a = .ok

/-- Software may trust the result of the last accepted command (`70_reset_and_hazards.md` R246). -/
def ResultValid (s : State) : Prop := s.rej = false ∧ s.phase = .idle ∧ s.err = false

/-- A context is well formed: empty, or a bound transform with a legal key length and at most 16 keystream bytes
used (`10_state.md` R31, R32). -/
def Ctx.Wf (c : Ctx) : Prop :=
  c = Ctx.empty ∨ (c.kind ≠ .none ∧ (c.klen = 16 ∨ c.klen = 24 ∨ c.klen = 32) ∧ c.ksPos ≤ 16)

/-- The result registers agree among themselves (R25 to R27): `ERR` with `KIND`, `REJ` with `REJCAUSE`, `IOWHERE` and
`IOERR` with `IOError`. -/
def State.ResultsAgree (s : State) : Prop :=
  (s.err = true ↔ s.errKind ≠ .none) ∧ (s.rej = true ↔ s.rejCause ≠ .none) ∧
    (s.errKind = .ioError ↔ s.ioWhere ≠ .none) ∧ (s.errKind ≠ .ioError → s.ioErr = 0)

/-- The buffers are in canonical form and inside their sizes; `OBUF` holds a value at exactly the addresses below
`OLEN` (R37, R38). -/
def State.BuffersWf (s : State) : Prop :=
  Memory.wf s.ibuf ∧ Memory.wf s.obuf ∧ (∀ a, s.params.bufCap ≤ a → Memory.get s.ibuf a = none) ∧
    (∀ a, (Memory.get s.obuf a).isSome = true ↔ a < s.olen.toNat) ∧ s.olen.toNat ≤ s.params.obufCap

/-- Outside `RUN` nothing of a running command is left (R34, R35). -/
def State.Quiet (s : State) : Prop :=
  s.scratch = Ctx.empty ∧ s.srcOpen = false ∧ s.dstOpen = false ∧ s.job = none

/-- The open flags of a running command are those its outstanding request implies (R35, `43_streaming.md` R184, R185,
R189): none open before `OPEN_RD` is answered and in a handle command, the source before `CREATE_TRUNC` is answered,
both while copying, at most the source once a `CLOSE` is outstanding. -/
def Job.OpenFlags (j : Job) (src dst : Bool) : Prop :=
  match j.shape, j.await with
  | .path, .openRd => src = false ∧ dst = false
  | .path, .createTrunc => src = true ∧ dst = false
  | .path, .read | .path, .write => src = true ∧ dst = true
  | .path, .close _ => dst = false
  | .handle, .read | .handle, .write => src = false ∧ dst = false
  | .handle, .openRd | .handle, .createTrunc | .handle, .close _ => False

/-- The scratch context is a CTR transform while the copy goes on (`43_streaming.md` R180). -/
def Job.ScratchOk (j : Job) (c : Ctx) : Prop :=
  match j.await with
  | .read | .write => c.Wf ∧ c.kind = .ctr
  | .openRd | .createTrunc => c = Ctx.empty
  | .close _ => True

/-- While a command runs: results are cleared as acceptance left them, a job is in progress, and its open flags and its
scratch context are as its outstanding request implies. -/
def State.Running (s : State) : Prop :=
  s.err = false ∧ s.rej = false ∧ s.olen = 0 ∧
    ∃ j, s.job = some j ∧ j.OpenFlags s.srcOpen s.dstOpen ∧ j.ScratchOk s.scratch

/-- The invariant of the machine: what the spec says of every state between two inputs of the outside world. -/
def State.Inv (s : State) : Prop :=
  s.ResultsAgree ∧ s.BuffersWf ∧ s.ctx.Wf ∧ (s.phase = .run → s.Running) ∧ (s.phase ≠ .run → s.Quiet) ∧
    (s.phase = .fatal → s.err = false ∧ s.olen = 0)

/-! ## The rules as pure functions, for claims about results -/

/-- `CbcEncBlocks` with a total cipher `E`: the output blocks (`41_cbc.md` R141). -/
def chainEnc (E : Block → Block) : Block → List Block → List Block
  | _, [] => []
  | ch, x :: xs => E (xor16 x ch) :: chainEnc E (E (xor16 x ch)) xs

/-- `CbcDecBlocks` with a total inverse cipher `D`: the output blocks (`41_cbc.md` R142). -/
def chainDec (D : Block → Block) : Block → List Block → List Block
  | _, [] => []
  | ch, c :: cs => xor16 (D c) ch :: chainDec D c cs

/-- Byte `t` of the keystream that starts at counter block `cb`: byte `t mod 16` of `E` of the counter block
`t div 16` further on (`42_ctr.md` R161). -/
def keystream (E : Block → Block) (cb : Block) (t : Nat) : Byte :=
  (E (bytes128 ((be128 cb + t / 16) % 2 ^ 128))).list.getD (t % 16) 0

/-- Byte `t` of the keystream a context still has to give: first what is left of the block in use, then the blocks
of its counter (`42_ctr.md` R163). -/
def Ctx.stream (E : Block → Block) (c : Ctx) (t : Nat) : Byte :=
  if c.ksPos + t < 16 then c.ks.list.getD (c.ksPos + t) 0 else keystream E c.ctr (c.ksPos + t - 16)

/-- The context after `T` bytes (`42_ctr.md` R164): `q` new blocks were needed. -/
def Ctx.advanced (E : Block → Block) (c : Ctx) (T : Nat) : Ctx :=
  let q := (c.ksPos + T - 16 + 15) / 16
  if q = 0 then { c with ksPos := c.ksPos + T }
  else
    { c with
      ctr := bytes128 ((be128 c.ctr + q) % 2 ^ 128)
      ks := E (bytes128 ((be128 c.ctr + (q - 1)) % 2 ^ 128))
      ksPos := c.ksPos + T - 16 * q }

/-- A byte sequence XORed with the keystream from position `off` on. -/
def xorStream (ks : Nat → Byte) : Nat → List Byte → List Byte
  | _, [] => []
  | off, d :: ds => (d ^^^ ks off) :: xorStream ks (off + 1) ds

/-- The stream-port requests of a copy of the chunks `ds` up to the end of the source: per chunk a `READ` and a
`WRITE` of the transformed bytes, and the last `READ` (`43_streaming.md` R176). -/
def copyRequests (src dst : Word) (max : Nat) (ks : Nat → Byte) : Nat → List (List Byte) → List StreamReq
  | _, [] => [.read src max]
  | off, d :: ds => .read src max :: .write dst (xorStream ks off d) :: copyRequests src dst max ks (off + d.length) ds

/-- The service's answers to the good chunks `ds`: the data of each `READ`, `ok` to each `WRITE`. -/
def goodChunks (ds : List (List Byte)) : List StreamAnswer := ds.flatMap fun d => [.data d, .ok]

/-- The stream-port requests among the events. -/
def requests (ev : List Event) : List StreamReq :=
  ev.filterMap fun | .request r => some r | .answer _ | .prim _ _ _ _ | .hostRead _ _ _ => none

/-- The bytes handed to the sink. -/
def written (ev : List Event) : List Byte :=
  (requests ev).flatMap fun | .write _ d => d | .openRd _ | .createTrunc _ | .read _ _ | .close _ => []

/-- The cipher of the machine at hand under the key operand, `BC_ENC(k, ·)`. -/
def State.encK (s : State) : Block → Block := blockCipher Config.machine .enc s.keyOperand

/-- `BC_DEC(k, ·)` of the machine at hand under the key operand. -/
def State.decK (s : State) : Block → Block := blockCipher Config.machine .dec s.keyOperand

/-- `IBUF[0 : ILEN]` of the machine at hand. -/
def State.inputBytes (s : State) : List Byte := s.input Config.machine

/-- The keystream of the operands, `KSTREAM(k, IV_eff)` (`42_ctr.md` R161). -/
def State.operandStream (s : State) : Nat → Byte := keystream s.encK s.ivOperand

/-- A memory that holds exactly the bytes of a sequence, from address 0 on. -/
def Memory.HoldsExactly (m : Memory) (bs : List Byte) : Prop := ∀ a, Memory.get m a = bs[a]?

/-- The state with an input buffer loaded: `IBUF[0 : len(x)] = x`, `ILEN = len(x)`. -/
def State.withInput (s : State) (x : List Byte) : State :=
  { s with ibuf := Memory.ofBytes 0 x, ilen := BitVec.ofNat 32 x.length }

/-! ## Hypotheses and conclusions of claims -/

/-- `KLEN` and `IVLEN` are legal (`40_validator_padding.md` R120, R121). -/
def State.Validates (s : State) : Prop := keyLengthLegal s.klen = true ∧ ivLengthLegal s.ivlen = true

/-- `ILEN ≤ BUF_CAP` (`44_system.md` R201). -/
def State.InRange (s : State) : Prop := s.ilen.toNat ≤ s.params.bufCap

/-- A command has ended with success: the result flags are clear and nothing of it is left (`60_exceptions.md` R224). -/
def State.Succeeded (t : State) : Prop :=
  t.phase = .idle ∧ t.err = false ∧ t.rej = false ∧ t.rejCause = .none ∧ t.errKind = .none ∧ t.ioWhere = .none ∧
    t.ioErr = 0 ∧ t.scratch = Ctx.empty ∧ t.job = none

/-- A command has ended with a typed error (`60_exceptions.md` R225): no byte of `OBUF` is a result. -/
def State.Raised (t : State) (e : TypedError) : Prop :=
  t.phase = .idle ∧ t.err = true ∧ t.rej = false ∧ t.rejCause = .none ∧ t.errKind = e.kind ∧ t.ioWhere = e.ioWhere ∧
    t.ioErr = e.ioCode ∧ t.olen = 0 ∧ t.obuf = [] ∧ t.scratch = Ctx.empty ∧ t.job = none

/-- A command has ended in FATAL (`60_exceptions.md` R221). -/
def State.WentFatal (t : State) : Prop :=
  t.phase = .fatal ∧ t.err = false ∧ t.rej = false ∧ t.errKind = .none ∧ t.ioWhere = .none ∧ t.ioErr = 0 ∧ t.olen = 0 ∧
    t.obuf = [] ∧ t.scratch = Ctx.empty ∧ t.job = none

/-- What no buffer, INIT or `CTX_DROP` command changes: operands, `IBUF`, the open flags, the stream port, the
inputs. -/
def SameAround (s t : State) : Prop :=
  SameOperands s t ∧ t.srcOpen = s.srcOpen ∧ t.dstOpen = s.dstOpen ∧ t.inputs = s.inputs ∧ t.answers = s.answers

/-- The events of `n` requests on the primitive port, all answered `ok`, in one direction and under one key. -/
def PrimEvents (C : Config) (n : Nat) (dir : Dir) (k : List Byte) (ev : List Event) : Prop :=
  ev.length = n ∧ ∀ e ∈ ev, ∃ b, e = .prim dir k b (.ok (blockCipher C dir k b))

/-- `n` steps lead from `s` to `t`, none of them a fault or a refusal. -/
def StepsTo : Nat → State → State → Prop
  | 0, s, t => t = s
  | n + 1, s, t => ∃ u, step s = .next u ∧ StepsTo n u t

/-- A running command goes on, one batch of the service's answers a step, from `s` to `t`. -/
def AfterAnswers : List (List StreamAnswer) → State → State → Prop
  | [], s, t => t = s
  | as :: batches, s, t =>
    s.phase = .run ∧ ∃ u, step { s with inputs := [.serviceAnswers as] } = .next u ∧ AfterAnswers batches u t

/-- An outcome with its next state changed by `f`. -/
def mapNext (f : State → State) : Result → Result
  | .next t => .next (f t)
  | .fault e => .fault e
  | .refused r => .refused r

/-- The acceptance checks of `44_system.md` R201 as its table lists them; the first that fails decides the cause. -/
def firstRejection (s : State) (w : Word) : Option RejCause :=
  let f := CommandFields.ofWord w
  if s.phase = .fatal then some .fatalState
  else if ¬ (0x01#8 ≤ f.opc ∧ f.opc ≤ 0x0B#8) then some .illegalOpcode
  else if f.rsv ≠ 0#23 ∨ (f.dir = true ∧ f.opc ≠ 0x03#8) then some .reservedBits
  else if f.opc ∈ [0x01#8, 0x02#8, 0x04#8, 0x06#8] ∧ s.params.bufCap < s.ilen.toNat then some .lenRange
  else if f.opc = 0x04#8 ∧ s.ctx.kind ∉ [CtxKind.cbcE, CtxKind.cbcD] then some .noContext
  else if f.opc = 0x06#8 ∧ s.ctx.kind ≠ .ctr then some .noContext
  else if f.opc = 0x04#8 ∧ s.ilen.toNat % 16 ≠ 0 then some .notFullBlocks
  else none

/-- `CTR_XOR` on the pieces `ds` one after another leads from `s` to `t`, all of them with success, and the results
joined are `out`. -/
def XorPieces : State → List (List Byte) → List Byte → State → Prop
  | s, [], out, t => out = [] ∧ t = s
  | s, d :: ds, out, t => ∃ u e rest, exec .ctrXor (s.withInput d) = .next u ∧ u.Succeeded ∧ u.obuf.HoldsExactly e ∧
      u.olen.toNat = e.length ∧ XorPieces u ds rest t ∧ out = e ++ rest

/-- The commands that read `IBUF` and write `OBUF` (`20_memory.md` R60). -/
def IsBuffer (i : Instr) : Prop := i ∈ [Instr.cbcEnc, .cbcDec, .cbcBlocks, .ctrXor]

/-- The streaming commands (`43_streaming.md` R175). -/
def IsStreaming (i : Instr) : Prop := i ∈ [Instr.ctrEncPath, .ctrDecPath, .ctrEncStrm, .ctrDecStrm]

/-- The path commands. -/
def IsPath (i : Instr) : Prop := i ∈ [Instr.ctrEncPath, .ctrDecPath]

/-- The handle commands. -/
def IsHandle (i : Instr) : Prop := i ∈ [Instr.ctrEncStrm, .ctrDecStrm]

/-- Chunks as `READ` may deliver them (`20_memory.md` R74). -/
def LegalChunks (P : Params) (ds : List (List Byte)) : Prop := ∀ d ∈ ds, 1 ≤ d.length ∧ d.length ≤ P.chunk

/-- The answers `20_memory.md` R74 lists for the outstanding request. -/
def Await.Admits (P : Params) (w : Await) (a : StreamAnswer) : Prop :=
  match w with
  | .openRd | .createTrunc | .write => a = .ok ∨ ∃ c, a = .ioerr c
  | .read => (∃ d, a = .data d ∧ 1 ≤ d.length ∧ d.length ≤ P.chunk) ∨ a = .eof ∨ ∃ c, a = .ioerr c
  | .close _ => a = .ack

/-- The events of the primitive port. -/
def primEvents (ev : List Event) : List Event :=
  ev.filter fun | .prim _ _ _ _ => true | .request _ | .answer _ | .hostRead _ _ _ => false

/-- A streaming command has ended: its requests were `reqs`, the service's answers `more` were left over; operands,
`CTX`, inputs are as before, no handle is open, `OLEN` is 0 (`43_streaming.md` R179, R180, R186). -/
def StreamEnd (s t : State) (reqs : List StreamReq) (more : List StreamAnswer) : Prop :=
  SameOperands s t ∧ t.ctx = s.ctx ∧ t.inputs = s.inputs ∧ t.answers = more ∧ t.draws = s.draws ∧ t.srcOpen = false ∧
    t.dstOpen = false ∧ t.olen = 0 ∧ t.obuf = [] ∧ ∃ ev, t.log = s.log ++ ev ∧ requests ev = reqs

/-- The events of a path command begin with the source opened. -/
def OpenedSrc (s : State) (ev : List Event) : Prop := [.request (.openRd s.srcId), .answer .ok] <+: ev

/-- The events of a path command begin with both opened. -/
def OpenedDst (s : State) (ev : List Event) : Prop :=
  [.request (.openRd s.srcId), .answer .ok, .request (.createTrunc s.dstId), .answer .ok] <+: ev

/-- A host write of a register. -/
def regWriteInput (off : Nat) (v : Word) : Input := .access { place := .reg off, width := 4, data := some v }

/-- A host read of a register. -/
def regReadInput (off : Nat) : Input := .access { place := .reg off, width := 4, data := none }

/-- The next input is a reset: the hardware reset input, or a host write of `CTRL` with bit 0 set, at its register offset
or at its platform address (`10_state.md` R42). -/
def TakesReset (s : State) : Prop :=
  ∃ rest, s.inputs = .hardwareReset :: rest ∨
    ∃ p v, s.inputs = .access { place := p, width := 4, data := some v } :: rest ∧ v.getLsbD 0 = true ∧
      (p = .reg 0x010 ∨ ∃ addr, p = .platform addr ∧ locate s.params addr = some (.reg 0x010))

/-- The offsets of the registers that store what is written: `KLEN`, `IVLEN`, `ILEN`, `SRC_ID`, `DST_ID`, `KEY`, `IV`
(`10_state.md` R39). -/
def operandOffsets : List Nat :=
  [0x014, 0x018, 0x01C, 0x024, 0x028, 0x040, 0x044, 0x048, 0x04C, 0x050, 0x054, 0x058, 0x05C, 0x060, 0x064, 0x068, 0x06C]

/-- The offsets of the registers a host write changes nothing in: `ERRKIND`, `IOERR`, `OLEN`, `VERSION`, `DEFIV`, and the
reserved offsets (`10_state.md` R39). -/
def ignoredOffset (off : Nat) : Prop :=
  off % 4 = 0 ∧ (off = 0x008 ∨ off = 0x00C ∨ off = 0x020 ∨ (0x02C ≤ off ∧ off ≤ 0x03C) ∨ (0x070 ≤ off ∧ off ≤ 0x0FC))

end Sys2Proof.Machine
end

