-- ==== Sys2Proof/Certificates/Slice0/Obligations.lean ====
section
/-! DEFINITION. The statements about the model, from the numbered rules of spec/. -/

open Sys2Proof Sys2Proof.Machine

/-! ## Encoding -/

/-- `30_encoding.md` R93: the table; a word is the command of a row exactly when `w & mask = match`; the rows do not
overlap; the two words of `CBC_INIT`. -/
def Obligations.OpcodeTableRows : Prop :=
  (∀ r ∈ [(Instr.cbcEnc, 0x01#8, 0x00000001#32, 0xFFFFFFFF#32), (.cbcDec, 0x02#8, 0x00000002#32, 0xFFFFFFFF#32),
      (.cbcInit false, 0x03#8, 0x00000003#32, 0xFFFFFEFF#32), (.cbcInit true, 0x03#8, 0x00000003#32, 0xFFFFFEFF#32),
      (.cbcBlocks, 0x04#8, 0x00000004#32, 0xFFFFFFFF#32), (.ctrInit, 0x05#8, 0x00000005#32, 0xFFFFFFFF#32),
      (.ctrXor, 0x06#8, 0x00000006#32, 0xFFFFFFFF#32), (.ctxDrop, 0x07#8, 0x00000007#32, 0xFFFFFFFF#32),
      (.ctrEncPath, 0x08#8, 0x00000008#32, 0xFFFFFFFF#32), (.ctrDecPath, 0x09#8, 0x00000009#32, 0xFFFFFFFF#32),
      (.ctrEncStrm, 0x0A#8, 0x0000000A#32, 0xFFFFFFFF#32), (.ctrDecStrm, 0x0B#8, 0x0000000B#32, 0xFFFFFFFF#32)],
    r.1.opcode = r.2.1 ∧ r.1.rowMatch = r.2.2.1 ∧ r.1.rowMask = r.2.2.2) ∧
  (∀ (w : Word) (i : Instr), w &&& i.rowMask = i.rowMatch ↔ ∃ j, decode w = .ok j ∧ j.opcode = i.opcode) ∧
  (∀ (w : Word) (i j : Instr), w &&& i.rowMask = i.rowMatch → w &&& j.rowMask = j.rowMatch → i.opcode = j.opcode) ∧
  decode 0x00000003#32 = .ok (.cbcInit false) ∧ decode 0x00000103#32 = .ok (.cbcInit true)

/-- Decode and encode agree in both directions: every word has one reading, every command one word. -/
def Obligations.DecodeInvertsEncode : Prop :=
  ∀ (w : Word) (i : Instr), decode w = .ok i ↔ w = encode i

/-- `30_encoding.md` R91: decoding is total, its three outcomes in order, and what the machine does with each. -/
def Obligations.DecodeThreeOutcomes : Prop :=
  ∀ (s : State) (w : Word) (rest : List Input), s.phase = .idle → s.inputs = commandInput w :: rest →
    let f := CommandFields.ofWord w
    let t := { s with inputs := rest }
    (f.opc ∉ [0x01#8, 0x02#8, 0x03#8, 0x04#8, 0x05#8, 0x06#8, 0x07#8, 0x08#8, 0x09#8, 0x0A#8, 0x0B#8] →
      step s = .next (reject .illegalOpcode t)) ∧
    (f.opc ∈ [0x01#8, 0x02#8, 0x03#8, 0x04#8, 0x05#8, 0x06#8, 0x07#8, 0x08#8, 0x09#8, 0x0A#8, 0x0B#8] →
      (f.rsv ≠ 0#23 ∨ (f.dir = true ∧ f.opc ≠ 0x03#8)) → step s = .next (reject .reservedBits t)) ∧
    (f.opc ∈ [0x01#8, 0x02#8, 0x03#8, 0x04#8, 0x05#8, 0x06#8, 0x07#8, 0x08#8, 0x09#8, 0x0A#8, 0x0B#8] →
      ¬ (f.rsv ≠ 0#23 ∨ (f.dir = true ∧ f.opc ≠ 0x03#8)) →
      ∃ i : Instr, i.opcode = f.opc ∧ (f.opc = 0x03#8 → i = .cbcInit f.dir) ∧ step s = exec i t)

/-- The words of the table, written out, and a few that spell no command. -/
def Obligations.DecodesWrittenWords : Prop :=
  decode 0x00000001#32 = .ok .cbcEnc ∧ decode 0x00000103#32 = .ok (.cbcInit true) ∧
    decode 0x00000006#32 = .ok .ctrXor ∧ decode 0x00000007#32 = .ok .ctxDrop ∧ decode 0x00000009#32 = .ok .ctrDecPath ∧
    decode 0x0000000A#32 = .ok .ctrEncStrm ∧ decode 0x00000000#32 = .error .illegalOpcode ∧
    decode 0x0000000C#32 = .error .illegalOpcode ∧ decode 0x00000101#32 = .error .reservedBits ∧
    decode 0x00000203#32 = .error .reservedBits ∧ decode 0x8000000C#32 = .error .illegalOpcode

/-! ## Acceptance -/

/-- A step that takes a well-formed command word runs the command it spells, with the word taken off the inputs; in
FATAL it is rejected. `withFetchWord` places a word where the next step takes it (log 1, log 15: the model's own). -/
def Obligations.StepRunsDecodedCommand : Prop :=
  (∀ (s : State) (w : Word) (i : Instr) (rest : List Input), decode w = .ok i → s.inputs = commandInput w :: rest →
    (s.phase = .idle → step s = exec i { s with inputs := rest }) ∧
    (s.phase = .fatal → step s = .next (reject .fatalState { s with inputs := rest }))) ∧
  (∀ (s : State) (w : Nat) (i : Instr), decodeTableWord 32 w = some i → s.phase = .idle →
    step (s.withFetchWord 32 w) = exec i s)

/-- `44_system.md` R201: the acceptance checks, in their order; a word that passes them all is accepted: the rejection
flags are clear after it. -/
def Obligations.AcceptanceOrder : Prop :=
  ∀ (s : State) (w : Word) (rest : List Input), s.phase ≠ .run → s.inputs = commandInput w :: rest →
    (∀ c, firstRejection s w = some c → step s = .next (reject c { s with inputs := rest })) ∧
    (firstRejection s w = none → ∃ i, decode w = .ok i ∧ step s = exec i { s with inputs := rest } ∧
      ∀ t, step s = .next t → t.rej = false ∧ t.rejCause = .none)

/-- `60_exceptions.md` R227: a rejected command word changes nothing but `STATUS.REJ` and `STATUS.REJCAUSE`, and issues
no request. -/
def Obligations.RejectionChangesNothingElse : Prop :=
  ∀ (i : Instr) (s t : State), exec i s = .next t → t.rej = true →
    t = { s with rej := true, rejCause := t.rejCause } ∧ t.rejCause ≠ .none

/-- The acceptance effects, seen on a path command whose first request is not answered yet: it waits in `RUN` with the
result registers cleared and nothing else changed but its own request. -/
def Obligations.PathCommandWaitsAfterAcceptance : Prop :=
  ∀ (s : State) (r : Instr × Dir), r ∈ [(Instr.ctrEncPath, Dir.enc), (.ctrDecPath, .dec)] → s.phase = .idle → s.answers = [] →
    exec r.1 s = .next
      { s with
        phase := .run, err := false, rej := false, rejCause := .none, errKind := .none, ioWhere := .none, ioErr := 0,
        olen := 0, obuf := [], job := some ⟨.path, r.2, .openRd⟩, log := s.log ++ [.request (.openRd s.srcId)] }

/-- When the model refuses a command, and that no command faults: exactly while another runs, where source and sink are
one object and it would be used a second time (`43_streaming.md` R194), and where after some of the answers in store the
command waits on a request to which `20_memory.md` R74 does not list the next one. The refusals are the model's choice,
log 9, log 10, log 12. -/
def Obligations.RefusalsOfCommands : Prop :=
  ∀ (i : Instr) (s : State), (∀ f, exec i s ≠ .fault f) ∧
    ∀ r, exec i s = .refused r ↔
      (r = .accessWhileRunning ∧ s.phase = .run) ∨
      (r = .sameStreamObject ∧ s.phase = .idle ∧ s.srcId = s.dstId ∧
        ((IsPath i ∧ ∃ more, s.answers = .ok :: more) ∨ (IsHandle i ∧ s.Validates))) ∨
      (r = .badServiceAnswer ∧ IsStreaming i ∧ ∃ used a more u j, s.answers = used ++ a :: more ∧
        exec i { s with answers := used } = .next u ∧ u.phase = .run ∧ u.job = some j ∧
        ¬ j.await.Admits s.params a)

/-! ## The validator -/

/-- `40_validator_padding.md` R120: a key length other than 16, 24 and 32 is `InvalidKeyLength`, in every command that
takes a key, whatever `KEY` and `IVLEN` hold, and no request is made on the primitive port. -/
def Obligations.InvalidKeyLengthRaised : Prop :=
  ∀ (s : State), s.phase = .idle → s.Quiet → s.klen ≠ 16#32 → s.klen ≠ 24#32 → s.klen ≠ 32#32 →
    (∀ i, i ∈ [Instr.cbcEnc, .cbcDec] → s.InRange → ∃ t, exec i s = .next t ∧ t.Raised .invalidKeyLength ∧
      SameAround s t ∧ t.ctx = s.ctx ∧ t.log = s.log ∧ t.primPlan = s.primPlan) ∧
    (∀ i, i ∈ [Instr.cbcInit true, .cbcInit false, .ctrInit] → ∃ t, exec i s = .next t ∧ t.Raised .invalidKeyLength ∧
      SameAround s t ∧ t.ctx = Ctx.empty ∧ t.log = s.log ∧ t.primPlan = s.primPlan) ∧
    (∀ i, IsHandle i → ∃ t, exec i s = .next t ∧ t.Raised .invalidKeyLength ∧
      SameAround s t ∧ t.ctx = s.ctx ∧ t.log = s.log ∧ t.primPlan = s.primPlan) ∧
    (∀ i more, IsPath i → s.srcId ≠ s.dstId → s.answers = [.ok, .ok, .ack, .ack] ++ more →
      ∃ t, exec i s = .next t ∧ t.Raised .invalidKeyLength ∧ t.primPlan = s.primPlan ∧
        StreamEnd s t [.openRd s.srcId, .createTrunc s.dstId, .close s.dstId, .close s.srcId] more)

/-- `40_validator_padding.md` R121 with the order of R123: with a legal key length, an IV length other than 0 and 16 is
`InvalidIVLength`. -/
def Obligations.InvalidIvLengthRaised : Prop :=
  ∀ (s : State), s.phase = .idle → s.Quiet → keyLengthLegal s.klen = true → s.ivlen ≠ 0#32 → s.ivlen ≠ 16#32 →
    (∀ i, i ∈ [Instr.cbcEnc, .cbcDec] → s.InRange → ∃ t, exec i s = .next t ∧ t.Raised .invalidIvLength ∧
      SameAround s t ∧ t.ctx = s.ctx ∧ t.log = s.log ∧ t.primPlan = s.primPlan) ∧
    (∀ i, i ∈ [Instr.cbcInit true, .cbcInit false, .ctrInit] → ∃ t, exec i s = .next t ∧ t.Raised .invalidIvLength ∧
      SameAround s t ∧ t.ctx = Ctx.empty ∧ t.log = s.log ∧ t.primPlan = s.primPlan) ∧
    (∀ i, IsHandle i → ∃ t, exec i s = .next t ∧ t.Raised .invalidIvLength ∧
      SameAround s t ∧ t.ctx = s.ctx ∧ t.log = s.log ∧ t.primPlan = s.primPlan) ∧
    (∀ i more, IsPath i → s.srcId ≠ s.dstId → s.answers = [.ok, .ok, .ack, .ack] ++ more →
      ∃ t, exec i s = .next t ∧ t.Raised .invalidIvLength ∧ t.primPlan = s.primPlan ∧
        StreamEnd s t [.openRd s.srcId, .createTrunc s.dstId, .close s.dstId, .close s.srcId] more)

/-- `40_validator_padding.md` R122: with `IVLEN = 0` the contents of `IV` do not matter, and the command does what it
does with `IVLEN = 16` and `DEFAULT_IV` in `IV`. -/
def Obligations.EmptyIvSelectsDefault : Prop :=
  ∀ (i : Instr) (s : State) (v : Block), s.ivlen = 0#32 →
    exec i { s with iv := v } = mapNext (fun t => { t with iv := v }) (exec i s) ∧
    exec i { s with iv := s.params.defaultIv, ivlen := 16#32 } =
      mapNext (fun t => { t with iv := s.params.defaultIv, ivlen := 16#32 }) (exec i s)

/-! ## The padding codec -/

/-- `40_validator_padding.md` R124 to R127: what `Pad` appends, the laws of its length and of its last byte, and that
`Unpad` looks at the last byte alone. -/
def Obligations.PaddingCodec : Prop :=
  (∀ b : List Byte,
    pad b = b ++ List.replicate (16 - b.length % 16) (BitVec.ofNat 8 (16 - b.length % 16)) ∧
    (pad b).length = 16 * (b.length / 16 + 1) ∧
    (pad b).getLast? = some (BitVec.ofNat 8 (16 - b.length % 16)) ∧ 1 ≤ 16 - b.length % 16 ∧ 16 - b.length % 16 ≤ 16) ∧
  (∀ (b : List Byte) (n : Byte),
    (b.length + 1 < n.toNat → unpad (b ++ [n]) = .paddingError) ∧
    (n.toNat ≤ b.length + 1 → unpad (b ++ [n]) = .ok ((b ++ [n]).take (b.length + 1 - n.toNat))))

/-- `40_validator_padding.md` R129: `Unpad` undoes `Pad`, and not conversely. -/
def Obligations.UnpadUndoesPad : Prop :=
  (∀ b : List Byte, unpad (pad b) = .ok b) ∧ ∃ b c : List Byte, unpad b = .ok c ∧ pad c ≠ b

/-! ## CBC -/

/-- `CBC_ENC` (`41_cbc.md` R144): with legal lengths and a primitive that does not fault it ends with success, and the
result is the chained encryption of the padded input, one primitive request a block. -/
def Obligations.CbcEncEncrypts : Prop :=
  ∀ (s : State), s.phase = .idle → s.Validates → s.InRange → PrimNeverFaults s →
    let pp := pad s.inputBytes
    let c := ofBlocks (chainEnc s.encK s.ivOperand (toBlocks (pp.length / 16) pp))
    ∃ t ev, exec .cbcEnc s = .next t ∧ t.Succeeded ∧ SameAround s t ∧ t.ctx = s.ctx ∧ t.obuf.HoldsExactly c ∧
      t.olen.toNat = c.length ∧ c.length = 16 * (s.ilen.toNat / 16 + 1) ∧ t.log = s.log ++ ev ∧
      PrimEvents Config.machine (s.ilen.toNat / 16 + 1) .enc s.keyOperand ev

/-- `CBC_DEC` (`41_cbc.md` R146): where the last decrypted byte does not exceed the length it ends with success, and the
result is the chained decryption less that many bytes. -/
def Obligations.CbcDecDecrypts : Prop :=
  ∀ (s : State) (n : Byte), s.phase = .idle → s.Validates → s.InRange → PrimNeverFaults s → s.ilen.toNat % 16 = 0 →
    let pp := ofBlocks (chainDec s.decK s.ivOperand (toBlocks (s.ilen.toNat / 16) s.inputBytes))
    pp.getLast? = some n → n.toNat ≤ s.ilen.toNat →
    ∃ t ev, exec .cbcDec s = .next t ∧ t.Succeeded ∧ SameAround s t ∧ t.ctx = s.ctx ∧
      t.obuf.HoldsExactly (pp.take (s.ilen.toNat - n.toNat)) ∧ t.olen.toNat = s.ilen.toNat - n.toNat ∧
      t.log = s.log ++ ev ∧ PrimEvents Config.machine (s.ilen.toNat / 16) .dec s.keyOperand ev

/-- `41_cbc.md` R147: which malformed input gives which outcome, with legal key and IV lengths: the first two rows
whatever the primitive would answer, as they make no request, the last two with a primitive that does not fault. -/
def Obligations.CbcDecOutcomes : Prop :=
  ∀ (s : State), s.phase = .idle → s.Validates → s.InRange →
    let pp := ofBlocks (chainDec s.decK s.ivOperand (toBlocks (s.ilen.toNat / 16) s.inputBytes))
    (s.ilen.toNat % 16 ≠ 0 → ∃ t, exec .cbcDec s = .next t ∧ t.Raised .cipherKeyError ∧ SameAround s t ∧
      t.ctx = s.ctx ∧ t.log = s.log ∧ t.primPlan = s.primPlan) ∧
    (s.ilen = 0 → ∃ t, exec .cbcDec s = .next t ∧ t.Raised (faultError s.params.kindEmptyCt) ∧ SameAround s t ∧
      t.ctx = s.ctx ∧ t.log = s.log ∧ t.primPlan = s.primPlan) ∧
    (∀ n, PrimNeverFaults s → 16 ≤ s.ilen.toNat → s.ilen.toNat % 16 = 0 → pp.getLast? = some n →
      (s.ilen.toNat < n.toNat → ∃ t, exec .cbcDec s = .next t ∧ t.Raised .paddingError ∧ SameAround s t ∧
        t.ctx = s.ctx) ∧
      (n.toNat ≤ s.ilen.toNat → ∃ t, exec .cbcDec s = .next t ∧ t.Succeeded ∧ SameAround s t ∧
        t.ctx = s.ctx ∧ t.olen.toNat = s.ilen.toNat - n.toNat))

/-- `41_cbc.md` R149: `CBC_ENC` and then `CBC_DEC` on its output give back the input, for every input whose padding
fits `IBUF`, the empty one included. -/
def Obligations.CbcRoundTrip : Prop :=
  ∀ (s : State), s.phase = .idle → s.Validates → (pad s.inputBytes).length ≤ s.params.bufCap → PrimNeverFaults s →
    ∃ t out, exec .cbcEnc s = .next t ∧ t.Succeeded ∧ t.obuf.HoldsExactly out ∧ t.olen.toNat = out.length ∧
      ∀ m : Memory, (∀ a, a < out.length → Memory.get m a = out[a]?) →
        ∃ u, exec .cbcDec { t with ibuf := m, ilen := t.olen } = .next u ∧ u.Succeeded ∧
          u.obuf.HoldsExactly s.inputBytes ∧ u.olen = s.ilen

/-- `CBC_INIT` (`41_cbc.md` R150) binds the operands, whatever was bound before, and makes no request. -/
def Obligations.CbcInitBinds : Prop :=
  ∀ (s : State) (dir : Bool), s.phase = .idle → s.Validates →
    ∃ t, exec (.cbcInit dir) s = .next t ∧ t.Succeeded ∧ SameAround s t ∧ t.olen = 0 ∧ t.obuf = [] ∧
      t.log = s.log ∧ t.primPlan = s.primPlan ∧ t.draws = s.draws ∧
      t.ctx.kind = (if dir then .cbcE else .cbcD) ∧ t.ctx.klen = s.klen.toNat ∧
      t.ctx.key.list = s.keyOperand ++ List.replicate (32 - s.klen.toNat) 0 ∧ t.ctx.chain = s.ivOperand ∧
      t.ctx.ctr = Bytes.zero 16 ∧ t.ctx.ks = Bytes.zero 16 ∧ t.ctx.ksPos = 0

/-- `70_reset_and_hazards.md` R245: an INIT that ends with a typed error empties the slot whatever was bound, and then
`CBC_BLOCKS` and `CTR_XOR` are rejected with `NO_CONTEXT`. -/
def Obligations.FailedInitEmptiesSlot : Prop :=
  ∀ (s : State) (i : Instr), i ∈ [Instr.cbcInit true, .cbcInit false, .ctrInit] → s.phase = .idle → ¬ s.Validates →
    ∃ t e, exec i s = .next t ∧ t.Raised e ∧ (e = .invalidKeyLength ∨ e = .invalidIvLength) ∧ t.ctx = Ctx.empty ∧
      ∀ u, u.phase = .idle → u.ctx = t.ctx → u.InRange →
        exec .cbcBlocks u = .next (reject .noContext u) ∧ exec .ctrXor u = .next (reject .noContext u)

/-- `CBC_BLOCKS` (`41_cbc.md` R153) with a bound CBC transform, whole blocks and a primitive that does not fault. -/
def Obligations.CbcBlocksTransforms : Prop :=
  ∀ (s : State), s.phase = .idle → s.InRange → (s.ctx.kind = .cbcE ∨ s.ctx.kind = .cbcD) → s.ilen.toNat % 16 = 0 →
    PrimNeverFaults s →
    let x := toBlocks (s.ilen.toNat / 16) s.inputBytes
    let E := blockCipher Config.machine .enc s.ctx.boundKey
    let D := blockCipher Config.machine .dec s.ctx.boundKey
    let y := if s.ctx.kind = .cbcE then chainEnc E s.ctx.chain x else chainDec D s.ctx.chain x
    let ch := if s.ctx.kind = .cbcE then y.getLastD s.ctx.chain else x.getLastD s.ctx.chain
    ∃ t ev, exec .cbcBlocks s = .next t ∧ t.Succeeded ∧ SameAround s t ∧ t.ctx = { s.ctx with chain := ch } ∧
      t.obuf.HoldsExactly (ofBlocks y) ∧ t.olen = s.ilen ∧ t.log = s.log ++ ev ∧
      PrimEvents Config.machine (s.ilen.toNat / 16) (if s.ctx.kind = .cbcE then .enc else .dec) s.ctx.boundKey ev

/-- `41_cbc.md` R154 (b): a buffer transformed in two parts cut at a block boundary gives the bytes of one command, in
either direction, and leaves the same context. -/
def Obligations.CbcBlocksSplits : Prop :=
  ∀ (s : State) (x₁ x₂ : List Byte), s.phase = .idle → (s.ctx.kind = .cbcE ∨ s.ctx.kind = .cbcD) → PrimNeverFaults s →
    x₁.length % 16 = 0 → x₂.length % 16 = 0 → x₁.length + x₂.length ≤ s.params.bufCap →
    ∃ t t₁ t₂ y₁ y₂, exec .cbcBlocks (s.withInput (x₁ ++ x₂)) = .next t ∧ exec .cbcBlocks (s.withInput x₁) = .next t₁ ∧
      exec .cbcBlocks (t₁.withInput x₂) = .next t₂ ∧ t.Succeeded ∧ t₁.Succeeded ∧ t₂.Succeeded ∧
      t₁.obuf.HoldsExactly y₁ ∧ t₂.obuf.HoldsExactly y₂ ∧ t.obuf.HoldsExactly (y₁ ++ y₂) ∧
      t₁.olen.toNat = x₁.length ∧ t₂.olen.toNat = x₂.length ∧ t₂.ctx = t.ctx

/-- `41_cbc.md` R155: the building block and the one-shot commands give the same, in both directions, for every plaintext
whose padding fits `IBUF`, as `CBC_BLOCKS` reads it there, and every ciphertext. -/
def Obligations.BuildingBlockAgreesWithOneShot : Prop :=
  ∀ (s : State), s.phase = .idle → s.Validates → PrimNeverFaults s →
    (∀ p : List Byte, (pad p).length ≤ s.params.bufCap →
      ∃ t a b c, exec .cbcEnc (s.withInput p) = .next t ∧ exec (.cbcInit true) s = .next a ∧
        exec .cbcBlocks (a.withInput (pad p)) = .next b ∧ t.Succeeded ∧ b.Succeeded ∧ t.obuf.HoldsExactly c ∧
        b.obuf.HoldsExactly c ∧ t.olen = b.olen) ∧
    (∀ c : List Byte, c.length ≤ s.params.bufCap → 0 < c.length → c.length % 16 = 0 →
      ∃ t a b pp, exec .cbcDec (s.withInput c) = .next t ∧ exec (.cbcInit false) s = .next a ∧
        exec .cbcBlocks (a.withInput c) = .next b ∧ b.Succeeded ∧ b.obuf.HoldsExactly pp ∧ pp.length = c.length ∧
        (∀ q, unpad pp = .ok q → t.Succeeded ∧ t.obuf.HoldsExactly q ∧ t.olen.toNat = q.length) ∧
        (t.Raised .paddingError ↔ ∃ n, pp.getLast? = some n ∧ pp.length < n.toNat))

/-! ## CTR -/

/-- `42_ctr.md` R162, which the spec marks as general knowledge: the counter increment, as a number and bytewise: a byte changes by one exactly when all bytes after
it wrap. -/
def Obligations.CounterIncrement : Prop :=
  ∀ cb : Block, be128 (inc128 cb) = (be128 cb + 1) % 2 ^ 128 ∧ bytes128 (be128 (inc128 cb)) = inc128 cb ∧
    ∀ i, i < 16 → (inc128 cb).list[i]? =
      cb.list[i]?.map fun x => if (cb.list.drop (i + 1)).all (· == 0xFF#8) then x + 1#8 else x

/-- `CTR_INIT` (`42_ctr.md` R165) binds the operands: the whole IV is the first counter block, no keystream byte is
available, and no request is made. -/
def Obligations.CtrInitBinds : Prop :=
  ∀ (s : State), s.phase = .idle → s.Validates →
    ∃ t, exec .ctrInit s = .next t ∧ t.Succeeded ∧ SameAround s t ∧ t.olen = 0 ∧ t.obuf = [] ∧
      t.log = s.log ∧ t.primPlan = s.primPlan ∧ t.draws = s.draws ∧
      t.ctx.kind = .ctr ∧ t.ctx.klen = s.klen.toNat ∧
      t.ctx.key.list = s.keyOperand ++ List.replicate (32 - s.klen.toNat) 0 ∧ t.ctx.ctr = s.ivOperand ∧
      t.ctx.chain = Bytes.zero 16 ∧ t.ctx.ks = Bytes.zero 16 ∧ t.ctx.ksPos = 16

/-- `CTR_XOR` (`42_ctr.md` R168) with a bound CTR transform and a primitive that does not fault: the input XORed with
the stream of the context, which ends that many bytes further on; a block is asked for only when its first byte is
needed. -/
def Obligations.CtrXorTransforms : Prop :=
  ∀ (s : State), s.phase = .idle → s.InRange → s.ctx.kind = .ctr → s.ctx.ksPos ≤ 16 → PrimNeverFaults s →
    let E := blockCipher Config.machine .enc s.ctx.boundKey
    ∃ t ev, exec .ctrXor s = .next t ∧ t.Succeeded ∧ SameAround s t ∧ t.ctx = s.ctx.advanced E s.ilen.toNat ∧
      t.obuf.HoldsExactly (xorStream (s.ctx.stream E) 0 s.inputBytes) ∧ t.olen = s.ilen ∧ t.log = s.log ++ ev ∧
      PrimEvents Config.machine ((s.ctx.ksPos + s.ilen.toNat - 16 + 15) / 16) .enc s.ctx.boundKey ev

/-- `42_ctr.md` R164: after `CTR_INIT`, `CTR_XOR` on any pieces gives their concatenation XORed with the keystream of the
operands, and leaves the context at the position of their total length. -/
def Obligations.CtrPositionLaw : Prop :=
  ∀ (s : State) (ds : List (List Byte)), s.phase = .idle → s.Validates → PrimNeverFaults s →
    (∀ d ∈ ds, d.length ≤ s.params.bufCap) →
    let q := (ds.flatten.length + 15) / 16
    ∃ t u, exec .ctrInit s = .next t ∧ XorPieces t ds (xorStream s.operandStream 0 ds.flatten) u ∧
      (ds.flatten.length = 0 → u.ctx = t.ctx) ∧
      (0 < ds.flatten.length →
        u.ctx = { t.ctx with
          ctr := bytes128 ((be128 s.ivOperand + q) % 2 ^ 128)
          ks := s.encK (bytes128 ((be128 s.ivOperand + (q - 1)) % 2 ^ 128))
          ksPos := ds.flatten.length - 16 * (q - 1) })

/-- `42_ctr.md` R167: the CTR transform is its own inverse after a second `CTR_INIT` with the same operands. -/
def Obligations.CtrSelfInverse : Prop :=
  ∀ (s : State) (p : List Byte), s.phase = .idle → s.Validates → PrimNeverFaults s → p.length ≤ s.params.bufCap →
    ∃ a b c d q, exec .ctrInit s = .next a ∧ exec .ctrXor (a.withInput p) = .next b ∧ b.Succeeded ∧
      b.obuf.HoldsExactly q ∧ q.length = p.length ∧ exec .ctrInit b = .next c ∧ exec .ctrXor (c.withInput q) = .next d ∧
      d.Succeeded ∧ d.obuf.HoldsExactly p ∧ d.olen.toNat = p.length

/-! ## Primitive faults -/

/-- `41_cbc.md` R157, `42_ctr.md` R171: a fault at block `j` stops the command there; `CBC_DEC` classifies it, `CBC_ENC`,
`CBC_BLOCKS` and `CTR_XOR` go FATAL, with `CTX` unchanged. -/
def Obligations.PrimFaultStopsTheCommand : Prop :=
  ∀ (s : State) (j : Nat) (code : Byte) (rest : List PrimAnswer), s.phase = .idle → s.InRange →
    s.primPlan = List.replicate j .ok ++ .fault code :: rest →
    let stopped := fun (t : State) (dir : Dir) (k : List Byte) =>
      SameAround s t ∧ t.ctx = s.ctx ∧ t.primPlan = rest ∧
        ∃ ev b, PrimEvents Config.machine j dir k ev ∧ t.log = s.log ++ ev ++ [.prim dir k b (.fault code)]
    (s.Validates → j < s.ilen.toNat / 16 + 1 →
      ∃ t, exec .cbcEnc s = .next t ∧ t.WentFatal ∧ stopped t .enc s.keyOperand) ∧
    (s.Validates → s.ilen.toNat % 16 = 0 → j < s.ilen.toNat / 16 →
      ∃ t, exec .cbcDec s = .next t ∧ t.Raised (faultError (Config.machine.primKind code)) ∧
        stopped t .dec s.keyOperand) ∧
    (s.ilen.toNat % 16 = 0 → j < s.ilen.toNat / 16 →
      (s.ctx.kind = .cbcE → ∃ t, exec .cbcBlocks s = .next t ∧ t.WentFatal ∧ stopped t .enc s.ctx.boundKey) ∧
      (s.ctx.kind = .cbcD → ∃ t, exec .cbcBlocks s = .next t ∧ t.WentFatal ∧ stopped t .dec s.ctx.boundKey)) ∧
    (s.ctx.kind = .ctr → s.ctx.ksPos ≤ 16 → j < (s.ctx.ksPos + s.ilen.toNat - 16 + 15) / 16 →
      ∃ t, exec .ctrXor s = .next t ∧ t.WentFatal ∧ stopped t .enc s.ctx.boundKey)

/-- `60_exceptions.md` R226: the three decrypt commands never go FATAL, whatever the primitive and the service answer;
neither does a decrypt command that goes on with later answers. -/
def Obligations.DecryptNeverFatal : Prop :=
  (∀ (i : Instr) (s t : State), i ∈ [Instr.cbcDec, .ctrDecPath, .ctrDecStrm] → s.phase = .idle → exec i s = .next t →
    t.phase ≠ .fatal ∧ ∀ j, t.job = some j → s.job = none → j.dir = .dec ∧ j.await ≠ .close .fatal) ∧
  (∀ (s t : State) (j : Job) (as : List StreamAnswer) (rest : List Input), s.phase = .run → s.job = some j →
    j.dir = .dec → j.await ≠ .close .fatal → s.inputs = .serviceAnswers as :: rest → step s = .next t →
    t.phase ≠ .fatal ∧ ∀ j', t.job = some j' → j'.dir = .dec ∧ j'.await ≠ .close .fatal)

/-- `60_exceptions.md` R222: as long as the primitive answers `ok`, FATAL is not entered, and no command that waits is
about to enter it. -/
def Obligations.NoFatalWithoutPrimFault : Prop :=
  ∀ (s t : State), PrimNeverFaults s → (∀ as rest, s.inputs = .primAnswers as :: rest → ∀ a ∈ as, a = PrimAnswer.ok) →
    s.phase ≠ .fatal → (∀ j, s.job = some j → j.await ≠ .close .fatal) → step s = .next t →
    PrimNeverFaults t ∧ t.phase ≠ .fatal ∧ ∀ j, t.job = some j → j.await ≠ .close .fatal

/-- `43_streaming.md` R183: a primitive fault in the copy: the handles of a path command are closed first; a decrypt
command classifies it, an encrypt command goes FATAL. -/
def Obligations.PrimFaultInCopy : Prop :=
  ∀ (s : State) (ds : List (List Byte)) (d : List Byte) (j : Nat) (code : Byte) (rest : List PrimAnswer)
    (more : List StreamAnswer), s.phase = .idle → s.Quiet → s.Validates → s.srcId ≠ s.dstId →
    LegalChunks s.params (ds ++ [d]) → s.primPlan = List.replicate j .ok ++ .fault code :: rest →
    (ds.flatten.length + 15) / 16 ≤ j → j < (ds.flatten.length + d.length + 15) / 16 →
    let copied := copyRequests s.srcId s.dstId s.params.chunk s.operandStream 0 ds
    (s.answers = [.ok, .ok] ++ goodChunks ds ++ [.data d, .ack, .ack] ++ more →
      let reqs := [.openRd s.srcId, .createTrunc s.dstId] ++ copied ++ [.close s.dstId, .close s.srcId]
      (∃ t, exec .ctrEncPath s = .next t ∧ t.WentFatal ∧ StreamEnd s t reqs more ∧ t.primPlan = rest) ∧
      (∃ t, exec .ctrDecPath s = .next t ∧ t.Raised (faultError (Config.machine.primKind code)) ∧
        StreamEnd s t reqs more ∧ t.primPlan = rest)) ∧
    (s.answers = goodChunks ds ++ [.data d] ++ more →
      (∃ t, exec .ctrEncStrm s = .next t ∧ t.WentFatal ∧ StreamEnd s t copied more ∧ t.primPlan = rest) ∧
      (∃ t, exec .ctrDecStrm s = .next t ∧ t.Raised (faultError (Config.machine.primKind code)) ∧
        StreamEnd s t copied more ∧ t.primPlan = rest))

/-! ## Streaming -/

/-- The path commands (`43_streaming.md` R184): with good answers the source is copied, transformed, to the sink, both
are opened and closed, and the command ends with success. -/
def Obligations.PathCopies : Prop :=
  ∀ (s : State) (i : Instr) (ds : List (List Byte)) (more : List StreamAnswer), IsPath i → s.phase = .idle → s.Quiet →
    s.Validates → PrimNeverFaults s → s.srcId ≠ s.dstId → LegalChunks s.params ds →
    s.answers = [.ok, .ok] ++ goodChunks ds ++ [.eof, .ack, .ack] ++ more →
    ∃ t ev, exec i s = .next t ∧ t.Succeeded ∧
      StreamEnd s t ([.openRd s.srcId, .createTrunc s.dstId] ++
        copyRequests s.srcId s.dstId s.params.chunk s.operandStream 0 ds ++ [.close s.dstId, .close s.srcId]) more ∧
      t.log = s.log ++ ev ∧
      PrimEvents Config.machine ((ds.flatten.length + 15) / 16) .enc s.keyOperand (primEvents ev)

/-- The handle commands (`43_streaming.md` R189): the same copy, with nothing opened and nothing closed. -/
def Obligations.HandleCopies : Prop :=
  ∀ (s : State) (i : Instr) (ds : List (List Byte)) (more : List StreamAnswer), IsHandle i → s.phase = .idle → s.Quiet →
    s.Validates → PrimNeverFaults s → s.srcId ≠ s.dstId → LegalChunks s.params ds →
    s.answers = goodChunks ds ++ [.eof] ++ more →
    ∃ t ev, exec i s = .next t ∧ t.Succeeded ∧
      StreamEnd s t (copyRequests s.srcId s.dstId s.params.chunk s.operandStream 0 ds) more ∧ t.log = s.log ++ ev ∧
      PrimEvents Config.machine ((ds.flatten.length + 15) / 16) .enc s.keyOperand (primEvents ev)

/-- `43_streaming.md` R192, the path rows that end with an I/O error: which requests were issued, and the result. -/
def Obligations.PathIoErrors : Prop :=
  ∀ (s : State) (i : Instr) (ds : List (List Byte)) (d : List Byte) (code : Word) (more : List StreamAnswer), IsPath i →
    s.phase = .idle → s.Quiet → s.srcId ≠ s.dstId →
    (s.answers = .ioerr code :: more → ∃ t, exec i s = .next t ∧ t.Raised (.ioError .openRd code) ∧
      StreamEnd s t [.openRd s.srcId] more) ∧
    (s.answers = [.ok, .ioerr code, .ack] ++ more → ∃ t, exec i s = .next t ∧ t.Raised (.ioError .createTrunc code) ∧
      StreamEnd s t [.openRd s.srcId, .createTrunc s.dstId, .close s.srcId] more) ∧
    (s.Validates → PrimNeverFaults s → LegalChunks s.params (ds ++ [d]) →
      let copied := [.openRd s.srcId, .createTrunc s.dstId] ++
        copyRequests s.srcId s.dstId s.params.chunk s.operandStream 0 ds
      (s.answers = [.ok, .ok] ++ goodChunks ds ++ [.ioerr code, .ack, .ack] ++ more → ∃ t, exec i s = .next t ∧
        t.Raised (.ioError .read code) ∧ StreamEnd s t (copied ++ [.close s.dstId, .close s.srcId]) more) ∧
      (s.answers = [.ok, .ok] ++ goodChunks ds ++ [.data d, .ioerr code, .ack, .ack] ++ more → ∃ t, exec i s = .next t ∧
        t.Raised (.ioError .write code) ∧
        StreamEnd s t (copied ++ [.write s.dstId (xorStream s.operandStream ds.flatten.length d), .close s.dstId,
          .close s.srcId]) more))

/-- `43_streaming.md` R192, the handle rows that end with an I/O error: no handle is opened or closed. -/
def Obligations.HandleIoErrors : Prop :=
  ∀ (s : State) (i : Instr) (ds : List (List Byte)) (d : List Byte) (code : Word) (more : List StreamAnswer), IsHandle i →
    s.phase = .idle → s.Quiet → s.srcId ≠ s.dstId → s.Validates → PrimNeverFaults s → LegalChunks s.params (ds ++ [d]) →
    let copied := copyRequests s.srcId s.dstId s.params.chunk s.operandStream 0 ds
    (s.answers = goodChunks ds ++ [.ioerr code] ++ more → ∃ t, exec i s = .next t ∧
      t.Raised (.ioError .read code) ∧ StreamEnd s t copied more) ∧
    (s.answers = goodChunks ds ++ [.data d, .ioerr code] ++ more → ∃ t, exec i s = .next t ∧
      t.Raised (.ioError .write code) ∧
      StreamEnd s t (copied ++ [.write s.dstId (xorStream s.operandStream ds.flatten.length d)]) more)

/-- `42_ctr.md` R170: the bytes a streaming command writes to its sink are those of `CTR_INIT` and one `CTR_XOR` on the
whole source, for every `CHUNK` and every way the service cuts the source. -/
def Obligations.StreamingAgreesWithCtrXor : Prop :=
  ∀ (s : State) (i : Instr) (ds : List (List Byte)) (more : List StreamAnswer), s.phase = .idle → s.Quiet → s.Validates →
    PrimNeverFaults s → s.srcId ≠ s.dstId → LegalChunks s.params ds → ds.flatten.length ≤ s.params.bufCap →
    ((IsPath i ∧ s.answers = [.ok, .ok] ++ goodChunks ds ++ [.eof, .ack, .ack] ++ more) ∨
      (IsHandle i ∧ s.answers = goodChunks ds ++ [.eof] ++ more)) →
    ∃ t ev u v e, exec i s = .next t ∧ t.Succeeded ∧ t.log = s.log ++ ev ∧ exec .ctrInit s = .next u ∧
      exec .ctrXor (u.withInput ds.flatten) = .next v ∧ v.Succeeded ∧ v.obuf.HoldsExactly e ∧
      v.olen.toNat = e.length ∧ written ev = e

/-- `43_streaming.md` R181: two successful streaming commands with the same key, effective IV and source bytes write the
same bytes, whatever `CHUNK` is and however the source was cut. -/
def Obligations.ChunkIndependence : Prop :=
  ∀ (s₁ s₂ : State) (i₁ i₂ : Instr) (ds₁ ds₂ : List (List Byte)) (more₁ more₂ : List StreamAnswer),
    (∀ x ∈ [(s₁, i₁, ds₁, more₁), (s₂, i₂, ds₂, more₂)],
      x.1.phase = .idle ∧ x.1.Quiet ∧ x.1.Validates ∧ PrimNeverFaults x.1 ∧ x.1.srcId ≠ x.1.dstId ∧
        LegalChunks x.1.params x.2.2.1 ∧
        ((IsPath x.2.1 ∧ x.1.answers = [.ok, .ok] ++ goodChunks x.2.2.1 ++ [.eof, .ack, .ack] ++ x.2.2.2) ∨
          (IsHandle x.2.1 ∧ x.1.answers = goodChunks x.2.2.1 ++ [.eof] ++ x.2.2.2))) →
    s₁.keyOperand = s₂.keyOperand → s₁.ivOperand = s₂.ivOperand → ds₁.flatten = ds₂.flatten →
    ∃ t₁ t₂ ev₁ ev₂, exec i₁ s₁ = .next t₁ ∧ exec i₂ s₂ = .next t₂ ∧ t₁.Succeeded ∧ t₂.Succeeded ∧
      t₁.log = s₁.log ++ ev₁ ∧ t₂.log = s₂.log ++ ev₂ ∧ written ev₁ = written ev₂ ∧
      written ev₁ = xorStream s₁.operandStream 0 ds₁.flatten

/-- `43_streaming.md` R182: the encrypt and the decrypt command do the same on the ports whatever is answered; they differ
only in how a primitive fault ends them and in the direction they remember. -/
def Obligations.EncryptAndDecryptMoveTheSameBytes : Prop :=
  ∀ (s : State) (r : Instr × Instr), r ∈ [(Instr.ctrEncPath, Instr.ctrDecPath), (.ctrEncStrm, .ctrDecStrm)] →
    s.phase = .idle →
    (∀ t, exec r.1 s = .next t → ∃ u, exec r.2 s = .next u ∧ u.log = t.log ∧ u.answers = t.answers ∧
      u.primPlan = t.primPlan ∧
      (PrimNeverFaults s → u = { t with job := t.job.map fun j => { j with dir := .dec } })) ∧
    (∀ x, exec r.1 s = .refused x ↔ exec r.2 s = .refused x)

/-- `43_streaming.md` R186: whatever the service and the primitive answer, and in however many batches the answers come,
when a path command has ended it has closed the source exactly as often as it opened it, and the sink likewise, after
every other request, and no handle is open. -/
def Obligations.ExactlyOnceRelease : Prop :=
  ∀ (s u t : State) (i : Instr) (batches : List (List StreamAnswer)), IsPath i → s.phase = .idle → s.Quiet →
    exec i s = .next u → AfterAnswers batches u t → t.phase ≠ .run →
    t.srcOpen = false ∧ t.dstOpen = false ∧
    ∃ ev front closes, t.log = s.log ++ ev ∧ requests ev = front ++ closes ∧ (∀ id, .close id ∉ front) ∧
      ((OpenedDst s ev ∧ closes = [.close s.dstId, .close s.srcId]) ∨
        (OpenedSrc s ev ∧ ¬ OpenedDst s ev ∧ closes = [.close s.srcId]) ∨
        (¬ OpenedSrc s ev ∧ closes = [])) ∧
      (requests ev).count (.openRd s.srcId) = 1 ∧ (requests ev).count (.createTrunc s.dstId) ≤ 1

/-- A streaming command whose answers come later ends as if they had been there from the start (log 2: the model's own
tape of answers). -/
def Obligations.LateAnswersChangeNothing : Prop :=
  ∀ (s u : State) (i : Instr) (as₁ as₂ : List StreamAnswer) (rest : List Input), IsStreaming i → s.phase = .idle →
    s.answers = as₁ → s.inputs = .serviceAnswers as₂ :: rest → exec i s = .next u → u.phase = .run →
    step u = exec i { s with answers := as₁ ++ as₂, inputs := rest }

/-! ## Frames and independence -/

/-- `10_state.md` R23: no command writes an operand register or `IBUF`, on any path, nor does a running command that goes
on with later answers. -/
def Obligations.OperandsNeverWritten : Prop :=
  (∀ (i : Instr) (s t : State), exec i s = .next t → SameOperands s t) ∧
  (∀ (s t : State) (as : List StreamAnswer) (rest : List Input), s.inputs = .serviceAnswers as :: rest →
    step s = .next t → SameOperands s t)

/-- `10_state.md` R32: how `CTX` changes in a command, and that nothing else than a command and a reset changes it. -/
def Obligations.ContextChangesOnlyAsListed : Prop :=
  (∀ (i : Instr) (s t : State), exec i s = .next t →
    if t.rej = true ∨ t.phase = .fatal then t.ctx = s.ctx
    else match i with
      | .cbcEnc | .cbcDec | .ctrEncPath | .ctrDecPath | .ctrEncStrm | .ctrDecStrm => t.ctx = s.ctx
      | .cbcInit dir =>
        if t.err then t.ctx = Ctx.empty
        else t.ctx = Ctx.freshCbc dir s.keyOperand s.ivOperand
      | .ctrInit => if t.err then t.ctx = Ctx.empty else t.ctx = Ctx.freshCtr s.keyOperand s.ivOperand
      | .ctxDrop => t.ctx = Ctx.empty
      | .cbcBlocks => t.ctx = { s.ctx with chain := t.ctx.chain }
      | .ctrXor => t.ctx = { s.ctx with ctr := t.ctx.ctr, ks := t.ctx.ks, ksPos := t.ctx.ksPos }) ∧
  (∀ (s t : State), step s = .next t → t.ctx ≠ s.ctx →
    (∃ w u i, nextInput Config.machine s = .command w u ∧ u.ctx = s.ctx ∧ decode w = .ok i ∧ step s = exec i u) ∨
      (TakesReset s ∧ t.ctx = Ctx.empty))

/-- The frame of the buffer, INIT and `CTX_DROP` commands, on every path: operands, `IBUF`, inputs, the stream port and
the open flags are unchanged; the INIT commands and `CTX_DROP` leave the primitive port alone too
(`20_memory.md` R61). -/
def Obligations.BufferCommandFrame : Prop :=
  ∀ (i : Instr) (s t : State), ¬ IsStreaming i → exec i s = .next t →
    SameAround s t ∧ (∃ ev, t.log = s.log ++ ev ∧ primEvents ev = ev) ∧
    (¬ IsBuffer i → t.log = s.log ∧ t.primPlan = s.primPlan ∧ t.draws = s.draws) ∧
    (t.rej = false → ∀ a, t.olen.toNat ≤ a → Memory.get t.obuf a = none)

/-- The frame of the streaming commands, on every path: operands, `IBUF`, `CTX` and inputs are unchanged, and no byte of
`OBUF` is a result after one that was accepted (`43_streaming.md` R179, R180). -/
def Obligations.StreamingCommandFrame : Prop :=
  ∀ (i : Instr) (s t : State), IsStreaming i → exec i s = .next t →
    SameOperands s t ∧ t.ctx = s.ctx ∧ t.inputs = s.inputs ∧ t.draws = s.draws ∧ (∃ ev, t.log = s.log ++ ev) ∧
      (∃ used, s.answers = used ++ t.answers) ∧ (t.rej = false → t.olen = 0 ∧ t.obuf = []) ∧
      (IsHandle i → t.srcOpen = s.srcOpen ∧ t.dstOpen = s.dstOpen)

/-- `44_system.md` R209: what earlier commands reported does not matter: an accepted command ends the same, a rejected
one is rejected the same. -/
def Obligations.EarlierResultsDoNotMatter : Prop :=
  ∀ (i : Instr) (s s' : State), s.phase = .idle → s'.phase = .idle → SameOperands s s' → s'.ctx = s.ctx →
    s'.scratch = s.scratch → s'.srcOpen = s.srcOpen → s'.dstOpen = s.dstOpen → s'.job = s.job → SameOutside s s' →
    (∃ c, exec i s = .next (reject c s) ∧ exec i s' = .next (reject c s')) ∨ exec i s' = exec i s

/-- `CTX_DROP` (`44_system.md` R206): success, the slot empty, no request, nothing else; `CTR_XOR` is then rejected. -/
def Obligations.CtxDropEmptiesSlot : Prop :=
  ∀ (s : State), s.phase = .idle →
    ∃ t, exec .ctxDrop s = .next t ∧ t.Succeeded ∧ SameAround s t ∧ t.ctx = Ctx.empty ∧ t.olen = 0 ∧ t.obuf = [] ∧
      t.log = s.log ∧ t.primPlan = s.primPlan ∧ t.draws = s.draws ∧ (s.ctx = Ctx.empty → t.ctx = s.ctx) ∧
      (s.InRange → exec .ctrXor t = .next (reject .noContext t))

/-- `70_reset_and_hazards.md` R259, first sentence: every buffer, INIT and `CTX_DROP` command ends, after at most
`ILEN div 16 + 1` primitive requests. -/
def Obligations.BufferCommandsEnd : Prop :=
  ∀ (i : Instr) (s : State), ¬ IsStreaming i → s.phase ≠ .run →
    ∃ t ev, exec i s = .next t ∧ t.phase ≠ .run ∧ t.log = s.log ++ ev ∧
      (s.ctx.ksPos ≤ 16 → ev.length ≤ s.ilen.toNat / 16 + 1)

/-! ## The host's side -/

/-- `20_memory.md` R64, R67: a host write to `IBUF` stores the bytes of the word, the lower address the less significant
byte; it changes no other byte and nothing else; a word write is as four byte writes. That a byte write takes bits 7:0 of
the data of the access is the model's choice, log 11. -/
def Obligations.HostWritesIbuf : Prop :=
  ∀ (s : State) (addr width : Nat) (v : Word) (rest : List Input), s.phase ≠ .run →
    bufAccessLegal s.params.bufCap addr width = true → Memory.wf s.ibuf →
    s.inputs = .access { place := .ibuf addr, width := width, data := some v } :: rest →
    ∃ m, step s = .next { s with inputs := rest, ibuf := m } ∧ Memory.wf m ∧
      (∀ a, Memory.get m a =
        if addr ≤ a ∧ a < addr + width then some (v.extractLsb' (8 * (a - addr)) 8) else Memory.get s.ibuf a) ∧
      (width = 4 →
        let byteWrites := (List.range 4).map fun i => Input.access
          { place := .ibuf (addr + i), width := 1, data := some ((v.extractLsb' (8 * i) 8).setWidth 32) }
        StepsTo 4 { s with inputs := byteWrites ++ rest } { s with inputs := rest, ibuf := m })

/-- A host read of a byte or a word of `IBUF` or `OBUF` gives the bytes held there, a word packed with the lower address
in the less significant byte (`20_memory.md` R64), and changes no register and no byte. The model's choices: a byte read
answers with the byte in bits 7:0 and zero above (log 11), and a read counts as one draw (log 5). -/
def Obligations.HostReadsBuffers : Prop :=
  ∀ (s : State) (addr width : Nat) (rest : List Input) (b : Nat → Byte), s.phase ≠ .run →
    let value := if width = 1 then (b 0).setWidth 32 else b 3 ++ b 2 ++ b 1 ++ b 0
    let seen := fun p =>
      { s with inputs := rest, draws := s.draws + 1, log := s.log ++ [Event.hostRead p width value] }
    ((∀ i, i < width → Memory.get s.ibuf (addr + i) = some (b i)) → bufAccessLegal s.params.bufCap addr width = true →
      s.inputs = .access { place := .ibuf addr, width := width, data := none } :: rest →
      step s = .next (seen (.ibuf addr))) ∧
    ((∀ i, i < width → Memory.get s.obuf (addr + i) = some (b i)) → bufAccessLegal s.params.obufCap addr width = true →
      s.inputs = .access { place := .obuf addr, width := width, data := none } :: rest →
      step s = .next (seen (.obuf addr)))

/-- `10_state.md` R39, R40, `20_memory.md` R64: which register stands at each operand offset, for a host read and for a
host write. A write stores all 32 bits there, byte `4w + i` of `KEY` and `IV` from bits `8i + 7 : 8i`, is returned by a
read, shows at no other offset and changes nothing else. -/
def Obligations.OperandRegistersReadBack : Prop :=
  (∀ (s : State), readReg s 0x014 = s.klen ∧ readReg s 0x018 = s.ivlen ∧ readReg s 0x01C = s.ilen ∧
    readReg s 0x024 = s.srcId ∧ readReg s 0x028 = s.dstId ∧
    (∀ w i, w < 8 → i < 4 → s.key.list[4 * w + i]? = some ((readReg s (0x040 + 4 * w)).extractLsb' (8 * i) 8)) ∧
    (∀ w i, w < 4 → i < 4 → s.iv.list[4 * w + i]? = some ((readReg s (0x060 + 4 * w)).extractLsb' (8 * i) 8))) ∧
  ∀ (s : State) (off : Nat) (v : Word) (rest : List Input), s.phase ≠ .run → s.inputs = regWriteInput off v :: rest →
    let t := { s with inputs := rest }
    (off = 0x014 → step s = .next { t with klen := v }) ∧ (off = 0x018 → step s = .next { t with ivlen := v }) ∧
    (off = 0x01C → step s = .next { t with ilen := v }) ∧ (off = 0x024 → step s = .next { t with srcId := v }) ∧
    (off = 0x028 → step s = .next { t with dstId := v }) ∧
    (∀ w, w < 8 → off = 0x040 + 4 * w → ∃ k, step s = .next { t with key := k } ∧
      (∀ i, i < 4 → k.list[4 * w + i]? = some (v.extractLsb' (8 * i) 8)) ∧
      ∀ j, (j < 4 * w ∨ 4 * w + 4 ≤ j) → k.list[j]? = s.key.list[j]?) ∧
    (∀ w, w < 4 → off = 0x060 + 4 * w → ∃ b, step s = .next { t with iv := b } ∧
      (∀ i, i < 4 → b.list[4 * w + i]? = some (v.extractLsb' (8 * i) 8)) ∧
      ∀ j, (j < 4 * w ∨ 4 * w + 4 ≤ j) → b.list[j]? = s.iv.list[j]?) ∧
    (off ∈ operandOffsets → ∃ u, step s = .next u ∧ readReg u off = v ∧
      ∀ off', off' % 4 = 0 → off' ≠ off → readReg u off' = readReg s off')

/-- `10_state.md` R36, R39: host writes of the read-only registers and of the reserved offsets are ignored, and so are
host writes to `OBUF`; a host read of a register changes nothing but the record of what the host read. -/
def Obligations.IgnoredWritesAndPureReads : Prop :=
  ∀ (s : State) (rest : List Input), s.phase ≠ .run →
    (∀ off v, ignoredOffset off → s.inputs = regWriteInput off v :: rest → step s = .next { s with inputs := rest }) ∧
    (∀ addr width v, bufAccessLegal s.params.obufCap addr width = true →
      s.inputs = .access { place := .obuf addr, width := width, data := some v } :: rest →
      step s = .next { s with inputs := rest }) ∧
    (∀ off, off % 4 = 0 → off ≤ 0x0FC → s.inputs = regReadInput off :: rest →
      step s = .next { s with inputs := rest, log := s.log ++ [.hostRead (.reg off) 4 (readReg s off)] })

/-- `10_state.md` R25 to R28, R39: the fields of `STATUS` and `ERRKIND`, that their codes tell the values apart, that
`IOERR` and `OLEN` read as they are held, `VERSION` as 1, `DEFIV` as the bytes of `DEFAULT_IV` in the order of
`20_memory.md` R64, `CMD`, `CTRL` and the reserved offsets as 0, and that a host write of `STATUS` clears `REJ` and
`REJCAUSE` through bit 1 and does nothing else. -/
def Obligations.StatusAndErrKindFields : Prop :=
  (∀ (s : State),
    (readReg s 0x004).getLsbD 0 = s.err ∧ (readReg s 0x004).getLsbD 1 = s.rej ∧
    ((readReg s 0x004).getLsbD 2 = true ↔ s.phase = .fatal) ∧ (readReg s 0x004).getLsbD 3 = false ∧
    (readReg s 0x004).extractLsb' 4 2 = s.ctx.kind.code ∧ (readReg s 0x004).extractLsb' 6 2 = 0#2 ∧
    (readReg s 0x004).extractLsb' 8 4 = s.rejCause.code ∧ (readReg s 0x004).extractLsb' 12 20 = 0#20 ∧
    (readReg s 0x008).extractLsb' 0 4 = s.errKind.code ∧ (readReg s 0x008).extractLsb' 4 4 = 0#4 ∧
    (readReg s 0x008).extractLsb' 8 4 = s.ioWhere.code ∧ (readReg s 0x008).extractLsb' 12 20 = 0#20 ∧
    readReg s 0x00C = s.ioErr ∧ readReg s 0x020 = s.olen ∧ readReg s 0x02C = 0x00000001#32 ∧
    (∀ w i, w < 4 → i < 4 →
      s.params.defaultIv.list[4 * w + i]? = some ((readReg s (0x070 + 4 * w)).extractLsb' (8 * i) 8)) ∧
    readReg s 0x000 = 0#32 ∧ readReg s 0x010 = 0#32 ∧
    ∀ off, off % 4 = 0 → (0x030 ≤ off ∧ off ≤ 0x03C) ∨ (0x080 ≤ off ∧ off ≤ 0x0FC) → readReg s off = 0#32) ∧
  [ErrKind.none, .invalidKeyLength, .invalidIvLength, .paddingError, .cipherKeyError, .unknownError, .ioError].map
    ErrKind.code = [0, 1, 2, 3, 4, 5, 6] ∧
  [IoWhere.none, .openRd, .createTrunc, .read, .write].map IoWhere.code = [0, 1, 2, 3, 4] ∧
  [RejCause.none, .fatalState, .illegalOpcode, .reservedBits, .lenRange, .noContext, .notFullBlocks].map
    RejCause.code = [0, 1, 2, 3, 4, 5, 6] ∧
  [CtxKind.none, .cbcE, .cbcD, .ctr].map CtxKind.code = [0, 1, 2, 3] ∧
  ∀ (s : State) (v : Word) (rest : List Input), s.phase ≠ .run → s.inputs = regWriteInput 0x004 v :: rest →
    step s = .next (if v.getLsbD 1 then { s with inputs := rest, rej := false, rejCause := .none }
      else { s with inputs := rest })

/-- `10_state.md` R39: the three apertures do not overlap, and a platform address inside one names the register or the
buffer byte at its offset, in every state; that an address in none is a fault is the model's choice, log 11. -/
def Obligations.ApertureAddresses : Prop :=
  ∀ (s : State) (addr width : Nat) (data : Option Word),
    let P := s.params
    let at_ := fun p => hostAccess Config.machine { place := p, width := width, data := data } s
    (addr < 0x100 → at_ (.platform (P.regBase + addr)) = at_ (.reg addr) ∧
      ¬ (P.ibufBase ≤ P.regBase + addr ∧ P.regBase + addr < P.ibufBase + P.bufCap) ∧
      ¬ (P.obufBase ≤ P.regBase + addr ∧ P.regBase + addr < P.obufBase + P.obufCap)) ∧
    (addr < P.bufCap → at_ (.platform (P.ibufBase + addr)) = at_ (.ibuf addr) ∧
      ¬ (P.obufBase ≤ P.ibufBase + addr ∧ P.ibufBase + addr < P.obufBase + P.obufCap)) ∧
    (addr < P.obufCap → at_ (.platform (P.obufBase + addr)) = at_ (.obuf addr)) ∧
    ((addr < P.regBase ∨ P.regBase + 0x100 ≤ addr) → (addr < P.ibufBase ∨ P.ibufBase + P.bufCap ≤ addr) →
      (addr < P.obufBase ∨ P.obufBase + P.obufCap ≤ addr) →
      at_ (.platform addr) = .outcome (.fault .unmappedAddress))

/-- `20_memory.md` R67: an access of another width, alignment or offset is refused; while a command runs every host
access is (log 11, log 12). -/
def Obligations.OutsideAccessesRefused : Prop :=
  ∀ (s : State) (a : Access) (rest : List Input), s.inputs = .access a :: rest →
    (s.phase = .run → step s = .refused .accessWhileRunning) ∧
    (s.phase ≠ .run →
      (∀ off, a.place = .reg off → (a.width ≠ 4 ∨ off % 4 ≠ 0 ∨ 0x0FC < off) → step s = .refused .badAccess) ∧
      (∀ addr, a.place = .ibuf addr →
        ((a.width ≠ 1 ∧ a.width ≠ 4) ∨ (a.width = 4 ∧ addr % 4 ≠ 0) ∨ s.params.bufCap < addr + a.width) →
        step s = .refused .badAccess) ∧
      (∀ addr, a.place = .obuf addr →
        ((a.width ≠ 1 ∧ a.width ≠ 4) ∨ (a.width = 4 ∧ addr % 4 ≠ 0) ∨ s.params.obufCap < addr + a.width) →
        step s = .refused .badAccess))

/-! ## Reset, phases, the invariant -/

/-- `10_state.md` R43: the state after reset as the host and the engine see it: every register of the map, the phase, the
context, the open flags; no byte of the buffers holds a value. -/
def Obligations.ResetValues : Prop :=
  (∀ off, off % 4 = 0 → readReg State.reset off =
    if off = 0x02C then 0x00000001#32
    else if 0x070 ≤ off ∧ off ≤ 0x07C then regWord Config.params.defaultIv ((off - 0x070) / 4) else 0#32) ∧
  State.reset.phase = .idle ∧ State.reset.ctx = Ctx.empty ∧ State.reset.scratch = Ctx.empty ∧
  State.reset.srcOpen = false ∧ State.reset.dstOpen = false ∧
  (∀ a, Memory.get State.reset.ibuf a = none ∧ Memory.get State.reset.obuf a = none)

/-- `10_state.md` R42, `44_system.md` R207: the hardware reset, from any state, and a write of `CTRL` with bit 0 set, in
`IDLE` and `FATAL`, give the reset state; a write with bit 0 clear does nothing. What the outside has in store, its record
and the parameters stay (log 14). -/
def Obligations.ResetEntersResetState : Prop :=
  ∀ (s : State) (rest : List Input),
    let r := { State.reset with
      params := s.params, inputs := rest, answers := s.answers, primPlan := s.primPlan, draws := s.draws + 1, log := s.log }
    (s.inputs = .hardwareReset :: rest → step s = .next r) ∧
    (∀ v : Word, s.phase ≠ .run → s.inputs = regWriteInput 0x010 v :: rest →
      step s = .next (if v.getLsbD 0 then r else { s with inputs := rest }))

/-- `44_system.md` R205, `70_reset_and_hazards.md` R240: FATAL is left by a reset only; a running command is left by its
end or by the hardware reset only; `IDLE` is left by a command only. -/
def Obligations.PhaseTransitions : Prop :=
  ∀ (s t : State), step s = .next t → t.phase ≠ s.phase →
    (s.phase = .idle → ∃ w u i, nextInput Config.machine s = .command w u ∧ decode w = .ok i ∧ step s = exec i u ∧
      t.rej = false) ∧
    (s.phase = .run → (∃ as rest, s.inputs = .serviceAnswers as :: rest) ∨
      (∃ rest, s.inputs = .hardwareReset :: rest ∧ t.phase = .idle)) ∧
    (s.phase = .fatal → TakesReset s ∧ t.phase = .idle)

/-- Every step keeps the invariant: the result registers agree, the buffers stay in canonical form and in size, `OBUF`
holds a value exactly below `OLEN`, `CTX` is well formed, a running command has its job and its open flags, and outside
`RUN` nothing of a command is left. -/
def Obligations.StepKeepsInvariant : Prop :=
  ∀ (s t : State), s.Inv → step s = .next t → t.Inv

/-- The reset state has the invariant. -/
def Obligations.ResetHasInvariant : Prop := State.reset.Inv
end

