-- ==== Sys2Proof/Laws/Codec.lean ====
section
/-! SUPPORT. Blocks, padding lengths and the counter as a number. -/

namespace Sys2Proof.Machine

/-! ## Blocks -/

@[simp] theorem toBlocks_length (m : Nat) (s : List Byte) : (toBlocks m s).length = m := by
  induction m generalizing s with
  | zero => rfl
  | succ m ih => simp [toBlocks, ih]

@[simp] theorem ofBlocks_nil : ofBlocks [] = [] := rfl

@[simp] theorem ofBlocks_cons (b : Block) (bs : List Block) : ofBlocks (b :: bs) = b.list ++ ofBlocks bs := rfl

theorem ofBlocks_append (as bs : List Block) : ofBlocks (as ++ bs) = ofBlocks as ++ ofBlocks bs := by
  simp [ofBlocks]

@[simp] theorem ofBlocks_length (bs : List Block) : (ofBlocks bs).length = 16 * bs.length := by
  induction bs with
  | nil => rfl
  | cons b bs ih => simp [ih, b.length_eq]; omega

/-- A register loaded with a sequence of its own length holds it. -/
theorem bytesOfList_list {n : Nat} {l : List Byte} (h : l.length = n) : (bytesOfList n l).list = l := by
  simp [bytesOfList, h]

theorem bytesOfList_eq {n : Nat} (b : Bytes n) : bytesOfList n b.list = b := by
  ext1; exact bytesOfList_list b.length_eq

/-- Key bytes loaded into a longer register are its first bytes. -/
theorem bytesOfList_take {n : Nat} {l : List Byte} (h : l.length ≤ n) : (bytesOfList n l).list.take l.length = l := by
  simp [bytesOfList, List.take_take, Nat.min_eq_left h]

theorem ofBlocks_toBlocks {m : Nat} {s : List Byte} (h : s.length = 16 * m) : ofBlocks (toBlocks m s) = s := by
  induction m generalizing s with
  | zero => simp_all [toBlocks]
  | succ m ih =>
    rw [toBlocks, ofBlocks_cons, bytesOfList_list (by simp; omega), ih (by simp; omega), List.take_append_drop]

theorem toBlocks_ofBlocks (bs : List Block) : toBlocks bs.length (ofBlocks bs) = bs := by
  induction bs with
  | nil => rfl
  | cons b bs ih =>
    have h1 : (b.list ++ ofBlocks bs).take 16 = b.list := List.take_left' b.length_eq
    have h2 : (b.list ++ ofBlocks bs).drop 16 = ofBlocks bs := List.drop_left' b.length_eq
    rw [List.length_cons, toBlocks, ofBlocks_cons, h1, h2, bytesOfList_eq, ih]

theorem toBlocks_append {m : Nat} (n : Nat) {s : List Byte} (t : List Byte) (h : s.length = 16 * m) :
    toBlocks (m + n) (s ++ t) = toBlocks m s ++ toBlocks n t := by
  induction m generalizing s with
  | zero => simp_all [toBlocks]
  | succ m ih =>
    have h1 : (s ++ t).take 16 = s.take 16 := List.take_append_of_le_length (by omega)
    have h2 : (s ++ t).drop 16 = s.drop 16 ++ t := List.drop_append_of_le_length (by omega)
    rw [Nat.succ_add, toBlocks, toBlocks, h1, h2, ih (by simp; omega)]
    rfl

@[simp] theorem xor16_xor16 (a b : Block) : xor16 (xor16 a b) b = a := by
  ext1
  apply List.ext_getElem (by simp [xor16, a.length_eq, b.length_eq])
  intro i h1 h2
  simp [xor16]

/-! ## Padding -/

theorem padLen_bounds (n : Nat) : 1 ≤ padLen n ∧ padLen n ≤ 16 := by unfold padLen; omega

theorem pad_length (b : List Byte) : (pad b).length = 16 * (b.length / 16 + 1) := by
  simp [pad, padLen]; omega

/-! ## The counter block as a number -/

theorem foldl_byte_append (l : List Byte) (x : Byte) (n : Nat) :
    (l ++ [x]).foldl (fun n x => n * 256 + x.toNat) n = l.foldl (fun n x => n * 256 + x.toNat) n * 256 + x.toNat := by
  simp

theorem foldl_byte_lt (l : List Byte) : l.foldl (fun n x => n * 256 + x.toNat) 0 < 256 ^ l.length := by
  induction l using List.reverseRecOn with
  | nil => simp
  | append_singleton l x ih =>
    rw [foldl_byte_append, List.length_append, List.length_singleton, Nat.pow_succ]
    have := x.isLt
    omega

theorem be128_lt (b : Block) : be128 b < 2 ^ 128 := by
  have := foldl_byte_lt b.list
  rw [b.length_eq] at this
  simpa [be128] using this

theorem foldl_digits (L n : Nat) :
    ((List.range L).map fun i => BitVec.ofNat 8 (n / 256 ^ (L - 1 - i))).foldl (fun n x => n * 256 + x.toNat) 0 =
      n % 256 ^ L := by
  induction L generalizing n with
  | zero => simp [Nat.mod_one]
  | succ L ih =>
    have e : (List.range L).map (fun i => BitVec.ofNat 8 (n / 256 ^ (L + 1 - 1 - i))) =
        (List.range L).map (fun i => BitVec.ofNat 8 (n / 256 / 256 ^ (L - 1 - i))) := by
      apply List.map_congr_left
      intro i hi
      have hi := List.mem_range.1 hi
      rw [Nat.div_div_eq_div_mul, ← Nat.pow_succ']
      congr 3; omega
    rw [List.range_succ, List.map_append, e, List.map_singleton, foldl_byte_append, ih (n / 256)]
    have hp : n % 256 ^ (L + 1) = n % 256 + 256 * (n / 256 % 256 ^ L) := by rw [Nat.pow_succ', Nat.mod_mul]
    rw [hp]
    simp only [BitVec.toNat_ofNat, Nat.add_sub_cancel, Nat.sub_self, Nat.pow_zero, Nat.div_one]
    omega

/-- `bytes128` is the inverse of `be128` (`00_scope.md` R14). -/
theorem be128_bytes128 (n : Nat) : be128 (bytes128 n) = n % 2 ^ 128 := by
  have := foldl_digits 16 n
  simpa [be128, bytes128] using this

theorem digit_of_foldl (l : List Byte) (i : Nat) (h : i < l.length) :
    BitVec.ofNat 8 (l.foldl (fun n x => n * 256 + x.toNat) 0 / 256 ^ (l.length - 1 - i)) = l[i] := by
  induction l using List.reverseRecOn with
  | nil => simp at h
  | append_singleton l x ih =>
    rw [foldl_byte_append]
    by_cases hi : i < l.length
    · rw [List.getElem_append_left hi, ← ih hi]
      congr 1
      have e : (l ++ [x]).length - 1 - i = (l.length - 1 - i) + 1 := by simp; omega
      have hx := x.isLt
      rw [e, Nat.pow_succ', ← Nat.div_div_eq_div_mul]
      congr 1
      omega
    · have hi' : i = l.length := by simp at h; omega
      subst hi'
      simp only [List.length_append, List.length_singleton, Nat.add_sub_cancel, Nat.sub_self, Nat.pow_zero, Nat.div_one,
        List.getElem_concat_length]
      apply BitVec.eq_of_toNat_eq
      have := x.isLt
      simp only [BitVec.toNat_ofNat]
      omega

theorem bytes128_be128 (b : Block) : bytes128 (be128 b) = b := by
  ext1
  apply List.ext_getElem (by simp [bytes128, b.length_eq])
  intro i h1 h2
  have := digit_of_foldl b.list i h2
  simp only [bytes128, List.getElem_map, List.getElem_range, be128]
  rw [← this, b.length_eq]

end Sys2Proof.Machine
end

