-- ==== Sys2Proof/Laws/HostPort.lean ====
section
/-! SUPPORT. The host side: the bytes of register words, which aperture covers a platform address, and what a step
makes of a register access. -/

namespace Sys2Proof.Machine

/-! ## Words and bytes -/

/-- Bit `j` of the word made of the bytes `f`. -/
theorem wordOf_bit (f : Nat → Byte) (j : Nat) :
    (wordOf f).getLsbD j = if j < 32 then (f (j / 8)).getLsbD (j % 8) else false := by
  have h : (wordOf f).getLsbD j = if j < 8 then (f 0).getLsbD j else if j - 8 < 8 then (f 1).getLsbD (j - 8) else
      if j - 8 - 8 < 8 then (f 2).getLsbD (j - 8 - 8) else (f 3).getLsbD (j - 8 - 8 - 8) := by
    unfold wordOf
    iterate 3 refine BitVec.getLsbD_append.trans ?_; congr 1
  rw [h]
  by_cases h32 : j < 32
  · rw [if_pos h32]
    obtain h' | h' | h' | h' : j / 8 = 0 ∨ j / 8 = 1 ∨ j / 8 = 2 ∨ j / 8 = 3 := by omega
    all_goals
      rw [h']
      repeat' split
      all_goals first | (exfalso; omega) | (congr 1; omega)
  · rw [if_neg h32]
    iterate 3 rw [if_neg (by omega)]
    exact BitVec.getLsbD_of_ge _ _ (by omega)

/-- Byte `i` of the word made of the bytes `f`. -/
theorem byteOf_wordOf (f : Nat → Byte) {i : Nat} (h : i < 4) : byteOf (wordOf f) i = f i := by
  refine BitVec.eq_of_getLsbD_eq fun j hj => ?_
  rw [byteOf, BitVec.getLsbD_extractLsb', wordOf_bit, if_pos (by omega), show (8 * i + j) / 8 = i by omega,
    show (8 * i + j) % 8 = j by omega]
  simp [hj]

/-- A word is made of its bytes. -/
theorem wordOf_byteOf (v : Word) : wordOf (byteOf v) = v := by
  refine BitVec.eq_of_getLsbD_eq fun j hj => ?_
  rw [wordOf_bit, if_pos hj, byteOf, BitVec.getLsbD_extractLsb', show 8 * (j / 8) + j % 8 = j by omega]
  simp [Nat.mod_lt]

/-- Byte `i` of word `w` of a byte-array register is its byte `4w + i` (`20_memory.md` R64). -/
theorem byteOf_regWord {n : Nat} (b : Bytes n) (w : Nat) {i : Nat} (h : i < 4) :
    byteOf (regWord b w) i = b.list.getD (4 * w + i) 0 := byteOf_wordOf _ h

/-- A byte-array register after a write of one of its words: the bytes of that word are those of the value, every
other byte is as before. -/
theorem setRegWord_get {n : Nat} (b : Bytes n) {w : Nat} (v : Word) (hw : 4 * w + 4 ≤ n) (j : Nat) :
    (setRegWord b w v).list[j]? =
      if 4 * w ≤ j ∧ j < 4 * w + 4 then some (byteOf v (j - 4 * w)) else b.list[j]? := by
  have hl := b.length_eq
  simp only [setRegWord, List.getElem?_set, List.length_set]
  by_cases h : 4 * w ≤ j ∧ j < 4 * w + 4
  · rw [if_pos h]
    obtain rfl | rfl | rfl | rfl : j = 4 * w ∨ j = 4 * w + 1 ∨ j = 4 * w + 2 ∨ j = 4 * w + 3 := by omega
    all_goals simp [show 4 * w < b.list.length by omega, show 4 * w + 1 < b.list.length by omega,
      show 4 * w + 2 < b.list.length by omega, show 4 * w + 3 < b.list.length by omega]
  · rw [if_neg h]
    iterate 4 rw [if_neg (by omega)]

/-- The words of a byte-array register after a write of one of them. -/
theorem regWord_setRegWord {n : Nat} (b : Bytes n) {w : Nat} (v : Word) (hw : 4 * w + 4 ≤ n) (u : Nat) :
    regWord (setRegWord b w v) u = if u = w then v else regWord b u := by
  have byte : ∀ i, i < 4 → (setRegWord b w v).list.getD (4 * u + i) 0 =
      if u = w then byteOf v i else b.list.getD (4 * u + i) 0 := by
    intro i hi
    rw [List.getD_eq_getElem?_getD, setRegWord_get b v hw]
    by_cases h : u = w
    · rw [if_pos (by omega), if_pos h, show 4 * u + i - 4 * w = i by omega, Option.getD_some]
    · rw [if_neg (by omega), if_neg h, List.getD_eq_getElem?_getD]
  unfold regWord
  by_cases h : u = w
  · simp only [if_pos h] at byte ⊢
    refine Eq.trans ?_ (wordOf_byteOf v)
    simp only [wordOf, byte 0, byte 1, byte 2, byte 3, Nat.reduceLT]
  · simp only [if_neg h] at byte ⊢
    simp only [wordOf, byte 0, byte 1, byte 2, byte 3, Nat.reduceLT]

/-! ## Platform addresses -/

theorem inAperture_of {base size a : Nat} (h : a < size) : inAperture base size (base + a) = some a := by
  simp [inAperture, h]

theorem inAperture_none {base size addr : Nat} (h : addr < base ∨ base + size ≤ addr) : inAperture base size addr = none := by
  rw [inAperture, if_neg (by omega)]

/-- A platform address in the register aperture. -/
theorem locate_reg (P : Params) {o : Nat} (h : o < 0x100) : locate P (P.regBase + o) = some (.reg o) := by
  simp [locate, inAperture_of h]

/-- A platform address in the aperture of `IBUF`, which no other covers (`10_state.md` R39). -/
theorem locate_ibuf (P : Params) {a : Nat} (h : a < P.bufCap) : locate P (P.ibufBase + a) = some (.ibuf a) := by
  have hr : Apart P.regBase 0x100 P.ibufBase P.bufCap := P.regIbufApart
  simp [locate, inAperture_of h, inAperture_none (base := P.regBase) (size := 0x100) (addr := P.ibufBase + a) (by omega)]

/-- A platform address in the aperture of `OBUF`, which no other covers. -/
theorem locate_obuf (P : Params) {a : Nat} (h : a < P.obufCap) : locate P (P.obufBase + a) = some (.obuf a) := by
  have hr : Apart P.regBase 0x100 P.obufBase P.obufCap := P.regObufApart
  have hi : Apart P.ibufBase P.bufCap P.obufBase P.obufCap := P.ibufObufApart
  simp [locate, inAperture_of h, inAperture_none (base := P.regBase) (size := 0x100) (addr := P.obufBase + a) (by omega),
    inAperture_none (base := P.ibufBase) (size := P.bufCap) (addr := P.obufBase + a) (by omega)]

/-- A platform address in no aperture. -/
theorem locate_none (P : Params) {addr : Nat} (hr : addr < P.regBase ∨ P.regBase + 0x100 ≤ addr)
    (hi : addr < P.ibufBase ∨ P.ibufBase + P.bufCap ≤ addr) (ho : addr < P.obufBase ∨ P.obufBase + P.obufCap ≤ addr) :
    locate P addr = none := by
  simp [locate, inAperture_none hr, inAperture_none hi, inAperture_none ho]

/-! ## A step that takes a register access -/

/-- A host write of a register other than `CMD`. -/
theorem step_regWrite {s : State} {off : Nat} {v : Word} {rest : List Input} (hp : s.phase ≠ .run)
    (h : s.inputs = regWriteInput off v :: rest) (ho : off % 4 = 0 ∧ off ≤ 0x0FC ∧ off ≠ 0) :
    step s = .next (writeReg off v { s with inputs := rest }) := by
  simp [step, nextInput, h, regWriteInput, takeInput, hp, hostAccess, placedAccess, regAccess, regAccessLegal, ho]

/-- A host read of a register changes nothing but the record (`10_state.md` R40). -/
theorem step_regRead {s : State} {off : Nat} {rest : List Input} (hp : s.phase ≠ .run)
    (h : s.inputs = regReadInput off :: rest) (ho : off % 4 = 0 ∧ off ≤ 0x0FC) :
    step s = .next (hostRead (.reg off) 4 (readReg s off) { s with inputs := rest }) := by
  simp [step, nextInput, h, regReadInput, takeInput, hp, hostAccess, placedAccess, regAccess, regAccessLegal, ho]
  rfl

end Sys2Proof.Machine
end

