-- ==== Sys2Proof/Laws/Port.lean ====
section
/-! SUPPORT. The primitive port, the chaining functions and the keystream: what they give when the primitive answers
`ok`, and what any answer they give looks like. -/

namespace Sys2Proof.Machine

/-- The primitive answers `ok` to every request. -/
def Port.NeverFaults (p : Port) : Prop := ∀ a ∈ p.plan, a = .ok

theorem State.port_neverFaults {s : State} (h : PrimNeverFaults s) : s.port.NeverFaults := h

@[simp] theorem State.port_log (s : State) : s.port.log = s.log := rfl
@[simp] theorem State.port_plan (s : State) : s.port.plan = s.primPlan := rfl

/-! ## One request -/

/-- The primitive answers `ok` to the next `n` requests. -/
def Port.GoodFor (p : Port) (n : Nat) : Prop := ∀ a ∈ p.plan.take n, a = .ok

/-- The port after `n` requests that were all answered `ok`, with their events `ev`. -/
def Port.after (p : Port) (n : Nat) (ev : List Event) : Port := { plan := p.plan.drop n, log := p.log ++ ev }

@[simp] theorem Port.after_plan (p : Port) (n : Nat) (ev : List Event) : (p.after n ev).plan = p.plan.drop n := rfl
@[simp] theorem Port.after_log (p : Port) (n : Nat) (ev : List Event) : (p.after n ev).log = p.log ++ ev := rfl

theorem Port.after_zero (p : Port) : p.after 0 [] = p := by simp [Port.after]

theorem Port.after_after (p : Port) (n m : Nat) (ev ev' : List Event) :
    (p.after n ev).after m ev' = p.after (n + m) (ev ++ ev') := by
  simp [Port.after]

theorem Port.NeverFaults.good {p : Port} (h : p.NeverFaults) (n : Nat) : p.GoodFor n :=
  fun a ha => h a (List.mem_of_mem_take ha)

theorem Port.NeverFaults.after {p : Port} (h : p.NeverFaults) (n : Nat) (ev : List Event) : (p.after n ev).NeverFaults :=
  fun a ha => h a (List.mem_of_mem_drop ha)

/-- A stretch of good answers and what comes after it. -/
theorem Port.goodFor_after {p : Port} {n m : Nat} (h : p.GoodFor (n + m)) (ev : List Event) : (p.after n ev).GoodFor m := by
  intro a ha
  refine h a ?_
  rw [Port.after_plan, List.take_drop, Nat.add_comm] at ha
  exact List.mem_of_mem_drop (by rwa [Nat.add_comm] at ha)

theorem Port.goodFor_le {p : Port} {n m : Nat} (h : p.GoodFor n) (hm : m ≤ n) : p.GoodFor m := fun a ha =>
  h a ((List.take_subset_take_left p.plan hm) ha)

/-- A request that is answered `ok`. -/
theorem Port.ask_good (C : Config) (dir : Dir) (k : List Byte) (b : Block) {p : Port} {n : Nat} (h : p.GoodFor (n + 1)) :
    p.ask C dir k b = (.ok (blockCipher C dir k b), p.after 1 [.prim dir k b (.ok (blockCipher C dir k b))]) := by
  obtain ⟨plan, log⟩ := p
  match plan with
  | [] => rfl
  | .ok :: rest => rfl
  | .fault c :: rest => have := h (.fault c) (by simp); cases this

theorem Port.ask_fault (C : Config) (dir : Dir) (k : List Byte) (b : Block) {p : Port} {c : Byte} {rest : List PrimAnswer}
    (h : p.plan = .fault c :: rest) :
    p.ask C dir k b = (.error c, { plan := rest, log := p.log ++ [.prim dir k b (.fault c)] }) := by
  obtain ⟨plan, log⟩ := p
  subst h
  rfl

/-- Whatever the primitive answers, an answered block is the cipher's. -/
theorem Port.ask_ok_inv {C : Config} {dir : Dir} {k : List Byte} {b y : Block} {p q : Port}
    (h : p.ask C dir k b = (.ok y, q)) : y = blockCipher C dir k b := by
  obtain ⟨plan, log⟩ := p
  match plan, h with
  | [], h => exact ((Except.ok.inj (Prod.mk.inj h).1)).symm
  | .ok :: rest, h => exact ((Except.ok.inj (Prod.mk.inj h).1)).symm
  | .fault c :: rest, h => cases (Prod.mk.inj h).1

/-- A primitive that never faults does not fault. -/
theorem Port.ask_error_inv {C : Config} {dir : Dir} {k : List Byte} {b : Block} {c : Byte} {p q : Port}
    (h : p.ask C dir k b = (.error c, q)) : ¬ p.NeverFaults := by
  intro hp
  rw [Port.ask_good C dir k b (hp.good 1)] at h
  cases (Prod.mk.inj h).1

/-! ## The chaining functions -/

@[simp] theorem chainEnc_length (E : Block → Block) (ch : Block) (xs : List Block) :
    (chainEnc E ch xs).length = xs.length := by
  induction xs generalizing ch with
  | nil => rfl
  | cons x xs ih => simp [chainEnc, ih]

@[simp] theorem chainDec_length (D : Block → Block) (ch : Block) (cs : List Block) :
    (chainDec D ch cs).length = cs.length := by
  induction cs generalizing ch with
  | nil => rfl
  | cons x xs ih => simp [chainDec, ih]

/-- The events of requests that were all answered `ok`. -/
theorem PrimEvents.cons {C : Config} {n : Nat} {dir : Dir} {k : List Byte} {ev : List Event}
    (h : PrimEvents C n dir k ev) (b : Block) :
    PrimEvents C (n + 1) dir k (.prim dir k b (.ok (blockCipher C dir k b)) :: ev) :=
  ⟨by simp [h.1], fun e he => (List.mem_cons.1 he).elim (fun h => ⟨b, h⟩) (h.2 e)⟩

theorem PrimEvents.nil (C : Config) (dir : Dir) (k : List Byte) : PrimEvents C 0 dir k [] :=
  ⟨rfl, fun _ h => by simp at h⟩

/-- With good answers, CBC encryption gives the chain of R141, one request a block. -/
theorem cbcEncBlocks_good (C : Config) (k : List Byte) (ch : Block) (xs : List Block) {p : Port} (h : p.GoodFor xs.length) :
    ∃ ev, cbcEncBlocks C k ch xs p =
        (.ok (chainEnc (blockCipher C .enc k) ch xs, (chainEnc (blockCipher C .enc k) ch xs).getLastD ch),
          p.after xs.length ev) ∧ PrimEvents C xs.length .enc k ev := by
  induction xs generalizing ch p with
  | nil => exact ⟨[], by simp [cbcEncBlocks, chainEnc, Port.after_zero], PrimEvents.nil C .enc k⟩
  | cons x xs ih =>
    obtain ⟨ev, e, hev⟩ := ih (blockCipher C .enc k (xor16 x ch)) (p := p.after 1 [.prim .enc k (xor16 x ch)
      (.ok (blockCipher C .enc k (xor16 x ch)))]) (Port.goodFor_after (by rwa [Nat.add_comm]) _)
    refine ⟨_ :: ev, ?_, hev.cons (xor16 x ch)⟩
    simp only [cbcEncBlocks, Port.ask_good C .enc k _ h, e, chainEnc, List.getLastD_cons, Port.after_after,
      List.singleton_append, List.length_cons, Nat.add_comm]

/-- With good answers, CBC decryption gives the chain of R142, one request a block. -/
theorem cbcDecBlocks_good (C : Config) (k : List Byte) (ch : Block) (cs : List Block) {p : Port} (h : p.GoodFor cs.length) :
    ∃ ev, cbcDecBlocks C k ch cs p = (.ok (chainDec (blockCipher C .dec k) ch cs, cs.getLastD ch), p.after cs.length ev) ∧
      PrimEvents C cs.length .dec k ev := by
  induction cs generalizing ch p with
  | nil => exact ⟨[], by simp [cbcDecBlocks, chainDec, Port.after_zero], PrimEvents.nil C .dec k⟩
  | cons c cs ih =>
    obtain ⟨ev, e, hev⟩ := ih c (p := p.after 1 [.prim .dec k c (.ok (blockCipher C .dec k c))])
      (Port.goodFor_after (by rwa [Nat.add_comm]) _)
    refine ⟨_ :: ev, ?_, hev.cons c⟩
    simp only [cbcDecBlocks, Port.ask_good C .dec k _ h, e, chainDec, List.getLastD_cons, Port.after_after,
      List.singleton_append, List.length_cons, Nat.add_comm]

/-- A fault at block `j` stops the encryption there. -/
theorem cbcEncBlocks_fault (C : Config) (k : List Byte) (ch : Block) (xs : List Block) {p : Port} {j : Nat} {code : Byte}
    {rest : List PrimAnswer} (h : p.plan = List.replicate j .ok ++ .fault code :: rest) (hj : j < xs.length) :
    ∃ ev b, cbcEncBlocks C k ch xs p =
        (.error code, { plan := rest, log := p.log ++ ev ++ [.prim .enc k b (.fault code)] }) ∧ PrimEvents C j .enc k ev := by
  induction xs generalizing ch p j with
  | nil => simp at hj
  | cons x xs ih =>
    cases j with
    | zero => exact ⟨[], _, by simp [cbcEncBlocks, Port.ask_fault C .enc k _ h]; rfl, PrimEvents.nil C .enc k⟩
    | succ j =>
      have hg : p.GoodFor 1 := by intro a ha; rw [h, List.replicate_succ] at ha; simpa using ha
      obtain ⟨ev, b, e, hev⟩ := ih (blockCipher C .enc k (xor16 x ch)) (p := p.after 1 [.prim .enc k (xor16 x ch)
        (.ok (blockCipher C .enc k (xor16 x ch)))]) (j := j) (by rw [Port.after_plan, h]; rfl) (by simpa using hj)
      refine ⟨_ :: ev, b, ?_, hev.cons (xor16 x ch)⟩
      simp only [cbcEncBlocks, Port.ask_good C .enc k _ hg, e, Port.after_log, List.append_assoc, List.nil_append,
        List.cons_append]

/-- A fault at block `j` stops the decryption there. -/
theorem cbcDecBlocks_fault (C : Config) (k : List Byte) (ch : Block) (cs : List Block) {p : Port} {j : Nat} {code : Byte}
    {rest : List PrimAnswer} (h : p.plan = List.replicate j .ok ++ .fault code :: rest) (hj : j < cs.length) :
    ∃ ev b, cbcDecBlocks C k ch cs p =
        (.error code, { plan := rest, log := p.log ++ ev ++ [.prim .dec k b (.fault code)] }) ∧ PrimEvents C j .dec k ev := by
  induction cs generalizing ch p j with
  | nil => simp at hj
  | cons c cs ih =>
    cases j with
    | zero => exact ⟨[], _, by simp [cbcDecBlocks, Port.ask_fault C .dec k _ h]; rfl, PrimEvents.nil C .dec k⟩
    | succ j =>
      have hg : p.GoodFor 1 := by intro a ha; rw [h, List.replicate_succ] at ha; simpa using ha
      obtain ⟨ev, b, e, hev⟩ := ih c (p := p.after 1 [.prim .dec k c (.ok (blockCipher C .dec k c))]) (j := j)
        (by rw [Port.after_plan, h]; rfl) (by simpa using hj)
      refine ⟨_ :: ev, b, ?_, hev.cons c⟩
      simp only [cbcDecBlocks, Port.ask_good C .dec k _ hg, e, Port.after_log, List.append_assoc, List.nil_append,
        List.cons_append]

/-- Whatever the primitive answers: if encryption gives blocks, they are as many as went in. -/
theorem cbcEncBlocks_length {C : Config} {k : List Byte} {ch last : Block} {xs ys : List Block} {p q : Port}
    (h : cbcEncBlocks C k ch xs p = (.ok (ys, last), q)) : ys.length = xs.length := by
  induction xs generalizing ch ys last p q with
  | nil => simp only [cbcEncBlocks, Prod.mk.injEq, Except.ok.injEq] at h; simp [← h.1.1]
  | cons x xs ih =>
    simp only [cbcEncBlocks] at h
    split at h
    · cases (Prod.mk.inj h).1
    · split at h
      · cases (Prod.mk.inj h).1
      · rename_i e
        simp only [Prod.mk.injEq, Except.ok.injEq] at h
        simp [← h.1.1, ih e]

/-- Whatever the primitive answers: if decryption gives blocks, they are as many as went in. -/
theorem cbcDecBlocks_length {C : Config} {k : List Byte} {ch last : Block} {cs xs : List Block} {p q : Port}
    (h : cbcDecBlocks C k ch cs p = (.ok (xs, last), q)) : xs.length = cs.length := by
  induction cs generalizing ch xs last p q with
  | nil => simp only [cbcDecBlocks, Prod.mk.injEq, Except.ok.injEq] at h; simp [← h.1.1]
  | cons x cs ih =>
    simp only [cbcDecBlocks] at h
    split at h
    · cases (Prod.mk.inj h).1
    · split at h
      · cases (Prod.mk.inj h).1
      · rename_i e
        simp only [Prod.mk.injEq, Except.ok.injEq] at h
        simp [← h.1.1, ih e]

/-- A bound context in use gives as many blocks as went in, in either direction. -/
theorem cbcBlocksOf_length {C : Config} {c : Ctx} {xs ys : List Block} {last : Block} {p q : Port}
    (h : cbcBlocksOf C c xs p = (.ok (ys, last), q)) : ys.length = xs.length := by
  unfold cbcBlocksOf at h
  split at h
  · exact cbcEncBlocks_length h
  · exact cbcDecBlocks_length h

/-- With a primitive that never faults, encryption does not fault. -/
theorem cbcEncBlocks_error {C : Config} {k : List Byte} {ch : Block} {xs : List Block} {c : Byte} {p q : Port}
    (h : cbcEncBlocks C k ch xs p = (.error c, q)) : ¬ p.NeverFaults := by
  intro hp
  obtain ⟨ev, e, _⟩ := cbcEncBlocks_good C k ch xs (hp.good _)
  rw [e] at h
  cases (Prod.mk.inj h).1

theorem cbcDecBlocks_error {C : Config} {k : List Byte} {ch : Block} {xs : List Block} {c : Byte} {p q : Port}
    (h : cbcDecBlocks C k ch xs p = (.error c, q)) : ¬ p.NeverFaults := by
  intro hp
  obtain ⟨ev, e, _⟩ := cbcDecBlocks_good C k ch xs (hp.good _)
  rw [e] at h
  cases (Prod.mk.inj h).1

/-- The chain in two parts: the second starts from the last output block of the first. -/
theorem chainEnc_append (E : Block → Block) (ch : Block) (xs ys : List Block) :
    chainEnc E ch (xs ++ ys) = chainEnc E ch xs ++ chainEnc E ((chainEnc E ch xs).getLastD ch) ys := by
  induction xs generalizing ch with
  | nil => simp [chainEnc]
  | cons x xs ih =>
    simp only [List.cons_append, chainEnc, ih, List.getLastD_cons]

/-- The chain in two parts: the second starts from the last input block of the first. -/
theorem chainDec_append (D : Block → Block) (ch : Block) (xs ys : List Block) :
    chainDec D ch (xs ++ ys) = chainDec D ch xs ++ chainDec D (xs.getLastD ch) ys := by
  induction xs generalizing ch with
  | nil => simp [chainDec]
  | cons x xs ih =>
    simp only [List.cons_append, chainDec, ih, List.getLastD_cons]

/-- Decryption undoes encryption (R142, by the law of `00_scope.md` R9). -/
theorem chainDec_chainEnc {E D : Block → Block} (h : ∀ b, D (E b) = b) (ch : Block) (xs : List Block) :
    chainDec D ch (chainEnc E ch xs) = xs := by
  induction xs generalizing ch with
  | nil => rfl
  | cons x xs ih => simp [chainEnc, chainDec, h, ih]

@[simp] theorem blockCipher_dec_enc (C : Config) (k : List Byte) (b : Block) :
    blockCipher C .dec k (blockCipher C .enc k b) = b := by simp [blockCipher]

@[simp] theorem blockCipher_enc_dec (C : Config) (k : List Byte) (b : Block) :
    blockCipher C .enc k (blockCipher C .dec k b) = b := by simp [blockCipher]

/-! ## The keystream -/

@[simp] theorem xorStream_length (ks : Nat → Byte) (off : Nat) (d : List Byte) : (xorStream ks off d).length = d.length := by
  induction d generalizing off with
  | nil => rfl
  | cons x d ih => simp [xorStream, ih]

theorem xorStream_append (ks : Nat → Byte) (off : Nat) (d e : List Byte) :
    xorStream ks off (d ++ e) = xorStream ks off d ++ xorStream ks (off + d.length) e := by
  induction d generalizing off with
  | nil => simp [xorStream]
  | cons x d ih =>
    simp only [List.cons_append, xorStream, ih, List.length_cons]
    congr 3
    omega

theorem xorStream_congr {ks ks' : Nat → Byte} {off off' : Nat} (d : List Byte)
    (h : ∀ t, ks (off + t) = ks' (off' + t)) : xorStream ks off d = xorStream ks' off' d := by
  induction d generalizing off off' with
  | nil => rfl
  | cons x d ih =>
    have h0 := h 0
    simp only [Nat.add_zero] at h0
    simp only [xorStream, h0]
    rw [ih fun t => ?_]
    have := h (t + 1)
    rwa [← Nat.add_assoc, ← Nat.add_assoc, Nat.add_right_comm, Nat.add_right_comm off'] at this

theorem xorStream_xorStream (ks : Nat → Byte) (off : Nat) (d : List Byte) :
    xorStream ks off (xorStream ks off d) = d := by
  induction d generalizing off with
  | nil => rfl
  | cons x d ih => simp [xorStream, ih]

theorem getElem?_xorStream (ks : Nat → Byte) (off : Nat) (d : List Byte) (i : Nat) :
    (xorStream ks off d)[i]? = d[i]?.map (· ^^^ ks (off + i)) := by
  induction d generalizing off i with
  | nil => simp [xorStream]
  | cons x d ih =>
    cases i with
    | zero => simp [xorStream]
    | succ i =>
      simp only [xorStream, List.getElem?_cons_succ, ih, show off + (i + 1) = off + 1 + i by omega]

/-- What a refill changes, whatever the primitive answers. -/
theorem ksRefill_inv {C : Config} {c c' : Ctx} {p q : Port} (h : ksRefill C c p = (.ok c', q)) :
    c'.kind = c.kind ∧ c'.klen = c.klen ∧ c'.key = c.key ∧ c'.chain = c.chain ∧ c'.ksPos < 16 := by
  unfold ksRefill at h
  split at h
  · simp only [Prod.mk.injEq, Except.ok.injEq] at h
    obtain ⟨rfl, -⟩ := h
    simp [*]
  · split at h
    · cases (Prod.mk.inj h).1
    · simp only [Prod.mk.injEq, Except.ok.injEq] at h
      obtain ⟨rfl, -⟩ := h
      simp

/-- What the keystream XOR gives and changes, whatever the primitive answers: as many bytes as went in, and a context
that differs only in its counter, its block in use and its position. -/
theorem ksXor_inv {C : Config} {c c' : Ctx} {d e : List Byte} {p q : Port} (h : ksXor C c d p = (.ok (e, c'), q)) :
    e.length = d.length ∧ c'.kind = c.kind ∧ c'.klen = c.klen ∧ c'.key = c.key ∧ c'.chain = c.chain ∧
      (c.ksPos ≤ 16 → c'.ksPos ≤ 16) := by
  induction d generalizing c c' e p q with
  | nil =>
    simp only [ksXor, Prod.mk.injEq, Except.ok.injEq] at h
    obtain ⟨⟨rfl, rfl⟩, -⟩ := h
    simp
  | cons x d ih =>
    simp only [ksXor] at h
    split at h
    · cases (Prod.mk.inj h).1
    · rename_i c1 p1 e1
      split at h
      · cases (Prod.mk.inj h).1
      · rename_i es c2 p2 e2
        simp only [Prod.mk.injEq, Except.ok.injEq] at h
        obtain ⟨⟨rfl, rfl⟩, -⟩ := h
        have h1 := ksRefill_inv e1
        have h2 := ih e2
        simp only at h2
        refine ⟨by simp [h2.1], ?_, ?_, ?_, ?_, fun _ => h2.2.2.2.2.2 (by omega)⟩
        · rw [h2.2.1, h1.1]
        · rw [h2.2.2.1, h1.2.1]
        · rw [h2.2.2.2.1, h1.2.2.1]
        · rw [h2.2.2.2.2.1, h1.2.2.2.1]

/-- In two parts: the second goes on where the first stopped, whatever the primitive answers. -/
theorem ksXor_append (C : Config) (c : Ctx) (d e : List Byte) (p : Port) :
    ksXor C c (d ++ e) p =
      match ksXor C c d p with
      | (.error f, p) => (.error f, p)
      | (.ok (d', c), p) =>
        match ksXor C c e p with
        | (.error f, p) => (.error f, p)
        | (.ok (e', c), p) => (.ok (d' ++ e', c), p) := by
  induction d generalizing c p with
  | nil =>
    simp only [List.nil_append, ksXor]
    rcases ksXor C c e p with ⟨f | ⟨e', c'⟩, q⟩ <;> rfl
  | cons x d ih =>
    simp only [List.cons_append, ksXor]
    rcases ksRefill C c p with ⟨f | c1, p1⟩
    · rfl
    · simp only [ih]
      rcases ksXor C { c1 with ksPos := c1.ksPos + 1 } d p1 with ⟨f | ⟨d', c2⟩, p2⟩
      · rfl
      · simp only
        rcases ksXor C c2 e p2 with ⟨f | ⟨e', c3⟩, p3⟩ <;> rfl

end Sys2Proof.Machine
end

