-- ==== Sys2Proof/Laws/Keystream.lean ====
section
/-! SUPPORT. The keystream of a context when the primitive answers `ok`: which bytes it gives, how far it goes, how many
requests it takes (`42_ctr.md` R161 to R164). -/

namespace Sys2Proof.Machine

variable {E : Block → Block}

/-- One byte further on, a context with an unused byte gives the rest of the same stream. -/
theorem Ctx.stream_next (c : Ctx) (t : Nat) : Ctx.stream E { c with ksPos := c.ksPos + 1 } t = c.stream E (t + 1) := by
  unfold Ctx.stream
  simp only [show c.ksPos + 1 + t = c.ksPos + (t + 1) by omega]

theorem Ctx.advanced_next (c : Ctx) (T : Nat) : Ctx.advanced E { c with ksPos := c.ksPos + 1 } T = c.advanced E (T + 1) := by
  unfold Ctx.advanced
  simp only [show c.ksPos + 1 + T = c.ksPos + (T + 1) by omega]

theorem be128_inc128 (b : Block) : be128 (inc128 b) = (be128 b + 1) % 2 ^ 128 := by
  rw [inc128, be128_bytes128, Nat.mod_mod]

/-- The keystream from the next counter block on is the keystream 16 bytes further on. -/
theorem keystream_inc128 (cb : Block) (t : Nat) : keystream E (inc128 cb) t = keystream E cb (t + 16) := by
  unfold keystream
  rw [be128_inc128, show (t + 16) / 16 = t / 16 + 1 by omega, show (t + 16) % 16 = t % 16 by omega, Nat.mod_add_mod,
    Nat.add_right_comm, Nat.add_assoc]

/-- The first block of the keystream is the cipher of the counter block itself. -/
theorem keystream_lt {cb : Block} {t : Nat} (h : t < 16) : keystream E cb t = (E cb).list.getD t 0 := by
  unfold keystream
  rw [show t / 16 = 0 by omega, Nat.add_zero, Nat.mod_eq_of_lt (be128_lt cb), bytes128_be128, Nat.mod_eq_of_lt h]

/-- The context after a refill and one byte. -/
def Ctx.refilled (E : Block → Block) (c : Ctx) : Ctx := { c with ks := E c.ctr, ctr := inc128 c.ctr, ksPos := 0 }

theorem Ctx.stream_refilled {c : Ctx} (h : c.ksPos = 16) (t : Nat) : (c.refilled E).stream E t = c.stream E t := by
  unfold Ctx.stream Ctx.refilled
  simp only [h, Nat.zero_add, show ¬ 16 + t < 16 by omega, if_false, show 16 + t - 16 = t by omega]
  split
  · rename_i ht
    rw [keystream_lt ht]
  · rename_i ht
    rw [keystream_inc128, Nat.sub_add_cancel (by omega)]

theorem Ctx.advanced_refilled {c : Ctx} (h : c.ksPos = 16) (T : Nat) (hT : 0 < T) :
    (c.refilled E).advanced E T = c.advanced E T := by
  have hq : (16 + T - 16 + 15) / 16 = (T - 16 + 15) / 16 + 1 := by omega
  unfold Ctx.advanced Ctx.refilled
  simp only [h, Nat.zero_add, hq, Nat.add_sub_cancel, Nat.add_one_ne_zero, if_false]
  by_cases h0 : (T - 16 + 15) / 16 = 0
  · simp only [h0, if_true, Nat.zero_add, Nat.add_zero, Nat.mod_eq_of_lt (be128_lt c.ctr), bytes128_be128]
    simp only [inc128]
    congr 1
    omega
  · simp only [h0, if_false, be128_inc128]
    obtain ⟨k, hk⟩ : ∃ k, (T - 16 + 15) / 16 = k + 1 := ⟨(T - 16 + 15) / 16 - 1, by omega⟩
    simp only [hk, Nat.add_sub_cancel, Nat.mod_add_mod]
    congr 1
    · congr 2; omega
    · congr 3; omega
    · omega

@[simp] theorem Ctx.boundKey_ksPos (c : Ctx) (n : Nat) : Ctx.boundKey { c with ksPos := n } = c.boundKey := rfl
@[simp] theorem Ctx.boundKey_refilled (c : Ctx) : (c.refilled E).boundKey = c.boundKey := rfl

theorem Ctx.advanced_ksPos_le {c : Ctx} (hc : c.ksPos ≤ 16) (T : Nat) : (c.advanced E T).ksPos ≤ 16 := by
  unfold Ctx.advanced
  simp only
  split <;> simp only <;> omega

@[simp] theorem Ctx.boundKey_advanced (c : Ctx) (T : Nat) : (c.advanced E T).boundKey = c.boundKey := by
  unfold Ctx.advanced
  simp only
  split <;> rfl

@[simp] theorem Ctx.kind_advanced (c : Ctx) (T : Nat) : (c.advanced E T).kind = c.kind := by
  unfold Ctx.advanced
  simp only
  split <;> rfl

theorem Ctx.advanced_zero {c : Ctx} (hc : c.ksPos ≤ 16) : c.advanced E 0 = c := by
  unfold Ctx.advanced
  rw [if_pos (by omega)]
  rfl

/-- One byte further on, whichever block it comes from. -/
def Ctx.next (E : Block → Block) (c : Ctx) : Ctx :=
  if c.ksPos < 16 then { c with ksPos := c.ksPos + 1 } else { c.refilled E with ksPos := (c.refilled E).ksPos + 1 }

theorem Ctx.stream_of_next {c : Ctx} (hc : c.ksPos ≤ 16) (t : Nat) : (c.next E).stream E t = c.stream E (t + 1) := by
  unfold Ctx.next
  split
  · exact Ctx.stream_next c t
  · rw [Ctx.stream_next, Ctx.stream_refilled (by omega)]

theorem Ctx.advanced_of_next {c : Ctx} (hc : c.ksPos ≤ 16) (T : Nat) : (c.next E).advanced E T = c.advanced E (T + 1) := by
  unfold Ctx.next
  split
  · exact Ctx.advanced_next c T
  · rw [Ctx.advanced_next, Ctx.advanced_refilled (by omega) _ (Nat.succ_pos _)]

theorem Ctx.next_ksPos_le {c : Ctx} : (c.next E).ksPos ≤ 16 := by
  unfold Ctx.next Ctx.refilled
  split <;> simp only <;> omega

/-- The stream of a context `T` bytes further on is the rest of its stream. -/
theorem Ctx.stream_advanced {c : Ctx} (hc : c.ksPos ≤ 16) (T t : Nat) :
    (c.advanced E T).stream E t = c.stream E (T + t) := by
  induction T generalizing c with
  | zero => rw [Ctx.advanced_zero hc, Nat.zero_add]
  | succ T ih =>
    rw [← Ctx.advanced_of_next hc, ih Ctx.next_ksPos_le, Ctx.stream_of_next hc]
    congr 1; omega

/-- In two stretches a context goes as far as in one. -/
theorem Ctx.advanced_advanced {c : Ctx} (hc : c.ksPos ≤ 16) (T U : Nat) :
    (c.advanced E T).advanced E U = c.advanced E (T + U) := by
  induction T generalizing c with
  | zero => rw [Ctx.advanced_zero hc, Nat.zero_add]
  | succ T ih =>
    rw [← Ctx.advanced_of_next hc, ih Ctx.next_ksPos_le, Ctx.advanced_of_next hc]
    congr 1; omega

/-- The blocks that `T` more bytes need. -/
def Ctx.blocksFor (c : Ctx) (T : Nat) : Nat := (c.ksPos + T - 16 + 15) / 16

/-- A context needs as many blocks for one byte more as for the rest once that byte is taken. -/
theorem Ctx.blocksFor_next (c : Ctx) (T : Nat) :
    Ctx.blocksFor { c with ksPos := c.ksPos + 1 } T = c.blocksFor (T + 1) := by
  simp only [Ctx.blocksFor, show c.ksPos + 1 + T = c.ksPos + (T + 1) by omega]

/-- A refill is one block of those a context needs. -/
theorem Ctx.blocksFor_refilled {c : Ctx} (h : c.ksPos = 16) (T : Nat) :
    c.blocksFor (T + 1) = Ctx.blocksFor { c.refilled E with ksPos := (c.refilled E).ksPos + 1 } T + 1 := by
  simp only [Ctx.blocksFor, Ctx.refilled, h]; omega

/-- With good answers to all the blocks it needs, `KsXor` gives the bytes XORed with the context's stream, leaves the
context that many bytes further on, and asks for a block only when its first byte is needed (R163). -/
theorem ksXor_good (C : Config) {c : Ctx} (hc : c.ksPos ≤ 16) (d : List Byte) {p : Port}
    (h : p.GoodFor (c.blocksFor d.length)) :
    ∃ ev, ksXor C c d p =
        (.ok (xorStream (c.stream (blockCipher C .enc c.boundKey)) 0 d,
          c.advanced (blockCipher C .enc c.boundKey) d.length), p.after (c.blocksFor d.length) ev) ∧
      PrimEvents C (c.blocksFor d.length) .enc c.boundKey ev := by
  induction d generalizing c p with
  | nil =>
    have h0 : c.blocksFor ([] : List Byte).length = 0 := by simp [Ctx.blocksFor]; omega
    rw [h0]
    exact ⟨[], by simp [ksXor, xorStream, Port.after_zero, Ctx.advanced_zero hc], PrimEvents.nil C .enc _⟩
  | cons x d ih =>
    by_cases hp : c.ksPos < 16
    · rw [List.length_cons, ← Ctx.blocksFor_next] at h ⊢
      obtain ⟨ev, e, hev⟩ := ih (c := { c with ksPos := c.ksPos + 1 }) (by simp only; omega) h
      refine ⟨ev, ?_, hev⟩
      simp only [ksXor, ksRefill, hp, if_true, e, Ctx.boundKey_ksPos, xorStream, Ctx.advanced_next]
      rw [xorStream_congr (off' := 1) (ks' := c.stream (blockCipher C .enc c.boundKey)) d fun t => ?_]
      · simp [Ctx.ksByte, Ctx.stream, hp]
      · rw [Ctx.stream_next]; congr 1; omega
    · have h16 : c.ksPos = 16 := by omega
      let E := blockCipher C .enc c.boundKey
      rw [List.length_cons, Ctx.blocksFor_refilled (E := E) h16] at h ⊢
      obtain ⟨ev, e, hev⟩ := ih (c := { c.refilled E with ksPos := (c.refilled E).ksPos + 1 })
        (p := p.after 1 [.prim .enc c.boundKey c.ctr (.ok (E c.ctr))])
        (by simp [Ctx.refilled]) (Port.goodFor_after (by rwa [Nat.add_comm]) _)
      refine ⟨.prim .enc c.boundKey c.ctr (.ok (E c.ctr)) :: ev, ?_, hev.cons c.ctr⟩
      simp only [Ctx.boundKey_ksPos, Ctx.boundKey_refilled] at e
      have e' := e
      simp only [Ctx.refilled, E] at e'
      simp only [ksXor, ksRefill, hp, if_false, Port.ask_good C .enc _ _ h, xorStream, e', Port.after_after,
        List.singleton_append]
      have hs : ∀ t, Ctx.stream E { c.refilled E with ksPos := (c.refilled E).ksPos + 1 } t = c.stream E (t + 1) := by
        intro t
        rw [Ctx.stream_next, Ctx.stream_refilled h16]
      have ha : Ctx.advanced E { c.refilled E with ksPos := (c.refilled E).ksPos + 1 } d.length =
          c.advanced E (d.length + 1) := by
        rw [Ctx.advanced_next, Ctx.advanced_refilled h16 _ (Nat.succ_pos _)]
      simp only [Ctx.refilled, E] at hs ha
      rw [ha, xorStream_congr (off' := 1) (ks' := c.stream (blockCipher C .enc c.boundKey)) d fun t => ?_]
      · simp [Ctx.ksByte, Ctx.stream, h16, keystream_lt, Ctx.refilled, E, Nat.add_comm]
      · rw [hs]; congr 1; omega

/-- A fault at block `j` stops `KsXor` there. -/
theorem ksXor_fault (C : Config) {c : Ctx} (hc : c.ksPos ≤ 16) (d : List Byte) {p : Port} {j : Nat} {code : Byte}
    {rest : List PrimAnswer} (h : p.plan = List.replicate j .ok ++ .fault code :: rest) (hj : j < c.blocksFor d.length) :
    ∃ ev b, ksXor C c d p =
        (.error code, { plan := rest, log := p.log ++ ev ++ [.prim .enc c.boundKey b (.fault code)] }) ∧
      PrimEvents C j .enc c.boundKey ev := by
  induction d generalizing c p j with
  | nil => simp [Ctx.blocksFor] at hj; omega
  | cons x d ih =>
    by_cases hp : c.ksPos < 16
    · rw [List.length_cons, ← Ctx.blocksFor_next] at hj
      obtain ⟨ev, b, e, hev⟩ := ih (c := { c with ksPos := c.ksPos + 1 }) (by simp only; omega) h hj
      refine ⟨ev, b, ?_, hev⟩
      simp only [ksXor, ksRefill, hp, if_true, e, Ctx.boundKey_ksPos]
    · have h16 : c.ksPos = 16 := by omega
      let E := blockCipher C .enc c.boundKey
      rw [List.length_cons, Ctx.blocksFor_refilled (E := E) h16] at hj
      cases j with
      | zero =>
        refine ⟨[], c.ctr, ?_, PrimEvents.nil C .enc _⟩
        simp only [ksXor, ksRefill, hp, if_false, Port.ask_fault C .enc _ _ h, List.append_nil]
      | succ j =>
        have hg : p.GoodFor 1 := by intro a ha; rw [h, List.replicate_succ] at ha; simpa using ha
        obtain ⟨ev, b, e, hev⟩ := ih (c := { c.refilled E with ksPos := (c.refilled E).ksPos + 1 })
          (p := p.after 1 [.prim .enc c.boundKey c.ctr (.ok (E c.ctr))]) (j := j)
          (by simp [Ctx.refilled]) (by rw [Port.after_plan, h]; rfl) (by omega)
        refine ⟨.prim .enc c.boundKey c.ctr (.ok (E c.ctr)) :: ev, b, ?_, hev.cons c.ctr⟩
        simp only [Ctx.boundKey_ksPos, Ctx.boundKey_refilled] at e
        simp only [Ctx.refilled, E] at e
        simp only [ksXor, ksRefill, hp, if_false, Port.ask_good C .enc _ _ hg, e, Port.after_log, List.append_assoc,
          List.cons_append, List.nil_append, E]

/-- With a primitive that never faults, `KsXor` does not fault. -/
theorem ksXor_error {C : Config} {c : Ctx} {d : List Byte} {f : Byte} {p q : Port}
    (h : ksXor C c d p = (.error f, q)) : ¬ p.NeverFaults := by
  intro hp
  induction d generalizing c p with
  | nil => cases (Prod.mk.inj h).1
  | cons x d ih =>
    simp only [ksXor, ksRefill] at h
    split at h
    · rename_i hr
      split at hr
      · cases (Prod.mk.inj hr).1
      · rw [Port.ask_good C .enc _ _ (hp.good 1)] at hr
        cases (Prod.mk.inj hr).1
    · rename_i c1 p1 hr
      have hp1 : p1.NeverFaults := by
        split at hr
        · cases (Prod.mk.inj hr).2; exact hp
        · rw [Port.ask_good C .enc _ _ (hp.good 1)] at hr
          cases (Prod.mk.inj hr).2
          exact hp.after 1 _
      split at h
      · rename_i e2
        simp only [Prod.mk.injEq, Except.error.injEq] at h
        obtain ⟨rfl, rfl⟩ := h
        exact ih e2 hp1
      · cases (Prod.mk.inj h).1

end Sys2Proof.Machine
end

