-- ==== Sys2Proof/Laws/Memory.lean ====
section
/-! SUPPORT. The buffer memories: read after write, and that every operation keeps the canonical form. -/

namespace Sys2Proof.Machine

theorem Memory.get_set (m : Memory) (k : Nat) (v : Byte) (j : Nat) :
    Memory.get (Memory.set m k v) j = if j = k then some v else Memory.get m j := by
  induction m with
  | nil => by_cases h : k = j <;> simp [Memory.set, Memory.get, h, eq_comm]
  | cons c m ih =>
    obtain ⟨a, b⟩ := c
    simp only [Memory.set]
    split
    · by_cases h : k = j <;> simp [Memory.get, h, eq_comm]
    · split
      · rename_i h; subst h
        by_cases h : k = j <;> simp [Memory.get, h, eq_comm]
      · rename_i h1 h2
        simp only [Memory.get, ih]
        by_cases h : a = j
        · subst h
          have : a ≠ k := fun e => h2 e.symm
          simp [this]
        · simp [h]

@[simp] theorem Memory.get_set_self (m : Memory) (k : Nat) (v : Byte) : Memory.get (Memory.set m k v) k = some v := by
  simp [Memory.get_set]

theorem Memory.get_set_other (m : Memory) {k j : Nat} (v : Byte) (h : j ≠ k) :
    Memory.get (Memory.set m k v) j = Memory.get m j := by
  simp [Memory.get_set, h]

theorem Memory.mem_set {m : Memory} {k : Nat} {v : Byte} {c : Host.Cell} (h : c ∈ Memory.set m k v) :
    c.1 = k ∨ c ∈ m := by
  induction m with
  | nil => simp [Memory.set] at h; simp [h]
  | cons d m ih =>
    obtain ⟨a, b⟩ := d
    simp only [Memory.set] at h
    split at h
    · rcases List.mem_cons.1 h with h | h
      · simp [h]
      · exact .inr h
    · split at h
      · rcases List.mem_cons.1 h with h | h
        · simp [h]
        · exact .inr (List.mem_cons_of_mem _ h)
      · rcases List.mem_cons.1 h with h | h
        · simp [h]
        · exact (ih h).imp id (List.mem_cons_of_mem _)

/-- A write keeps the canonical form. -/
theorem Memory.set_wf {m : Memory} (h : Memory.wf m) (k : Nat) (v : Byte) : Memory.wf (Memory.set m k v) := by
  induction m with
  | nil => simp [Memory.set, Memory.wf]
  | cons c m ih =>
    obtain ⟨a, b⟩ := c
    obtain ⟨h1, h2⟩ := List.pairwise_cons.1 h
    simp only [Memory.set]
    split
    · rename_i hk
      refine List.pairwise_cons.2 ⟨fun c hc => ?_, h⟩
      rcases List.mem_cons.1 hc with hc | hc
      · simpa [hc] using hk
      · exact hk.trans (h1 c hc)
    · split
      · rename_i hk; subst hk
        exact List.pairwise_cons.2 ⟨h1, h2⟩
      · rename_i hk1 hk2
        refine List.pairwise_cons.2 ⟨fun c hc => ?_, ih h2⟩
        rcases Memory.mem_set hc with hc | hc
        · simp only; omega
        · exact h1 c hc

theorem Memory.mem_ofBytes {a : Nat} {bs : List Byte} {c : Host.Cell} (h : c ∈ Memory.ofBytes a bs) :
    a ≤ c.1 ∧ c.1 < a + bs.length := by
  induction bs generalizing a with
  | nil => simp [Memory.ofBytes] at h
  | cons b bs ih =>
    rcases List.mem_cons.1 h with h | h
    · simp [h]
    · have := ih h
      simp only [List.length_cons]; omega

/-- A loaded byte sequence is in canonical form. -/
theorem Memory.ofBytes_wf (a : Nat) (bs : List Byte) : Memory.wf (Memory.ofBytes a bs) := by
  induction bs generalizing a with
  | nil => simp [Memory.ofBytes, Memory.wf]
  | cons b bs ih =>
    refine List.pairwise_cons.2 ⟨fun c hc => ?_, ih (a + 1)⟩
    have := (Memory.mem_ofBytes hc).1
    simp only; omega

theorem Memory.get_ofBytes (a : Nat) (bs : List Byte) (k : Nat) :
    Memory.get (Memory.ofBytes a bs) k = if a ≤ k then bs[k - a]? else none := by
  induction bs generalizing a with
  | nil => simp [Memory.ofBytes, Memory.get]
  | cons b bs ih =>
    simp only [Memory.ofBytes, Memory.get, ih]
    by_cases h : a = k
    · simp [h]
    · by_cases h' : a ≤ k
      · have e : k - a = (k - (a + 1)) + 1 := by omega
        have : a + 1 ≤ k := by omega
        simp [h, h', this, e]
      · have : ¬ a + 1 ≤ k := by omega
        simp [h, h', this]

@[simp] theorem Memory.get_ofBytes_zero (bs : List Byte) (k : Nat) : Memory.get (Memory.ofBytes 0 bs) k = bs[k]? := by
  simp [Memory.get_ofBytes]

/-- A host write of a byte or a word keeps the canonical form. -/
theorem writeBuf_wf {m : Memory} (h : Memory.wf m) (addr width : Nat) (v : Word) : Memory.wf (writeBuf m addr width v) := by
  unfold writeBuf
  split
  · exact Memory.set_wf h _ _
  · exact Memory.set_wf (Memory.set_wf (Memory.set_wf (Memory.set_wf h _ _) _ _) _ _) _ _

/-- A memory in canonical form is determined by what its addresses hold. -/
theorem Memory.ext_of_wf {m n : Memory} (hm : Memory.wf m) (hn : Memory.wf n)
    (h : ∀ a, Memory.get m a = Memory.get n a) : m = n := by
  have above : ∀ {l : Memory} {a : Nat}, (∀ c ∈ l, a < c.1) → Memory.get l a = none := by
    intro l a hl
    induction l with
    | nil => rfl
    | cons c l ih =>
      have hc := hl c (List.mem_cons_self ..)
      have : ¬ c.1 = a := by omega
      simp only [Memory.get, this, if_false]
      exact ih fun d hd => hl d (List.mem_cons_of_mem _ hd)
  have self : ∀ (a : Nat) (b : Byte) (l : Memory), Memory.get ((a, b) :: l) a = some b := by
    intro a b l; simp [Memory.get]
  induction m generalizing n with
  | nil =>
    cases n with
    | nil => rfl
    | cons d n =>
      have := h d.1
      rw [show d = (d.1, d.2) from rfl, self] at this
      simp [Memory.get] at this
  | cons c m ih =>
    obtain ⟨a, b⟩ := c
    obtain ⟨hm1, hm2⟩ := List.pairwise_cons.1 hm
    cases n with
    | nil => have := h a; rw [self] at this; simp [Memory.get] at this
    | cons d n =>
      obtain ⟨a', b'⟩ := d
      obtain ⟨hn1, hn2⟩ := List.pairwise_cons.1 hn
      have key : a = a' := by
        rcases Nat.lt_trichotomy a a' with hlt | heq | hgt
        · have h1 := h a
          rw [self, above] at h1
          · simp at h1
          · intro c hc
            rcases List.mem_cons.1 hc with rfl | hc
            · exact hlt
            · exact hlt.trans (hn1 c hc)
        · exact heq
        · have h1 := h a'
          rw [self, above] at h1
          · simp at h1
          · intro c hc
            rcases List.mem_cons.1 hc with rfl | hc
            · exact hgt
            · exact hgt.trans (hm1 c hc)
      subst key
      have hb := h a
      rw [self, self] at hb
      cases hb
      rw [ih hm2 hn2 fun x => ?_]
      by_cases hx : a = x
      · subst hx; rw [above hm1, above hn1]
      · have := h x; simpa [Memory.get, hx] using this

theorem readBytes_length (C : Config) (n : Nat) (m : Memory) (a k : Nat) : (readBytes C n m a k).length = k := by
  simp [readBytes]

/-- Reading a loaded byte sequence back gives it, whatever the draws. -/
theorem readBytes_ofBytes (C : Config) (n : Nat) (bs : List Byte) :
    readBytes C n (Memory.ofBytes 0 bs) 0 bs.length = bs := by
  apply List.ext_getElem (by simp [readBytes])
  intro i h1 h2
  simp [readBytes, readByte, h2]

end Sys2Proof.Machine
end

