-- ==== Sys2Proof/Laws/State.lean ====
section
/-! SUPPORT. One lemma per field of State and per named update: what the update leaves in the field. -/

namespace Sys2Proof.Machine

/-! ## `drawn` -/

@[simp] theorem drawn_params (s : State) : (drawn s).params = s.params := rfl
@[simp] theorem drawn_key (s : State) : (drawn s).key = s.key := rfl
@[simp] theorem drawn_klen (s : State) : (drawn s).klen = s.klen := rfl
@[simp] theorem drawn_iv (s : State) : (drawn s).iv = s.iv := rfl
@[simp] theorem drawn_ivlen (s : State) : (drawn s).ivlen = s.ivlen := rfl
@[simp] theorem drawn_ilen (s : State) : (drawn s).ilen = s.ilen := rfl
@[simp] theorem drawn_srcId (s : State) : (drawn s).srcId = s.srcId := rfl
@[simp] theorem drawn_dstId (s : State) : (drawn s).dstId = s.dstId := rfl
@[simp] theorem drawn_err (s : State) : (drawn s).err = s.err := rfl
@[simp] theorem drawn_rej (s : State) : (drawn s).rej = s.rej := rfl
@[simp] theorem drawn_rejCause (s : State) : (drawn s).rejCause = s.rejCause := rfl
@[simp] theorem drawn_errKind (s : State) : (drawn s).errKind = s.errKind := rfl
@[simp] theorem drawn_ioWhere (s : State) : (drawn s).ioWhere = s.ioWhere := rfl
@[simp] theorem drawn_ioErr (s : State) : (drawn s).ioErr = s.ioErr := rfl
@[simp] theorem drawn_olen (s : State) : (drawn s).olen = s.olen := rfl
@[simp] theorem drawn_ibuf (s : State) : (drawn s).ibuf = s.ibuf := rfl
@[simp] theorem drawn_obuf (s : State) : (drawn s).obuf = s.obuf := rfl
@[simp] theorem drawn_ctx (s : State) : (drawn s).ctx = s.ctx := rfl
@[simp] theorem drawn_phase (s : State) : (drawn s).phase = s.phase := rfl
@[simp] theorem drawn_scratch (s : State) : (drawn s).scratch = s.scratch := rfl
@[simp] theorem drawn_srcOpen (s : State) : (drawn s).srcOpen = s.srcOpen := rfl
@[simp] theorem drawn_dstOpen (s : State) : (drawn s).dstOpen = s.dstOpen := rfl
@[simp] theorem drawn_job (s : State) : (drawn s).job = s.job := rfl
@[simp] theorem drawn_inputs (s : State) : (drawn s).inputs = s.inputs := rfl
@[simp] theorem drawn_answers (s : State) : (drawn s).answers = s.answers := rfl
@[simp] theorem drawn_primPlan (s : State) : (drawn s).primPlan = s.primPlan := rfl
@[simp] theorem drawn_draws (s : State) : (drawn s).draws = s.draws + 1 := rfl
@[simp] theorem drawn_log (s : State) : (drawn s).log = s.log := rfl

/-! ## `putOutput` -/

@[simp] theorem putOutput_params (v : List Byte) (s : State) : (putOutput v s).params = s.params := rfl
@[simp] theorem putOutput_key (v : List Byte) (s : State) : (putOutput v s).key = s.key := rfl
@[simp] theorem putOutput_klen (v : List Byte) (s : State) : (putOutput v s).klen = s.klen := rfl
@[simp] theorem putOutput_iv (v : List Byte) (s : State) : (putOutput v s).iv = s.iv := rfl
@[simp] theorem putOutput_ivlen (v : List Byte) (s : State) : (putOutput v s).ivlen = s.ivlen := rfl
@[simp] theorem putOutput_ilen (v : List Byte) (s : State) : (putOutput v s).ilen = s.ilen := rfl
@[simp] theorem putOutput_srcId (v : List Byte) (s : State) : (putOutput v s).srcId = s.srcId := rfl
@[simp] theorem putOutput_dstId (v : List Byte) (s : State) : (putOutput v s).dstId = s.dstId := rfl
@[simp] theorem putOutput_err (v : List Byte) (s : State) : (putOutput v s).err = s.err := rfl
@[simp] theorem putOutput_rej (v : List Byte) (s : State) : (putOutput v s).rej = s.rej := rfl
@[simp] theorem putOutput_rejCause (v : List Byte) (s : State) : (putOutput v s).rejCause = s.rejCause := rfl
@[simp] theorem putOutput_errKind (v : List Byte) (s : State) : (putOutput v s).errKind = s.errKind := rfl
@[simp] theorem putOutput_ioWhere (v : List Byte) (s : State) : (putOutput v s).ioWhere = s.ioWhere := rfl
@[simp] theorem putOutput_ioErr (v : List Byte) (s : State) : (putOutput v s).ioErr = s.ioErr := rfl
@[simp] theorem putOutput_olen (v : List Byte) (s : State) : (putOutput v s).olen = BitVec.ofNat 32 v.length := rfl
@[simp] theorem putOutput_ibuf (v : List Byte) (s : State) : (putOutput v s).ibuf = s.ibuf := rfl
@[simp] theorem putOutput_obuf (v : List Byte) (s : State) : (putOutput v s).obuf = Memory.ofBytes 0 v := rfl
@[simp] theorem putOutput_ctx (v : List Byte) (s : State) : (putOutput v s).ctx = s.ctx := rfl
@[simp] theorem putOutput_phase (v : List Byte) (s : State) : (putOutput v s).phase = s.phase := rfl
@[simp] theorem putOutput_scratch (v : List Byte) (s : State) : (putOutput v s).scratch = s.scratch := rfl
@[simp] theorem putOutput_srcOpen (v : List Byte) (s : State) : (putOutput v s).srcOpen = s.srcOpen := rfl
@[simp] theorem putOutput_dstOpen (v : List Byte) (s : State) : (putOutput v s).dstOpen = s.dstOpen := rfl
@[simp] theorem putOutput_job (v : List Byte) (s : State) : (putOutput v s).job = s.job := rfl
@[simp] theorem putOutput_inputs (v : List Byte) (s : State) : (putOutput v s).inputs = s.inputs := rfl
@[simp] theorem putOutput_answers (v : List Byte) (s : State) : (putOutput v s).answers = s.answers := rfl
@[simp] theorem putOutput_primPlan (v : List Byte) (s : State) : (putOutput v s).primPlan = s.primPlan := rfl
@[simp] theorem putOutput_draws (v : List Byte) (s : State) : (putOutput v s).draws = s.draws := rfl
@[simp] theorem putOutput_log (v : List Byte) (s : State) : (putOutput v s).log = s.log := rfl

/-! ## `putPort` -/

@[simp] theorem putPort_params (p : Port) (s : State) : (putPort p s).params = s.params := rfl
@[simp] theorem putPort_key (p : Port) (s : State) : (putPort p s).key = s.key := rfl
@[simp] theorem putPort_klen (p : Port) (s : State) : (putPort p s).klen = s.klen := rfl
@[simp] theorem putPort_iv (p : Port) (s : State) : (putPort p s).iv = s.iv := rfl
@[simp] theorem putPort_ivlen (p : Port) (s : State) : (putPort p s).ivlen = s.ivlen := rfl
@[simp] theorem putPort_ilen (p : Port) (s : State) : (putPort p s).ilen = s.ilen := rfl
@[simp] theorem putPort_srcId (p : Port) (s : State) : (putPort p s).srcId = s.srcId := rfl
@[simp] theorem putPort_dstId (p : Port) (s : State) : (putPort p s).dstId = s.dstId := rfl
@[simp] theorem putPort_err (p : Port) (s : State) : (putPort p s).err = s.err := rfl
@[simp] theorem putPort_rej (p : Port) (s : State) : (putPort p s).rej = s.rej := rfl
@[simp] theorem putPort_rejCause (p : Port) (s : State) : (putPort p s).rejCause = s.rejCause := rfl
@[simp] theorem putPort_errKind (p : Port) (s : State) : (putPort p s).errKind = s.errKind := rfl
@[simp] theorem putPort_ioWhere (p : Port) (s : State) : (putPort p s).ioWhere = s.ioWhere := rfl
@[simp] theorem putPort_ioErr (p : Port) (s : State) : (putPort p s).ioErr = s.ioErr := rfl
@[simp] theorem putPort_olen (p : Port) (s : State) : (putPort p s).olen = s.olen := rfl
@[simp] theorem putPort_ibuf (p : Port) (s : State) : (putPort p s).ibuf = s.ibuf := rfl
@[simp] theorem putPort_obuf (p : Port) (s : State) : (putPort p s).obuf = s.obuf := rfl
@[simp] theorem putPort_ctx (p : Port) (s : State) : (putPort p s).ctx = s.ctx := rfl
@[simp] theorem putPort_phase (p : Port) (s : State) : (putPort p s).phase = s.phase := rfl
@[simp] theorem putPort_scratch (p : Port) (s : State) : (putPort p s).scratch = s.scratch := rfl
@[simp] theorem putPort_srcOpen (p : Port) (s : State) : (putPort p s).srcOpen = s.srcOpen := rfl
@[simp] theorem putPort_dstOpen (p : Port) (s : State) : (putPort p s).dstOpen = s.dstOpen := rfl
@[simp] theorem putPort_job (p : Port) (s : State) : (putPort p s).job = s.job := rfl
@[simp] theorem putPort_inputs (p : Port) (s : State) : (putPort p s).inputs = s.inputs := rfl
@[simp] theorem putPort_answers (p : Port) (s : State) : (putPort p s).answers = s.answers := rfl
@[simp] theorem putPort_primPlan (p : Port) (s : State) : (putPort p s).primPlan = p.plan := rfl
@[simp] theorem putPort_draws (p : Port) (s : State) : (putPort p s).draws = s.draws := rfl
@[simp] theorem putPort_log (p : Port) (s : State) : (putPort p s).log = p.log := rfl

/-! ## `reject` -/

@[simp] theorem reject_params (c : RejCause) (s : State) : (reject c s).params = s.params := rfl
@[simp] theorem reject_key (c : RejCause) (s : State) : (reject c s).key = s.key := rfl
@[simp] theorem reject_klen (c : RejCause) (s : State) : (reject c s).klen = s.klen := rfl
@[simp] theorem reject_iv (c : RejCause) (s : State) : (reject c s).iv = s.iv := rfl
@[simp] theorem reject_ivlen (c : RejCause) (s : State) : (reject c s).ivlen = s.ivlen := rfl
@[simp] theorem reject_ilen (c : RejCause) (s : State) : (reject c s).ilen = s.ilen := rfl
@[simp] theorem reject_srcId (c : RejCause) (s : State) : (reject c s).srcId = s.srcId := rfl
@[simp] theorem reject_dstId (c : RejCause) (s : State) : (reject c s).dstId = s.dstId := rfl
@[simp] theorem reject_err (c : RejCause) (s : State) : (reject c s).err = s.err := rfl
@[simp] theorem reject_rej (c : RejCause) (s : State) : (reject c s).rej = true := rfl
@[simp] theorem reject_rejCause (c : RejCause) (s : State) : (reject c s).rejCause = c := rfl
@[simp] theorem reject_errKind (c : RejCause) (s : State) : (reject c s).errKind = s.errKind := rfl
@[simp] theorem reject_ioWhere (c : RejCause) (s : State) : (reject c s).ioWhere = s.ioWhere := rfl
@[simp] theorem reject_ioErr (c : RejCause) (s : State) : (reject c s).ioErr = s.ioErr := rfl
@[simp] theorem reject_olen (c : RejCause) (s : State) : (reject c s).olen = s.olen := rfl
@[simp] theorem reject_ibuf (c : RejCause) (s : State) : (reject c s).ibuf = s.ibuf := rfl
@[simp] theorem reject_obuf (c : RejCause) (s : State) : (reject c s).obuf = s.obuf := rfl
@[simp] theorem reject_ctx (c : RejCause) (s : State) : (reject c s).ctx = s.ctx := rfl
@[simp] theorem reject_phase (c : RejCause) (s : State) : (reject c s).phase = s.phase := rfl
@[simp] theorem reject_scratch (c : RejCause) (s : State) : (reject c s).scratch = s.scratch := rfl
@[simp] theorem reject_srcOpen (c : RejCause) (s : State) : (reject c s).srcOpen = s.srcOpen := rfl
@[simp] theorem reject_dstOpen (c : RejCause) (s : State) : (reject c s).dstOpen = s.dstOpen := rfl
@[simp] theorem reject_job (c : RejCause) (s : State) : (reject c s).job = s.job := rfl
@[simp] theorem reject_inputs (c : RejCause) (s : State) : (reject c s).inputs = s.inputs := rfl
@[simp] theorem reject_answers (c : RejCause) (s : State) : (reject c s).answers = s.answers := rfl
@[simp] theorem reject_primPlan (c : RejCause) (s : State) : (reject c s).primPlan = s.primPlan := rfl
@[simp] theorem reject_draws (c : RejCause) (s : State) : (reject c s).draws = s.draws := rfl
@[simp] theorem reject_log (c : RejCause) (s : State) : (reject c s).log = s.log := rfl

/-! ## `accept` -/

@[simp] theorem accept_params (s : State) : (accept s).params = s.params := rfl
@[simp] theorem accept_key (s : State) : (accept s).key = s.key := rfl
@[simp] theorem accept_klen (s : State) : (accept s).klen = s.klen := rfl
@[simp] theorem accept_iv (s : State) : (accept s).iv = s.iv := rfl
@[simp] theorem accept_ivlen (s : State) : (accept s).ivlen = s.ivlen := rfl
@[simp] theorem accept_ilen (s : State) : (accept s).ilen = s.ilen := rfl
@[simp] theorem accept_srcId (s : State) : (accept s).srcId = s.srcId := rfl
@[simp] theorem accept_dstId (s : State) : (accept s).dstId = s.dstId := rfl
@[simp] theorem accept_err (s : State) : (accept s).err = false := rfl
@[simp] theorem accept_rej (s : State) : (accept s).rej = false := rfl
@[simp] theorem accept_rejCause (s : State) : (accept s).rejCause = .none := rfl
@[simp] theorem accept_errKind (s : State) : (accept s).errKind = .none := rfl
@[simp] theorem accept_ioWhere (s : State) : (accept s).ioWhere = .none := rfl
@[simp] theorem accept_ioErr (s : State) : (accept s).ioErr = 0 := rfl
@[simp] theorem accept_olen (s : State) : (accept s).olen = 0 := rfl
@[simp] theorem accept_ibuf (s : State) : (accept s).ibuf = s.ibuf := rfl
@[simp] theorem accept_obuf (s : State) : (accept s).obuf = [] := rfl
@[simp] theorem accept_ctx (s : State) : (accept s).ctx = s.ctx := rfl
@[simp] theorem accept_phase (s : State) : (accept s).phase = .run := rfl
@[simp] theorem accept_scratch (s : State) : (accept s).scratch = s.scratch := rfl
@[simp] theorem accept_srcOpen (s : State) : (accept s).srcOpen = s.srcOpen := rfl
@[simp] theorem accept_dstOpen (s : State) : (accept s).dstOpen = s.dstOpen := rfl
@[simp] theorem accept_job (s : State) : (accept s).job = s.job := rfl
@[simp] theorem accept_inputs (s : State) : (accept s).inputs = s.inputs := rfl
@[simp] theorem accept_answers (s : State) : (accept s).answers = s.answers := rfl
@[simp] theorem accept_primPlan (s : State) : (accept s).primPlan = s.primPlan := rfl
@[simp] theorem accept_draws (s : State) : (accept s).draws = s.draws := rfl
@[simp] theorem accept_log (s : State) : (accept s).log = s.log := rfl

/-! ## `complete` -/

@[simp] theorem complete_params (s : State) : (complete s).params = s.params := rfl
@[simp] theorem complete_key (s : State) : (complete s).key = s.key := rfl
@[simp] theorem complete_klen (s : State) : (complete s).klen = s.klen := rfl
@[simp] theorem complete_iv (s : State) : (complete s).iv = s.iv := rfl
@[simp] theorem complete_ivlen (s : State) : (complete s).ivlen = s.ivlen := rfl
@[simp] theorem complete_ilen (s : State) : (complete s).ilen = s.ilen := rfl
@[simp] theorem complete_srcId (s : State) : (complete s).srcId = s.srcId := rfl
@[simp] theorem complete_dstId (s : State) : (complete s).dstId = s.dstId := rfl
@[simp] theorem complete_err (s : State) : (complete s).err = s.err := rfl
@[simp] theorem complete_rej (s : State) : (complete s).rej = s.rej := rfl
@[simp] theorem complete_rejCause (s : State) : (complete s).rejCause = s.rejCause := rfl
@[simp] theorem complete_errKind (s : State) : (complete s).errKind = s.errKind := rfl
@[simp] theorem complete_ioWhere (s : State) : (complete s).ioWhere = s.ioWhere := rfl
@[simp] theorem complete_ioErr (s : State) : (complete s).ioErr = s.ioErr := rfl
@[simp] theorem complete_olen (s : State) : (complete s).olen = s.olen := rfl
@[simp] theorem complete_ibuf (s : State) : (complete s).ibuf = s.ibuf := rfl
@[simp] theorem complete_obuf (s : State) : (complete s).obuf = s.obuf := rfl
@[simp] theorem complete_ctx (s : State) : (complete s).ctx = s.ctx := rfl
@[simp] theorem complete_phase (s : State) : (complete s).phase = .idle := rfl
@[simp] theorem complete_scratch (s : State) : (complete s).scratch = Ctx.empty := rfl
@[simp] theorem complete_srcOpen (s : State) : (complete s).srcOpen = s.srcOpen := rfl
@[simp] theorem complete_dstOpen (s : State) : (complete s).dstOpen = s.dstOpen := rfl
@[simp] theorem complete_job (s : State) : (complete s).job = none := rfl
@[simp] theorem complete_inputs (s : State) : (complete s).inputs = s.inputs := rfl
@[simp] theorem complete_answers (s : State) : (complete s).answers = s.answers := rfl
@[simp] theorem complete_primPlan (s : State) : (complete s).primPlan = s.primPlan := rfl
@[simp] theorem complete_draws (s : State) : (complete s).draws = s.draws := rfl
@[simp] theorem complete_log (s : State) : (complete s).log = s.log := rfl

/-! ## `raise` -/

@[simp] theorem raise_params (e : TypedError) (s : State) : (raise e s).params = s.params := rfl
@[simp] theorem raise_key (e : TypedError) (s : State) : (raise e s).key = s.key := rfl
@[simp] theorem raise_klen (e : TypedError) (s : State) : (raise e s).klen = s.klen := rfl
@[simp] theorem raise_iv (e : TypedError) (s : State) : (raise e s).iv = s.iv := rfl
@[simp] theorem raise_ivlen (e : TypedError) (s : State) : (raise e s).ivlen = s.ivlen := rfl
@[simp] theorem raise_ilen (e : TypedError) (s : State) : (raise e s).ilen = s.ilen := rfl
@[simp] theorem raise_srcId (e : TypedError) (s : State) : (raise e s).srcId = s.srcId := rfl
@[simp] theorem raise_dstId (e : TypedError) (s : State) : (raise e s).dstId = s.dstId := rfl
@[simp] theorem raise_err (e : TypedError) (s : State) : (raise e s).err = true := rfl
@[simp] theorem raise_rej (e : TypedError) (s : State) : (raise e s).rej = s.rej := rfl
@[simp] theorem raise_rejCause (e : TypedError) (s : State) : (raise e s).rejCause = s.rejCause := rfl
@[simp] theorem raise_errKind (e : TypedError) (s : State) : (raise e s).errKind = e.kind := rfl
@[simp] theorem raise_ioWhere (e : TypedError) (s : State) : (raise e s).ioWhere = e.ioWhere := rfl
@[simp] theorem raise_ioErr (e : TypedError) (s : State) : (raise e s).ioErr = e.ioCode := rfl
@[simp] theorem raise_olen (e : TypedError) (s : State) : (raise e s).olen = 0 := rfl
@[simp] theorem raise_ibuf (e : TypedError) (s : State) : (raise e s).ibuf = s.ibuf := rfl
@[simp] theorem raise_obuf (e : TypedError) (s : State) : (raise e s).obuf = s.obuf := rfl
@[simp] theorem raise_ctx (e : TypedError) (s : State) : (raise e s).ctx = s.ctx := rfl
@[simp] theorem raise_phase (e : TypedError) (s : State) : (raise e s).phase = .idle := rfl
@[simp] theorem raise_scratch (e : TypedError) (s : State) : (raise e s).scratch = Ctx.empty := rfl
@[simp] theorem raise_srcOpen (e : TypedError) (s : State) : (raise e s).srcOpen = s.srcOpen := rfl
@[simp] theorem raise_dstOpen (e : TypedError) (s : State) : (raise e s).dstOpen = s.dstOpen := rfl
@[simp] theorem raise_job (e : TypedError) (s : State) : (raise e s).job = none := rfl
@[simp] theorem raise_inputs (e : TypedError) (s : State) : (raise e s).inputs = s.inputs := rfl
@[simp] theorem raise_answers (e : TypedError) (s : State) : (raise e s).answers = s.answers := rfl
@[simp] theorem raise_primPlan (e : TypedError) (s : State) : (raise e s).primPlan = s.primPlan := rfl
@[simp] theorem raise_draws (e : TypedError) (s : State) : (raise e s).draws = s.draws := rfl
@[simp] theorem raise_log (e : TypedError) (s : State) : (raise e s).log = s.log := rfl

/-! ## `goFatal` -/

@[simp] theorem goFatal_params (s : State) : (goFatal s).params = s.params := rfl
@[simp] theorem goFatal_key (s : State) : (goFatal s).key = s.key := rfl
@[simp] theorem goFatal_klen (s : State) : (goFatal s).klen = s.klen := rfl
@[simp] theorem goFatal_iv (s : State) : (goFatal s).iv = s.iv := rfl
@[simp] theorem goFatal_ivlen (s : State) : (goFatal s).ivlen = s.ivlen := rfl
@[simp] theorem goFatal_ilen (s : State) : (goFatal s).ilen = s.ilen := rfl
@[simp] theorem goFatal_srcId (s : State) : (goFatal s).srcId = s.srcId := rfl
@[simp] theorem goFatal_dstId (s : State) : (goFatal s).dstId = s.dstId := rfl
@[simp] theorem goFatal_err (s : State) : (goFatal s).err = false := rfl
@[simp] theorem goFatal_rej (s : State) : (goFatal s).rej = s.rej := rfl
@[simp] theorem goFatal_rejCause (s : State) : (goFatal s).rejCause = s.rejCause := rfl
@[simp] theorem goFatal_errKind (s : State) : (goFatal s).errKind = .none := rfl
@[simp] theorem goFatal_ioWhere (s : State) : (goFatal s).ioWhere = .none := rfl
@[simp] theorem goFatal_ioErr (s : State) : (goFatal s).ioErr = s.ioErr := rfl
@[simp] theorem goFatal_olen (s : State) : (goFatal s).olen = 0 := rfl
@[simp] theorem goFatal_ibuf (s : State) : (goFatal s).ibuf = s.ibuf := rfl
@[simp] theorem goFatal_obuf (s : State) : (goFatal s).obuf = s.obuf := rfl
@[simp] theorem goFatal_ctx (s : State) : (goFatal s).ctx = s.ctx := rfl
@[simp] theorem goFatal_phase (s : State) : (goFatal s).phase = .fatal := rfl
@[simp] theorem goFatal_scratch (s : State) : (goFatal s).scratch = Ctx.empty := rfl
@[simp] theorem goFatal_srcOpen (s : State) : (goFatal s).srcOpen = s.srcOpen := rfl
@[simp] theorem goFatal_dstOpen (s : State) : (goFatal s).dstOpen = s.dstOpen := rfl
@[simp] theorem goFatal_job (s : State) : (goFatal s).job = none := rfl
@[simp] theorem goFatal_inputs (s : State) : (goFatal s).inputs = s.inputs := rfl
@[simp] theorem goFatal_answers (s : State) : (goFatal s).answers = s.answers := rfl
@[simp] theorem goFatal_primPlan (s : State) : (goFatal s).primPlan = s.primPlan := rfl
@[simp] theorem goFatal_draws (s : State) : (goFatal s).draws = s.draws := rfl
@[simp] theorem goFatal_log (s : State) : (goFatal s).log = s.log := rfl

/-! ## `dropCtx` -/

@[simp] theorem dropCtx_params (s : State) : (dropCtx s).params = s.params := rfl
@[simp] theorem dropCtx_key (s : State) : (dropCtx s).key = s.key := rfl
@[simp] theorem dropCtx_klen (s : State) : (dropCtx s).klen = s.klen := rfl
@[simp] theorem dropCtx_iv (s : State) : (dropCtx s).iv = s.iv := rfl
@[simp] theorem dropCtx_ivlen (s : State) : (dropCtx s).ivlen = s.ivlen := rfl
@[simp] theorem dropCtx_ilen (s : State) : (dropCtx s).ilen = s.ilen := rfl
@[simp] theorem dropCtx_srcId (s : State) : (dropCtx s).srcId = s.srcId := rfl
@[simp] theorem dropCtx_dstId (s : State) : (dropCtx s).dstId = s.dstId := rfl
@[simp] theorem dropCtx_err (s : State) : (dropCtx s).err = s.err := rfl
@[simp] theorem dropCtx_rej (s : State) : (dropCtx s).rej = s.rej := rfl
@[simp] theorem dropCtx_rejCause (s : State) : (dropCtx s).rejCause = s.rejCause := rfl
@[simp] theorem dropCtx_errKind (s : State) : (dropCtx s).errKind = s.errKind := rfl
@[simp] theorem dropCtx_ioWhere (s : State) : (dropCtx s).ioWhere = s.ioWhere := rfl
@[simp] theorem dropCtx_ioErr (s : State) : (dropCtx s).ioErr = s.ioErr := rfl
@[simp] theorem dropCtx_olen (s : State) : (dropCtx s).olen = s.olen := rfl
@[simp] theorem dropCtx_ibuf (s : State) : (dropCtx s).ibuf = s.ibuf := rfl
@[simp] theorem dropCtx_obuf (s : State) : (dropCtx s).obuf = s.obuf := rfl
@[simp] theorem dropCtx_ctx (s : State) : (dropCtx s).ctx = Ctx.empty := rfl
@[simp] theorem dropCtx_phase (s : State) : (dropCtx s).phase = s.phase := rfl
@[simp] theorem dropCtx_scratch (s : State) : (dropCtx s).scratch = s.scratch := rfl
@[simp] theorem dropCtx_srcOpen (s : State) : (dropCtx s).srcOpen = s.srcOpen := rfl
@[simp] theorem dropCtx_dstOpen (s : State) : (dropCtx s).dstOpen = s.dstOpen := rfl
@[simp] theorem dropCtx_job (s : State) : (dropCtx s).job = s.job := rfl
@[simp] theorem dropCtx_inputs (s : State) : (dropCtx s).inputs = s.inputs := rfl
@[simp] theorem dropCtx_answers (s : State) : (dropCtx s).answers = s.answers := rfl
@[simp] theorem dropCtx_primPlan (s : State) : (dropCtx s).primPlan = s.primPlan := rfl
@[simp] theorem dropCtx_draws (s : State) : (dropCtx s).draws = s.draws := rfl
@[simp] theorem dropCtx_log (s : State) : (dropCtx s).log = s.log := rfl

/-! ## `bindCtx` -/

@[simp] theorem bindCtx_params (c : Ctx) (s : State) : (bindCtx c s).params = s.params := rfl
@[simp] theorem bindCtx_key (c : Ctx) (s : State) : (bindCtx c s).key = s.key := rfl
@[simp] theorem bindCtx_klen (c : Ctx) (s : State) : (bindCtx c s).klen = s.klen := rfl
@[simp] theorem bindCtx_iv (c : Ctx) (s : State) : (bindCtx c s).iv = s.iv := rfl
@[simp] theorem bindCtx_ivlen (c : Ctx) (s : State) : (bindCtx c s).ivlen = s.ivlen := rfl
@[simp] theorem bindCtx_ilen (c : Ctx) (s : State) : (bindCtx c s).ilen = s.ilen := rfl
@[simp] theorem bindCtx_srcId (c : Ctx) (s : State) : (bindCtx c s).srcId = s.srcId := rfl
@[simp] theorem bindCtx_dstId (c : Ctx) (s : State) : (bindCtx c s).dstId = s.dstId := rfl
@[simp] theorem bindCtx_err (c : Ctx) (s : State) : (bindCtx c s).err = s.err := rfl
@[simp] theorem bindCtx_rej (c : Ctx) (s : State) : (bindCtx c s).rej = s.rej := rfl
@[simp] theorem bindCtx_rejCause (c : Ctx) (s : State) : (bindCtx c s).rejCause = s.rejCause := rfl
@[simp] theorem bindCtx_errKind (c : Ctx) (s : State) : (bindCtx c s).errKind = s.errKind := rfl
@[simp] theorem bindCtx_ioWhere (c : Ctx) (s : State) : (bindCtx c s).ioWhere = s.ioWhere := rfl
@[simp] theorem bindCtx_ioErr (c : Ctx) (s : State) : (bindCtx c s).ioErr = s.ioErr := rfl
@[simp] theorem bindCtx_olen (c : Ctx) (s : State) : (bindCtx c s).olen = s.olen := rfl
@[simp] theorem bindCtx_ibuf (c : Ctx) (s : State) : (bindCtx c s).ibuf = s.ibuf := rfl
@[simp] theorem bindCtx_obuf (c : Ctx) (s : State) : (bindCtx c s).obuf = s.obuf := rfl
@[simp] theorem bindCtx_ctx (c : Ctx) (s : State) : (bindCtx c s).ctx = c := rfl
@[simp] theorem bindCtx_phase (c : Ctx) (s : State) : (bindCtx c s).phase = s.phase := rfl
@[simp] theorem bindCtx_scratch (c : Ctx) (s : State) : (bindCtx c s).scratch = s.scratch := rfl
@[simp] theorem bindCtx_srcOpen (c : Ctx) (s : State) : (bindCtx c s).srcOpen = s.srcOpen := rfl
@[simp] theorem bindCtx_dstOpen (c : Ctx) (s : State) : (bindCtx c s).dstOpen = s.dstOpen := rfl
@[simp] theorem bindCtx_job (c : Ctx) (s : State) : (bindCtx c s).job = s.job := rfl
@[simp] theorem bindCtx_inputs (c : Ctx) (s : State) : (bindCtx c s).inputs = s.inputs := rfl
@[simp] theorem bindCtx_answers (c : Ctx) (s : State) : (bindCtx c s).answers = s.answers := rfl
@[simp] theorem bindCtx_primPlan (c : Ctx) (s : State) : (bindCtx c s).primPlan = s.primPlan := rfl
@[simp] theorem bindCtx_draws (c : Ctx) (s : State) : (bindCtx c s).draws = s.draws := rfl
@[simp] theorem bindCtx_log (c : Ctx) (s : State) : (bindCtx c s).log = s.log := rfl

/-! ## `issue` -/

@[simp] theorem issue_params (j : Job) (aw : Await) (r : StreamReq) (s : State) : (issue j aw r s).params = s.params := rfl
@[simp] theorem issue_key (j : Job) (aw : Await) (r : StreamReq) (s : State) : (issue j aw r s).key = s.key := rfl
@[simp] theorem issue_klen (j : Job) (aw : Await) (r : StreamReq) (s : State) : (issue j aw r s).klen = s.klen := rfl
@[simp] theorem issue_iv (j : Job) (aw : Await) (r : StreamReq) (s : State) : (issue j aw r s).iv = s.iv := rfl
@[simp] theorem issue_ivlen (j : Job) (aw : Await) (r : StreamReq) (s : State) : (issue j aw r s).ivlen = s.ivlen := rfl
@[simp] theorem issue_ilen (j : Job) (aw : Await) (r : StreamReq) (s : State) : (issue j aw r s).ilen = s.ilen := rfl
@[simp] theorem issue_srcId (j : Job) (aw : Await) (r : StreamReq) (s : State) : (issue j aw r s).srcId = s.srcId := rfl
@[simp] theorem issue_dstId (j : Job) (aw : Await) (r : StreamReq) (s : State) : (issue j aw r s).dstId = s.dstId := rfl
@[simp] theorem issue_err (j : Job) (aw : Await) (r : StreamReq) (s : State) : (issue j aw r s).err = s.err := rfl
@[simp] theorem issue_rej (j : Job) (aw : Await) (r : StreamReq) (s : State) : (issue j aw r s).rej = s.rej := rfl
@[simp] theorem issue_rejCause (j : Job) (aw : Await) (r : StreamReq) (s : State) : (issue j aw r s).rejCause = s.rejCause := rfl
@[simp] theorem issue_errKind (j : Job) (aw : Await) (r : StreamReq) (s : State) : (issue j aw r s).errKind = s.errKind := rfl
@[simp] theorem issue_ioWhere (j : Job) (aw : Await) (r : StreamReq) (s : State) : (issue j aw r s).ioWhere = s.ioWhere := rfl
@[simp] theorem issue_ioErr (j : Job) (aw : Await) (r : StreamReq) (s : State) : (issue j aw r s).ioErr = s.ioErr := rfl
@[simp] theorem issue_olen (j : Job) (aw : Await) (r : StreamReq) (s : State) : (issue j aw r s).olen = s.olen := rfl
@[simp] theorem issue_ibuf (j : Job) (aw : Await) (r : StreamReq) (s : State) : (issue j aw r s).ibuf = s.ibuf := rfl
@[simp] theorem issue_obuf (j : Job) (aw : Await) (r : StreamReq) (s : State) : (issue j aw r s).obuf = s.obuf := rfl
@[simp] theorem issue_ctx (j : Job) (aw : Await) (r : StreamReq) (s : State) : (issue j aw r s).ctx = s.ctx := rfl
@[simp] theorem issue_phase (j : Job) (aw : Await) (r : StreamReq) (s : State) : (issue j aw r s).phase = s.phase := rfl
@[simp] theorem issue_scratch (j : Job) (aw : Await) (r : StreamReq) (s : State) : (issue j aw r s).scratch = s.scratch := rfl
@[simp] theorem issue_srcOpen (j : Job) (aw : Await) (r : StreamReq) (s : State) : (issue j aw r s).srcOpen = s.srcOpen := rfl
@[simp] theorem issue_dstOpen (j : Job) (aw : Await) (r : StreamReq) (s : State) : (issue j aw r s).dstOpen = s.dstOpen := rfl
@[simp] theorem issue_job (j : Job) (aw : Await) (r : StreamReq) (s : State) : (issue j aw r s).job = some { j with await := aw } := rfl
@[simp] theorem issue_inputs (j : Job) (aw : Await) (r : StreamReq) (s : State) : (issue j aw r s).inputs = s.inputs := rfl
@[simp] theorem issue_answers (j : Job) (aw : Await) (r : StreamReq) (s : State) : (issue j aw r s).answers = s.answers := rfl
@[simp] theorem issue_primPlan (j : Job) (aw : Await) (r : StreamReq) (s : State) : (issue j aw r s).primPlan = s.primPlan := rfl
@[simp] theorem issue_draws (j : Job) (aw : Await) (r : StreamReq) (s : State) : (issue j aw r s).draws = s.draws := rfl
@[simp] theorem issue_log (j : Job) (aw : Await) (r : StreamReq) (s : State) : (issue j aw r s).log = s.log ++ [.request r] := rfl

/-! ## `setDstOpen` -/

@[simp] theorem setDstOpen_params (b : Bool) (s : State) : (setDstOpen b s).params = s.params := rfl
@[simp] theorem setDstOpen_key (b : Bool) (s : State) : (setDstOpen b s).key = s.key := rfl
@[simp] theorem setDstOpen_klen (b : Bool) (s : State) : (setDstOpen b s).klen = s.klen := rfl
@[simp] theorem setDstOpen_iv (b : Bool) (s : State) : (setDstOpen b s).iv = s.iv := rfl
@[simp] theorem setDstOpen_ivlen (b : Bool) (s : State) : (setDstOpen b s).ivlen = s.ivlen := rfl
@[simp] theorem setDstOpen_ilen (b : Bool) (s : State) : (setDstOpen b s).ilen = s.ilen := rfl
@[simp] theorem setDstOpen_srcId (b : Bool) (s : State) : (setDstOpen b s).srcId = s.srcId := rfl
@[simp] theorem setDstOpen_dstId (b : Bool) (s : State) : (setDstOpen b s).dstId = s.dstId := rfl
@[simp] theorem setDstOpen_err (b : Bool) (s : State) : (setDstOpen b s).err = s.err := rfl
@[simp] theorem setDstOpen_rej (b : Bool) (s : State) : (setDstOpen b s).rej = s.rej := rfl
@[simp] theorem setDstOpen_rejCause (b : Bool) (s : State) : (setDstOpen b s).rejCause = s.rejCause := rfl
@[simp] theorem setDstOpen_errKind (b : Bool) (s : State) : (setDstOpen b s).errKind = s.errKind := rfl
@[simp] theorem setDstOpen_ioWhere (b : Bool) (s : State) : (setDstOpen b s).ioWhere = s.ioWhere := rfl
@[simp] theorem setDstOpen_ioErr (b : Bool) (s : State) : (setDstOpen b s).ioErr = s.ioErr := rfl
@[simp] theorem setDstOpen_olen (b : Bool) (s : State) : (setDstOpen b s).olen = s.olen := rfl
@[simp] theorem setDstOpen_ibuf (b : Bool) (s : State) : (setDstOpen b s).ibuf = s.ibuf := rfl
@[simp] theorem setDstOpen_obuf (b : Bool) (s : State) : (setDstOpen b s).obuf = s.obuf := rfl
@[simp] theorem setDstOpen_ctx (b : Bool) (s : State) : (setDstOpen b s).ctx = s.ctx := rfl
@[simp] theorem setDstOpen_phase (b : Bool) (s : State) : (setDstOpen b s).phase = s.phase := rfl
@[simp] theorem setDstOpen_scratch (b : Bool) (s : State) : (setDstOpen b s).scratch = s.scratch := rfl
@[simp] theorem setDstOpen_srcOpen (b : Bool) (s : State) : (setDstOpen b s).srcOpen = s.srcOpen := rfl
@[simp] theorem setDstOpen_dstOpen (b : Bool) (s : State) : (setDstOpen b s).dstOpen = b := rfl
@[simp] theorem setDstOpen_job (b : Bool) (s : State) : (setDstOpen b s).job = s.job := rfl
@[simp] theorem setDstOpen_inputs (b : Bool) (s : State) : (setDstOpen b s).inputs = s.inputs := rfl
@[simp] theorem setDstOpen_answers (b : Bool) (s : State) : (setDstOpen b s).answers = s.answers := rfl
@[simp] theorem setDstOpen_primPlan (b : Bool) (s : State) : (setDstOpen b s).primPlan = s.primPlan := rfl
@[simp] theorem setDstOpen_draws (b : Bool) (s : State) : (setDstOpen b s).draws = s.draws := rfl
@[simp] theorem setDstOpen_log (b : Bool) (s : State) : (setDstOpen b s).log = s.log := rfl

/-! ## `setSrcOpen` -/

@[simp] theorem setSrcOpen_params (b : Bool) (s : State) : (setSrcOpen b s).params = s.params := rfl
@[simp] theorem setSrcOpen_key (b : Bool) (s : State) : (setSrcOpen b s).key = s.key := rfl
@[simp] theorem setSrcOpen_klen (b : Bool) (s : State) : (setSrcOpen b s).klen = s.klen := rfl
@[simp] theorem setSrcOpen_iv (b : Bool) (s : State) : (setSrcOpen b s).iv = s.iv := rfl
@[simp] theorem setSrcOpen_ivlen (b : Bool) (s : State) : (setSrcOpen b s).ivlen = s.ivlen := rfl
@[simp] theorem setSrcOpen_ilen (b : Bool) (s : State) : (setSrcOpen b s).ilen = s.ilen := rfl
@[simp] theorem setSrcOpen_srcId (b : Bool) (s : State) : (setSrcOpen b s).srcId = s.srcId := rfl
@[simp] theorem setSrcOpen_dstId (b : Bool) (s : State) : (setSrcOpen b s).dstId = s.dstId := rfl
@[simp] theorem setSrcOpen_err (b : Bool) (s : State) : (setSrcOpen b s).err = s.err := rfl
@[simp] theorem setSrcOpen_rej (b : Bool) (s : State) : (setSrcOpen b s).rej = s.rej := rfl
@[simp] theorem setSrcOpen_rejCause (b : Bool) (s : State) : (setSrcOpen b s).rejCause = s.rejCause := rfl
@[simp] theorem setSrcOpen_errKind (b : Bool) (s : State) : (setSrcOpen b s).errKind = s.errKind := rfl
@[simp] theorem setSrcOpen_ioWhere (b : Bool) (s : State) : (setSrcOpen b s).ioWhere = s.ioWhere := rfl
@[simp] theorem setSrcOpen_ioErr (b : Bool) (s : State) : (setSrcOpen b s).ioErr = s.ioErr := rfl
@[simp] theorem setSrcOpen_olen (b : Bool) (s : State) : (setSrcOpen b s).olen = s.olen := rfl
@[simp] theorem setSrcOpen_ibuf (b : Bool) (s : State) : (setSrcOpen b s).ibuf = s.ibuf := rfl
@[simp] theorem setSrcOpen_obuf (b : Bool) (s : State) : (setSrcOpen b s).obuf = s.obuf := rfl
@[simp] theorem setSrcOpen_ctx (b : Bool) (s : State) : (setSrcOpen b s).ctx = s.ctx := rfl
@[simp] theorem setSrcOpen_phase (b : Bool) (s : State) : (setSrcOpen b s).phase = s.phase := rfl
@[simp] theorem setSrcOpen_scratch (b : Bool) (s : State) : (setSrcOpen b s).scratch = s.scratch := rfl
@[simp] theorem setSrcOpen_srcOpen (b : Bool) (s : State) : (setSrcOpen b s).srcOpen = b := rfl
@[simp] theorem setSrcOpen_dstOpen (b : Bool) (s : State) : (setSrcOpen b s).dstOpen = s.dstOpen := rfl
@[simp] theorem setSrcOpen_job (b : Bool) (s : State) : (setSrcOpen b s).job = s.job := rfl
@[simp] theorem setSrcOpen_inputs (b : Bool) (s : State) : (setSrcOpen b s).inputs = s.inputs := rfl
@[simp] theorem setSrcOpen_answers (b : Bool) (s : State) : (setSrcOpen b s).answers = s.answers := rfl
@[simp] theorem setSrcOpen_primPlan (b : Bool) (s : State) : (setSrcOpen b s).primPlan = s.primPlan := rfl
@[simp] theorem setSrcOpen_draws (b : Bool) (s : State) : (setSrcOpen b s).draws = s.draws := rfl
@[simp] theorem setSrcOpen_log (b : Bool) (s : State) : (setSrcOpen b s).log = s.log := rfl

/-! ## `setScratch` -/

@[simp] theorem setScratch_params (c : Ctx) (s : State) : (setScratch c s).params = s.params := rfl
@[simp] theorem setScratch_key (c : Ctx) (s : State) : (setScratch c s).key = s.key := rfl
@[simp] theorem setScratch_klen (c : Ctx) (s : State) : (setScratch c s).klen = s.klen := rfl
@[simp] theorem setScratch_iv (c : Ctx) (s : State) : (setScratch c s).iv = s.iv := rfl
@[simp] theorem setScratch_ivlen (c : Ctx) (s : State) : (setScratch c s).ivlen = s.ivlen := rfl
@[simp] theorem setScratch_ilen (c : Ctx) (s : State) : (setScratch c s).ilen = s.ilen := rfl
@[simp] theorem setScratch_srcId (c : Ctx) (s : State) : (setScratch c s).srcId = s.srcId := rfl
@[simp] theorem setScratch_dstId (c : Ctx) (s : State) : (setScratch c s).dstId = s.dstId := rfl
@[simp] theorem setScratch_err (c : Ctx) (s : State) : (setScratch c s).err = s.err := rfl
@[simp] theorem setScratch_rej (c : Ctx) (s : State) : (setScratch c s).rej = s.rej := rfl
@[simp] theorem setScratch_rejCause (c : Ctx) (s : State) : (setScratch c s).rejCause = s.rejCause := rfl
@[simp] theorem setScratch_errKind (c : Ctx) (s : State) : (setScratch c s).errKind = s.errKind := rfl
@[simp] theorem setScratch_ioWhere (c : Ctx) (s : State) : (setScratch c s).ioWhere = s.ioWhere := rfl
@[simp] theorem setScratch_ioErr (c : Ctx) (s : State) : (setScratch c s).ioErr = s.ioErr := rfl
@[simp] theorem setScratch_olen (c : Ctx) (s : State) : (setScratch c s).olen = s.olen := rfl
@[simp] theorem setScratch_ibuf (c : Ctx) (s : State) : (setScratch c s).ibuf = s.ibuf := rfl
@[simp] theorem setScratch_obuf (c : Ctx) (s : State) : (setScratch c s).obuf = s.obuf := rfl
@[simp] theorem setScratch_ctx (c : Ctx) (s : State) : (setScratch c s).ctx = s.ctx := rfl
@[simp] theorem setScratch_phase (c : Ctx) (s : State) : (setScratch c s).phase = s.phase := rfl
@[simp] theorem setScratch_scratch (c : Ctx) (s : State) : (setScratch c s).scratch = c := rfl
@[simp] theorem setScratch_srcOpen (c : Ctx) (s : State) : (setScratch c s).srcOpen = s.srcOpen := rfl
@[simp] theorem setScratch_dstOpen (c : Ctx) (s : State) : (setScratch c s).dstOpen = s.dstOpen := rfl
@[simp] theorem setScratch_job (c : Ctx) (s : State) : (setScratch c s).job = s.job := rfl
@[simp] theorem setScratch_inputs (c : Ctx) (s : State) : (setScratch c s).inputs = s.inputs := rfl
@[simp] theorem setScratch_answers (c : Ctx) (s : State) : (setScratch c s).answers = s.answers := rfl
@[simp] theorem setScratch_primPlan (c : Ctx) (s : State) : (setScratch c s).primPlan = s.primPlan := rfl
@[simp] theorem setScratch_draws (c : Ctx) (s : State) : (setScratch c s).draws = s.draws := rfl
@[simp] theorem setScratch_log (c : Ctx) (s : State) : (setScratch c s).log = s.log := rfl

/-! ## `takeAnswer` -/

@[simp] theorem takeAnswer_params (a : StreamAnswer) (l : List StreamAnswer) (s : State) : (takeAnswer a l s).params = s.params := rfl
@[simp] theorem takeAnswer_key (a : StreamAnswer) (l : List StreamAnswer) (s : State) : (takeAnswer a l s).key = s.key := rfl
@[simp] theorem takeAnswer_klen (a : StreamAnswer) (l : List StreamAnswer) (s : State) : (takeAnswer a l s).klen = s.klen := rfl
@[simp] theorem takeAnswer_iv (a : StreamAnswer) (l : List StreamAnswer) (s : State) : (takeAnswer a l s).iv = s.iv := rfl
@[simp] theorem takeAnswer_ivlen (a : StreamAnswer) (l : List StreamAnswer) (s : State) : (takeAnswer a l s).ivlen = s.ivlen := rfl
@[simp] theorem takeAnswer_ilen (a : StreamAnswer) (l : List StreamAnswer) (s : State) : (takeAnswer a l s).ilen = s.ilen := rfl
@[simp] theorem takeAnswer_srcId (a : StreamAnswer) (l : List StreamAnswer) (s : State) : (takeAnswer a l s).srcId = s.srcId := rfl
@[simp] theorem takeAnswer_dstId (a : StreamAnswer) (l : List StreamAnswer) (s : State) : (takeAnswer a l s).dstId = s.dstId := rfl
@[simp] theorem takeAnswer_err (a : StreamAnswer) (l : List StreamAnswer) (s : State) : (takeAnswer a l s).err = s.err := rfl
@[simp] theorem takeAnswer_rej (a : StreamAnswer) (l : List StreamAnswer) (s : State) : (takeAnswer a l s).rej = s.rej := rfl
@[simp] theorem takeAnswer_rejCause (a : StreamAnswer) (l : List StreamAnswer) (s : State) : (takeAnswer a l s).rejCause = s.rejCause := rfl
@[simp] theorem takeAnswer_errKind (a : StreamAnswer) (l : List StreamAnswer) (s : State) : (takeAnswer a l s).errKind = s.errKind := rfl
@[simp] theorem takeAnswer_ioWhere (a : StreamAnswer) (l : List StreamAnswer) (s : State) : (takeAnswer a l s).ioWhere = s.ioWhere := rfl
@[simp] theorem takeAnswer_ioErr (a : StreamAnswer) (l : List StreamAnswer) (s : State) : (takeAnswer a l s).ioErr = s.ioErr := rfl
@[simp] theorem takeAnswer_olen (a : StreamAnswer) (l : List StreamAnswer) (s : State) : (takeAnswer a l s).olen = s.olen := rfl
@[simp] theorem takeAnswer_ibuf (a : StreamAnswer) (l : List StreamAnswer) (s : State) : (takeAnswer a l s).ibuf = s.ibuf := rfl
@[simp] theorem takeAnswer_obuf (a : StreamAnswer) (l : List StreamAnswer) (s : State) : (takeAnswer a l s).obuf = s.obuf := rfl
@[simp] theorem takeAnswer_ctx (a : StreamAnswer) (l : List StreamAnswer) (s : State) : (takeAnswer a l s).ctx = s.ctx := rfl
@[simp] theorem takeAnswer_phase (a : StreamAnswer) (l : List StreamAnswer) (s : State) : (takeAnswer a l s).phase = s.phase := rfl
@[simp] theorem takeAnswer_scratch (a : StreamAnswer) (l : List StreamAnswer) (s : State) : (takeAnswer a l s).scratch = s.scratch := rfl
@[simp] theorem takeAnswer_srcOpen (a : StreamAnswer) (l : List StreamAnswer) (s : State) : (takeAnswer a l s).srcOpen = s.srcOpen := rfl
@[simp] theorem takeAnswer_dstOpen (a : StreamAnswer) (l : List StreamAnswer) (s : State) : (takeAnswer a l s).dstOpen = s.dstOpen := rfl
@[simp] theorem takeAnswer_job (a : StreamAnswer) (l : List StreamAnswer) (s : State) : (takeAnswer a l s).job = s.job := rfl
@[simp] theorem takeAnswer_inputs (a : StreamAnswer) (l : List StreamAnswer) (s : State) : (takeAnswer a l s).inputs = s.inputs := rfl
@[simp] theorem takeAnswer_answers (a : StreamAnswer) (l : List StreamAnswer) (s : State) : (takeAnswer a l s).answers = l := rfl
@[simp] theorem takeAnswer_primPlan (a : StreamAnswer) (l : List StreamAnswer) (s : State) : (takeAnswer a l s).primPlan = s.primPlan := rfl
@[simp] theorem takeAnswer_draws (a : StreamAnswer) (l : List StreamAnswer) (s : State) : (takeAnswer a l s).draws = s.draws := rfl
@[simp] theorem takeAnswer_log (a : StreamAnswer) (l : List StreamAnswer) (s : State) : (takeAnswer a l s).log = s.log ++ [.answer a] := rfl

/-! ## `hostRead` -/

@[simp] theorem hostRead_params (p : Place) (w : Nat) (v : Word) (s : State) : (hostRead p w v s).params = s.params := rfl
@[simp] theorem hostRead_key (p : Place) (w : Nat) (v : Word) (s : State) : (hostRead p w v s).key = s.key := rfl
@[simp] theorem hostRead_klen (p : Place) (w : Nat) (v : Word) (s : State) : (hostRead p w v s).klen = s.klen := rfl
@[simp] theorem hostRead_iv (p : Place) (w : Nat) (v : Word) (s : State) : (hostRead p w v s).iv = s.iv := rfl
@[simp] theorem hostRead_ivlen (p : Place) (w : Nat) (v : Word) (s : State) : (hostRead p w v s).ivlen = s.ivlen := rfl
@[simp] theorem hostRead_ilen (p : Place) (w : Nat) (v : Word) (s : State) : (hostRead p w v s).ilen = s.ilen := rfl
@[simp] theorem hostRead_srcId (p : Place) (w : Nat) (v : Word) (s : State) : (hostRead p w v s).srcId = s.srcId := rfl
@[simp] theorem hostRead_dstId (p : Place) (w : Nat) (v : Word) (s : State) : (hostRead p w v s).dstId = s.dstId := rfl
@[simp] theorem hostRead_err (p : Place) (w : Nat) (v : Word) (s : State) : (hostRead p w v s).err = s.err := rfl
@[simp] theorem hostRead_rej (p : Place) (w : Nat) (v : Word) (s : State) : (hostRead p w v s).rej = s.rej := rfl
@[simp] theorem hostRead_rejCause (p : Place) (w : Nat) (v : Word) (s : State) : (hostRead p w v s).rejCause = s.rejCause := rfl
@[simp] theorem hostRead_errKind (p : Place) (w : Nat) (v : Word) (s : State) : (hostRead p w v s).errKind = s.errKind := rfl
@[simp] theorem hostRead_ioWhere (p : Place) (w : Nat) (v : Word) (s : State) : (hostRead p w v s).ioWhere = s.ioWhere := rfl
@[simp] theorem hostRead_ioErr (p : Place) (w : Nat) (v : Word) (s : State) : (hostRead p w v s).ioErr = s.ioErr := rfl
@[simp] theorem hostRead_olen (p : Place) (w : Nat) (v : Word) (s : State) : (hostRead p w v s).olen = s.olen := rfl
@[simp] theorem hostRead_ibuf (p : Place) (w : Nat) (v : Word) (s : State) : (hostRead p w v s).ibuf = s.ibuf := rfl
@[simp] theorem hostRead_obuf (p : Place) (w : Nat) (v : Word) (s : State) : (hostRead p w v s).obuf = s.obuf := rfl
@[simp] theorem hostRead_ctx (p : Place) (w : Nat) (v : Word) (s : State) : (hostRead p w v s).ctx = s.ctx := rfl
@[simp] theorem hostRead_phase (p : Place) (w : Nat) (v : Word) (s : State) : (hostRead p w v s).phase = s.phase := rfl
@[simp] theorem hostRead_scratch (p : Place) (w : Nat) (v : Word) (s : State) : (hostRead p w v s).scratch = s.scratch := rfl
@[simp] theorem hostRead_srcOpen (p : Place) (w : Nat) (v : Word) (s : State) : (hostRead p w v s).srcOpen = s.srcOpen := rfl
@[simp] theorem hostRead_dstOpen (p : Place) (w : Nat) (v : Word) (s : State) : (hostRead p w v s).dstOpen = s.dstOpen := rfl
@[simp] theorem hostRead_job (p : Place) (w : Nat) (v : Word) (s : State) : (hostRead p w v s).job = s.job := rfl
@[simp] theorem hostRead_inputs (p : Place) (w : Nat) (v : Word) (s : State) : (hostRead p w v s).inputs = s.inputs := rfl
@[simp] theorem hostRead_answers (p : Place) (w : Nat) (v : Word) (s : State) : (hostRead p w v s).answers = s.answers := rfl
@[simp] theorem hostRead_primPlan (p : Place) (w : Nat) (v : Word) (s : State) : (hostRead p w v s).primPlan = s.primPlan := rfl
@[simp] theorem hostRead_draws (p : Place) (w : Nat) (v : Word) (s : State) : (hostRead p w v s).draws = s.draws := rfl
@[simp] theorem hostRead_log (p : Place) (w : Nat) (v : Word) (s : State) : (hostRead p w v s).log = s.log ++ [.hostRead p w v] := rfl

/-! ## `putIbuf` -/

@[simp] theorem putIbuf_params (m : Memory) (s : State) : (putIbuf m s).params = s.params := rfl
@[simp] theorem putIbuf_key (m : Memory) (s : State) : (putIbuf m s).key = s.key := rfl
@[simp] theorem putIbuf_klen (m : Memory) (s : State) : (putIbuf m s).klen = s.klen := rfl
@[simp] theorem putIbuf_iv (m : Memory) (s : State) : (putIbuf m s).iv = s.iv := rfl
@[simp] theorem putIbuf_ivlen (m : Memory) (s : State) : (putIbuf m s).ivlen = s.ivlen := rfl
@[simp] theorem putIbuf_ilen (m : Memory) (s : State) : (putIbuf m s).ilen = s.ilen := rfl
@[simp] theorem putIbuf_srcId (m : Memory) (s : State) : (putIbuf m s).srcId = s.srcId := rfl
@[simp] theorem putIbuf_dstId (m : Memory) (s : State) : (putIbuf m s).dstId = s.dstId := rfl
@[simp] theorem putIbuf_err (m : Memory) (s : State) : (putIbuf m s).err = s.err := rfl
@[simp] theorem putIbuf_rej (m : Memory) (s : State) : (putIbuf m s).rej = s.rej := rfl
@[simp] theorem putIbuf_rejCause (m : Memory) (s : State) : (putIbuf m s).rejCause = s.rejCause := rfl
@[simp] theorem putIbuf_errKind (m : Memory) (s : State) : (putIbuf m s).errKind = s.errKind := rfl
@[simp] theorem putIbuf_ioWhere (m : Memory) (s : State) : (putIbuf m s).ioWhere = s.ioWhere := rfl
@[simp] theorem putIbuf_ioErr (m : Memory) (s : State) : (putIbuf m s).ioErr = s.ioErr := rfl
@[simp] theorem putIbuf_olen (m : Memory) (s : State) : (putIbuf m s).olen = s.olen := rfl
@[simp] theorem putIbuf_ibuf (m : Memory) (s : State) : (putIbuf m s).ibuf = m := rfl
@[simp] theorem putIbuf_obuf (m : Memory) (s : State) : (putIbuf m s).obuf = s.obuf := rfl
@[simp] theorem putIbuf_ctx (m : Memory) (s : State) : (putIbuf m s).ctx = s.ctx := rfl
@[simp] theorem putIbuf_phase (m : Memory) (s : State) : (putIbuf m s).phase = s.phase := rfl
@[simp] theorem putIbuf_scratch (m : Memory) (s : State) : (putIbuf m s).scratch = s.scratch := rfl
@[simp] theorem putIbuf_srcOpen (m : Memory) (s : State) : (putIbuf m s).srcOpen = s.srcOpen := rfl
@[simp] theorem putIbuf_dstOpen (m : Memory) (s : State) : (putIbuf m s).dstOpen = s.dstOpen := rfl
@[simp] theorem putIbuf_job (m : Memory) (s : State) : (putIbuf m s).job = s.job := rfl
@[simp] theorem putIbuf_inputs (m : Memory) (s : State) : (putIbuf m s).inputs = s.inputs := rfl
@[simp] theorem putIbuf_answers (m : Memory) (s : State) : (putIbuf m s).answers = s.answers := rfl
@[simp] theorem putIbuf_primPlan (m : Memory) (s : State) : (putIbuf m s).primPlan = s.primPlan := rfl
@[simp] theorem putIbuf_draws (m : Memory) (s : State) : (putIbuf m s).draws = s.draws := rfl
@[simp] theorem putIbuf_log (m : Memory) (s : State) : (putIbuf m s).log = s.log := rfl

/-! ## `resetEngine` -/

@[simp] theorem resetEngine_params (s : State) : (resetEngine s).params = s.params := rfl
@[simp] theorem resetEngine_key (s : State) : (resetEngine s).key = State.reset.key := rfl
@[simp] theorem resetEngine_klen (s : State) : (resetEngine s).klen = State.reset.klen := rfl
@[simp] theorem resetEngine_iv (s : State) : (resetEngine s).iv = State.reset.iv := rfl
@[simp] theorem resetEngine_ivlen (s : State) : (resetEngine s).ivlen = State.reset.ivlen := rfl
@[simp] theorem resetEngine_ilen (s : State) : (resetEngine s).ilen = State.reset.ilen := rfl
@[simp] theorem resetEngine_srcId (s : State) : (resetEngine s).srcId = State.reset.srcId := rfl
@[simp] theorem resetEngine_dstId (s : State) : (resetEngine s).dstId = State.reset.dstId := rfl
@[simp] theorem resetEngine_err (s : State) : (resetEngine s).err = State.reset.err := rfl
@[simp] theorem resetEngine_rej (s : State) : (resetEngine s).rej = State.reset.rej := rfl
@[simp] theorem resetEngine_rejCause (s : State) : (resetEngine s).rejCause = State.reset.rejCause := rfl
@[simp] theorem resetEngine_errKind (s : State) : (resetEngine s).errKind = State.reset.errKind := rfl
@[simp] theorem resetEngine_ioWhere (s : State) : (resetEngine s).ioWhere = State.reset.ioWhere := rfl
@[simp] theorem resetEngine_ioErr (s : State) : (resetEngine s).ioErr = State.reset.ioErr := rfl
@[simp] theorem resetEngine_olen (s : State) : (resetEngine s).olen = State.reset.olen := rfl
@[simp] theorem resetEngine_ibuf (s : State) : (resetEngine s).ibuf = State.reset.ibuf := rfl
@[simp] theorem resetEngine_obuf (s : State) : (resetEngine s).obuf = State.reset.obuf := rfl
@[simp] theorem resetEngine_ctx (s : State) : (resetEngine s).ctx = State.reset.ctx := rfl
@[simp] theorem resetEngine_phase (s : State) : (resetEngine s).phase = State.reset.phase := rfl
@[simp] theorem resetEngine_scratch (s : State) : (resetEngine s).scratch = State.reset.scratch := rfl
@[simp] theorem resetEngine_srcOpen (s : State) : (resetEngine s).srcOpen = State.reset.srcOpen := rfl
@[simp] theorem resetEngine_dstOpen (s : State) : (resetEngine s).dstOpen = State.reset.dstOpen := rfl
@[simp] theorem resetEngine_job (s : State) : (resetEngine s).job = State.reset.job := rfl
@[simp] theorem resetEngine_inputs (s : State) : (resetEngine s).inputs = s.inputs := rfl
@[simp] theorem resetEngine_answers (s : State) : (resetEngine s).answers = s.answers := rfl
@[simp] theorem resetEngine_primPlan (s : State) : (resetEngine s).primPlan = s.primPlan := rfl
@[simp] theorem resetEngine_draws (s : State) : (resetEngine s).draws = s.draws + 1 := rfl
@[simp] theorem resetEngine_log (s : State) : (resetEngine s).log = s.log := rfl

end Sys2Proof.Machine
end

