-- ==== Sys2Proof/Laws/Ops.lean ====
section
/-! SUPPORT. What the shared operations come to: the acceptance guards, the validator, the port of a command, and, per
buffer, INIT and `CTX_DROP` command, every way it can end. -/

namespace Sys2Proof.Machine

/-! ## The guards -/

theorem whenIdle_of_idle {s : State} (h : s.phase = .idle) (k : State → Result) : whenIdle s k = k s := by
  simp [whenIdle, h]

theorem whenIdle_of_fatal {s : State} (h : s.phase = .fatal) (k : State → Result) :
    whenIdle s k = .next (reject .fatalState s) := by simp [whenIdle, h]

theorem whenIdle_of_run {s : State} (h : s.phase = .run) (k : State → Result) :
    whenIdle s k = .refused .accessWhileRunning := by simp [whenIdle, h]

/-- A guarded command that answers a next state was rejected in FATAL or runs from `IDLE`. -/
theorem whenIdle_next {s t : State} {k : State → Result} (h : whenIdle s k = .next t) :
    (s.phase = .fatal ∧ t = reject .fatalState s) ∨ (s.phase = .idle ∧ k s = .next t) := by
  rcases hp : s.phase with _ | _ | _
  · rw [whenIdle_of_idle hp] at h; exact .inr ⟨rfl, h⟩
  · rw [whenIdle_of_run hp] at h; cases h
  · rw [whenIdle_of_fatal hp] at h; cases h; exact .inl ⟨rfl, rfl⟩

/-- In FATAL every command is rejected, with `FATAL_STATE`. -/
theorem exec_fatal (i : Instr) {s : State} (h : s.phase = .fatal) : exec i s = .next (reject .fatalState s) := by
  cases i <;> simp only [exec, execCbcEnc, execCbcDec, execCbcInit, execCbcBlocks, execCtrInit, execCtrXor, execCtxDrop, execCtrEncPath,
    execCtrDecPath, execCtrEncStrm, execCtrDecStrm, cbcEnc, cbcDec, cbcInit, cbcBlocks, ctrInit, ctrXor, ctxDrop, ctrPath,
    ctrStrm, whenIdle, h]

/-- While a command runs no command can be presented. -/
theorem exec_run (i : Instr) {s : State} (h : s.phase = .run) : exec i s = .refused .accessWhileRunning := by
  cases i <;> simp only [exec, execCbcEnc, execCbcDec, execCbcInit, execCbcBlocks, execCtrInit, execCtrXor, execCtxDrop, execCtrEncPath,
    execCtrDecPath, execCtrEncStrm, execCtrDecStrm, cbcEnc, cbcDec, cbcInit, cbcBlocks, ctrInit, ctrXor, ctxDrop, ctrPath,
    ctrStrm, whenIdle, h]

theorem whenInRange_of {s : State} (h : s.InRange) (k : State → Result) : whenInRange s k = k s := by
  unfold State.InRange at h
  rw [whenInRange, if_neg (Nat.not_lt.2 h)]

theorem whenInRange_of_not {s : State} (h : ¬ s.InRange) (k : State → Result) :
    whenInRange s k = .next (reject .lenRange s) := by
  unfold State.InRange at h
  rw [whenInRange, if_pos (Nat.lt_of_not_le h)]

/-! ## The validator -/

theorem validate_of {s : State} (h : s.Validates) : validate s = .ok (s.keyOperand, s.ivOperand) := by
  simp [validate, h.1, h.2]

/-- What the validator answers: the operands, or the first of the two errors (R120 to R123). -/
theorem validate_cases (s : State) :
    (s.Validates ∧ validate s = .ok (s.keyOperand, s.ivOperand)) ∨
    (keyLengthLegal s.klen = false ∧ validate s = .error .invalidKeyLength) ∨
    (keyLengthLegal s.klen = true ∧ ivLengthLegal s.ivlen = false ∧ validate s = .error .invalidIvLength) := by
  by_cases hk : keyLengthLegal s.klen = true
  · by_cases hi : ivLengthLegal s.ivlen = true
    · exact .inl ⟨⟨hk, hi⟩, validate_of ⟨hk, hi⟩⟩
    · simp at hi; simp [validate, hk, hi]
  · simp at hk; simp [validate, hk]

theorem validate_ok_inv {s : State} {k : List Byte} {iv : Block} (h : validate s = .ok (k, iv)) :
    s.Validates ∧ k = s.keyOperand ∧ iv = s.ivOperand := by
  rcases validate_cases s with ⟨hv, e⟩ | ⟨_, e⟩ | ⟨_, _, e⟩ <;> rw [e] at h <;> cases h
  exact ⟨hv, rfl, rfl⟩

@[simp] theorem validate_accept (s : State) : validate (accept s) = validate s := rfl
@[simp] theorem input_accept (C : Config) (s : State) : (accept s).input C = s.input C := rfl
@[simp] theorem port_accept (s : State) : (accept s).port = s.port := rfl
@[simp] theorem keyOperand_accept (s : State) : (accept s).keyOperand = s.keyOperand := rfl
@[simp] theorem ivOperand_accept (s : State) : (accept s).ivOperand = s.ivOperand := rfl

theorem input_length (C : Config) (s : State) : (s.input C).length = s.ilen.toNat := readBytes_length ..

theorem keyLengthLegal_toNat {w : Word} (h : keyLengthLegal w = true) : w.toNat = 16 ∨ w.toNat = 24 ∨ w.toNat = 32 := by
  simp only [keyLengthLegal, Bool.or_eq_true, beq_iff_eq] at h
  rcases h with (h | h) | h <;> simp [h]

theorem keyOperand_length {s : State} (h : keyLengthLegal s.klen = true) : s.keyOperand.length = s.klen.toNat := by
  rcases keyLengthLegal_toNat h with h | h | h <;> simp [State.keyOperand, s.key.length_eq, h]

theorem keyOperand_le (s : State) : s.keyOperand.length ≤ 32 := by
  simp [State.keyOperand, s.key.length_eq]

@[simp] theorem boundKey_freshCtr (s : State) (iv : Block) : (Ctx.freshCtr s.keyOperand iv).boundKey = s.keyOperand :=
  bytesOfList_take (keyOperand_le s)

@[simp] theorem boundKey_freshCbc (s : State) (dir : Bool) (iv : Block) :
    (Ctx.freshCbc dir s.keyOperand iv).boundKey = s.keyOperand :=
  bytesOfList_take (keyOperand_le s)

/-- A register loaded with a shorter sequence holds it and zero bytes. -/
theorem bytesOfList_pad {n : Nat} {l : List Byte} (h : l.length ≤ n) :
    (bytesOfList n l).list = l ++ List.replicate (n - l.length) 0 := by
  simp [bytesOfList, List.take_append, List.take_of_length_le h]

/-- A fresh CTR context gives the keystream of its operands from its start. -/
theorem stream_freshCtr (E : Block → Block) (k : List Byte) (iv : Block) (t : Nat) :
    (Ctx.freshCtr k iv).stream E t = keystream E iv t := by
  simp [Ctx.stream, Ctx.freshCtr]

/-- An output that fits its register is what `OBUF` holds. -/
theorem putOutput_holds (v : List Byte) (s : State) : (putOutput v s).obuf.HoldsExactly v := fun a =>
  Memory.get_ofBytes_zero v a

theorem putOutput_olen_toNat {v : List Byte} {s : State} (h : v.length < 2 ^ 32) :
    (putOutput v s).olen.toNat = v.length := by
  rw [putOutput_olen, BitVec.toNat_ofNat, Nat.mod_eq_of_lt h]

theorem bufCap_lt (P : Params) : P.bufCap + 16 < 2 ^ 32 := by
  have := P.bufCapBelow.isLt
  simp only [Params.bufCap]; omega

/-! ## The commands, from `IDLE` -/

/-- Every way `CBC_ENC` can end (R144, R157). -/
theorem cbcEnc_cases (C : Config) {s : State} (h : s.phase = .idle) :
    (¬ s.InRange ∧ cbcEnc C s = .next (reject .lenRange s)) ∨
    (s.InRange ∧ ∃ e, validate s = .error e ∧ cbcEnc C s = .next (raise e (accept s))) ∨
    (s.InRange ∧ s.Validates ∧ ∃ code p,
      cbcEncBlocks C s.keyOperand s.ivOperand (toBlocks (s.ilen.toNat / 16 + 1) (pad (s.input C))) s.port = (.error code, p) ∧
      cbcEnc C s = .next (goFatal (putPort p (drawn (accept s))))) ∨
    (s.InRange ∧ s.Validates ∧ ∃ c ch p,
      cbcEncBlocks C s.keyOperand s.ivOperand (toBlocks (s.ilen.toNat / 16 + 1) (pad (s.input C))) s.port = (.ok (c, ch), p) ∧
      cbcEnc C s = .next (complete (putOutput (ofBlocks c) (putPort p (drawn (accept s)))))) := by
  by_cases hr : s.InRange
  · have hl : (pad (s.input C)).length / 16 = s.ilen.toNat / 16 + 1 := by
      rw [pad_length, input_length]; omega
    have e0 : cbcEnc C s = match validate s with
        | .error e => .next (raise e (accept s))
        | .ok (k, iv) =>
          match cbcEncBlocks C k iv (toBlocks (s.ilen.toNat / 16 + 1) (pad (s.input C))) s.port with
          | (.error _, p) => .next (goFatal (putPort p (drawn (accept s))))
          | (.ok (c, _), p) => .next (complete (putOutput (ofBlocks c) (putPort p (drawn (accept s))))) := by
      rw [cbcEnc, whenIdle_of_idle h, whenInRange_of hr]
      simp only [validate_accept, input_accept, port_accept, hl]
      try rfl
    rcases validate_cases s with ⟨hv, e⟩ | ⟨_, e⟩ | ⟨_, _, e⟩
    · rw [e] at e0
      rcases hx : cbcEncBlocks C s.keyOperand s.ivOperand (toBlocks (s.ilen.toNat / 16 + 1) (pad (s.input C))) s.port with
        ⟨code | ⟨c, ch⟩, p⟩
      · simp only [hx] at e0; exact .inr (.inr (.inl ⟨hr, hv, code, p, hx ▸ rfl, e0⟩))
      · simp only [hx] at e0; exact .inr (.inr (.inr ⟨hr, hv, c, ch, p, hx ▸ rfl, e0⟩))
    · rw [e] at e0; exact .inr (.inl ⟨hr, _, e, e0⟩)
    · rw [e] at e0; exact .inr (.inl ⟨hr, _, e, e0⟩)
  · exact .inl ⟨hr, by rw [cbcEnc, whenIdle_of_idle h, whenInRange_of_not hr]⟩

/-- How `CBC_DEC` ends after a decryption that did not fault (R146). -/
def decEnd (C : Config) (pp : List Byte) (s : State) : State :=
  match unpad pp with
  | .emptyInput => raise (classify C s.params .emptyInput) s
  | .paddingError => raise .paddingError s
  | .ok b => complete (putOutput b s)

/-- Every way `CBC_DEC` can end (R146). -/
theorem cbcDec_cases (C : Config) {s : State} (h : s.phase = .idle) :
    (¬ s.InRange ∧ cbcDec C s = .next (reject .lenRange s)) ∨
    (s.InRange ∧ ∃ e, validate s = .error e ∧ cbcDec C s = .next (raise e (accept s))) ∨
    (s.InRange ∧ s.Validates ∧ s.ilen.toNat % 16 ≠ 0 ∧ cbcDec C s = .next (raise .cipherKeyError (accept s))) ∨
    (s.InRange ∧ s.Validates ∧ s.ilen.toNat % 16 = 0 ∧ ∃ code p,
      cbcDecBlocks C s.keyOperand s.ivOperand (toBlocks (s.ilen.toNat / 16) (s.input C)) s.port = (.error code, p) ∧
      cbcDec C s = .next (raise (faultError (C.primKind code)) (putPort p (drawn (accept s))))) ∨
    (s.InRange ∧ s.Validates ∧ s.ilen.toNat % 16 = 0 ∧ ∃ x ch p,
      cbcDecBlocks C s.keyOperand s.ivOperand (toBlocks (s.ilen.toNat / 16) (s.input C)) s.port = (.ok (x, ch), p) ∧
      cbcDec C s = .next (decEnd C (ofBlocks x) (putPort p (drawn (accept s))))) := by
  by_cases hr : s.InRange
  · have e0 : cbcDec C s = match validate s with
        | .error e => .next (raise e (accept s))
        | .ok (k, iv) =>
          if s.ilen.toNat % 16 ≠ 0 then .next (raise .cipherKeyError (accept s))
          else
            match cbcDecBlocks C k iv (toBlocks (s.ilen.toNat / 16) (s.input C)) s.port with
            | (.error code, p) => .next (raise (faultError (C.primKind code)) (putPort p (drawn (accept s))))
            | (.ok (x, _), p) => .next (decEnd C (ofBlocks x) (putPort p (drawn (accept s)))) := by
      rw [cbcDec, whenIdle_of_idle h, whenInRange_of hr]
      simp only [validate_accept]
      rcases validate s with e | ⟨k, iv⟩
      · rfl
      · by_cases hm : s.ilen.toNat % 16 = 0
        swap
        · simp only [accept_ilen, hm, ne_eq, not_false_iff, if_true]; rfl
        · simp only [accept_ilen, hm, ne_eq, not_true, if_false, input_accept, port_accept]
          rcases cbcDecBlocks C k iv (toBlocks (s.ilen.toNat / 16) (s.input C)) s.port with ⟨code | ⟨x, ch⟩, p⟩
          · rfl
          · simp only [decEnd]
            rcases unpad (ofBlocks x) with _ | _ | _ <;> rfl
    rcases validate_cases s with ⟨hv, e⟩ | ⟨_, e⟩ | ⟨_, _, e⟩
    · rw [e] at e0
      by_cases hm : s.ilen.toNat % 16 = 0
      · rcases hx : cbcDecBlocks C s.keyOperand s.ivOperand (toBlocks (s.ilen.toNat / 16) (s.input C)) s.port with
          ⟨code | ⟨c, ch⟩, p⟩
        · simp only [hx, hm, ne_eq, not_true, if_false] at e0
          exact .inr (.inr (.inr (.inl ⟨hr, hv, hm, code, p, hx ▸ rfl, e0⟩)))
        · simp only [hx, hm, ne_eq, not_true, if_false] at e0
          exact .inr (.inr (.inr (.inr ⟨hr, hv, hm, c, ch, p, hx ▸ rfl, e0⟩)))
      · simp only [hm, ne_eq, not_false_iff, if_true] at e0
        exact .inr (.inr (.inl ⟨hr, hv, hm, e0⟩))
    · rw [e] at e0; exact .inr (.inl ⟨hr, _, e, e0⟩)
    · rw [e] at e0; exact .inr (.inl ⟨hr, _, e, e0⟩)
  · exact .inl ⟨hr, by rw [cbcDec, whenIdle_of_idle h, whenInRange_of_not hr]⟩

/-- Every way `CBC_INIT` can end (R150, R151). -/
theorem cbcInit_cases (dir : Bool) {s : State} (h : s.phase = .idle) :
    (∃ e, validate s = .error e ∧ cbcInit dir s = .next (dropCtx (raise e (accept s)))) ∨
    (s.Validates ∧
      cbcInit dir s = .next (complete (bindCtx (Ctx.freshCbc dir s.keyOperand s.ivOperand) (accept s)))) := by
  rw [cbcInit, whenIdle_of_idle h]
  simp only [validate_accept]
  rcases validate_cases s with ⟨hv, e⟩ | ⟨_, e⟩ | ⟨_, _, e⟩ <;> simp [*]

/-- Every way `CTR_INIT` can end (R165, R166). -/
theorem ctrInit_cases {s : State} (h : s.phase = .idle) :
    (∃ e, validate s = .error e ∧ ctrInit s = .next (dropCtx (raise e (accept s)))) ∨
    (s.Validates ∧ ctrInit s = .next (complete (bindCtx (Ctx.freshCtr s.keyOperand s.ivOperand) (accept s)))) := by
  rw [ctrInit, whenIdle_of_idle h]
  simp only [validate_accept]
  rcases validate_cases s with ⟨hv, e⟩ | ⟨_, e⟩ | ⟨_, _, e⟩ <;> simp [*]

theorem Ctx.isCbc_iff (c : Ctx) : c.isCbc = true ↔ c.kind = .cbcE ∨ c.kind = .cbcD := by simp [Ctx.isCbc]

/-- Every way `CBC_BLOCKS` can end (R153, R157). -/
theorem cbcBlocks_cases (C : Config) {s : State} (h : s.phase = .idle) :
    (∃ c, c ≠ .none ∧ cbcBlocks C s = .next (reject c s)) ∨
    (s.InRange ∧ (s.ctx.kind = .cbcE ∨ s.ctx.kind = .cbcD) ∧ s.ilen.toNat % 16 = 0 ∧ ∃ code p,
      cbcBlocksOf C s.ctx (toBlocks (s.ilen.toNat / 16) (s.input C)) s.port = (.error code, p) ∧
      cbcBlocks C s = .next (goFatal (putPort p (drawn (accept s))))) ∨
    (s.InRange ∧ (s.ctx.kind = .cbcE ∨ s.ctx.kind = .cbcD) ∧ s.ilen.toNat % 16 = 0 ∧ ∃ y ch p,
      cbcBlocksOf C s.ctx (toBlocks (s.ilen.toNat / 16) (s.input C)) s.port = (.ok (y, ch), p) ∧
      cbcBlocks C s = .next (complete (bindCtx { s.ctx with chain := ch }
        (putOutput (ofBlocks y) (putPort p (drawn (accept s))))))) := by
  by_cases hr : s.InRange
  · rw [cbcBlocks, whenIdle_of_idle h, whenInRange_of hr]
    by_cases hk : s.ctx.isCbc = true
    · by_cases hm : s.ilen.toNat % 16 = 0
      · simp only [hk, Bool.not_true, Bool.false_eq_true, if_false, hm, ne_eq, not_true, accept_ctx, accept_ilen,
          input_accept, port_accept]
        rcases hx : cbcBlocksOf C s.ctx (toBlocks (s.ilen.toNat / 16) (s.input C)) s.port with ⟨code | ⟨y, ch⟩, p⟩
        · exact .inr (.inl ⟨hr, s.ctx.isCbc_iff.1 hk, trivial, code, p, rfl, rfl⟩)
        · exact .inr (.inr ⟨hr, s.ctx.isCbc_iff.1 hk, trivial, y, ch, p, rfl, rfl⟩)
      · exact .inl ⟨.notFullBlocks, by decide, by simp [hk, hm]⟩
    · exact .inl ⟨.noContext, by decide, by simp [hk]⟩
  · exact .inl ⟨.lenRange, by decide, by rw [cbcBlocks, whenIdle_of_idle h, whenInRange_of_not hr]⟩

/-- Every way `CTR_XOR` can end (R168, R171). -/
theorem ctrXor_cases (C : Config) {s : State} (h : s.phase = .idle) :
    (∃ c, c ≠ .none ∧ ctrXor C s = .next (reject c s)) ∨
    (s.InRange ∧ s.ctx.kind = .ctr ∧ ∃ code p, ksXor C s.ctx (s.input C) s.port = (.error code, p) ∧
      ctrXor C s = .next (goFatal (putPort p (drawn (accept s))))) ∨
    (s.InRange ∧ s.ctx.kind = .ctr ∧ ∃ e c p, ksXor C s.ctx (s.input C) s.port = (.ok (e, c), p) ∧
      ctrXor C s = .next (complete (bindCtx c (putOutput e (putPort p (drawn (accept s))))))) := by
  by_cases hr : s.InRange
  · rw [ctrXor, whenIdle_of_idle h, whenInRange_of hr]
    by_cases hk : s.ctx.kind = .ctr
    · simp only [hk, ne_eq, not_true, if_false, accept_ctx, input_accept, port_accept]
      rcases hx : ksXor C s.ctx (s.input C) s.port with ⟨code | ⟨e, c⟩, p⟩
      · exact .inr (.inl ⟨hr, trivial, code, p, rfl, rfl⟩)
      · exact .inr (.inr ⟨hr, trivial, e, c, p, rfl, rfl⟩)
    · exact .inl ⟨.noContext, by decide, by simp [hk]⟩
  · exact .inl ⟨.lenRange, by decide, by rw [ctrXor, whenIdle_of_idle h, whenInRange_of_not hr]⟩

theorem ctxDrop_idle {s : State} (h : s.phase = .idle) : ctxDrop s = .next (complete (dropCtx (accept s))) := by
  rw [ctxDrop, whenIdle_of_idle h]

end Sys2Proof.Machine
end

