-- ==== Sys2Proof/Laws/PerInstr.lean ====
section
/-! SUPPORT. Statements made per command, about the command as syntax. -/

namespace Sys2Proof.Laws.EncodingLegal

/-- The fields of the command's word are well formed, and only `CBC_INIT` sets bit 8 (`30_encoding.md` R90, R91, R93). -/
def Statement (i : Instr) : Prop :=
  i.fields.wellFormed = true ∧ ((encode i).getLsbD 8 = true ↔ i = .cbcInit true)

theorem cbcEnc : Statement .cbcEnc := by unfold Statement; decide
theorem cbcDec : Statement .cbcDec := by unfold Statement; decide
theorem cbcInit (dir : Bool) : Statement (.cbcInit dir) := by unfold Statement; cases dir <;> decide
theorem cbcBlocks : Statement .cbcBlocks := by unfold Statement; decide
theorem ctrInit : Statement .ctrInit := by unfold Statement; decide
theorem ctrXor : Statement .ctrXor := by unfold Statement; decide
theorem ctxDrop : Statement .ctxDrop := by unfold Statement; decide
theorem ctrEncPath : Statement .ctrEncPath := by unfold Statement; decide
theorem ctrDecPath : Statement .ctrDecPath := by unfold Statement; decide
theorem ctrEncStrm : Statement .ctrEncStrm := by unfold Statement; decide
theorem ctrDecStrm : Statement .ctrDecStrm := by unfold Statement; decide

end Sys2Proof.Laws.EncodingLegal
end

