-- ==== Sys2Proof/Laws/Streaming.lean ====
section
/-! SUPPORT. The streaming adapter: what a running command does with one answer, how a list of answers is served, and
what a copy of good chunks comes to. -/

namespace Sys2Proof.Machine

/-! ## One answer -/

/-- Everything a running command can do with an answer (R176, R184, R185, R189). -/
theorem onAnswer_next {C : Config} {j : Job} {a : StreamAnswer} {s t : State} (h : onAnswer C j a s = .next t) :
    (j.await = .openRd ∧ a = .ok ∧ s.srcId ≠ s.dstId ∧
      t = issue j .createTrunc (.createTrunc s.dstId) (setSrcOpen true s)) ∨
    (∃ c, j.await = .openRd ∧ a = .ioerr c ∧ t = release j (.error (.ioError .openRd c)) s) ∨
    (j.await = .createTrunc ∧ a = .ok ∧ t = startCopy j (setDstOpen true s)) ∨
    (∃ c, j.await = .createTrunc ∧ a = .ioerr c ∧ t = release j (.error (.ioError .createTrunc c)) s) ∨
    (∃ d, j.await = .read ∧ a = .data d ∧ chunkLegal s.params d = true ∧ t = copyChunk C j d s) ∨
    (j.await = .read ∧ a = .eof ∧ t = release j .success s) ∨
    (∃ c, j.await = .read ∧ a = .ioerr c ∧ t = release j (.error (.ioError .read c)) s) ∨
    (j.await = .write ∧ a = .ok ∧ t = issue j .read (.read s.srcId s.params.chunk) s) ∨
    (∃ c, j.await = .write ∧ a = .ioerr c ∧ t = release j (.error (.ioError .write c)) s) ∨
    (∃ e, j.await = .close e ∧ a = .ack ∧ t = release j e s) := by
  obtain ⟨shape, dir, await⟩ := j
  unfold onAnswer at h
  rcases await with _ | _ | _ | _ | e <;> rcases a with _ | d | _ | c | _ <;> simp only at h <;>
    first
      | (cases h; done)
      | (cases h; simp)
      | (split at h <;> cases h; simp_all)

/-- An answer never makes a command fault. -/
theorem onAnswer_ne_fault (C : Config) (j : Job) (a : StreamAnswer) (s : State) (f : Fault) : onAnswer C j a s ≠ .fault f := by
  obtain ⟨shape, dir, await⟩ := j
  unfold onAnswer
  rcases await with _ | _ | _ | _ | e <;> rcases a with _ | d | _ | c | _ <;> simp only <;>
    first
      | (simp; done)
      | (split <;> simp)

/-- When a running command refuses an answer: R74 does not list it for the outstanding request, or the source has been
opened and the sink is the same object. -/
theorem onAnswer_refused {C : Config} {j : Job} {a : StreamAnswer} {s : State} {r : Refusal} :
    onAnswer C j a s = .refused r ↔ (r = .badServiceAnswer ∧ ¬ j.await.Admits s.params a) ∨
      (r = .sameStreamObject ∧ j.await = .openRd ∧ a = .ok ∧ s.srcId = s.dstId) := by
  obtain ⟨shape, dir, await⟩ := j
  unfold onAnswer
  rcases await with _ | _ | _ | _ | e <;> rcases a with _ | d | _ | c | _ <;>
    simp only [Await.Admits] <;>
    first
      | (simp [eq_comm (a := r)]; done)
      | (split <;> simp_all [eq_comm (a := r), chunkLegal])

/-- A release closes the sink, closes the source, or ends the command. -/
theorem release_cases (j : Job) (e : Ending) (s : State) :
    (j.shape = .path ∧ s.dstOpen = true ∧
      release j e s = issue j (.close e) (.close s.dstId) (setDstOpen false s)) ∨
    (j.shape = .path ∧ s.dstOpen = false ∧ s.srcOpen = true ∧
      release j e s = issue j (.close e) (.close s.srcId) (setSrcOpen false s)) ∨
    ((j.shape = .path → s.dstOpen = false ∧ s.srcOpen = false) ∧ release j e s = endCommand e s) := by
  unfold release
  rcases j.shape <;> rcases s.dstOpen <;> rcases s.srcOpen <;> simp

theorem endCommand_phase (e : Ending) (s : State) : (endCommand e s).phase ≠ .run := by
  rcases e with _ | _ | _ <;> simp [endCommand]

/-- The copy starts with a fresh scratch context, or the validation error ends the command (R184, R189). -/
theorem startCopy_cases (j : Job) (s : State) :
    (s.Validates ∧ startCopy j s = issue j .read (.read s.srcId s.params.chunk)
      (setScratch (Ctx.freshCtr s.keyOperand s.ivOperand) s)) ∨
    (∃ e, validate s = .error e ∧ startCopy j s = release j (.error e) s) := by
  unfold startCopy
  rcases validate_cases s with ⟨hv, e⟩ | ⟨_, e⟩ | ⟨_, _, e⟩
  · exact .inl ⟨hv, by rw [e]⟩
  · exact .inr ⟨_, e, by rw [e]⟩
  · exact .inr ⟨_, e, by rw [e]⟩

/-- A chunk is transformed and written, or a primitive fault releases the handles (R176, R183). -/
theorem copyChunk_cases (C : Config) (j : Job) (d : List Byte) (s : State) :
    (∃ e c p, ksXor C s.scratch d s.port = (.ok (e, c), p) ∧
      copyChunk C j d s = issue j .write (.write s.dstId e) (setScratch c (putPort p s))) ∨
    (∃ code p, ksXor C s.scratch d s.port = (.error code, p) ∧
      copyChunk C j d s = release j (copyFault C s.params j.dir code) (putPort p s)) := by
  unfold copyChunk
  rcases ksXor C s.scratch d s.port with ⟨code | ⟨e, c⟩, p⟩
  · exact .inr ⟨code, p, rfl, rfl⟩
  · exact .inl ⟨e, c, p, rfl, rfl⟩

/-! ## What no answer changes -/

/-- What a running command never changes: operands, `CTX`, inputs, answers still to come, draws. -/
def SameWhileRunning (s t : State) : Prop :=
  SameOperands s t ∧ t.ctx = s.ctx ∧ t.inputs = s.inputs ∧ t.answers = s.answers ∧ t.draws = s.draws

theorem SameWhileRunning.refl (s : State) : SameWhileRunning s s := by
  simp [SameWhileRunning, SameOperands]

theorem SameOperands.refl (s : State) : SameOperands s s := by
  simp [SameOperands]

theorem SameOperands.trans {s t u : State} (h₁ : SameOperands s t) (h₂ : SameOperands t u) : SameOperands s u := by
  unfold SameOperands at *
  simp_all

theorem SameWhileRunning.trans {s t u : State} (h₁ : SameWhileRunning s t) (h₂ : SameWhileRunning t u) :
    SameWhileRunning s u := by
  obtain ⟨a, b, c, d, e⟩ := h₁
  obtain ⟨a', b', c', d', e'⟩ := h₂
  exact ⟨a.trans a', b'.trans b, c'.trans c, d'.trans d, e'.trans e⟩

theorem same_endCommand (e : Ending) (s : State) : SameWhileRunning s (endCommand e s) := by
  rcases e with _ | _ | _ <;> simp [endCommand, SameWhileRunning, SameOperands]

theorem same_release (j : Job) (e : Ending) (s : State) : SameWhileRunning s (release j e s) := by
  rcases release_cases j e s with ⟨_, _, h⟩ | ⟨_, _, _, h⟩ | ⟨_, h⟩ <;> rw [h]
  · simp [SameWhileRunning, SameOperands]
  · simp [SameWhileRunning, SameOperands]
  · exact same_endCommand e s

theorem same_startCopy (j : Job) (s : State) : SameWhileRunning s (startCopy j s) := by
  rcases startCopy_cases j s with ⟨_, h⟩ | ⟨e, _, h⟩ <;> rw [h]
  · simp [SameWhileRunning, SameOperands]
  · exact same_release ..

theorem same_copyChunk (C : Config) (j : Job) (d : List Byte) (s : State) : SameWhileRunning s (copyChunk C j d s) := by
  rcases copyChunk_cases C j d s with ⟨_, _, _, _, h⟩ | ⟨_, p, _, h⟩ <;> rw [h]
  · simp [SameWhileRunning, SameOperands]
  · exact .trans (t := putPort p s) (by simp [SameWhileRunning, SameOperands]) (same_release ..)

theorem same_onAnswer {C : Config} {j : Job} {a : StreamAnswer} {s t : State} (h : onAnswer C j a s = .next t) :
    SameWhileRunning s t := by
  rcases onAnswer_next h with ⟨_, _, _, h⟩ | ⟨_, _, _, h⟩ | ⟨_, _, h⟩ | ⟨_, _, _, h⟩ | ⟨_, _, _, _, h⟩ | ⟨_, _, h⟩ |
    ⟨_, _, _, h⟩ | ⟨_, _, h⟩ | ⟨_, _, _, h⟩ | ⟨_, _, _, h⟩ <;> subst h
  · simp [SameWhileRunning, SameOperands]
  · exact same_release ..
  · exact .trans (t := setDstOpen true s) (by simp [SameWhileRunning, SameOperands]) (same_startCopy ..)
  · exact same_release ..
  · exact same_copyChunk ..
  · exact same_release ..
  · exact same_release ..
  · simp [SameWhileRunning, SameOperands]
  · exact same_release ..
  · exact same_release ..

/-! ## Serving a list of answers -/

@[simp] theorem serve_nil (C : Config) (s : State) : serve C [] s = .next s := rfl

theorem serve_no_job (C : Config) (as : List StreamAnswer) {s : State} (h : s.job = none) : serve C as s = .next s := by
  rcases as with _ | ⟨a, as⟩
  · rfl
  · simp [serve, h]

theorem serve_cons (C : Config) (a : StreamAnswer) (as : List StreamAnswer) {s : State} {j : Job} (h : s.job = some j) :
    serve C (a :: as) s = match onAnswer C j a (takeAnswer a as s) with
      | .next t => serve C as t
      | .fault f => .fault f
      | .refused r => .refused r := by
  rw [serve, h]
  try rfl

/-- What every answer keeps, serving keeps. -/
theorem serve_invariant {C : Config} {P : State → Prop}
    (step : ∀ (s t : State) (j : Job) (a : StreamAnswer) (as : List StreamAnswer), P s → s.job = some j →
      onAnswer C j a (takeAnswer a as s) = .next t → P t)
    {as : List StreamAnswer} {s t : State} (hs : P s) (h : serve C as s = .next t) : P t := by
  induction as generalizing s with
  | nil => cases h; exact hs
  | cons a as ih =>
    rcases hj : s.job with _ | j
    · rw [serve_no_job C _ hj] at h; cases h; exact hs
    · rw [serve_cons C a as hj] at h
      rcases ho : onAnswer C j a (takeAnswer a as s) with u | f | r <;> rw [ho] at h
      · exact ih (step s u j a as hs hj ho) h
      · cases h
      · cases h

/-- One answer of those in the state is served. -/
theorem runJob_cons {C : Config} {j : Job} {a : StreamAnswer} {as : List StreamAnswer} {s t : State} (hj : s.job = some j)
    (ha : s.answers = a :: as) (h : onAnswer C j a (takeAnswer a as s) = .next t) : runJob C s = runJob C t := by
  have ht : t.answers = as := by rw [(same_onAnswer h).2.2.2.1]; rfl
  rw [runJob, ha, serve_cons C a as hj, h, runJob, ht]

theorem runJob_no_job (C : Config) {s : State} (h : s.job = none) : runJob C s = .next s := serve_no_job C _ h

theorem runJob_no_answer (C : Config) {s : State} (h : s.answers = []) : runJob C s = .next s := by
  rw [runJob, h]; rfl

/-! ## The requests and the bytes of events -/

@[simp] theorem requests_nil : requests [] = [] := rfl
@[simp] theorem requests_append (a b : List Event) : requests (a ++ b) = requests a ++ requests b := List.filterMap_append ..
@[simp] theorem requests_request (r : StreamReq) (ev : List Event) : requests (.request r :: ev) = r :: requests ev := rfl
@[simp] theorem requests_answer (a : StreamAnswer) (ev : List Event) : requests (.answer a :: ev) = requests ev := rfl
@[simp] theorem requests_prim (d : Dir) (k : List Byte) (b : Block) (r : PrimResult) (ev : List Event) :
    requests (.prim d k b r :: ev) = requests ev := rfl

@[simp] theorem primEvents_nil : primEvents [] = [] := rfl
@[simp] theorem primEvents_append (a b : List Event) : primEvents (a ++ b) = primEvents a ++ primEvents b :=
  List.filter_append ..
@[simp] theorem primEvents_request (r : StreamReq) (ev : List Event) : primEvents (.request r :: ev) = primEvents ev := rfl
@[simp] theorem primEvents_answer (a : StreamAnswer) (ev : List Event) : primEvents (.answer a :: ev) = primEvents ev := rfl
@[simp] theorem primEvents_prim (d : Dir) (k : List Byte) (b : Block) (r : PrimResult) (ev : List Event) :
    primEvents (.prim d k b r :: ev) = .prim d k b r :: primEvents ev := rfl

/-- The events of primitive requests hold no stream-port request. -/
theorem PrimEvents.requests {C : Config} {n : Nat} {dir : Dir} {k : List Byte} {ev : List Event}
    (h : PrimEvents C n dir k ev) : requests ev = [] := by
  obtain ⟨-, h⟩ := h
  induction ev with
  | nil => rfl
  | cons e ev ih =>
    obtain ⟨b, rfl⟩ := h e (List.mem_cons_self ..)
    exact ih fun e he => h e (List.mem_cons_of_mem _ he)

theorem PrimEvents.primEvents {C : Config} {n : Nat} {dir : Dir} {k : List Byte} {ev : List Event}
    (h : PrimEvents C n dir k ev) : primEvents ev = ev := by
  obtain ⟨-, h⟩ := h
  induction ev with
  | nil => rfl
  | cons e ev ih =>
    obtain ⟨b, rfl⟩ := h e (List.mem_cons_self ..)
    rw [primEvents_prim, ih fun e he => h e (List.mem_cons_of_mem _ he)]

theorem PrimEvents.append {C : Config} {n m : Nat} {dir : Dir} {k : List Byte} {ev ev' : List Event}
    (h : PrimEvents C n dir k ev) (h' : PrimEvents C m dir k ev') : PrimEvents C (n + m) dir k (ev ++ ev') :=
  ⟨by rw [List.length_append, h.1, h'.1], fun e he => (List.mem_append.1 he).elim (h.2 e) (h'.2 e)⟩

theorem copyRequests_congr {src dst : Word} {max : Nat} {ks ks' : Nat → Byte} {off off' : Nat} (ds : List (List Byte))
    (h : ∀ t, ks (off + t) = ks' (off' + t)) : copyRequests src dst max ks off ds = copyRequests src dst max ks' off' ds := by
  induction ds generalizing off off' with
  | nil => rfl
  | cons d ds ih =>
    rw [copyRequests, copyRequests, xorStream_congr d h, ih fun t => ?_]
    have := h (d.length + t)
    rwa [← Nat.add_assoc, ← Nat.add_assoc] at this

/-! ## A copy of good chunks -/

/-! ## A copy of good chunks -/

/-- In two stretches a context needs the blocks of each. -/
theorem Ctx.blocksFor_add {E : Block → Block} {c : Ctx} (hc : c.ksPos ≤ 16) (T U : Nat) :
    c.blocksFor (T + U) = c.blocksFor T + (c.advanced E T).blocksFor U := by
  unfold Ctx.blocksFor Ctx.advanced
  simp only
  split
  · simp only; omega
  · simp only; omega

/-- The state while a copy goes on: only the scratch context, the answers, the primitive's plan and the record change. -/
def copying (c : Ctx) (as : List StreamAnswer) (n : Nat) (ev : List Event) (s : State) : State :=
  { s with scratch := c, answers := as, primPlan := s.primPlan.drop n, log := s.log ++ ev }

@[simp] theorem copying_job (c : Ctx) (as : List StreamAnswer) (n : Nat) (ev : List Event) (s : State) :
    (copying c as n ev s).job = s.job := rfl
@[simp] theorem copying_params (c : Ctx) (as : List StreamAnswer) (n : Nat) (ev : List Event) (s : State) :
    (copying c as n ev s).params = s.params := rfl
@[simp] theorem copying_srcId (c : Ctx) (as : List StreamAnswer) (n : Nat) (ev : List Event) (s : State) :
    (copying c as n ev s).srcId = s.srcId := rfl
@[simp] theorem copying_dstId (c : Ctx) (as : List StreamAnswer) (n : Nat) (ev : List Event) (s : State) :
    (copying c as n ev s).dstId = s.dstId := rfl
@[simp] theorem copying_scratch (c : Ctx) (as : List StreamAnswer) (n : Nat) (ev : List Event) (s : State) :
    (copying c as n ev s).scratch = c := rfl
@[simp] theorem copying_answers (c : Ctx) (as : List StreamAnswer) (n : Nat) (ev : List Event) (s : State) :
    (copying c as n ev s).answers = as := rfl
@[simp] theorem copying_log (c : Ctx) (as : List StreamAnswer) (n : Nat) (ev : List Event) (s : State) :
    (copying c as n ev s).log = s.log ++ ev := rfl
@[simp] theorem copying_primPlan (c : Ctx) (as : List StreamAnswer) (n : Nat) (ev : List Event) (s : State) :
    (copying c as n ev s).primPlan = s.primPlan.drop n := rfl

theorem copying_copying (c c' : Ctx) (as as' : List StreamAnswer) (n n' : Nat) (ev ev' : List Event) (s : State) :
    copying c' as' n' ev' (copying c as n ev s) = copying c' as' (n + n') (ev ++ ev') s := by
  simp only [copying, List.append_assoc, List.drop_drop]

theorem onAnswer_write_ok (C : Config) (shape : Shape) (dir : Dir) (s : State) :
    onAnswer C ⟨shape, dir, .write⟩ .ok s = .next (issue ⟨shape, dir, .write⟩ .read (.read s.srcId s.params.chunk) s) := rfl

theorem onAnswer_read_data (C : Config) (shape : Shape) (dir : Dir) (d : List Byte) (s : State) :
    onAnswer C ⟨shape, dir, .read⟩ (.data d) s =
      if chunkLegal s.params d then .next (copyChunk C ⟨shape, dir, .read⟩ d s) else .refused .badServiceAnswer := rfl

/-- A chunk is read, transformed and handed to the sink (R176). -/
theorem runJob_read_chunk (C : Config) {shape : Shape} {dir : Dir} {s : State} {d : List Byte} {as : List StreamAnswer}
    (hs : s.job = some ⟨shape, dir, .read⟩) (hd : chunkLegal s.params d = true) (ha : s.answers = .data d :: as)
    (hc : s.scratch.ksPos ≤ 16) (hg : s.port.GoodFor (s.scratch.blocksFor d.length)) :
    ∃ ev, PrimEvents C (s.scratch.blocksFor d.length) .enc s.scratch.boundKey ev ∧
      runJob C s = runJob C (issue ⟨shape, dir, .read⟩ .write
        (.write s.dstId (xorStream (s.scratch.stream (blockCipher C .enc s.scratch.boundKey)) 0 d))
        (copying (s.scratch.advanced (blockCipher C .enc s.scratch.boundKey) d.length) as
          (s.scratch.blocksFor d.length) (.answer (.data d) :: ev) s)) := by
  obtain ⟨ev, e, hev⟩ := ksXor_good C hc d (p := (takeAnswer (.data d) as s).port)
    (by simpa only [Port.GoodFor, State.port_plan, takeAnswer_primPlan] using hg)
  refine ⟨ev, hev, ?_⟩
  have e₁ : onAnswer C ⟨shape, dir, .read⟩ (.data d) (takeAnswer (.data d) as s) =
      .next (copyChunk C ⟨shape, dir, .read⟩ d (takeAnswer (.data d) as s)) := by
    rw [onAnswer_read_data, takeAnswer_params, if_pos hd]
  rw [runJob_cons hs ha e₁, copyChunk, takeAnswer_scratch, e]
  refine congrArg (runJob C) ?_
  simp only [issue, takeAnswer, setScratch, putPort, copying, Port.after, State.port, List.append_assoc,
    List.cons_append, List.nil_append]

/-- The state after answers and primitive requests the last of which faulted. -/
def faulted (as : List StreamAnswer) (plan : List PrimAnswer) (ev : List Event) (s : State) : State :=
  { s with answers := as, primPlan := plan, log := s.log ++ ev }

/-- A chunk is read and its transformation faults: the handles are released (R183). -/
theorem runJob_read_fault (C : Config) {shape : Shape} {dir : Dir} {s : State} {d : List Byte} {as : List StreamAnswer}
    {j : Nat} {code : Byte} {rest : List PrimAnswer} (hs : s.job = some ⟨shape, dir, .read⟩)
    (hd : chunkLegal s.params d = true) (ha : s.answers = .data d :: as) (hc : s.scratch.ksPos ≤ 16)
    (hp : s.primPlan = List.replicate j .ok ++ .fault code :: rest) (hj : j < s.scratch.blocksFor d.length) :
    ∃ ev b, PrimEvents C j .enc s.scratch.boundKey ev ∧
      runJob C s = runJob C (release ⟨shape, dir, .read⟩ (copyFault C s.params dir code) (faulted as rest
        (.answer (.data d) :: (ev ++ [.prim .enc s.scratch.boundKey b (.fault code)])) s)) := by
  obtain ⟨ev, b, e, hev⟩ := ksXor_fault C hc d (p := (takeAnswer (.data d) as s).port) hp hj
  refine ⟨ev, b, hev, ?_⟩
  have e₁ : onAnswer C ⟨shape, dir, .read⟩ (.data d) (takeAnswer (.data d) as s) =
      .next (copyChunk C ⟨shape, dir, .read⟩ d (takeAnswer (.data d) as s)) := by
    rw [onAnswer_read_data, takeAnswer_params, if_pos hd]
  rw [runJob_cons hs ha e₁, copyChunk, takeAnswer_scratch, e]
  refine congrArg (fun u => runJob C (release ⟨shape, dir, .read⟩ (copyFault C s.params dir code) u)) ?_
  simp only [takeAnswer, putPort, faulted, State.port, List.append_assoc, List.cons_append, List.nil_append]

/-- One good chunk: read, transformed, written, and the next one asked for (R176). -/
theorem runJob_chunk (C : Config) {shape : Shape} {dir : Dir} {s : State} {d : List Byte} {as : List StreamAnswer}
    (hs : s.job = some ⟨shape, dir, .read⟩) (hd : chunkLegal s.params d = true) (ha : s.answers = .data d :: .ok :: as)
    (hc : s.scratch.ksPos ≤ 16) (hg : s.port.GoodFor (s.scratch.blocksFor d.length)) :
    ∃ ev, PrimEvents C (s.scratch.blocksFor d.length) .enc s.scratch.boundKey ev ∧
      runJob C s = runJob C (copying (s.scratch.advanced (blockCipher C .enc s.scratch.boundKey) d.length) as
        (s.scratch.blocksFor d.length)
        (.answer (.data d) :: (ev ++ [.request (.write s.dstId
            (xorStream (s.scratch.stream (blockCipher C .enc s.scratch.boundKey)) 0 d)),
          .answer .ok, .request (.read s.srcId s.params.chunk)])) s) := by
  obtain ⟨ev, hev, e⟩ := runJob_read_chunk C hs hd ha hc hg
  refine ⟨ev, hev, e.trans ?_⟩
  refine (runJob_cons (j := ⟨shape, dir, .write⟩) (a := .ok) (as := as) (by simp only [issue_job]) (by simp)
    (onAnswer_write_ok ..)).trans (congrArg (runJob C) ?_)
  simp only [issue, takeAnswer, copying, hs, List.append_assoc, List.cons_append, List.nil_append]

/-- A copy of good chunks (R176): where it stands after them, and the requests it has made, the `READ` it began with
counted in. -/
theorem runJob_copy (C : Config) {shape : Shape} {dir : Dir} {s : State} (ds : List (List Byte))
    {rest : List StreamAnswer} (hs : s.job = some ⟨shape, dir, .read⟩) (hl : LegalChunks s.params ds)
    (ha : s.answers = goodChunks ds ++ rest) (hc : s.scratch.ksPos ≤ 16)
    (hg : s.port.GoodFor (s.scratch.blocksFor ds.flatten.length)) :
    ∃ ev, runJob C s = runJob C (copying (s.scratch.advanced (blockCipher C .enc s.scratch.boundKey) ds.flatten.length)
        rest (s.scratch.blocksFor ds.flatten.length) ev s) ∧
      .read s.srcId s.params.chunk :: requests ev =
        copyRequests s.srcId s.dstId s.params.chunk (s.scratch.stream (blockCipher C .enc s.scratch.boundKey)) 0 ds ∧
      PrimEvents C (s.scratch.blocksFor ds.flatten.length) .enc s.scratch.boundKey (primEvents ev) := by
  induction ds generalizing s with
  | nil =>
    have h0 : s.scratch.blocksFor ([] : List (List Byte)).flatten.length = 0 := by simp [Ctx.blocksFor]; omega
    rw [h0]
    refine ⟨[], ?_, rfl, PrimEvents.nil C .enc _⟩
    simp only [List.flatten_nil, List.length_nil, Ctx.advanced_zero hc, copying, List.drop_zero, List.append_nil]
    rw [← show s.answers = rest from ha]
  | cons d ds ih =>
    have hd := hl d (List.mem_cons_self ..)
    generalize hE : blockCipher C .enc s.scratch.boundKey = E
    rw [show (d :: ds).flatten.length = d.length + ds.flatten.length by simp, Ctx.blocksFor_add (E := E) hc] at hg ⊢
    obtain ⟨evx, hex, ex⟩ := runJob_chunk C hs (by simp [chunkLegal, hd.1, hd.2]) (as := goodChunks ds ++ rest) ha hc
      (Port.goodFor_le hg (Nat.le_add_right ..))
    rw [hE] at ex
    generalize hev₁ : Event.answer (.data d) :: (evx ++ [.request (.write s.dstId (xorStream (s.scratch.stream E) 0 d)),
          .answer .ok, .request (.read s.srcId s.params.chunk)]) = ev₁ at ex
    obtain ⟨ev, e, hr, hp⟩ := ih (s := copying (s.scratch.advanced E d.length) (goodChunks ds ++ rest)
      (s.scratch.blocksFor d.length) ev₁ s) hs (fun x hx => hl x (List.mem_cons_of_mem _ hx)) rfl
      (Ctx.advanced_ksPos_le hc _)
      (by simpa only [Port.GoodFor, State.port_plan, copying_primPlan, Port.after_plan, copying_scratch] using
        Port.goodFor_after (p := s.port) hg ev₁)
    simp only [copying_scratch, Ctx.boundKey_advanced, hE, copying_copying, copying_srcId, copying_dstId, copying_params,
      Ctx.advanced_advanced hc] at e hr hp
    refine ⟨ev₁ ++ ev, ex.trans e, ?_, ?_⟩
    · rw [← hev₁]
      simp only [List.cons_append, requests_answer, requests_append, hex.requests, List.nil_append, requests_request,
        List.append_assoc, copyRequests, hr]
      refine congrArg _ (congrArg _ (copyRequests_congr ds fun t => ?_))
      rw [Ctx.stream_advanced hc]
      congr 1; omega
    · rw [← hev₁]
      simp only [List.cons_append, primEvents_answer, primEvents_append, hex.primEvents, List.nil_append, primEvents_request,
        List.append_assoc]
      exact PrimEvents.append hex hp

/-! ## How a streaming command begins and ends -/

theorem onAnswer_open_ok (C : Config) (shape : Shape) (dir : Dir) {s : State} (h : s.srcId ≠ s.dstId) :
    onAnswer C ⟨shape, dir, .openRd⟩ .ok s =
      .next (issue ⟨shape, dir, .openRd⟩ .createTrunc (.createTrunc s.dstId) (setSrcOpen true s)) := by
  rw [show onAnswer C ⟨shape, dir, .openRd⟩ .ok s = if s.srcId = s.dstId then .refused .sameStreamObject
    else .next (issue ⟨shape, dir, .openRd⟩ .createTrunc (.createTrunc s.dstId) (setSrcOpen true s)) from rfl, if_neg h]

/-- A path command once both files are open and, `startCopy` permitting, the copy begins (R184). -/
def pathOpened (dir : Dir) (rest : List StreamAnswer) (s : State) : State :=
  { accept s with
    srcOpen := true, dstOpen := true, job := some ⟨.path, dir, .createTrunc⟩, answers := rest
    log := s.log ++ [.request (.openRd s.srcId), .answer .ok, .request (.createTrunc s.dstId), .answer .ok] }

theorem ctrPath_idle (C : Config) (dir : Dir) {s : State} (h : s.phase = .idle) :
    ctrPath C dir s = runJob C (issue ⟨.path, dir, .openRd⟩ .openRd (.openRd s.srcId) (accept s)) := by
  rw [ctrPath, whenIdle_of_idle h]

/-- A path command whose two opens are answered `ok` (R184, steps 1 and 2). -/
theorem ctrPath_opened (C : Config) (dir : Dir) {s : State} {rest : List StreamAnswer} (h : s.phase = .idle)
    (hne : s.srcId ≠ s.dstId) (ha : s.answers = .ok :: .ok :: rest) :
    ctrPath C dir s = runJob C (startCopy ⟨.path, dir, .createTrunc⟩ (pathOpened dir rest s)) := by
  rw [ctrPath_idle C dir h, runJob_cons (j := ⟨.path, dir, .openRd⟩) (a := .ok) (as := .ok :: rest) (by simp only [issue_job])
    (by simpa using ha) (onAnswer_open_ok C _ _ (by simpa using hne))]
  refine (runJob_cons (j := ⟨.path, dir, .createTrunc⟩) (a := .ok) (as := rest) (by simp only [issue_job]) (by simp)
    (t := startCopy ⟨.path, dir, .createTrunc⟩ (pathOpened dir rest s)) ?_)
  refine congrArg (fun x => Host.Outcome.next (startCopy ⟨.path, dir, .createTrunc⟩ x)) ?_
  simp only [setDstOpen, takeAnswer, issue, setSrcOpen, accept, pathOpened, List.append_assoc, List.cons_append,
    List.nil_append]

/-- A handle command (R189). -/
theorem ctrStrm_idle (C : Config) (dir : Dir) {s : State} (h : s.phase = .idle) :
    ctrStrm C dir s = if (startCopy ⟨.handle, dir, .read⟩ (accept s)).job.isSome ∧ s.srcId = s.dstId
      then .refused .sameStreamObject else runJob C (startCopy ⟨.handle, dir, .read⟩ (accept s)) := by
  rw [ctrStrm, whenIdle_of_idle h]

/-- The state after both closes of a path command, its end aside. -/
def closedBoth (more : List StreamAnswer) (s : State) : State :=
  { s with
    dstOpen := false, srcOpen := false, answers := more
    log := s.log ++ [.request (.close s.dstId), .answer .ack, .request (.close s.srcId), .answer .ack] }

/-- The state after the one close of a path command that has only its source open, its end aside. -/
def closedSrc (more : List StreamAnswer) (s : State) : State :=
  { s with srcOpen := false, answers := more, log := s.log ++ [.request (.close s.srcId), .answer .ack] }

/-- The end of a path command with both files open: the sink is closed, then the source (R185). -/
theorem runJob_release_both (C : Config) {dir : Dir} {aw : Await} {e : Ending} {s : State} {more : List StreamAnswer}
    (hd : s.dstOpen = true) (hs : s.srcOpen = true) (ha : s.answers = .ack :: .ack :: more) :
    runJob C (release ⟨.path, dir, aw⟩ e s) = .next (endCommand e (closedBoth more s)) := by
  have r₁ : release ⟨.path, dir, aw⟩ e s =
      issue ⟨.path, dir, aw⟩ (.close e) (.close s.dstId) (setDstOpen false s) := by simp [release, hd]
  have r₂ : ∀ u : State, u.dstOpen = false → u.srcOpen = true → release ⟨.path, dir, .close e⟩ e u =
      issue ⟨.path, dir, .close e⟩ (.close e) (.close u.srcId) (setSrcOpen false u) := by
    intro u h h'; simp [release, h, h']
  have r₃ : ∀ u : State, u.dstOpen = false → u.srcOpen = false → release ⟨.path, dir, .close e⟩ e u = endCommand e u := by
    intro u h h'; simp [release, h, h']
  rw [r₁, runJob_cons (j := ⟨.path, dir, .close e⟩) (a := .ack) (as := .ack :: more) (by simp only [issue_job]) (by simpa using ha) (t := release ⟨.path, dir, .close e⟩ e _) rfl,
    r₂ _ (by simp) (by simpa using hs), runJob_cons (j := ⟨.path, dir, .close e⟩) (a := .ack) (as := more)
      (by simp only [issue_job]) (by simp) (t := release ⟨.path, dir, .close e⟩ e _) rfl, r₃ _ (by simp) (by simp), runJob_no_job]
  · rcases e with _ | e | _ <;>
      simp only [endCommand, complete, raise, goFatal, takeAnswer, issue, setDstOpen, setSrcOpen, closedBoth,
        List.append_assoc, List.cons_append, List.nil_append]
  · rcases e with _ | e | _ <;> rfl

/-- The end of a path command with only the source open (R185). -/
theorem runJob_release_src (C : Config) {dir : Dir} {aw : Await} {e : Ending} {s : State} {more : List StreamAnswer}
    (hd : s.dstOpen = false) (hs : s.srcOpen = true) (ha : s.answers = .ack :: more) :
    runJob C (release ⟨.path, dir, aw⟩ e s) = .next (endCommand e (closedSrc more s)) := by
  have r₂ : release ⟨.path, dir, aw⟩ e s =
      issue ⟨.path, dir, aw⟩ (.close e) (.close s.srcId) (setSrcOpen false s) := by simp [release, hd, hs]
  have r₃ : ∀ u : State, u.dstOpen = false → u.srcOpen = false → release ⟨.path, dir, .close e⟩ e u = endCommand e u := by
    intro u h h'; simp [release, h, h']
  rw [r₂, runJob_cons (j := ⟨.path, dir, .close e⟩) (a := .ack) (as := more) (by simp only [issue_job]) (by simpa using ha)
    (t := release ⟨.path, dir, .close e⟩ e _) rfl, r₃ _ (by simpa using hd) (by simp), runJob_no_job]
  · rcases e with _ | e | _ <;>
      simp only [endCommand, complete, raise, goFatal, takeAnswer, issue, setSrcOpen, closedSrc, List.append_assoc,
        List.cons_append, List.nil_append]
  · rcases e with _ | e | _ <;> rfl

/-- A handle command, and a path command with nothing open, ends at once (R189). -/
theorem runJob_release_none (C : Config) {j : Job} {e : Ending} {s : State}
    (h : j.shape = .handle ∨ (s.dstOpen = false ∧ s.srcOpen = false)) :
    runJob C (release j e s) = .next (endCommand e s) := by
  have r : release j e s = endCommand e s := by
    rcases h with h | ⟨h, h'⟩ <;> simp [release, *]
  rw [r, runJob_no_job]
  rcases e with _ | _ | _ <;> rfl

/-! ## One answer of those in the state, by the outstanding request -/

theorem runJob_open_ioerr (C : Config) {shape : Shape} {dir : Dir} {s : State} {as : List StreamAnswer} {c : Word}
    (hs : s.job = some ⟨shape, dir, .openRd⟩) (ha : s.answers = .ioerr c :: as) :
    runJob C s = runJob C (release ⟨shape, dir, .openRd⟩ (.error (.ioError .openRd c)) (takeAnswer (.ioerr c) as s)) := runJob_cons hs ha rfl

theorem runJob_create_ok (C : Config) {shape : Shape} {dir : Dir} {s : State} {as : List StreamAnswer}
    (hs : s.job = some ⟨shape, dir, .createTrunc⟩) (ha : s.answers = .ok :: as) :
    runJob C s = runJob C (startCopy ⟨shape, dir, .createTrunc⟩ (setDstOpen true (takeAnswer .ok as s))) := runJob_cons hs ha rfl

theorem runJob_create_ioerr (C : Config) {shape : Shape} {dir : Dir} {s : State} {as : List StreamAnswer} {c : Word}
    (hs : s.job = some ⟨shape, dir, .createTrunc⟩) (ha : s.answers = .ioerr c :: as) :
    runJob C s = runJob C (release ⟨shape, dir, .createTrunc⟩ (.error (.ioError .createTrunc c)) (takeAnswer (.ioerr c) as s)) := runJob_cons hs ha rfl

theorem runJob_read_eof (C : Config) {shape : Shape} {dir : Dir} {s : State} {as : List StreamAnswer}
    (hs : s.job = some ⟨shape, dir, .read⟩) (ha : s.answers = .eof :: as) :
    runJob C s = runJob C (release ⟨shape, dir, .read⟩ .success (takeAnswer .eof as s)) := runJob_cons hs ha rfl

theorem runJob_read_ioerr (C : Config) {shape : Shape} {dir : Dir} {s : State} {as : List StreamAnswer} {c : Word}
    (hs : s.job = some ⟨shape, dir, .read⟩) (ha : s.answers = .ioerr c :: as) :
    runJob C s = runJob C (release ⟨shape, dir, .read⟩ (.error (.ioError .read c)) (takeAnswer (.ioerr c) as s)) := runJob_cons hs ha rfl

theorem runJob_write_ioerr (C : Config) {shape : Shape} {dir : Dir} {s : State} {as : List StreamAnswer} {c : Word}
    (hs : s.job = some ⟨shape, dir, .write⟩) (ha : s.answers = .ioerr c :: as) :
    runJob C s = runJob C (release ⟨shape, dir, .write⟩ (.error (.ioError .write c)) (takeAnswer (.ioerr c) as s)) := runJob_cons hs ha rfl

theorem runJob_close_ack (C : Config) {shape : Shape} {dir : Dir} {s : State} {as : List StreamAnswer} {e : Ending}
    (hs : s.job = some ⟨shape, dir, .close e⟩) (ha : s.answers = .ack :: as) :
    runJob C s = runJob C (release ⟨shape, dir, .close e⟩ e (takeAnswer .ack as s)) := runJob_cons hs ha rfl

theorem runJob_open_ok (C : Config) {shape : Shape} {dir : Dir} {s : State} {as : List StreamAnswer}
    (hs : s.job = some ⟨shape, dir, .openRd⟩) (ha : s.answers = .ok :: as) (hne : s.srcId ≠ s.dstId) :
    runJob C s = runJob C (issue ⟨shape, dir, .openRd⟩ .createTrunc (.createTrunc s.dstId)
      (setSrcOpen true (takeAnswer .ok as s))) :=
  runJob_cons hs ha (onAnswer_open_ok C _ _ hne)

theorem runJob_read_data (C : Config) {shape : Shape} {dir : Dir} {s : State} {as : List StreamAnswer} {d : List Byte}
    (hs : s.job = some ⟨shape, dir, .read⟩) (ha : s.answers = .data d :: as) (hd : chunkLegal s.params d = true) :
    runJob C s = runJob C (copyChunk C ⟨shape, dir, .read⟩ d (takeAnswer (.data d) as s)) :=
  runJob_cons hs ha (by rw [onAnswer_read_data, takeAnswer_params, if_pos hd])

/-! ## From acceptance to the end -/

/-- What a running streaming command started from `s` has left unchanged, and the results acceptance cleared. -/
structure StillRunning (s u : State) : Prop where
  operands : SameOperands s u
  ctx : u.ctx = s.ctx
  inputs : u.inputs = s.inputs
  draws : u.draws = s.draws
  err : u.err = false
  rej : u.rej = false
  rejCause : u.rejCause = .none
  errKind : u.errKind = .none
  ioWhere : u.ioWhere = .none
  ioErr : u.ioErr = 0
  olen : u.olen = 0
  obuf : u.obuf = []

theorem stillRunning_accept (s : State) : StillRunning s (accept s) := by
  constructor <;> simp [SameOperands]

namespace StillRunning

variable {s u : State} (h : StillRunning s u)
include h

theorem issue (j : Job) (aw : Await) (r : StreamReq) : StillRunning s (issue j aw r u) := { h with }
theorem setSrcOpen (b : Bool) : StillRunning s (setSrcOpen b u) := { h with }
theorem setDstOpen (b : Bool) : StillRunning s (setDstOpen b u) := { h with }
theorem setScratch (c : Ctx) : StillRunning s (setScratch c u) := { h with }
theorem putPort (p : Port) : StillRunning s (putPort p u) := { h with }
theorem takeAnswer (a : StreamAnswer) (as : List StreamAnswer) : StillRunning s (takeAnswer a as u) := { h with }
theorem copying (c : Ctx) (as : List StreamAnswer) (n : Nat) (ev : List Event) : StillRunning s (copying c as n ev u) :=
  { h with }
theorem faulted (as : List StreamAnswer) (plan : List PrimAnswer) (ev : List Event) : StillRunning s (faulted as plan ev u) :=
  { h with }
theorem closedBoth (more : List StreamAnswer) : StillRunning s (closedBoth more u) := { h with }
theorem closedSrc (more : List StreamAnswer) : StillRunning s (closedSrc more u) := { h with }

/-- The end with success. -/
theorem succeeded : (endCommand .success u).Succeeded := by
  simp [State.Succeeded, endCommand, h.err, h.rej, h.rejCause, h.errKind, h.ioWhere, h.ioErr]

/-- The end with a typed error. -/
theorem raised (e : TypedError) : (endCommand (.error e) u).Raised e := by
  simp [State.Raised, endCommand, h.rej, h.rejCause, h.obuf]

/-- The end in FATAL. -/
theorem wentFatal : (endCommand .fatal u).WentFatal := by
  simp [State.WentFatal, endCommand, h.rej, h.ioErr, h.obuf]

/-- The end, with the handles closed, the answers that were left over and the requests that were made. -/
theorem streamEnd (e : Ending) {more : List StreamAnswer} {ev : List Event} {reqs : List StreamReq} (hs : u.srcOpen = false)
    (hd : u.dstOpen = false) (ha : u.answers = more) (hl : u.log = s.log ++ ev) (hr : requests ev = reqs) :
    StreamEnd s (endCommand e u) reqs more := by
  obtain ⟨h1, h2, h3, h4, h5⟩ := same_endCommand e u
  refine ⟨h.operands.trans h1, h2.trans h.ctx, h3.trans h.inputs, h4.trans ha, h5.trans h.draws, ?_, ?_, ?_, ?_, ev, ?_, hr⟩
  · rcases e with _ | _ | _ <;> simpa [endCommand] using hs
  · rcases e with _ | _ | _ <;> simpa [endCommand] using hd
  · rcases e with _ | _ | _ <;> simp [endCommand, h.olen]
  · rcases e with _ | _ | _ <;> simp [endCommand, h.obuf]
  · rcases e with _ | _ | _ <;> simpa [endCommand] using hl

end StillRunning

/-! ## The commands up to the end of a copy of good chunks -/

theorem startCopy_of {j : Job} {s : State} (h : s.Validates) :
    startCopy j s = issue j .read (.read s.srcId s.params.chunk) (setScratch (Ctx.freshCtr s.keyOperand s.ivOperand) s) := by
  rw [startCopy, validate_of h]

theorem startCopy_error {j : Job} {s : State} {e : TypedError} (h : validate s = .error e) :
    startCopy j s = release j (.error e) s := by
  rw [startCopy, h]

/-- A path command whose copy begins (R184, step 5). -/
def pathBegun (dir : Dir) (rest : List StreamAnswer) (s : State) : State :=
  issue ⟨.path, dir, .createTrunc⟩ .read (.read s.srcId s.params.chunk)
    (setScratch (Ctx.freshCtr s.keyOperand s.ivOperand) (pathOpened dir rest s))

/-- A handle command whose copy begins (R189, step 3). -/
def strmBegun (dir : Dir) (s : State) : State :=
  issue ⟨.handle, dir, .read⟩ .read (.read s.srcId s.params.chunk)
    (setScratch (Ctx.freshCtr s.keyOperand s.ivOperand) (accept s))

theorem stillRunning_pathOpened (dir : Dir) (rest : List StreamAnswer) (s : State) :
    StillRunning s (pathOpened dir rest s) := { stillRunning_accept s with }

theorem stillRunning_pathBegun (dir : Dir) (rest : List StreamAnswer) (s : State) :
    StillRunning s (pathBegun dir rest s) := ((stillRunning_pathOpened dir rest s).setScratch _).issue _ _ _

theorem stillRunning_strmBegun (dir : Dir) (s : State) : StillRunning s (strmBegun dir s) :=
  ((stillRunning_accept s).setScratch _).issue _ _ _

@[simp] theorem pathBegun_job (dir : Dir) (rest : List StreamAnswer) (s : State) :
    (pathBegun dir rest s).job = some ⟨.path, dir, .read⟩ := rfl
@[simp] theorem pathBegun_log (dir : Dir) (rest : List StreamAnswer) (s : State) : (pathBegun dir rest s).log =
    s.log ++ [.request (.openRd s.srcId), .answer .ok, .request (.createTrunc s.dstId), .answer .ok,
      .request (.read s.srcId s.params.chunk)] := by
  simp [pathBegun, pathOpened]
@[simp] theorem strmBegun_job (dir : Dir) (s : State) : (strmBegun dir s).job = some ⟨.handle, dir, .read⟩ := rfl
@[simp] theorem strmBegun_log (dir : Dir) (s : State) : (strmBegun dir s).log =
    s.log ++ [.request (.read s.srcId s.params.chunk)] := rfl

theorem stream_freshCtr_eq (E : Block → Block) (k : List Byte) (iv : Block) :
    Ctx.stream E (Ctx.freshCtr k iv) = keystream E iv := funext fun t => stream_freshCtr E k iv t

theorem blocksFor_freshCtr (k : List Byte) (iv : Block) (T : Nat) : (Ctx.freshCtr k iv).blocksFor T = (T + 15) / 16 := by
  simp [Ctx.blocksFor, Ctx.freshCtr]

theorem ksPos_freshCtr (k : List Byte) (iv : Block) : (Ctx.freshCtr k iv).ksPos ≤ 16 := Nat.le_refl 16

/-- A path command up to the end of the good chunks `ds` (R184): where its copy stands, and the requests since its first
`READ`, that one counted in. -/
theorem ctrPath_copied (C : Config) {dir : Dir} {s : State} {ds : List (List Byte)} {rest : List StreamAnswer}
    (h : s.phase = .idle) (hv : s.Validates) (hne : s.srcId ≠ s.dstId) (hl : LegalChunks s.params ds)
    (hg : s.port.GoodFor ((ds.flatten.length + 15) / 16)) (ha : s.answers = [.ok, .ok] ++ goodChunks ds ++ rest) :
    ∃ ev, ctrPath C dir s = runJob C (copying ((Ctx.freshCtr s.keyOperand s.ivOperand).advanced
        (blockCipher C .enc s.keyOperand) ds.flatten.length) rest ((ds.flatten.length + 15) / 16) ev
        (pathBegun dir (goodChunks ds ++ rest) s)) ∧
      .read s.srcId s.params.chunk :: requests ev = copyRequests s.srcId s.dstId s.params.chunk
        (keystream (blockCipher C .enc s.keyOperand) s.ivOperand) 0 ds ∧
      PrimEvents C ((ds.flatten.length + 15) / 16) .enc s.keyOperand (primEvents ev) := by
  have hsc : (pathBegun dir (goodChunks ds ++ rest) s).scratch = Ctx.freshCtr s.keyOperand s.ivOperand := rfl
  obtain ⟨ev, e, hr, hp⟩ := runJob_copy C (s := pathBegun dir (goodChunks ds ++ rest) s) ds (rest := rest)
    (pathBegun_job ..) hl rfl (by rw [hsc]; exact ksPos_freshCtr ..) (by rw [hsc, blocksFor_freshCtr]; exact hg)
  rw [hsc, boundKey_freshCtr, blocksFor_freshCtr, stream_freshCtr_eq] at *
  refine ⟨ev, ?_, hr, hp⟩
  rw [ctrPath_opened C dir h hne (rest := goodChunks ds ++ rest) (by rw [ha]; rfl), startCopy_of]
  · exact e
  · exact hv

/-- A handle command up to the end of the good chunks `ds` (R189). -/
theorem ctrStrm_copied (C : Config) {dir : Dir} {s : State} {ds : List (List Byte)} {rest : List StreamAnswer}
    (h : s.phase = .idle) (hv : s.Validates) (hne : s.srcId ≠ s.dstId) (hl : LegalChunks s.params ds)
    (hg : s.port.GoodFor ((ds.flatten.length + 15) / 16)) (ha : s.answers = goodChunks ds ++ rest) :
    ∃ ev, ctrStrm C dir s = runJob C (copying ((Ctx.freshCtr s.keyOperand s.ivOperand).advanced
        (blockCipher C .enc s.keyOperand) ds.flatten.length) rest ((ds.flatten.length + 15) / 16) ev (strmBegun dir s)) ∧
      .read s.srcId s.params.chunk :: requests ev = copyRequests s.srcId s.dstId s.params.chunk
        (keystream (blockCipher C .enc s.keyOperand) s.ivOperand) 0 ds ∧
      PrimEvents C ((ds.flatten.length + 15) / 16) .enc s.keyOperand (primEvents ev) := by
  have hsc : (strmBegun dir s).scratch = Ctx.freshCtr s.keyOperand s.ivOperand := rfl
  obtain ⟨ev, e, hr, hp⟩ := runJob_copy C (s := strmBegun dir s) ds (rest := rest)
    (strmBegun_job ..) hl ha (by rw [hsc]; exact ksPos_freshCtr ..) (by rw [hsc, blocksFor_freshCtr]; exact hg)
  rw [hsc, boundKey_freshCtr, blocksFor_freshCtr, stream_freshCtr_eq] at *
  refine ⟨ev, ?_, hr, hp⟩
  rw [ctrStrm_idle C dir h, if_neg fun x => hne x.2, startCopy_of]
  · exact e
  · exact hv

/-! ## Answers that come later -/

/-- The state with other answers and inputs in store. -/
def withOutside (as : List StreamAnswer) (is : List Input) (s : State) : State := { s with answers := as, inputs := is }

theorem release_withOutside (as : List StreamAnswer) (is : List Input) (j : Job) (e : Ending) (s : State) :
    release j e (withOutside as is s) = withOutside as is (release j e s) := by
  unfold release
  rw [show (withOutside as is s).dstOpen = s.dstOpen from rfl, show (withOutside as is s).srcOpen = s.srcOpen from rfl]
  split
  · rfl
  · split
    · rfl
    · rcases e with _ | _ | _ <;> rfl

theorem startCopy_withOutside (as : List StreamAnswer) (is : List Input) (j : Job) (s : State) :
    startCopy j (withOutside as is s) = withOutside as is (startCopy j s) := by
  unfold startCopy
  rw [show validate (withOutside as is s) = validate s from rfl]
  rcases validate s with e | ⟨k, iv⟩
  · exact release_withOutside ..
  · rfl

theorem copyChunk_withOutside (C : Config) (as : List StreamAnswer) (is : List Input) (j : Job) (d : List Byte) (s : State) :
    copyChunk C j d (withOutside as is s) = withOutside as is (copyChunk C j d s) := by
  unfold copyChunk
  rw [show (withOutside as is s).scratch = s.scratch from rfl, show (withOutside as is s).port = s.port from rfl]
  rcases ksXor C s.scratch d s.port with ⟨code | ⟨e, c⟩, p⟩
  · exact release_withOutside as is j _ (putPort p s)
  · rfl

/-- What is in store does not matter to what a command does with an answer. -/
theorem onAnswer_withOutside (C : Config) (as : List StreamAnswer) (is : List Input) (j : Job) (a : StreamAnswer) (s : State) :
    onAnswer C j a (withOutside as is s) = mapNext (withOutside as is) (onAnswer C j a s) := by
  obtain ⟨shape, dir, await⟩ := j
  unfold onAnswer
  rw [show (withOutside as is s).srcId = s.srcId from rfl, show (withOutside as is s).dstId = s.dstId from rfl,
    show (withOutside as is s).params = s.params from rfl]
  rcases await with _ | _ | _ | _ | e <;> rcases a with _ | d | _ | c | _ <;> simp only [mapNext, release_withOutside] <;>
    first
      | rfl
      | (split <;> first | rfl | simp only [copyChunk_withOutside])
      | exact congrArg Host.Outcome.next (startCopy_withOutside as is _ (setDstOpen true s))

/-- Answers served in two parts, other inputs in store: the second part is served where the first ended, if the command
still runs; else it is left over. -/
theorem serve_append (C : Config) (as bs : List StreamAnswer) (is : List Input) (s : State) :
    serve C (as ++ bs) (withOutside (as ++ bs) is s) =
      match serve C as (withOutside as s.inputs s) with
      | .next t => if t.job = none then .next (withOutside (t.answers ++ bs) is t) else serve C bs (withOutside bs is t)
      | .fault f => .fault f
      | .refused r => .refused r := by
  induction as generalizing s with
  | nil =>
    simp only [List.nil_append, serve_nil]
    rw [show (withOutside [] s.inputs s).job = s.job from rfl]
    split
    · rename_i h
      rw [serve_no_job C bs (s := withOutside bs is s) h]; rfl
    · rfl
  | cons a as ih =>
    rcases hj : s.job with _ | j
    · rw [serve_no_job C _ (s := withOutside (a :: as ++ bs) is s) hj, serve_no_job C _ (s := withOutside (a :: as) s.inputs s) hj]
      simp only [show (withOutside (a :: as) s.inputs s).job = none from hj, if_true]
      rfl
    · rw [List.cons_append, serve_cons C a _ (s := withOutside (a :: (as ++ bs)) is s) hj,
        serve_cons C a _ (s := withOutside (a :: as) s.inputs s) hj]
      rw [show takeAnswer a (as ++ bs) (withOutside (a :: (as ++ bs)) is s) =
          withOutside (as ++ bs) is (takeAnswer a [] s) from rfl,
        show takeAnswer a as (withOutside (a :: as) s.inputs s) =
          withOutside as s.inputs (takeAnswer a [] s) from rfl, onAnswer_withOutside, onAnswer_withOutside]
      rcases ho : onAnswer C j a (takeAnswer a [] s) with u | f | r
      · simp only [mapNext]
        have hi : u.inputs = s.inputs := (same_onAnswer ho).2.2.1
        rw [ih, hi]
      · rfl
      · rfl

/-- Serving never faults. -/
theorem serve_ne_fault (C : Config) (as : List StreamAnswer) (s : State) (f : Fault) : serve C as s ≠ .fault f := by
  induction as generalizing s with
  | nil => simp
  | cons a as ih =>
    rcases hj : s.job with _ | j
    · rw [serve_no_job C _ hj]; simp
    · rw [serve_cons C a as hj]
      rcases ho : onAnswer C j a (takeAnswer a as s) with u | g | r
      · exact ih u
      · exact (onAnswer_ne_fault _ _ _ _ _ ho).elim
      · simp

/-- Serving is refused exactly where the command, after some of the answers, refuses the next one. -/
theorem serve_refused {C : Config} {as : List StreamAnswer} {s : State} {r : Refusal} :
    serve C as (withOutside as s.inputs s) = .refused r ↔ ∃ used a more u j, as = used ++ a :: more ∧
      serve C used (withOutside used s.inputs s) = .next u ∧ u.job = some j ∧ onAnswer C j a u = .refused r := by
  constructor
  · intro h
    induction as generalizing s with
    | nil => simp at h
    | cons a as ih =>
      rcases hj : s.job with _ | j
      · rw [serve_no_job C _ (s := withOutside (a :: as) s.inputs s) hj] at h; cases h
      · rw [serve_cons C a as (s := withOutside (a :: as) s.inputs s) hj, show takeAnswer a as
          (withOutside (a :: as) s.inputs s) = withOutside as s.inputs (takeAnswer a [] s) from rfl, onAnswer_withOutside] at h
        rcases ho : onAnswer C j a (takeAnswer a [] s) with u | f | q <;> rw [ho] at h <;> simp only [mapNext] at h
        · have hi : u.inputs = s.inputs := (same_onAnswer ho).2.2.1
          rw [← hi] at h
          obtain ⟨used, b, more, v, k, e, hs, hk, hb⟩ := ih h
          refine ⟨a :: used, b, more, v, k, by rw [e, List.cons_append], ?_, hk, hb⟩
          rw [serve_cons C a used (s := withOutside (a :: used) s.inputs s) hj, show takeAnswer a used
            (withOutside (a :: used) s.inputs s) = withOutside used s.inputs (takeAnswer a [] s) from rfl,
            onAnswer_withOutside, ho]
          simp only [mapNext]
          rw [← hi]; exact hs
        · cases h
        · cases h
          exact ⟨[], a, as, withOutside [] s.inputs s, j, rfl, rfl, hj,
            onAnswer_refused.2 (onAnswer_refused (s := takeAnswer a [] s).1 ho)⟩
  · rintro ⟨used, a, more, u, j, rfl, hs, hj, ho⟩
    rw [serve_append, hs]
    simp only [hj, reduceCtorEq, if_false]
    rw [serve_cons C a more (s := withOutside (a :: more) s.inputs u) hj]
    rw [show onAnswer C j a (takeAnswer a more (withOutside (a :: more) s.inputs u)) = .refused r from
      onAnswer_refused.2 (onAnswer_refused (s := u).1 ho)]

end Sys2Proof.Machine
end

