-- ==== Sys2Proof/Tests/Toy.lean ====
section
/-! SUPPORT. The hand-checkable cipher `BC_TOY` of `95_test_vectors.md` V5 as an instance of the cipher parameter, and
the fixtures of section 0 of that file. -/

namespace Sys2Proof.Tests

open Sys2Proof.Machine

/-- The folded key of V5. -/
def toyFold (k : List Byte) (i : Nat) : Byte :=
  k.getD i 0 ^^^ (if i + 16 < k.length then k.getD (i + 16) 0 else 0)

/-- `BC_TOY_ENC` (V5). -/
def toyEnc (k : List Byte) (b : Block) : Block :=
  ⟨List.ofFn fun i : Fin 16 => (b.list.getD ((i + 1) % 16) 0 ^^^ toyFold k i) + BitVec.ofNat 8 i, List.length_ofFn⟩

/-- `BC_TOY_DEC` (V5): byte `(i + 1) mod 16` of the result comes from byte `i` of the block. -/
def toyDec (k : List Byte) (c : Block) : Block :=
  ⟨List.ofFn fun j : Fin 16 =>
    (c.list.getD ((j + 15) % 16) 0 - BitVec.ofNat 8 ((j + 15) % 16)) ^^^ toyFold k ((j + 15) % 16), List.length_ofFn⟩

theorem getD_ofFn {n : Nat} (f : Fin n → Byte) (i : Nat) (h : i < n) : (List.ofFn f).getD i 0 = f ⟨i, h⟩ := by
  simp [List.getD_eq_getElem?_getD, h]

theorem toyDec_toyEnc (k : List Byte) (b : Block) : toyDec k (toyEnc k b) = b := by
  ext1
  apply List.ext_getElem (by simp [toyDec, b.length_eq])
  intro i h _
  have hi : i < 16 := by simpa [toyDec] using h
  have e : ((i + 15) % 16 + 1) % 16 = i := by omega
  have hb : b.list.getD i 0 = b.list[i]'(by rw [b.length_eq]; exact hi) := by
    simp [List.getD_eq_getElem?_getD, b.length_eq, hi]
  simp only [toyDec, toyEnc, List.getElem_ofFn]
  rw [getD_ofFn _ _ (Nat.mod_lt _ (by decide))]
  simp only [e, hb, BitVec.add_sub_cancel, BitVec.xor_assoc, BitVec.xor_self, BitVec.xor_zero]

theorem toyEnc_toyDec (k : List Byte) (c : Block) : toyEnc k (toyDec k c) = c := by
  ext1
  apply List.ext_getElem (by simp [toyEnc, c.length_eq])
  intro i h _
  have hi : i < 16 := by simpa [toyEnc] using h
  have e : ((i + 1) % 16 + 15) % 16 = i := by omega
  have hc : c.list.getD i 0 = c.list[i]'(by rw [c.length_eq]; exact hi) := by
    simp [List.getD_eq_getElem?_getD, c.length_eq, hi]
  simp only [toyEnc, toyDec, List.getElem_ofFn]
  rw [getD_ofFn _ _ (Nat.mod_lt _ (by decide))]
  simp only [e, hc, BitVec.xor_assoc, BitVec.xor_self, BitVec.xor_zero, BitVec.sub_add_cancel]

/-- The function parameters with `BC_TOY`; `PRIM_KIND` as in V25. -/
def toy : Config :=
  { cipher := fun k => ⟨toyEnc k, toyDec k, toyDec_toyEnc k, toyEnc_toyDec k⟩
    primKind := fun _ => .cipherKeyError
    unwritten := fun n a => BitVec.ofNat 8 (n + a) }

/-- The test configuration of section 0, `CHUNK = 16` as in V21. -/
def toyParams : Params :=
  { defaultIv := ⟨List.ofFn fun i => BitVec.ofNat 8 i, List.length_ofFn⟩, bufCapBelow := 4096, chunkPos := 16,
    kindEmptyCt := .cipherKeyError, regBase := 0x1000, ibufBase := 0x10000, obufBase := 0x20000, regIbufApart := by decide, regObufApart := by decide,
    ibufObufApart := by decide }

/-- The `len` bytes a hexadecimal numeral spells, its leading digits first. -/
def hex (len n : Nat) : List Byte := (List.range len).map fun i => BitVec.ofNat 8 (n / 256 ^ (len - 1 - i))

/-- `K1` and `IV1`. -/
def k1 : List Byte := hex 16 0x31323334353637383132333435363738

/-- `P37`. -/
def p37 : List Byte :=
  hex 37 0x4142434445464748494a4b4c4d4e4f505152535455565758595a5b5c5d5e5f606162636465

/-- `"hello"`. -/
def hello : List Byte := hex 5 0x68656c6c6f

/-- The reset state with `KEY = K1`, `IV = IV1`, lengths 16, an input buffer, and the identifiers of V21. -/
def loaded (input : List Byte) : State :=
  { State.reset with
    params := toyParams, key := bytesOfList 32 k1, klen := 16, iv := bytesOfList 16 k1, ivlen := 16,
    ibuf := Memory.ofBytes 0 input, ilen := BitVec.ofNat 32 input.length, srcId := 0x11, dstId := 0x22 }

/-- `STATUS`, `ERRKIND` and the bytes of `OBUF` that hold a value. -/
def seen : Result → Option (Word × Word × List Byte)
  | .next t => some (t.statusWord, t.errKindWord, t.obuf.map (·.2))
  | .fault _ | .refused _ => none

/-- What was seen on the ports. -/
def traced : Result → Option (Word × Word × Word × List Event)
  | .next t => some (t.statusWord, t.errKindWord, t.ioErr, t.log)
  | .fault _ | .refused _ => none

/-- One `READ` of the fixtures of V21 with its answer, and the primitive request of counter block `cb`. -/
def readEvents (d : List Byte) : List Event := [.request (.read 0x11 16), .answer (.data d)]

/-- The primitive request of a counter block with its keystream block. -/
def keystreamEvent (cb ks : Nat) : Event := .prim .enc k1 (bytesOfList 16 (hex 16 cb)) (.ok (bytesOfList 16 (hex 16 ks)))

/-- One good `WRITE`. -/
def writeEvents (d : List Byte) : List Event := [.request (.write 0x22 d), .answer .ok]

end Sys2Proof.Tests
end

