-- ==== Sys2Proof/Tests/Slice0.lean ====
section
/-! SUPPORT. Small tests. Expected values come from the spec: encodings of `30_encoding.md` R93, vectors V1 to V26 of
`95_test_vectors.md`. -/

namespace Sys2Proof.Tests

open Sys2Proof.Machine

/-! ## Well-formedness: an ill-formed term for each check -/

theorem test_wf_opcode : CommandFields.wellFormed { opc := 0x0C, dir := false, rsv := 0 } = false := by decide
theorem test_wf_opcode_zero : CommandFields.wellFormed { opc := 0x00, dir := false, rsv := 0 } = false := by decide
theorem test_wf_reserved : CommandFields.wellFormed { opc := 0x01, dir := false, rsv := 1 } = false := by decide
theorem test_wf_dir : CommandFields.wellFormed { opc := 0x01, dir := true, rsv := 0 } = false := by decide
theorem test_wf_init : CommandFields.wellFormed { opc := 0x03, dir := true, rsv := 0 } = true := by decide

/-! ## Decoding: every row's word, bit by bit from the encoding strings of the opcode table -/

theorem test_decode_cbcEnc : decode 0b00000000000000000000000000000001#32 = .ok .cbcEnc := by rfl
theorem test_decode_cbcDec : decode 0b00000000000000000000000000000010#32 = .ok .cbcDec := by rfl
theorem test_decode_cbcInit_dec : decode 0b00000000000000000000000000000011#32 = .ok (.cbcInit false) := by rfl
theorem test_decode_cbcInit_enc : decode 0b00000000000000000000000100000011#32 = .ok (.cbcInit true) := by rfl
theorem test_decode_cbcBlocks : decode 0b00000000000000000000000000000100#32 = .ok .cbcBlocks := by rfl
theorem test_decode_ctrInit : decode 0b00000000000000000000000000000101#32 = .ok .ctrInit := by rfl
theorem test_decode_ctrXor : decode 0b00000000000000000000000000000110#32 = .ok .ctrXor := by rfl
theorem test_decode_ctxDrop : decode 0b00000000000000000000000000000111#32 = .ok .ctxDrop := by rfl
theorem test_decode_ctrEncPath : decode 0b00000000000000000000000000001000#32 = .ok .ctrEncPath := by rfl
theorem test_decode_ctrDecPath : decode 0b00000000000000000000000000001001#32 = .ok .ctrDecPath := by rfl
theorem test_decode_ctrEncStrm : decode 0b00000000000000000000000000001010#32 = .ok .ctrEncStrm := by rfl
theorem test_decode_ctrDecStrm : decode 0b00000000000000000000000000001011#32 = .ok .ctrDecStrm := by rfl

/-- V23 rows 1 to 5: which words are rejected, and with which cause. -/
theorem test_decode_rejects :
    decode 0x00000000 = .error .illegalOpcode ∧ decode 0x0000000C = .error .illegalOpcode ∧
      decode 0x00000101 = .error .reservedBits ∧ decode 0x00000201 = .error .reservedBits ∧
      decode 0x800000FF = .error .illegalOpcode := by refine ⟨?_, ?_, ?_, ?_, ?_⟩ <;> rfl

theorem test_decodeTableWord : decodeTableWord 32 0x103 = some (.cbcInit true) := by decide

/-! ## Every command runs as the first one after reset -/

/-- `STATUS` after the first step from reset with a command word; `none` if the step stops. -/
def firstStatus (w : Nat) : Option Word :=
  match step (State.reset.withFetchWord 32 w) with
  | .next t => some t.statusWord
  | .fault _ | .refused _ => none

/-- R43: a key-taking command issued straight after reset ends with `InvalidKeyLength`. -/
theorem test_first_validates : ∀ w ∈ [1, 2, 3, 0x103, 5, 10, 11], firstStatus w = some 0x00000001 := by decide
/-- R242: `CBC_BLOCKS` and `CTR_XOR` are rejected with `NO_CONTEXT`. -/
theorem test_first_noContext : ∀ w ∈ [4, 6], firstStatus w = some 0x00000502 := by decide
/-- R242: a path command asks the service to open id 0; `CTX_DROP` succeeds. -/
theorem test_first_others : ∀ w ∈ [7, 8, 9], firstStatus w = some 0x00000000 := by decide
/-- V23 rows 1 and 4. -/
theorem test_first_illegal : firstStatus 0 = some 0x00000202 ∧ firstStatus 0x201 = some 0x00000302 := by decide

/-! ## Operands: V2, V3, V4, the packing example of R64 -/

theorem test_pad_hello : pad hello = hex 16 0x68656c6c6f0b0b0b0b0b0b0b0b0b0b0b := by decide
theorem test_pad_block :
    pad (hex 16 0x30313233343536373839616263646566) =
      hex 32 0x3031323334353637383961626364656610101010101010101010101010101010 := by decide
theorem test_unpad_lax : unpad (hex 16 0x41414141414141414141414141410702) = .ok (List.replicate 14 0x41) := by decide
theorem test_unpad_bounds :
    unpad (hex 16 0x41414141414141414141414141414111) = .paddingError ∧
      unpad (hex 16 0x41414141414141414141414141414110) = .ok [] ∧ unpad [0x00] = .ok [0x00] := by decide
theorem test_inc128_middle :
    inc128 (bytesOfList 16 (hex 16 0x0000000000000000ffffffffffffffff)) =
      bytesOfList 16 (hex 16 0x00000000000000010000000000000000) := by decide
theorem test_inc128_wrap : inc128 (bytesOfList 16 (List.replicate 16 0xff)) = Bytes.zero 16 := by decide
theorem test_packing : regWord (bytesOfList 32 k1) 1 = 0x38373635#32 := by decide
theorem test_setRegWord : setRegWord (Bytes.zero 16) 3 0x38373635 = bytesOfList 16 (hex 16 0x35363738) := by decide

/-! ## CBC: V6, V8, V9, V14, V1 -/

theorem test_cbcEnc_hello :
    seen (cbcEnc toy (loaded hello)) = some (0, 0, hex 16 0x666e6d710c0f0a091013161514171270) := by decide
/-- V7, 17 bytes: the second block is chained. -/
theorem test_cbcEnc_two_blocks :
    seen (cbcEnc toy (loaded (hex 17 0x3031323334353637383961626364656667))) =
      some (0, 0, hex 32 0x323436383a3c3e3842696f6d737177480a0c06040a0c067c5f5b5b53575b7e7c) := by decide
theorem test_cbcDec_hello :
    seen (cbcDec toy (loaded (hex 16 0x666e6d710c0f0a091013161514171270))) = some (0, 0, hello) := by decide
/-- V8, 15 bytes: `CipherKeyError`. -/
theorem test_cbcDec_not_full :
    seen (cbcDec toy (loaded (hex 15 0x666e6d710c0f0a0910131615141712))) = some (1, 4, []) := by decide
/-- V9 row 1. -/
theorem test_cbcInit_status : seen (cbcInit true (loaded [])) = some (0x10, 0, []) := by decide
/-- V1: a failed INIT empties the slot, a one-shot command does not. -/
theorem test_cbcInit_drops :
    seen (cbcInit true { loaded [] with klen := 17, ctx := Ctx.freshCtr k1 (Bytes.zero 16) }) = some (1, 1, []) := by
  decide
/-- V9 row 2, with the chain left behind. -/
theorem test_cbcBlocks_enc :
    (match cbcBlocks toy { loaded (hex 32 0x4142434445464748494a4b4c4d4e4f505152535455565758595a5b5c5d5e5f01) with
        ctx := Ctx.freshCbc true k1 (bytesOfList 16 k1) } with
      | .next t => some (t.obuf.map (·.2), t.ctx.chain.list, t.statusWord)
      | _ => none) =
    some (hex 32 0x41434547494b4d4751535557595b6d572025222b2c312e374045423b3c116f37,
      hex 16 0x2025222b2c312e374045423b3c116f37, 0x10) := by decide
/-- V23 row 14. -/
theorem test_cbcBlocks_rejects :
    seen (cbcBlocks toy { loaded hello with ctx := Ctx.freshCbc true k1 (bytesOfList 16 k1) }) =
      some (0x612, 0, []) := by decide

/-! ## CTR: V16, V17, V25(e) -/

/-- V1: the failing rows, when the slot held a CTR context. -/
theorem test_ctrInit_drops :
    seen (ctrInit { loaded [] with klen := 17, ctx := Ctx.freshCtr k1 (Bytes.zero 16) }) = some (1, 1, []) := by decide
theorem test_ctrInit_status : seen (ctrInit (loaded [])) = some (0x30, 0, []) := by decide
/-- V16: 37 bytes, three primitive requests, `CTX.KSPOS = 5` afterwards. -/
theorem test_ctrXor_p37 :
    (match ctrXor toy { loaded p37 with ctx := Ctx.freshCtr k1 (bytesOfList 16 k1) } with
      | .next t => some (t.obuf.map (·.2), t.ctx.ksPos, t.ctx.ctr.list, t.log.length)
      | _ => none) =
    some (hex 37 0x42404a404240525842405a404240524852505a505250424852504a505250437862606a6062, 5,
      hex 16 0x3132333435363738313233343536373b, 3) := by decide
/-- V25(e): the primitive faults on the second request: FATAL. -/
theorem test_ctrXor_fatal :
    seen (ctrXor toy { loaded (List.replicate 17 0) with
      ctx := Ctx.freshCtr k1 (bytesOfList 16 k1), primPlan := [.ok, .fault 7] }) = some (0x34, 0, []) := by decide

theorem test_ctxDrop : seen (ctxDrop { loaded [] with ctx := Ctx.freshCtr k1 (Bytes.zero 16) }) = some (0, 0, []) := by
  decide
/-- V23 row 16: `CTX_DROP` has no `ILEN` check. -/
theorem test_ctxDrop_no_length_check : seen (ctxDrop { loaded [] with ilen := 4097 }) = some (0, 0, []) := by decide

/-! ## Streaming: V21, V22, V25 -/

/-- V21(a), the whole trace. -/
theorem test_ctrEncPath_trace :
    traced (ctrPath toy .enc { loaded [] with
      answers := [.ok, .ok, .data (p37.take 16), .ok, .data ((p37.drop 16).take 16), .ok, .data (p37.drop 32), .ok, .eof,
        .ack, .ack] }) =
    some (0, 0, 0,
      [.request (.openRd 0x11), .answer .ok, .request (.createTrunc 0x22), .answer .ok] ++
      readEvents (p37.take 16) ++
      [keystreamEvent 0x31323334353637383132333435363738 0x03020904070615100b0a110c0f0e1d18] ++
      writeEvents (hex 16 0x42404a404240525842405a4042405248) ++
      readEvents ((p37.drop 16).take 16) ++
      [keystreamEvent 0x31323334353637383132333435363739 0x03020904070615100b0a110c0f0e1c18] ++
      writeEvents (hex 16 0x52505a505250424852504a5052504378) ++
      readEvents (p37.drop 32) ++
      [keystreamEvent 0x3132333435363738313233343536373a 0x03020904070615100b0a110c0f0e1b18] ++
      writeEvents (hex 5 0x62606a6062) ++
      [.request (.read 0x11 16), .answer .eof, .request (.close 0x22), .answer .ack, .request (.close 0x11),
        .answer .ack]) := by decide
/-- V25(b): FATAL, after releasing both handles. -/
theorem test_ctrEncPath_fatal :
    (traced (ctrPath toy .enc { loaded [] with
      primPlan := [.fault 7], answers := [.ok, .ok, .data (p37.take 16), .ack, .ack] })).map
        (fun r => (r.1, r.2.2.2.drop 7)) =
    some (4, [.request (.close 0x22), .answer .ack, .request (.close 0x11), .answer .ack]) := by decide
/-- V22(b): only the source is closed. -/
theorem test_ctrDecPath_create_fails :
    traced (ctrPath toy .dec { loaded [] with answers := [.ok, .ioerr 0xd, .ack] }) =
    some (1, 0x206, 0xd,
      [.request (.openRd 0x11), .answer .ok, .request (.createTrunc 0x22), .answer (.ioerr 0xd),
        .request (.close 0x11), .answer .ack]) := by decide
/-- V22(c): the destination is created before the key length is found illegal. -/
theorem test_ctrDecPath_bad_key :
    traced (ctrPath toy .dec { loaded [] with klen := 17, answers := [.ok, .ok, .ack, .ack] }) =
    some (1, 1, 0,
      [.request (.openRd 0x11), .answer .ok, .request (.createTrunc 0x22), .answer .ok,
        .request (.close 0x22), .answer .ack, .request (.close 0x11), .answer .ack]) := by decide
/-- V21(b), first short read: 7 bytes, then end of the source. -/
theorem test_ctrEncStrm_short :
    (traced (ctrStrm toy .enc { loaded [] with answers := [.data (p37.take 7), .ok, .eof] })).map (·.2.2.2) =
    some (readEvents (p37.take 7) ++
      [keystreamEvent 0x31323334353637383132333435363738 0x03020904070615100b0a110c0f0e1d18] ++
      writeEvents (hex 7 0x42404a40424052) ++ [.request (.read 0x11 16), .answer .eof]) := by decide
/-- V22(g): no request at all. -/
theorem test_ctrEncStrm_bad_key :
    traced (ctrStrm toy .enc { loaded [] with klen := 33 }) = some (1, 1, 0, []) := by decide
/-- V22(h). -/
theorem test_ctrDecStrm_read_fails :
    traced (ctrStrm toy .dec { loaded [] with answers := [.ioerr 0xffffffff] }) =
    some (1, 0x306, 0xffffffff, [.request (.read 0x11 16), .answer (.ioerr 0xffffffff)]) := by decide
/-- V25(a) for a handle command: a primitive fault inside the decrypt boundary is a typed error. -/
theorem test_ctrDecStrm_fault :
    (traced (ctrStrm toy .dec { loaded [] with primPlan := [.fault 7], answers := [.data [1]] })).map
      (fun r => (r.1, r.2.1)) = some (1, 4) := by decide
/-- R80: with no answer the command waits in `RUN`. -/
theorem test_ctrDecStrm_waits :
    (match ctrStrm toy .dec (loaded []) with | .next t => some (t.phase, t.scratch.kind) | _ => none) =
    some (.run, .ctr) := by decide

/-! ## Host accesses: the example of R98, V24, R25 -/

/-- The register of a state after one host access, if the access gives a next state. -/
def afterAccess (a : Access) (s : State) (f : State → α) : Option α :=
  match hostAccess toy a s with
  | .outcome (.next t) => some (f t)
  | _ => none

theorem test_write_key :
    afterAccess ⟨.reg 0x044, 4, some 0x38373635⟩ State.reset (·.key) =
      some (bytesOfList 32 (hex 8 0x35363738)) := by decide
theorem test_read_version : afterAccess ⟨.reg 0x02C, 4, none⟩ State.reset (·.log) =
    some [.hostRead (.reg 0x02C) 4 0x00000001] := by decide
theorem test_status_w1c :
    afterAccess ⟨.reg 0x004, 4, some 0x00000002⟩ (reject .noContext State.reset) (·.statusWord) = some 0 := by decide
theorem test_srst :
    afterAccess ⟨.reg 0x010, 4, some 0x00000001⟩ (goFatal (loaded hello)) (fun t => (t.phase, t.klen, t.ibuf)) =
      some (.idle, 0, []) := by decide
theorem test_write_ibuf_word :
    afterAccess ⟨.ibuf 4, 4, some 0x04030201⟩ (loaded hello) (fun t => t.ibuf.map (·.2)) =
      some (hex 8 0x68656c6c01020304) := by decide
/-- A platform address inside the register aperture (`10_state.md` R39). -/
theorem test_platform_address :
    afterAccess ⟨.platform 0x101C, 4, some 9⟩ (loaded []) (·.ilen) = some 9 := by decide
theorem test_misaligned_refused :
    (match hostAccess toy ⟨.reg 0x016, 4, none⟩ (loaded []) with
      | .outcome (.refused r) => some r | _ => none) = some .badAccess := by decide
/-- V25(b), afterwards: any `CMD` write is rejected with `STATUS = 0x00000106`. -/
theorem test_fatal_rejects :
    (match step (State.withFetchWord (goFatal State.reset) 32 7) with
      | .next t => some t.statusWord | _ => none) = some 0x00000106 := by decide

end Sys2Proof.Tests
end

