-- ==== Sys2Proof/Tests/Witness.lean ====
section
/-! SUPPORT. For every statement of Certificates/Slice0/Obligations.lean that has hypotheses, a state and operands that
meet all of them together, for each of its clauses. -/

namespace Sys2Proof.Tests

open Sys2Proof.Machine

/-! ## What the states below are made of -/

/-- A chunk of `CHUNK` bytes. -/
def full : List Byte := p37.take 16

/-- `ready` runs any command: idle, nothing of a command left, legal lengths, two stream objects,
`BUF_CAP = 64`. -/
def ready : State :=
  { loaded full with params :=
      { toyParams with
        bufCapBelow := 64, regIbufApart := by decide, regObufApart := by decide, ibufObufApart := by decide } }

/-- What the step of a state comes to meets `f`. -/
def ends (r : Result) (f : State → Bool) : Bool :=
  match r with
  | .next t => f t
  | .fault _ | .refused _ => false

theorem of_ends {r : Result} {f : State → Bool} (h : ends r f = true) : ∃ t, r = .next t ∧ f t = true := by
  rcases r with t | _ | _
  · exact ⟨t, rfl, h⟩
  · cases h
  · cases h

theorem ready_idle : ready.phase = .idle := rfl
theorem ready_quiet : ready.Quiet := ⟨rfl, rfl, rfl, rfl⟩
theorem ready_validates : ready.Validates := ⟨by decide, by decide⟩
theorem ready_inRange : ready.InRange := by unfold State.InRange; decide
theorem ready_good : PrimNeverFaults ready := by intro a h; cases h
theorem ready_ids : ready.srcId ≠ ready.dstId := by decide
theorem full_length : full.length = 16 := by decide
theorem ready_chunks : LegalChunks ready.params [full, [1]] := by
  simp [LegalChunks, full_length]
  decide

/-! ## Encoding and acceptance -/

/-- OpcodeTableRows, DecodesWrittenWords. -/
theorem witness_row : 0x00000103#32 &&& (Instr.cbcInit true).rowMask = (Instr.cbcInit true).rowMatch := by decide

/-- DecodeThreeOutcomes: the state, and words of each kind at the edges of the opcodes and of the reserved bits. -/
theorem witness_decode : ready.phase = .idle ∧ { ready with inputs := [commandInput 0] }.inputs = commandInput 0 :: [] ∧
    (∀ w ∈ [0x00#32, 0x0C#32, 0xFF#32], (CommandFields.ofWord w).opc ∉
      [0x01#8, 0x02#8, 0x03#8, 0x04#8, 0x05#8, 0x06#8, 0x07#8, 0x08#8, 0x09#8, 0x0A#8, 0x0B#8]) ∧
    (∀ w ∈ [0x201#32, 0x8000000B#32, 0x101#32, 0x10B#32, 0x303#32], (CommandFields.ofWord w).opc ∈
      [0x01#8, 0x02#8, 0x03#8, 0x04#8, 0x05#8, 0x06#8, 0x07#8, 0x08#8, 0x09#8, 0x0A#8, 0x0B#8] ∧
      ((CommandFields.ofWord w).rsv ≠ 0#23 ∨ ((CommandFields.ofWord w).dir = true ∧ (CommandFields.ofWord w).opc ≠
        0x03#8))) ∧
    (∀ w ∈ [0x01#32, 0x0B#32, 0x03#32, 0x103#32], (CommandFields.ofWord w).opc ∈
      [0x01#8, 0x02#8, 0x03#8, 0x04#8, 0x05#8, 0x06#8, 0x07#8, 0x08#8, 0x09#8, 0x0A#8, 0x0B#8] ∧
      ¬ ((CommandFields.ofWord w).rsv ≠ 0#23 ∨
        ((CommandFields.ofWord w).dir = true ∧ (CommandFields.ofWord w).opc ≠ 0x03#8))) := by
  refine ⟨rfl, rfl, ?_, ?_, ?_⟩ <;> simp [CommandFields.ofWord]

/-- StepRunsDecodedCommand, in `IDLE` and in FATAL. -/
theorem witness_step : decode 0x00000103#32 = .ok (.cbcInit true) ∧ ready.phase = .idle ∧ (goFatal ready).phase = .fatal ∧
    decodeTableWord 32 0x103 = some (.cbcInit true) := by refine ⟨rfl, rfl, rfl, by decide⟩

/-- AcceptanceOrder: every cause is the first to fail for some state and word, and a word passes them all. -/
theorem witness_acceptance : (goFatal ready).phase ≠ .run ∧ firstRejection (goFatal ready) 0 = some .fatalState ∧
    firstRejection ready 0x20C = some .illegalOpcode ∧ firstRejection { ready with ilen := 65 } 0x101 = some .reservedBits ∧
    firstRejection { ready with ilen := 65 } 0x04 = some .lenRange ∧ firstRejection ready 0x06 = some .noContext ∧
    firstRejection { ready with ilen := 5, ctx := Ctx.freshCbc true k1 (Bytes.zero 16) } 0x04 = some .notFullBlocks ∧
    firstRejection { ready with ilen := 64 } 0x01 = none := by decide

/-- RejectionChangesNothingElse. -/
theorem witness_rejected : ∃ t, exec .ctxDrop (goFatal ready) = .next t ∧ t.rej = true := of_ends (by decide)

/-- PathCommandWaitsAfterAcceptance. -/
theorem witness_waits : (Instr.ctrDecPath, Dir.dec) ∈ [(Instr.ctrEncPath, Dir.enc), (.ctrDecPath, .dec)] ∧
    ready.phase = .idle ∧ ready.answers = [] := by decide

/-- RefusalsOfCommands: each refusal is given somewhere, the last after a first answer on which the command waits. -/
theorem witness_refusals : exec .ctxDrop { ready with phase := .run } = .refused .accessWhileRunning ∧
    exec .ctrEncPath { ready with dstId := 0x11, answers := [.ok] } = .refused .sameStreamObject ∧
    exec .ctrDecStrm { ready with dstId := 0x11 } = .refused .sameStreamObject ∧
    exec .ctrEncPath { ready with answers := [.eof] } = .refused .badServiceAnswer ∧
    exec .ctrEncPath { ready with answers := [.ok, .ack] } = .refused .badServiceAnswer ∧
    (∃ u, exec .ctrEncPath { ready with answers := [.ok] } = .next u ∧
      (u.phase == .run && u.job == some ⟨.path, .enc, .createTrunc⟩) = true) ∧
    ¬ Await.createTrunc.Admits ready.params .ack ∧ Await.createTrunc.Admits ready.params .ok ∧
    IsPath .ctrEncPath ∧ IsHandle .ctrDecStrm ∧ { ready with dstId := 0x11 }.Validates :=
  ⟨rfl, rfl, rfl, rfl, rfl, of_ends (f := fun u => u.phase == .run && u.job == some ⟨.path, .enc, .createTrunc⟩) (by decide),
    by simp [Await.Admits], by simp [Await.Admits], by simp [IsPath], by simp [IsHandle], by decide, by decide⟩

/-! ## The validator -/

/-- InvalidKeyLengthRaised, at the edges of the legal lengths; with FailedInitEmptiesSlot. -/
theorem witness_badKey (n : Word) (hn : n ∈ [0#32, 15#32, 17#32, 25#32, 33#32]) :
    let s := { ready with klen := n, answers := [.ok, .ok, .ack, .ack] }
    s.phase = .idle ∧ s.Quiet ∧ s.klen ≠ 16#32 ∧ s.klen ≠ 24#32 ∧ s.klen ≠ 32#32 ∧ s.InRange ∧ s.srcId ≠ s.dstId ∧
      s.answers = [.ok, .ok, .ack, .ack] ++ [] ∧ ¬ s.Validates := by
  have h : n ≠ 16#32 ∧ n ≠ 24#32 ∧ n ≠ 32#32 := by
    simp only [List.mem_cons, List.not_mem_nil, or_false] at hn
    rcases hn with rfl | rfl | rfl | rfl | rfl <;> decide
  exact ⟨rfl, ready_quiet, h.1, h.2.1, h.2.2, ready_inRange, ready_ids, rfl, fun hv => by
    have := hv.1; simp [keyLengthLegal, h] at this⟩

/-- InvalidIvLengthRaised. -/
theorem witness_badIv (n : Word) (hn : n ∈ [1#32, 15#32, 17#32]) :
    let s := { ready with ivlen := n, answers := [.ok, .ok, .ack, .ack] }
    s.phase = .idle ∧ s.Quiet ∧ keyLengthLegal s.klen = true ∧ s.ivlen ≠ 0#32 ∧ s.ivlen ≠ 16#32 ∧ s.InRange ∧
      s.srcId ≠ s.dstId ∧ s.answers = [.ok, .ok, .ack, .ack] ++ [] := by
  have h : n ≠ 0#32 ∧ n ≠ 16#32 := by
    simp only [List.mem_cons, List.not_mem_nil, or_false] at hn
    rcases hn with rfl | rfl | rfl <;> decide
  exact ⟨rfl, ready_quiet, ready_validates.1, h.1, h.2, ready_inRange, ready_ids, rfl⟩

/-- EmptyIvSelectsDefault. -/
theorem witness_emptyIv : { ready with ivlen := 0 }.ivlen = 0#32 := rfl

/-- PaddingCodec: its two clauses meet at `n = len + 1`. -/
theorem witness_padding : (hello.length + 1 < (7 : Byte).toNat) ∧ ((6 : Byte).toNat ≤ hello.length + 1) := by decide

/-! ## CBC -/

/-- CbcEncEncrypts, CbcRoundTrip, CbcInitBinds, CtrInitBinds, CtrSelfInverse, with the memory of CbcRoundTrip. -/
theorem witness_ready (out : List Byte) : ready.phase = .idle ∧ ready.Validates ∧ ready.InRange ∧ PrimNeverFaults ready ∧
    (pad ready.inputBytes).length ≤ ready.params.bufCap ∧ p37.length ≤ ready.params.bufCap ∧
    (∀ a, a < out.length → Memory.get (Memory.ofBytes 0 out) a = out[a]?) :=
  ⟨rfl, ready_validates, ready_inRange, ready_good, by
    rw [pad_length, show ready.inputBytes.length = ready.ilen.toNat from input_length ..]; decide, by decide,
    fun a _ => Memory.get_ofBytes_zero out a⟩

/-- A ciphertext of one block that decrypts to `b`, whatever the cipher is. -/
def cipherOf (b : Block) : List Byte := (Config.machine.cipher ready.keyOperand (xor16 b ready.ivOperand)).list

/-- CbcDecDecrypts, CbcDecOutcomes: one block whose decryption ends in a byte that does, or does not, exceed the length. -/
theorem witness_cbcDec (n : Byte) :
    let s := ready.withInput (cipherOf (bytesOfList 16 (List.replicate 15 0 ++ [n])))
    s.phase = .idle ∧ s.Validates ∧ s.InRange ∧ PrimNeverFaults s ∧ s.ilen.toNat = 16 ∧
      (ofBlocks (chainDec s.decK s.ivOperand (toBlocks (s.ilen.toNat / 16) s.inputBytes))).getLast? = some n := by
  have hlast : (bytesOfList 16 (List.replicate 15 (0 : Byte) ++ [n])).list.getLast? = some n := by
    simp [bytesOfList]
  generalize bytesOfList 16 (List.replicate 15 (0 : Byte) ++ [n]) = b at hlast
  have hl : (cipherOf b).length = 16 := Bytes.length_eq _
  have hi : (ready.withInput (cipherOf b)).ilen.toNat = 16 := by
    show (BitVec.ofNat 32 _).toNat = 16
    rw [hl]; rfl
  have hb : State.inputBytes (ready.withInput (cipherOf b)) = cipherOf b := by
    show readBytes _ _ (Memory.ofBytes 0 _) 0 (ready.withInput (cipherOf b)).ilen.toNat = _
    rw [hi, ← hl]; exact readBytes_ofBytes ..
  have ht : (cipherOf b).take 16 = cipherOf b := List.take_of_length_le (by rw [hl])
  refine ⟨rfl, ready_validates, ?_, ready_good, hi, ?_⟩
  · unfold State.InRange; rw [hi]; exact (by decide : 16 ≤ ready.params.bufCap)
  · rw [hi, hb]
    simp only [show 16 / 16 = 0 + 1 from rfl, toBlocks, chainDec, ht]
    rw [cipherOf, bytesOfList_eq]
    show (ofBlocks [xor16 (blockCipher Config.machine .dec ready.keyOperand (blockCipher Config.machine .enc ready.keyOperand
      (xor16 b ready.ivOperand))) ready.ivOperand]).getLast? = some n
    rw [blockCipher_dec_enc, xor16_xor16]
    simpa [ofBlocks] using hlast

/-- CbcDecOutcomes: the lengths 0 and 15, with a primitive that would fault. -/
theorem witness_cbcDec_lengths : { ready with ilen := 15, primPlan := [.fault 7] }.InRange ∧ { ready with ilen := 15 }.ilen.toNat % 16 ≠ 0 ∧
    { ready with ilen := 0 }.InRange ∧ { ready with ilen := 0 }.ilen = 0 := by unfold State.InRange; decide

/-- FailedInitEmptiesSlot: a state for its last clause. -/
theorem witness_emptySlot : ready.phase = .idle ∧ ready.ctx = Ctx.empty ∧ ready.InRange := by
  unfold State.InRange; decide

/-- CbcBlocksTransforms, CbcBlocksSplits, PrimFaultStopsTheCommand: both directions. -/
theorem witness_cbcBlocks : ∀ dir ∈ [true, false],
    let s := { ready with ctx := Ctx.freshCbc dir k1 (bytesOfList 16 k1) }
    s.phase = .idle ∧ s.InRange ∧ (s.ctx.kind = .cbcE ∨ s.ctx.kind = .cbcD) ∧ s.ilen.toNat % 16 = 0 ∧
      0 < s.ilen.toNat / 16 ∧ s.primPlan = [] ∧ full.length % 16 = 0 ∧ full.length + full.length ≤ s.params.bufCap := by
  unfold State.InRange; decide

/-- BuildingBlockAgreesWithOneShot, up to the longest plaintext whose padding fits `IBUF`. -/
theorem witness_buildingBlock : ready.phase = .idle ∧ ready.Validates ∧ PrimNeverFaults ready ∧
    (∀ n ∈ [0, 47, 63], (pad (List.replicate n (0 : Byte))).length ≤ ready.params.bufCap) ∧
    full.length ≤ ready.params.bufCap ∧ 0 < full.length ∧
    full.length % 16 = 0 ∧ unpad (List.replicate 16 (16 : Byte)) = .ok [] :=
  ⟨rfl, ready_validates, ready_good, by decide, by decide, by decide, by decide, by decide⟩

/-! ## CTR -/

/-- CtrXorTransforms, at both ends of the position; PrimFaultStopsTheCommand. -/
theorem witness_ctrXor : ∀ n ∈ [0, 15, 16],
    let s := { ready with ctx := { Ctx.freshCtr k1 (bytesOfList 16 k1) with ksPos := n } }
    s.phase = .idle ∧ s.InRange ∧ s.ctx.kind = .ctr ∧ s.ctx.ksPos ≤ 16 ∧ s.primPlan = [] := by
  unfold State.InRange; decide

/-- CtrPositionLaw, with no piece, an empty piece and several pieces. -/
theorem witness_pieces : ready.phase = .idle ∧ ready.Validates ∧ PrimNeverFaults ready ∧
    ∀ ds ∈ [[], [[]], [full, [], hello]], ∀ d ∈ ds, d.length ≤ ready.params.bufCap :=
  ⟨rfl, ready_validates, ready_good, by decide⟩

/-! ## Primitive faults -/

/-- PrimFaultStopsTheCommand: the first request faults, in each of the commands. -/
theorem witness_primFault :
    let s := { ready with primPlan := [.fault 7] }
    s.phase = .idle ∧ s.InRange ∧ s.Validates ∧ s.primPlan = List.replicate 0 .ok ++ .fault 7 :: [] ∧
      s.ilen.toNat % 16 = 0 ∧ 0 < s.ilen.toNat / 16 ∧ 0 < (16 + s.ilen.toNat - 16 + 15) / 16 := by
  unfold State.InRange State.Validates; decide

/-- DecryptNeverFatal: a decrypt command that starts, and one that goes on. -/
theorem witness_decrypt : (∃ t, exec .ctrDecPath ready = .next t ∧ (t.job == some ⟨.path, .dec, .openRd⟩) = true) ∧
    ∃ t, step { ready with
      phase := .run, job := some ⟨.path, .dec, .openRd⟩, inputs := [.serviceAnswers [.ioerr 5]] } = .next t ∧
        (t.phase == .idle) = true := ⟨of_ends (by decide), of_ends (by decide)⟩

/-- NoFatalWithoutPrimFault. -/
theorem witness_noFatal : PrimNeverFaults { ready with inputs := [.primAnswers [.ok]] } ∧ ready.phase ≠ .fatal ∧
    (∀ j, ready.job = some j → j.await ≠ .close .fatal) ∧
    ∃ t, step { ready with inputs := [.primAnswers [.ok]] } = .next t ∧ (t.primPlan == [.ok]) = true :=
  ⟨ready_good, by decide, (fun _ h => nomatch h), of_ends (by decide)⟩

/-- PrimFaultInCopy: in the first chunk, and in the second; for path and handle commands. -/
theorem witness_faultInCopy : ready.Quiet ∧ ready.Validates ∧ ready.srcId ≠ ready.dstId ∧
    LegalChunks ready.params ([] ++ [full]) ∧ LegalChunks ready.params ([full] ++ [[1]]) ∧
    (([] : List (List Byte)).flatten.length + 15) / 16 ≤ 0 ∧ 0 < (([] : List (List Byte)).flatten.length + full.length
      + 15) / 16 ∧
    ([full].flatten.length + 15) / 16 ≤ 1 ∧ 1 < ([full].flatten.length + 1 + 15) / 16 ∧
    ([StreamAnswer.ok, StreamAnswer.ok, StreamAnswer.data full, StreamAnswer.ack, StreamAnswer.ack] : List StreamAnswer) =
      [StreamAnswer.ok, StreamAnswer.ok] ++ goodChunks [] ++ [StreamAnswer.data full, StreamAnswer.ack,
        StreamAnswer.ack] ++ [] ∧
    ([StreamAnswer.data full, StreamAnswer.ok, StreamAnswer.data [1]] : List StreamAnswer) = goodChunks [full] ++
      [StreamAnswer.data [1]] ++ [] := by
  refine ⟨ready_quiet, ready_validates, ready_ids, ?_, ?_, by decide, by decide, by decide, by decide,
    by simp [goodChunks], by simp [goodChunks]⟩ <;> (simp [LegalChunks, full_length]; decide)

/-! ## Streaming -/

/-- PathCopies, HandleCopies, StreamingAgreesWithCtrXor. -/
theorem witness_copies : IsPath .ctrEncPath ∧ IsHandle .ctrDecStrm ∧ ready.phase = .idle ∧ ready.Quiet ∧ ready.Validates ∧
    PrimNeverFaults ready ∧ ready.srcId ≠ ready.dstId ∧ LegalChunks ready.params [full, [1]] ∧
    [full, [1]].flatten.length ≤ ready.params.bufCap ∧
    ([StreamAnswer.ok, StreamAnswer.ok, StreamAnswer.data full, StreamAnswer.ok, StreamAnswer.data [1],
      StreamAnswer.ok, StreamAnswer.eof, StreamAnswer.ack, StreamAnswer.ack] : List StreamAnswer) =
      [StreamAnswer.ok, StreamAnswer.ok] ++ goodChunks [full, [1]] ++ [StreamAnswer.eof, StreamAnswer.ack,
        StreamAnswer.ack] ++ [] ∧
    ([StreamAnswer.data full, StreamAnswer.ok, StreamAnswer.data [1], StreamAnswer.ok, StreamAnswer.eof] : List
      StreamAnswer) = goodChunks [full, [1]] ++ [StreamAnswer.eof] ++ [] :=
  ⟨by simp [IsPath], by simp [IsHandle], rfl, ready_quiet, ready_validates, ready_good, ready_ids, ready_chunks, by decide,
    by simp [goodChunks], by simp [goodChunks]⟩

/-- PathIoErrors, HandleIoErrors: the answers of each row. -/
theorem witness_ioErrors : ready.phase = .idle ∧ ready.Quiet ∧ ready.Validates ∧ PrimNeverFaults ready ∧
    ready.srcId ≠ ready.dstId ∧ LegalChunks ready.params ([full] ++ [[1]]) ∧
    ([StreamAnswer.ioerr 5] : List StreamAnswer) = StreamAnswer.ioerr 5 :: [] ∧
    ([StreamAnswer.ok, StreamAnswer.ioerr 5, StreamAnswer.ack] : List StreamAnswer) = [StreamAnswer.ok,
      StreamAnswer.ioerr 5, StreamAnswer.ack] ++ [] ∧
    ([StreamAnswer.ok, StreamAnswer.ok, StreamAnswer.data full, StreamAnswer.ok, StreamAnswer.ioerr 5,
      StreamAnswer.ack, StreamAnswer.ack] : List StreamAnswer) =
      [StreamAnswer.ok, StreamAnswer.ok] ++ goodChunks [full] ++ [StreamAnswer.ioerr 5, StreamAnswer.ack,
        StreamAnswer.ack] ++ [] ∧
    ([StreamAnswer.ok, StreamAnswer.ok, StreamAnswer.data full, StreamAnswer.ok, StreamAnswer.data [1],
      StreamAnswer.ioerr 5, StreamAnswer.ack, StreamAnswer.ack] : List StreamAnswer) =
      [StreamAnswer.ok, StreamAnswer.ok] ++ goodChunks [full] ++ [StreamAnswer.data [1], StreamAnswer.ioerr 5,
        StreamAnswer.ack, StreamAnswer.ack] ++ [] ∧
    ([StreamAnswer.data full, StreamAnswer.ok, StreamAnswer.data [1], StreamAnswer.ioerr 5] : List StreamAnswer) =
      goodChunks [full] ++ [StreamAnswer.data [1], StreamAnswer.ioerr 5] ++ [] :=
  ⟨rfl, ready_quiet, ready_validates, ready_good, ready_ids, by simpa using ready_chunks, rfl, rfl, by simp [goodChunks],
    by simp [goodChunks], by simp [goodChunks]⟩

/-- The source `full ++ [1]` in chunks of at most 7 bytes. -/
def cuts7 : List (List Byte) := [full.take 7, (full.drop 7).take 7, full.drop 14 ++ [1]]

/-- ChunkIndependence: one source cut in two ways, for a path and a handle command, with two values of `CHUNK`. -/
theorem witness_cuts :
    let s₁ := { ready with answers := [.ok, .ok] ++ goodChunks [full, [1]] ++ [.eof, .ack, .ack] ++ [] }
    let s₂ := { ready with params := { ready.params with chunkPos := 7 }, answers := goodChunks cuts7 ++ [.eof] ++ [] }
    (∀ x ∈ [(s₁, Instr.ctrEncPath, [full, [1]], ([] : List StreamAnswer)), (s₂, .ctrDecStrm, cuts7, [])],
      x.1.phase = .idle ∧ x.1.Quiet ∧ x.1.Validates ∧ PrimNeverFaults x.1 ∧ x.1.srcId ≠ x.1.dstId ∧
        LegalChunks x.1.params x.2.2.1 ∧
        ((IsPath x.2.1 ∧ x.1.answers = [.ok, .ok] ++ goodChunks x.2.2.1 ++ [.eof, .ack, .ack] ++ x.2.2.2) ∨
          (IsHandle x.2.1 ∧ x.1.answers = goodChunks x.2.2.1 ++ [.eof] ++ x.2.2.2))) ∧
      s₁.keyOperand = s₂.keyOperand ∧ s₁.ivOperand = s₂.ivOperand ∧ [full, [1]].flatten = cuts7.flatten := by
  refine ⟨?_, rfl, rfl, by decide⟩
  simp only [List.forall_mem_cons]
  refine ⟨⟨rfl, ready_quiet, ready_validates, ready_good, ready_ids, ready_chunks, .inl ⟨by simp [IsPath], trivial⟩⟩,
    ⟨rfl, ready_quiet, ready_validates, ready_good, ready_ids, ?_, .inr ⟨by simp [IsHandle], trivial⟩⟩,
    fun _ h => nomatch h⟩
  unfold LegalChunks; decide

/-- EncryptAndDecryptMoveTheSameBytes. -/
theorem witness_pair : (Instr.ctrEncStrm, Instr.ctrDecStrm) ∈
      [(Instr.ctrEncPath, Instr.ctrDecPath), (.ctrEncStrm, .ctrDecStrm)] ∧ ready.phase = .idle ∧ PrimNeverFaults ready ∧
    ∃ t, exec .ctrEncStrm ready = .next t ∧ (t.phase == .run) = true := ⟨by decide, rfl, ready_good, of_ends (by decide)⟩

/-- ExactlyOnceRelease: a command that ends at once, and one that ends with a second batch of answers. -/
theorem witness_release : IsPath .ctrEncPath ∧ ready.Quiet ∧
    (∃ t, exec .ctrEncPath { ready with answers := [.ok, .ioerr 5, .ack] } = .next t ∧ (t.phase == .idle) = true) ∧
    ∃ u, exec .ctrEncPath { ready with answers := [.ok] } = .next u ∧
      (u.phase == .run && ends (step { u with inputs := [.serviceAnswers [.ioerr 5, .ack]] }) (·.phase == .idle)) = true :=
  ⟨by simp [IsPath], ready_quiet, of_ends (by decide),
    of_ends (f := fun u => u.phase == .run &&
      ends (step { u with inputs := [.serviceAnswers [.ioerr 5, .ack]] }) (·.phase == .idle)) (by decide)⟩

/-- LateAnswersChangeNothing: a command that waits after its first answer. -/
theorem witness_late : IsStreaming .ctrEncPath ∧
    ∃ u, exec .ctrEncPath { ready with answers := [.ok], inputs := [.serviceAnswers [.ioerr 5, .ack]] } = .next u ∧
      (u.phase == .run) = true := ⟨by simp [IsStreaming], of_ends (by decide)⟩

/-! ## Frames and independence -/

/-- OperandsNeverWritten, BufferCommandFrame, StreamingCommandFrame: commands that answer a next state, and answers that a
command goes on with. -/
theorem witness_frames : ¬ IsStreaming (.cbcInit true) ∧ ¬ IsBuffer (.cbcInit true) ∧ IsStreaming .ctrEncStrm ∧
    IsBuffer .cbcEnc ∧ (∃ t, exec (.cbcInit true) ready = .next t ∧ (!t.rej) = true) ∧
    (∃ t, exec .cbcEnc ready = .next t ∧ (!t.rej) = true) ∧
    (∃ t, exec .ctrEncStrm { ready with answers := [.eof] } = .next t ∧ (!t.rej) = true) ∧
    ∃ t, step { ready with inputs := [.serviceAnswers [.ok]] } = .next t ∧ (t.answers == [.ok]) = true :=
  ⟨by simp [IsStreaming], by simp [IsBuffer], by simp [IsStreaming], by simp [IsBuffer], of_ends (by decide),
    of_ends (by decide), of_ends (by decide), of_ends (by decide)⟩

/-- ContextChangesOnlyAsListed: a step that changes the context by a command, and one by a reset. -/
theorem witness_context : (∃ t, step { ready with inputs := [commandInput 0x103] } = .next t ∧
      (t.ctx.kind == .cbcE) = true) ∧
    ∃ t, step { ready with inputs := [.hardwareReset], ctx := Ctx.freshCtr k1 (Bytes.zero 16) } = .next t ∧
      (t.ctx == Ctx.empty) = true := ⟨of_ends (by decide), of_ends (by decide)⟩

/-- EarlierResultsDoNotMatter: after a typed error and after a rejection. -/
theorem witness_earlier :
    let s := raise .paddingError ready
    let s' := reject .lenRange ready
    s.phase = .idle ∧ s'.phase = .idle ∧ SameOperands s s' ∧ s'.ctx = s.ctx ∧ s'.scratch = s.scratch ∧
      s'.srcOpen = s.srcOpen ∧ s'.dstOpen = s.dstOpen ∧ s'.job = s.job ∧ SameOutside s s' ∧ s' ≠ s := by
  unfold SameOperands SameOutside; decide

/-- CtxDropEmptiesSlot, BufferCommandsEnd: with a context bound, and with none. -/
theorem witness_drop : ready.phase = .idle ∧ ready.ctx = Ctx.empty ∧ ready.InRange ∧
    { ready with ctx := Ctx.freshCtr k1 (Bytes.zero 16) }.ctx.ksPos ≤ 16 ∧ ¬ IsStreaming .ctxDrop ∧ ready.phase ≠ .run :=
  ⟨rfl, rfl, ready_inRange, by decide, by simp [IsStreaming], by decide⟩

/-! ## The host's side -/

/-- HostWritesIbuf, HostReadsBuffers: accesses at both ends of the buffers. -/
theorem witness_buffers : Memory.wf ready.ibuf ∧
    (∀ a ∈ [(0, 1), (63, 1), (0, 4), (60, 4)], bufAccessLegal ready.params.bufCap a.1 a.2 = true) ∧
    (∀ a ∈ [(79, 1), (76, 4)], bufAccessLegal ready.params.obufCap a.1 a.2 = true) ∧
    (∀ i < 4, Memory.get ready.ibuf (12 + i) = full[12 + i]?) ∧
    (∀ i < 4, Memory.get (putOutput full ready).obuf (12 + i) = full[12 + i]?) :=
  ⟨Memory.ofBytes_wf .., by decide, by decide, fun i _ => Memory.get_ofBytes_zero full (12 + i),
    fun i _ => Memory.get_ofBytes_zero full (12 + i)⟩

/-- OperandRegistersReadBack: a state and an input for each clause, at both ends of `KEY` and `IV`. -/
theorem witness_operands : ready.phase ≠ .run ∧
    ∀ off ∈ operandOffsets, { ready with inputs := [regWriteInput off 5] }.inputs = regWriteInput off 5 :: [] ∧
      (off ∈ [0x014, 0x018, 0x01C, 0x024, 0x028] ∨ (∃ w < 8, off = 0x040 + 4 * w) ∨ ∃ w < 4, off = 0x060 + 4 * w) := by
  decide

/-- OperandRegistersReadBack, IgnoredWritesAndPureReads, OutsideAccessesRefused: offsets at the ends of each range. -/
theorem witness_offsets : 0x014 ∈ operandOffsets ∧ 0x06C ∈ operandOffsets ∧
    (∀ off ∈ [0x008, 0x00C, 0x020, 0x02C, 0x03C, 0x070, 0x07C, 0x080, 0x0FC], ignoredOffset off ∧ off ≤ 0x0FC) ∧
    (∀ off ∈ operandOffsets, ¬ ignoredOffset off) := by
  unfold ignoredOffset; decide

/-- StatusAndErrKindFields, OutsideAccessesRefused, ResetEntersResetState: a step takes the access. -/
theorem witness_access : ready.phase ≠ .run ∧
    { ready with inputs := [regWriteInput 0x004 2] }.inputs = regWriteInput 0x004 2 :: [] ∧
    { ready with phase := .run, inputs := [regReadInput 0x004] }.inputs = .access ⟨.reg 0x004, 4, none⟩ :: [] := by
  decide

/-- ApertureAddresses: the ends of each aperture, and addresses in none. -/
theorem witness_apertures :
    (∀ o ∈ [0, 0xFF], locate toyParams (0x1000 + o) = some (.reg o)) ∧
      (∀ a ∈ [0, 4095], locate toyParams (0x10000 + a) = some (.ibuf a)) ∧
      (∀ a ∈ [0, 4111], locate toyParams (0x20000 + a) = some (.obuf a)) ∧
      ∀ x ∈ [0xFFF, 0x1100, 0x11000, 0x21010], locate toyParams x = none := by decide

/-! ## Reset, phases, the invariant -/

/-- PhaseTransitions: into `RUN`, out of it by its end and by a reset, into FATAL, and out of it. -/
theorem witness_phases :
    (∃ t, step { ready with inputs := [commandInput 0x08] } = .next t ∧ (t.phase == .run) = true) ∧
    (∃ t, step { ready with
      phase := .run, job := some ⟨.path, .enc, .openRd⟩, inputs := [.serviceAnswers [.ioerr 5]] } = .next t ∧
        (t.phase == .idle) = true) ∧
    (∃ t, step { ready with phase := .run, inputs := [.hardwareReset] } = .next t ∧ (t.phase == .idle) = true) ∧
    (∃ t, step { ready with primPlan := [.fault 7], inputs := [commandInput 0x01] } = .next t ∧
      (t.phase == .fatal) = true) ∧
    ∃ t, step { goFatal ready with inputs := [regWriteInput 0x010 1] } = .next t ∧ (t.phase == .idle) = true :=
  ⟨of_ends (by decide), of_ends (by decide), of_ends (by decide), of_ends (by decide), of_ends (by decide)⟩

/-- StepKeepsInvariant: a state with the invariant that has run a command. -/
theorem witness_inv : ready.Inv ∧ ∃ t, step { ready with inputs := [commandInput 0x103] } = .next t ∧
    (t.phase == .idle) = true := by
  refine ⟨⟨?_, ⟨Memory.ofBytes_wf .., List.Pairwise.nil, fun a h => ?_, fun a => ?_, by decide⟩, .inl rfl, (fun h =>
    nomatch h),
    fun _ => ready_quiet, (fun h => nomatch h)⟩, of_ends (by decide)⟩
  · unfold State.ResultsAgree; decide
  · show Memory.get (Memory.ofBytes 0 full) a = none
    rw [Memory.get_ofBytes_zero]
    exact List.getElem?_eq_none (Nat.le_trans (by decide : full.length ≤ 64) h)
  · show (Memory.get [] a).isSome = true ↔ a < 0
    simp [Memory.get]

end Sys2Proof.Tests
end

section
/-! SUPPORT. What one host access and one step can do: which place an access names, what it leaves, and every way a step
leads to a next state. -/

namespace Sys2Proof.Machine

/-! ## One host access -/

/-- The place an access names: its own, or the one its platform address stands for (`10_state.md` R39). -/
def Access.placeIn (P : Params) (a : Access) : Option Place :=
  match a.place with
  | .platform addr => locate P addr
  | .reg off => some (.reg off)
  | .ibuf addr => some (.ibuf addr)
  | .obuf addr => some (.obuf addr)

/-- An access that names a place is the access to that place. -/
theorem hostAccess_of_place {C : Config} {a : Access} {p : Place} {s : State} (h : a.placeIn s.params = some p) :
    hostAccess C a s = placedAccess C p a.width a.data s := by
  obtain ⟨_ | _ | _ | addr, width, data⟩ := a
  · cases h; rfl
  · cases h; rfl
  · cases h; rfl
  · simp only [Access.placeIn] at h
    simp only [hostAccess, h]

/-- An access that names no place is a fault (log 11). -/
theorem hostAccess_of_no_place {C : Config} {a : Access} {s : State} (h : a.placeIn s.params = none) :
    hostAccess C a s = .outcome (.fault .unmappedAddress) := by
  obtain ⟨_ | _ | _ | addr, width, data⟩ := a
  · cases h
  · cases h
  · cases h
  · simp only [Access.placeIn] at h
    simp only [hostAccess, h]

/-- An access that names a register does so by its offset or by its platform address. -/
theorem Access.placeIn_reg {P : Params} {a : Access} {off : Nat} (h : a.placeIn P = some (.reg off)) :
    a.place = .reg off ∨ ∃ addr, a.place = .platform addr ∧ locate P addr = some (.reg off) := by
  obtain ⟨_ | _ | _ | addr, width, data⟩ := a
  · cases h; exact .inl rfl
  · cases h
  · cases h
  · exact .inr ⟨addr, rfl, h⟩

/-- What an access that is no command word leaves: the record of a read, a register or a byte of `IBUF` written, or
all as it was (`10_state.md` R37, R39). -/
theorem placedAccess_next {C : Config} {p : Place} {width : Nat} {data : Option Word} {s t : State}
    (h : placedAccess C p width data s = .outcome (.next t)) :
    (∃ v n, t = hostRead p width v { s with draws := n }) ∨
    (∃ off v, p = .reg off ∧ width = 4 ∧ data = some v ∧ t = writeReg off v s) ∨
    (∃ addr v, p = .ibuf addr ∧ data = some v ∧ bufAccessLegal s.params.bufCap addr width = true ∧
      t = putIbuf (writeBuf s.ibuf addr width v) s) ∨
    (∃ addr v, p = .obuf addr ∧ data = some v ∧ t = s) := by
  rcases p with off | addr | addr | addr
  · simp only [placedAccess, regAccess] at h
    split at h
    · rename_i hl
      simp only [regAccessLegal, Bool.and_eq_true, beq_iff_eq] at hl
      rcases data with _ | v
      · cases h; exact .inl ⟨_, s.draws, rfl⟩
      · by_cases h0 : off = 0
        · simp [h0] at h
        · simp only [h0, if_false] at h
          cases h; exact .inr (.inl ⟨off, v, rfl, hl.1.1, rfl, rfl⟩)
    · cases h
  · simp only [placedAccess, ibufAccess] at h
    split at h
    · rename_i hl
      rcases data with _ | v <;> cases h
      · exact .inl ⟨_, s.draws + 1, rfl⟩
      · exact .inr (.inr (.inl ⟨addr, v, rfl, rfl, hl, rfl⟩))
    · cases h
  · simp only [placedAccess, obufAccess] at h
    split at h
    · rcases data with _ | v <;> cases h
      · exact .inl ⟨_, s.draws + 1, rfl⟩
      · exact .inr (.inr (.inr ⟨addr, v, rfl, rfl, rfl⟩))
    · cases h
  · cases h

/-- A command word is presented in the state the access meets. -/
theorem placedAccess_command {C : Config} {p : Place} {width : Nat} {data : Option Word} {w : Word} {s u : State}
    (h : placedAccess C p width data s = .command w u) : u = s := by
  rcases p with off | addr | addr | addr
  · simp only [placedAccess, regAccess] at h
    split at h
    · rcases data with _ | v
      · cases h
      · by_cases h0 : off = 0
        · simp only [h0, if_true] at h
          cases h; rfl
        · simp [h0] at h
    · cases h
  · simp only [placedAccess, ibufAccess] at h
    split at h
    · rcases data with _ | v <;> cases h
    · cases h
  · simp only [placedAccess, obufAccess] at h
    split at h
    · rcases data with _ | v <;> cases h
    · cases h
  · cases h

/-! ## Register writes -/

/-- What a register write does: it clears the rejection, resets the engine, or changes operand registers alone, if
anything (`10_state.md` R39). -/
theorem writeReg_cases (off : Nat) (v : Word) (s : State) :
    writeReg off v s = s.writeStatus v ∨ (off = 0x010 ∧ writeReg off v s = writeCtrl v s) ∨
    ∃ key klen iv ivlen ilen srcId dstId, writeReg off v s =
      { s with key := key, klen := klen, iv := iv, ivlen := ivlen, ilen := ilen, srcId := srcId, dstId := dstId } := by
  by_cases h : off = 0x004
  · subst h; exact .inl rfl
  by_cases h' : off = 0x010
  · subst h'; exact .inr (.inl ⟨rfl, rfl⟩)
  refine .inr (.inr ?_)
  rw [writeReg, if_neg h, if_neg h']
  repeat' split
  all_goals exact ⟨_, _, _, _, _, _, _, rfl⟩

theorem writeStatus_cases (v : Word) (s : State) :
    s.writeStatus v = s ∨ s.writeStatus v = { s with rej := false, rejCause := .none } := by
  unfold State.writeStatus
  split
  · exact .inr rfl
  · exact .inl rfl

theorem writeCtrl_cases (v : Word) (s : State) :
    (v.getLsbD 0 = true ∧ writeCtrl v s = resetEngine s) ∨ (v.getLsbD 0 = false ∧ writeCtrl v s = s) := by
  unfold writeCtrl
  rcases v.getLsbD 0 <;> simp

/-! ## One step -/

theorem presented_error {s : State} {w : Word} {c : RejCause} (h : presented s w = .error c) : c ≠ .none := by
  unfold presented at h
  split at h
  · cases h; simp
  · split at h
    · rename_i e _
      cases h; cases e <;> simp [decodeCause]
    · cases h

theorem presented_ok {s : State} {w : Word} {i : Instr} (h : presented s w = .ok i) : decode w = .ok i := by
  unfold presented at h
  split at h
  · cases h
  · split at h
    · cases h
    · cases h; assumption

/-- Every way a step leads from `s` to `t`: by the next input of the outside world, if any (log 1). -/
inductive StepCase (s t : State) : Prop
  | noInput (hi : s.inputs = []) (ht : t = s)
  | reset (rest : List Input) (hi : s.inputs = .hardwareReset :: rest) (ht : t = resetEngine { s with inputs := rest })
  | primAnswers (as : List PrimAnswer) (rest : List Input) (hi : s.inputs = .primAnswers as :: rest)
      (ht : t = { s with inputs := rest, primPlan := s.primPlan ++ as })
  | stored (as : List StreamAnswer) (rest : List Input) (hi : s.inputs = .serviceAnswers as :: rest)
      (hp : s.phase ≠ .run) (ht : t = { s with inputs := rest, answers := s.answers ++ as })
  | served (as : List StreamAnswer) (rest : List Input) (hi : s.inputs = .serviceAnswers as :: rest)
      (hp : s.phase = .run) (ht : runJob Config.machine { s with inputs := rest, answers := s.answers ++ as } = .next t)
  | access (a : Access) (p : Place) (rest : List Input) (hi : s.inputs = .access a :: rest) (hp : s.phase ≠ .run)
      (ha : a.placeIn s.params = some p)
      (ht : placedAccess Config.machine p a.width a.data { s with inputs := rest } = .outcome (.next t))
  | rejected (w : Word) (c : RejCause) (rest : List Input) (hp : s.phase ≠ .run) (hc : c ≠ .none)
      (hn : nextInput Config.machine s = .command w { s with inputs := rest })
      (ht : t = reject c { s with inputs := rest })
  | command (w : Word) (i : Instr) (rest : List Input)
      (hn : nextInput Config.machine s = .command w { s with inputs := rest }) (hd : decode w = .ok i)
      (he : step s = exec i { s with inputs := rest }) (ht : exec i { s with inputs := rest } = .next t)

theorem nextInput_cons (C : Config) {s : State} {i : Input} {rest : List Input} (h : s.inputs = i :: rest) :
    nextInput C s = takeInput C i { s with inputs := rest } := by
  rw [nextInput, h]

theorem step_outcome {s : State} {r : Result} (h : nextInput Config.machine s = .outcome r) : step s = r := by
  rw [step, h]

/-- A step that takes an access ends as the access does, or presents its command word. -/
theorem step_access {s t : State} {a : Access} {rest : List Input} (hi : s.inputs = .access a :: rest)
    (hp : s.phase ≠ .run) (h : step s = .next t) : StepCase s t := by
  have hn : nextInput Config.machine s = hostAccess Config.machine a { s with inputs := rest } := by
    rw [nextInput_cons _ hi, takeInput, if_neg hp]
  rcases ha : a.placeIn s.params with _ | p
  · rw [hostAccess_of_no_place (s := { s with inputs := rest }) ha] at hn
    rw [step_outcome hn] at h; cases h
  · rw [hostAccess_of_place (s := { s with inputs := rest }) ha] at hn
    rcases hr : placedAccess Config.machine p a.width a.data { s with inputs := rest } with ⟨w, u⟩ | r
    · obtain rfl := placedAccess_command hr
      rw [hr] at hn
      rcases hc : presented { s with inputs := rest } w with c | i
      · rw [step, hn] at h
        simp only [hc] at h
        cases h
        exact .rejected w c rest hp (presented_error hc) hn rfl
      · have he : step s = exec i { s with inputs := rest } := by rw [step, hn]; simp only [hc]
        exact .command w i rest hn (presented_ok hc) he (he ▸ h)
    · rw [hr] at hn
      rw [step_outcome hn] at h
      exact .access a p rest hi hp ha (h ▸ hr)

theorem step_serviceAnswers {s : State} {as : List StreamAnswer} {rest : List Input}
    (hi : s.inputs = .serviceAnswers as :: rest) :
    step s = serviceAnswers Config.machine as { s with inputs := rest } :=
  step_outcome (nextInput_cons _ hi)

theorem step_hardwareReset {s : State} {rest : List Input} (hi : s.inputs = .hardwareReset :: rest) :
    step s = .next (resetEngine { s with inputs := rest }) :=
  step_outcome (nextInput_cons _ hi)

/-- What a step can do. -/
theorem step_next {s t : State} (h : step s = .next t) : StepCase s t := by
  rcases hi : s.inputs with _ | ⟨i, rest⟩
  · rw [step_outcome (r := .next s) (by rw [nextInput, hi])] at h
    cases h; exact .noInput hi rfl
  · rcases i with a | as | as | _
    · by_cases hp : s.phase = .run
      · rw [step_outcome (r := .refused .accessWhileRunning) (by rw [nextInput_cons _ hi, takeInput, if_pos hp])] at h
        cases h
      · exact step_access hi hp h
    · rw [step_serviceAnswers hi, serviceAnswers] at h
      by_cases hp : s.phase = .run
      · exact .served as rest hi hp (by simpa only [hp, if_true] using h)
      · simp only [hp, if_false] at h
        cases h; exact .stored as rest hi hp rfl
    · rw [step_outcome (nextInput_cons _ hi)] at h
      cases h; exact .primAnswers as rest hi rfl
    · rw [step_hardwareReset hi] at h
      cases h; exact .reset rest hi rfl

end Sys2Proof.Machine
end

section
/-! SUPPORT. Every way a command leads to a next state, and what no command changes. -/

namespace Sys2Proof.Machine

/-! ## Every way a command ends -/

/-- An accepted command at work: what is left of the primitive's answers and the record are those of `p`, and `n` draws
have been made. -/
def atWork (p : Port) (n : Nat) (s : State) : State := { accept s with primPlan := p.plan, log := p.log, draws := n }

/-- The context a command leaves, by how it ends (`10_state.md` R32, `60_exceptions.md` R221, R225). -/
def CommandLeaves (i : Instr) (e : Ending) (s : State) (c : Ctx) : Prop :=
  match e with
  | .fatal => c = s.ctx
  | .error _ =>
    match i with
    | .cbcInit _ | .ctrInit => c = Ctx.empty
    | .cbcEnc | .cbcDec | .ctrEncPath | .ctrDecPath | .ctrEncStrm | .ctrDecStrm => c = s.ctx
    | .cbcBlocks | .ctrXor | .ctxDrop => False
  | .success =>
    match i with
    | .cbcInit dir => s.Validates ∧ c = Ctx.freshCbc dir s.keyOperand s.ivOperand
    | .ctrInit => s.Validates ∧ c = Ctx.freshCtr s.keyOperand s.ivOperand
    | .ctxDrop => c = Ctx.empty
    | .cbcBlocks => s.ctx.kind ≠ .none ∧ ∃ ch, c = { s.ctx with chain := ch }
    | .ctrXor => s.ctx.kind ≠ .none ∧
        ∃ ctr ks pos, c = { s.ctx with ctr := ctr, ks := ks, ksPos := pos } ∧ (s.ctx.ksPos ≤ 16 → pos ≤ 16)
    | .cbcEnc | .cbcDec | .ctrEncPath | .ctrDecPath | .ctrEncStrm | .ctrDecStrm => c = s.ctx

/-- Every way a command leads from `s` to `t`: rejected, ended without or with an output, or, for a streaming command,
begun and then gone on with as far as the answers in store go. -/
inductive CommandCase (i : Instr) (s t : State) : Prop
  | rejected (c : RejCause) (hc : c ≠ .none) (hp : s.phase ≠ .run) (ht : t = reject c s)
  | ended (e : Ending) (c : Ctx) (p : Port) (n : Nat) (hp : s.phase = .idle) (hl : CommandLeaves i e s c)
      (ht : t = endCommand e (bindCtx c (atWork p n s)))
  | output (v : List Byte) (c : Ctx) (p : Port) (n : Nat) (hp : s.phase = .idle) (hl : CommandLeaves i .success s c)
      (hv : v.length ≤ s.params.obufCap) (ht : t = endCommand .success (bindCtx c (putOutput v (atWork p n s))))
  | path (dir : Dir) (hi : IsPath i) (hp : s.phase = .idle)
      (ht : runJob Config.machine (issue ⟨.path, dir, .openRd⟩ .openRd (.openRd s.srcId) (accept s)) = .next t)
  | handle (dir : Dir) (hi : IsHandle i) (hp : s.phase = .idle)
      (ht : runJob Config.machine (startCopy ⟨.handle, dir, .read⟩ (accept s)) = .next t)

theorem unpad_ok_length {b x : List Byte} (h : unpad b = .ok x) : x.length ≤ b.length := by
  unfold unpad at h
  split at h
  · cases h
  · split at h <;> cases h
    simp

theorem cbcEnc_next {s t : State} (hp : s.phase = .idle) (h : cbcEnc Config.machine s = .next t) :
    CommandCase .cbcEnc s t := by
  rcases cbcEnc_cases Config.machine hp with ⟨_, e⟩ | ⟨_, e, _, e'⟩ | ⟨_, _, _, p, _, e⟩ | ⟨hr, _, c, _, p, hc, e⟩
  · rw [e] at h; cases h; exact .rejected .lenRange (by simp) (by simp [hp]) rfl
  · rw [e'] at h; cases h; exact .ended (.error e) s.ctx s.port s.draws hp rfl rfl
  · rw [e] at h; cases h; exact .ended .fatal s.ctx p _ hp rfl rfl
  · rw [e] at h; cases h
    refine .output (ofBlocks c) s.ctx p _ hp rfl ?_ rfl
    unfold State.InRange at hr
    rw [ofBlocks_length, cbcEncBlocks_length hc, toBlocks_length]
    simp only [Params.obufCap]; omega

/-- How `CBC_DEC` ends once it has decrypted blocks that fit `OBUF`. -/
theorem decEnd_case {s : State} (hp : s.phase = .idle) {pp : List Byte} (hl : pp.length ≤ s.params.obufCap) (p : Port)
    (n : Nat) : CommandCase .cbcDec s (decEnd Config.machine pp (atWork p n s)) := by
  unfold decEnd
  rcases hu : unpad pp with b | _ | _
  · exact .output b s.ctx p n hp rfl ((unpad_ok_length hu).trans hl) rfl
  · exact .ended (.error .paddingError) s.ctx p n hp rfl rfl
  · exact .ended (.error (classify Config.machine s.params .emptyInput)) s.ctx p n hp rfl rfl

theorem cbcDec_next {s t : State} (hp : s.phase = .idle) (h : cbcDec Config.machine s = .next t) :
    CommandCase .cbcDec s t := by
  rcases cbcDec_cases Config.machine hp with ⟨_, e⟩ | ⟨_, e, _, e'⟩ | ⟨_, _, _, e⟩ | ⟨_, _, _, code, p, _, e⟩ |
    ⟨hr, _, _, x, _, p, hx, e⟩
  · rw [e] at h; cases h; exact .rejected .lenRange (by simp) (by simp [hp]) rfl
  · rw [e'] at h; cases h; exact .ended (.error e) s.ctx s.port s.draws hp rfl rfl
  · rw [e] at h; cases h; exact .ended (.error .cipherKeyError) s.ctx s.port s.draws hp rfl rfl
  · rw [e] at h; cases h; exact .ended (.error (faultError (Config.machine.primKind code))) s.ctx p _ hp rfl rfl
  · rw [e] at h; cases h
    refine decEnd_case hp ?_ p (s.draws + 1)
    unfold State.InRange at hr
    rw [ofBlocks_length, cbcDecBlocks_length hx, toBlocks_length]
    simp only [Params.obufCap]; omega

theorem cbcInit_next {dir : Bool} {s t : State} (hp : s.phase = .idle) (h : cbcInit dir s = .next t) :
    CommandCase (.cbcInit dir) s t := by
  rcases cbcInit_cases dir hp with ⟨e, _, e'⟩ | ⟨hv, e⟩
  · rw [e'] at h; cases h; exact .ended (.error e) Ctx.empty s.port s.draws hp rfl rfl
  · rw [e] at h; cases h; exact .ended .success _ s.port s.draws hp ⟨hv, rfl⟩ rfl

theorem ctrInit_next {s t : State} (hp : s.phase = .idle) (h : ctrInit s = .next t) : CommandCase .ctrInit s t := by
  rcases ctrInit_cases hp with ⟨e, _, e'⟩ | ⟨hv, e⟩
  · rw [e'] at h; cases h; exact .ended (.error e) Ctx.empty s.port s.draws hp rfl rfl
  · rw [e] at h; cases h; exact .ended .success _ s.port s.draws hp ⟨hv, rfl⟩ rfl

theorem cbcBlocks_next {s t : State} (hp : s.phase = .idle) (h : cbcBlocks Config.machine s = .next t) :
    CommandCase .cbcBlocks s t := by
  rcases cbcBlocks_cases Config.machine hp with ⟨c, hc, e⟩ | ⟨_, _, _, _, p, _, e⟩ | ⟨hr, hk, _, y, ch, p, hy, e⟩
  · rw [e] at h; cases h; exact .rejected c hc (by simp [hp]) rfl
  · rw [e] at h; cases h; exact .ended .fatal s.ctx p _ hp rfl rfl
  · rw [e] at h; cases h
    refine .output (ofBlocks y) _ p _ hp ⟨?_, ch, rfl⟩ ?_ rfl
    · rcases hk with hk | hk <;> simp [hk]
    · unfold State.InRange at hr
      rw [ofBlocks_length, cbcBlocksOf_length hy, toBlocks_length]
      simp only [Params.obufCap]; omega

theorem ctrXor_next {s t : State} (hp : s.phase = .idle) (h : ctrXor Config.machine s = .next t) :
    CommandCase .ctrXor s t := by
  rcases ctrXor_cases Config.machine hp with ⟨c, hc, e⟩ | ⟨_, _, _, p, _, e⟩ | ⟨hr, hk, x, ⟨kind, klen, key, chain, ctr, ks, pos⟩,
    p, hx, e⟩
  · rw [e] at h; cases h; exact .rejected c hc (by simp [hp]) rfl
  · rw [e] at h; cases h; exact .ended .fatal s.ctx p _ hp rfl rfl
  · rw [e] at h; cases h
    obtain ⟨hlen, rfl, rfl, rfl, rfl, hpos⟩ := ksXor_inv hx
    refine .output x _ p _ hp ⟨by simp [hk], ctr, ks, pos, rfl, hpos⟩ ?_ rfl
    unfold State.InRange at hr
    rw [hlen, input_length]
    simp only [Params.obufCap]; omega

theorem ctxDrop_next {s t : State} (hp : s.phase = .idle) (h : ctxDrop s = .next t) : CommandCase .ctxDrop s t := by
  rw [ctxDrop_idle hp] at h
  cases h; exact .ended .success Ctx.empty s.port s.draws hp rfl rfl

theorem ctrPath_next {i : Instr} {dir : Dir} {s t : State} (hi : IsPath i) (hp : s.phase = .idle)
    (h : ctrPath Config.machine dir s = .next t) : CommandCase i s t :=
  .path dir hi hp (ctrPath_idle Config.machine dir hp ▸ h)

theorem ctrStrm_next {i : Instr} {dir : Dir} {s t : State} (hi : IsHandle i) (hp : s.phase = .idle)
    (h : ctrStrm Config.machine dir s = .next t) : CommandCase i s t := by
  rw [ctrStrm_idle _ _ hp] at h
  split at h
  · cases h
  · exact .handle dir hi hp h

/-- What a command can do. -/
theorem exec_next {i : Instr} {s t : State} (h : exec i s = .next t) : CommandCase i s t := by
  rcases hp : s.phase with _ | _ | _
  · cases i with
    | cbcEnc => exact cbcEnc_next hp h
    | cbcDec => exact cbcDec_next hp h
    | cbcInit dir => exact cbcInit_next hp h
    | cbcBlocks => exact cbcBlocks_next hp h
    | ctrInit => exact ctrInit_next hp h
    | ctrXor => exact ctrXor_next hp h
    | ctxDrop => exact ctxDrop_next hp h
    | ctrEncPath => exact ctrPath_next (dir := .enc) (by simp [IsPath]) hp h
    | ctrDecPath => exact ctrPath_next (dir := .dec) (by simp [IsPath]) hp h
    | ctrEncStrm => exact ctrStrm_next (dir := .enc) (by simp [IsHandle]) hp h
    | ctrDecStrm => exact ctrStrm_next (dir := .dec) (by simp [IsHandle]) hp h
  · rw [exec_run i hp] at h; cases h
  · rw [exec_fatal i hp] at h
    cases h; exact .rejected .fatalState (by simp) (by simp [hp]) rfl

/-! ## What no command changes -/

/-- A running command that goes on changes no operand, nor `CTX`. -/
theorem runJob_frame {C : Config} {s t : State} (h : runJob C s = .next t) : SameOperands s t ∧ t.ctx = s.ctx := by
  refine serve_invariant (P := fun u => SameOperands s u ∧ u.ctx = s.ctx) ?_ ⟨.refl s, rfl⟩ h
  rintro u v j a as ⟨ho, hc⟩ - hv
  obtain ⟨ho', hc', -⟩ := same_onAnswer hv
  exact ⟨ho.trans ho', hc'.trans hc⟩

theorem startCopy_frame (j : Job) (s : State) : SameOperands s (startCopy j s) ∧ (startCopy j s).ctx = s.ctx := by
  obtain ⟨ho, hc, -⟩ := same_startCopy j s
  exact ⟨ho, hc⟩

/-- What a command begun in a state with the operands and `CTX` of `s` leaves unchanged when it goes on. -/
theorem begun_frame {s u t : State} (hu : SameOperands s u ∧ u.ctx = s.ctx) (h : runJob Config.machine u = .next t) :
    SameOperands s t ∧ t.ctx = s.ctx := by
  obtain ⟨ho, hc⟩ := runJob_frame h
  exact ⟨hu.1.trans ho, hc.trans hu.2⟩

/-- Begun, a path command has the operands and `CTX` it met. -/
theorem pathBegin_frame (dir : Dir) (s : State) :
    SameOperands s (issue ⟨.path, dir, .openRd⟩ .openRd (.openRd s.srcId) (accept s)) ∧
      (issue ⟨.path, dir, .openRd⟩ .openRd (.openRd s.srcId) (accept s)).ctx = s.ctx := by
  simp [SameOperands]

/-- No command writes an operand register or `IBUF` (`10_state.md` R23). -/
theorem exec_sameOperands {i : Instr} {s t : State} (h : exec i s = .next t) : SameOperands s t := by
  cases exec_next h with
  | rejected c hc hp ht => subst ht; simp [SameOperands]
  | ended e c p n hp hl ht => subst ht; exact (same_endCommand e (bindCtx c (atWork p n s))).1
  | output v c p n hp hl hv ht => subst ht; exact (same_endCommand .success (bindCtx c (putOutput v (atWork p n s)))).1
  | path dir hi hp ht => exact (begun_frame (pathBegin_frame dir s) ht).1
  | handle dir hi hp ht => exact (begun_frame (s := s) (startCopy_frame _ (accept s)) ht).1

end Sys2Proof.Machine
end

section
/-! SUPPORT. The invariant: that reset has it and every step keeps it. -/

namespace Sys2Proof.Machine

/-! ## Contexts -/

theorem Ctx.wf_empty : Ctx.empty.Wf := .inl rfl

/-- Legal operands have a legal key length. -/
theorem State.Validates.keyOperand_length_legal {s : State} (h : s.Validates) :
    s.keyOperand.length = 16 ∨ s.keyOperand.length = 24 ∨ s.keyOperand.length = 32 := by
  rw [keyOperand_length h.1]
  exact keyLengthLegal_toNat h.1

theorem Ctx.wf_freshCbc (dir : Bool) {s : State} (h : s.Validates) : (Ctx.freshCbc dir s.keyOperand s.ivOperand).Wf :=
  .inr ⟨by cases dir <;> simp [Ctx.freshCbc], h.keyOperand_length_legal, by simp [Ctx.freshCbc, Ctx.empty]⟩

theorem Ctx.wf_freshCtr {s : State} (h : s.Validates) : (Ctx.freshCtr s.keyOperand s.ivOperand).Wf :=
  .inr ⟨by simp [Ctx.freshCtr], h.keyOperand_length_legal, by simp [Ctx.freshCtr]⟩

/-- A bound context that is well formed stays so in use: its kind and key are kept and its position stays in range. -/
theorem Ctx.Wf.use {c c' : Ctx} (h : c.Wf) (hn : c.kind ≠ .none) (hk : c'.kind = c.kind) (hl : c'.klen = c.klen)
    (hp : c.ksPos ≤ 16 → c'.ksPos ≤ 16) : c'.Wf := by
  obtain rfl | ⟨_, hlen, hpos⟩ := h
  · exact absurd rfl hn
  · exact .inr ⟨by rwa [hk], by rwa [hl], hp hpos⟩

/-- The context a command leaves is well formed. -/
theorem CommandLeaves.wf {i : Instr} {e : Ending} {s : State} {c : Ctx} (h : CommandLeaves i e s c) (hs : s.ctx.Wf) :
    c.Wf := by
  rcases e with _ | e | _
  · cases i with
    | cbcInit dir => obtain ⟨hv, rfl⟩ := h; exact Ctx.wf_freshCbc dir hv
    | ctrInit => obtain ⟨hv, rfl⟩ := h; exact Ctx.wf_freshCtr hv
    | ctxDrop => obtain rfl := h; exact Ctx.wf_empty
    | cbcBlocks => obtain ⟨hk, ch, rfl⟩ := h; exact hs.use hk rfl rfl id
    | ctrXor => obtain ⟨hk, ctr, ks, pos, rfl, hp⟩ := h; exact hs.use hk rfl rfl hp
    | cbcEnc | cbcDec | ctrEncPath | ctrDecPath | ctrEncStrm | ctrDecStrm => obtain rfl := h; exact hs
  · cases i with
    | cbcInit _ | ctrInit => obtain rfl := h; exact Ctx.wf_empty
    | ctxDrop | cbcBlocks | ctrXor => exact h.elim
    | cbcEnc | cbcDec | ctrEncPath | ctrDecPath | ctrEncStrm | ctrDecStrm => obtain rfl := h; exact hs
  · obtain rfl := h; exact hs

/-! ## Parts of the invariant -/

/-- Outside `RUN` nothing of a command is left. -/
theorem State.Inv.quiet {s : State} (h : s.Inv) (hp : s.phase ≠ .run) : s.Quiet := by
  obtain ⟨-, -, -, -, hquiet, -⟩ := h
  exact hquiet hp

theorem State.Inv.ctxWf {s : State} (h : s.Inv) : s.ctx.Wf := by
  obtain ⟨-, -, hc, -, -, -⟩ := h
  exact hc

/-! ## From acceptance to the end of a command -/

/-- What is so of an accepted command until it ends: the results acceptance cleared, the buffers and `CTX`. -/
structure State.Cleared (s : State) : Prop where
  err : s.err = false
  rej : s.rej = false
  rejCause : s.rejCause = .none
  errKind : s.errKind = .none
  ioWhere : s.ioWhere = .none
  ioErr : s.ioErr = 0
  buffers : s.BuffersWf
  ctx : s.ctx.Wf

/-- An accepted command in `RUN` that has put out nothing. -/
structure State.Working (s : State) : Prop extends s.Cleared where
  phase : s.phase = .run
  olen : s.olen = 0

/-- Acceptance, which empties `OBUF`, keeps the buffers well formed. -/
theorem State.BuffersWf.emptyObuf {s : State} (h : s.BuffersWf) :
    State.BuffersWf { s with olen := 0, obuf := [] } := by
  obtain ⟨hi, -, hcap, -, -⟩ := h
  exact ⟨hi, List.Pairwise.nil, hcap, fun a => by simp [Memory.get], Nat.zero_le _⟩

/-- An output that fits `OBUF` keeps the buffers well formed. -/
theorem State.BuffersWf.putOutput {s : State} (h : s.BuffersWf) {v : List Byte} (hv : v.length ≤ s.params.obufCap) :
    (putOutput v s).BuffersWf := by
  obtain ⟨hi, -, hcap, -, -⟩ := h
  have hl : (Machine.putOutput v s).olen.toNat = v.length :=
    putOutput_olen_toNat (hv.trans_lt (bufCap_lt s.params))
  refine ⟨hi, Memory.ofBytes_wf 0 v, hcap, fun a => ?_, hl.symm ▸ hv⟩
  rw [hl, putOutput_holds v s a]
  simp

/-- Acceptance and the primitive's answers leave a command working (`44_system.md` R202). -/
theorem State.Inv.working_atWork {s : State} (h : s.Inv) (p : Port) (n : Nat) : (atWork p n s).Working := by
  obtain ⟨-, hb, hc, -, -, -⟩ := h
  exact ⟨⟨rfl, rfl, rfl, rfl, rfl, rfl, hb.emptyObuf, hc⟩, rfl, rfl⟩

/-- A running command is working. -/
theorem State.Inv.working {s : State} (h : s.Inv) (hp : s.phase = .run) : s.Working := by
  obtain ⟨⟨hek, hrc, hio, hcode⟩, hb, hc, hrun, -, -⟩ := h
  obtain ⟨he, hr, hl, -⟩ := hrun hp
  have hk : s.errKind = .none := by simpa [he] using hek
  have hc' : s.rejCause = .none := by simpa [hr] using hrc
  have hw : s.ioWhere = .none := by simpa [hk] using hio
  exact ⟨⟨he, hr, hc', hk, hw, hcode (by simp [hk]), hb, hc⟩, hp, hl⟩

theorem State.Cleared.resultsAgree {s : State} (h : s.Cleared) : s.ResultsAgree := by
  simp [State.ResultsAgree, h.err, h.rej, h.rejCause, h.errKind, h.ioWhere, h.ioErr]

/-- A working command with its job, its open flags and its scratch context has the invariant. -/
theorem State.Working.inv {s : State} {j : Job} (h : s.Working) (hj : s.job = some j)
    (ho : j.OpenFlags s.srcOpen s.dstOpen) (hs : j.ScratchOk s.scratch) : s.Inv :=
  ⟨h.toCleared.resultsAgree, h.buffers, h.ctx, fun _ => ⟨h.err, h.rej, h.olen, j, hj, ho, hs⟩,
    fun hn => absurd h.phase hn, fun hf => by rw [h.phase] at hf; cases hf⟩

/-- Success leaves the invariant when no handle is open. -/
theorem State.Cleared.inv_complete {s : State} (h : s.Cleared) (hs : s.srcOpen = false) (hd : s.dstOpen = false) :
    (complete s).Inv :=
  ⟨h.resultsAgree, h.buffers, h.ctx, nofun, fun _ => ⟨rfl, hs, hd, rfl⟩, nofun⟩

/-- The registers of a typed error agree (`60_exceptions.md` R225). -/
theorem raise_resultsAgree (e : TypedError) {s : State} (h : s.Cleared) : (raise e s).ResultsAgree := by
  rcases e with _ | _ | _ | _ | _ | ⟨_ | _ | _ | _, c⟩ <;>
    simp [State.ResultsAgree, TypedError.kind, TypedError.ioWhere, TypedError.ioCode, IoReq.ioWhere, h.rej, h.rejCause]

/-- However it ends, a command with no handle open leaves the invariant. -/
theorem State.Working.inv_endCommand {s : State} (h : s.Working) (hs : s.srcOpen = false) (hd : s.dstOpen = false)
    (e : Ending) : (endCommand e s).Inv := by
  have hb : State.BuffersWf { s with olen := 0 } := by rw [← h.olen]; exact h.buffers
  rcases e with _ | e | _
  · exact h.toCleared.inv_complete hs hd
  · exact ⟨raise_resultsAgree e h.toCleared, hb, h.ctx, nofun, fun _ => ⟨rfl, hs, hd, rfl⟩, nofun⟩
  · refine ⟨?_, hb, h.ctx, nofun, fun _ => ⟨rfl, hs, hd, rfl⟩, fun _ => ⟨rfl, rfl⟩⟩
    simp [State.ResultsAgree, endCommand, h.rej, h.rejCause, h.ioErr]

/-! ## A running streaming command -/

theorem Job.OpenFlags.handle {j : Job} {src dst : Bool} (h : j.OpenFlags src dst) (hj : j.shape ≠ .path) :
    src = false ∧ dst = false := by
  obtain ⟨_ | _, dir, aw⟩ := j
  · exact absurd rfl hj
  · cases aw with
    | read | write => exact h
    | openRd | createTrunc | close _ => exact h.elim

/-- A release leaves the invariant: it asks for a `CLOSE`, or ends the command with no handle open (R185). -/
theorem State.Working.inv_release {s : State} {j : Job} (h : s.Working)
    (hj : j.shape ≠ .path → s.srcOpen = false ∧ s.dstOpen = false) (e : Ending) : (release j e s).Inv := by
  have closing : ∀ (u : State) (r : StreamReq), u.Working → j.shape = .path → u.dstOpen = false →
      (issue j (.close e) r u).Inv := by
    intro u r hu hp hd
    refine State.Working.inv (j := { j with await := .close e }) { hu with } rfl ?_ trivial
    simp only [Job.OpenFlags, hp]; exact hd
  rcases release_cases j e s with ⟨hp, _, er⟩ | ⟨hp, hd, _, er⟩ | ⟨hf, er⟩ <;> rw [er]
  · exact closing _ _ { h with } hp rfl
  · exact closing _ _ { h with } hp hd
  · have hflags : s.srcOpen = false ∧ s.dstOpen = false := by
      by_cases hp : j.shape = .path
      · exact (hf hp).symm
      · exact hj hp
    exact h.inv_endCommand hflags.1 hflags.2 e

/-- The start of a copy leaves the invariant, with the open flags of a copy (R180, R184, R189). -/
theorem State.Working.inv_startCopy {s : State} {j : Job} (h : s.Working)
    (hf : Job.OpenFlags { j with await := .read } s.srcOpen s.dstOpen) : (startCopy j s).Inv := by
  rcases startCopy_cases j s with ⟨hv, e⟩ | ⟨e, _, er⟩
  · rw [e]
    exact State.Working.inv (j := { j with await := .read }) { h with } rfl hf ⟨Ctx.wf_freshCtr hv, rfl⟩
  · rw [er]; exact h.inv_release hf.handle _

/-- A chunk leaves the invariant: it is handed to the sink, or a fault releases the handles (R176, R183). -/
theorem State.Working.inv_copyChunk {C : Config} {s : State} {j : Job} (h : s.Working) (d : List Byte)
    (hj : j.await = .read) (hf : j.OpenFlags s.srcOpen s.dstOpen) (hs : s.scratch.Wf ∧ s.scratch.kind = .ctr) :
    (copyChunk C j d s).Inv := by
  rcases copyChunk_cases C j d s with ⟨e, c, p, hx, er⟩ | ⟨code, p, _, er⟩ <;> rw [er]
  · obtain ⟨-, hkind, hklen, -, -, hpos⟩ := ksXor_inv hx
    obtain ⟨hwf, hctr⟩ := hs
    have hf' : Job.OpenFlags { j with await := .write } s.srcOpen s.dstOpen := by
      obtain ⟨_ | _, dir, aw⟩ := j <;> cases hj <;> exact hf
    exact State.Working.inv (j := { j with await := .write }) { h with } rfl hf'
      ⟨hwf.use (by simp [hctr]) hkind hklen hpos, hkind.trans hctr⟩
  · exact State.Working.inv_release (s := putPort p s) { h with } hf.handle _

/-- An answer leaves the invariant (R176, R184, R185, R189). -/
theorem inv_onAnswer {C : Config} {s t : State} {j : Job} {a : StreamAnswer} (h : s.Working)
    (hf : j.OpenFlags s.srcOpen s.dstOpen) (hs : j.ScratchOk s.scratch) (hn : onAnswer C j a s = .next t) : t.Inv := by
  rcases onAnswer_next hn with ⟨hw, _, _, rfl⟩ | ⟨_, _, _, rfl⟩ | ⟨hw, _, rfl⟩ | ⟨_, _, _, rfl⟩ | ⟨d, hw, _, _, rfl⟩ |
    ⟨_, _, rfl⟩ | ⟨_, _, _, rfl⟩ | ⟨hw, _, rfl⟩ | ⟨_, _, _, rfl⟩ | ⟨_, _, _, rfl⟩
  · obtain ⟨_ | _, dir, aw⟩ := j <;> cases hw
    · exact State.Working.inv (j := ⟨.path, dir, .createTrunc⟩) { h with } rfl ⟨rfl, hf.2⟩ hs
    · exact hf.elim
  · exact h.inv_release hf.handle _
  · refine State.Working.inv_startCopy (s := setDstOpen true s) { h with } ?_
    obtain ⟨_ | _, dir, aw⟩ := j <;> cases hw
    · exact ⟨hf.1, rfl⟩
    · exact hf.elim
  · exact h.inv_release hf.handle _
  · refine h.inv_copyChunk d hw hf ?_
    simpa only [Job.ScratchOk, hw] using hs
  · exact h.inv_release hf.handle _
  · exact h.inv_release hf.handle _
  · refine State.Working.inv (j := { j with await := .read }) { h with } rfl ?_ ?_
    · obtain ⟨_ | _, dir, aw⟩ := j <;> cases hw <;> exact hf
    · obtain ⟨shape, dir, aw⟩ := j; cases hw; exact hs
  · exact h.inv_release hf.handle _
  · exact h.inv_release hf.handle _

/-- A running command keeps the invariant as far as the answers in store go. -/
theorem inv_runJob {C : Config} {s t : State} (h : s.Inv) (hr : runJob C s = .next t) : t.Inv := by
  refine serve_invariant (P := State.Inv) ?_ h hr
  intro u v j a as hu hj hv
  have hp : u.phase = .run := by
    by_contra hn
    obtain ⟨-, -, -, hnone⟩ := hu.quiet hn
    rw [hnone] at hj; cases hj
  have hw := hu.working hp
  obtain ⟨-, -, -, hrun, -, -⟩ := hu
  obtain ⟨-, -, -, k, hk, hf, hs⟩ := hrun hp
  obtain rfl : k = j := Option.some.inj (hk.symm.trans hj)
  exact inv_onAnswer (s := takeAnswer a as u) { hw with } hf hs hv

/-! ## Commands -/

/-- A rejection leaves the invariant (`60_exceptions.md` R227). -/
theorem State.Inv.reject {s : State} (h : s.Inv) {c : RejCause} (hc : c ≠ .none) (hp : s.phase ≠ .run) :
    (reject c s).Inv := by
  obtain ⟨⟨hek, -, hio⟩, hb, hx, -, hquiet, hfatal⟩ := h
  exact ⟨⟨hek, ⟨fun _ => hc, fun _ => rfl⟩, hio⟩, hb, hx, fun hr => absurd hr hp, hquiet, hfatal⟩

/-- A command leaves the invariant. -/
theorem inv_exec {i : Instr} {s t : State} (h : s.Inv) (he : exec i s = .next t) : t.Inv := by
  have flags : s.phase = .idle → s.scratch = Ctx.empty ∧ s.srcOpen = false ∧ s.dstOpen = false := by
    intro hp
    obtain ⟨hs, hsrc, hdst, -⟩ := h.quiet (by simp [hp])
    exact ⟨hs, hsrc, hdst⟩
  cases exec_next he with
  | rejected c hc hp ht => subst ht; exact h.reject hc hp
  | ended e c p n hp hl ht =>
    obtain ⟨-, hsrc, hdst⟩ := flags hp
    subst ht
    exact State.Working.inv_endCommand (s := bindCtx c (atWork p n s)) { h.working_atWork p n with ctx := hl.wf h.ctxWf }
      hsrc hdst e
  | output v c p n hp hl hv ht =>
    obtain ⟨-, hsrc, hdst⟩ := flags hp
    have hw := h.working_atWork p n
    subst ht
    exact State.Cleared.inv_complete (s := bindCtx c (putOutput v (atWork p n s)))
      { hw with buffers := hw.buffers.putOutput hv, ctx := hl.wf h.ctxWf } hsrc hdst
  | path dir hi hp ht =>
    obtain ⟨hs, hsrc, hdst⟩ := flags hp
    refine inv_runJob ?_ ht
    exact State.Working.inv (j := ⟨.path, dir, .openRd⟩) { h.working_atWork s.port s.draws with } rfl ⟨hsrc, hdst⟩ hs
  | handle dir hi hp ht =>
    obtain ⟨-, hsrc, hdst⟩ := flags hp
    refine inv_runJob (State.Working.inv_startCopy (s := accept s) { h.working_atWork s.port s.draws with } ?_) ht
    exact ⟨hsrc, hdst⟩

/-! ## Host accesses and reset -/

/-- The reset state has the invariant, whatever the parameters (`10_state.md` R43). -/
theorem inv_reset (P : Params) : State.Inv { State.reset with params := P } := by
  refine ⟨by simp [State.ResultsAgree, State.reset], ⟨List.Pairwise.nil, List.Pairwise.nil, fun _ _ => rfl, fun a => ?_,
    Nat.zero_le _⟩, Ctx.wf_empty, nofun, fun _ => ⟨rfl, rfl, rfl, rfl⟩, nofun⟩
  simp [Memory.get, State.reset]

theorem inv_resetEngine (s : State) : (resetEngine s).Inv := inv_reset s.params

/-- A host write inside `IBUF` gives no byte above `BUF_CAP` a value. -/
theorem writeBuf_get_none {m : Memory} {size addr width : Nat} (v : Word) (hl : bufAccessLegal size addr width = true)
    (h : ∀ a, size ≤ a → Memory.get m a = none) (a : Nat) (ha : size ≤ a) :
    Memory.get (writeBuf m addr width v) a = none := by
  simp only [bufAccessLegal, Bool.or_eq_true, Bool.and_eq_true, beq_iff_eq, decide_eq_true_eq] at hl
  unfold writeBuf
  split
  · rw [Memory.get_set_other _ _ (by omega), h a ha]
  · iterate 4 rw [Memory.get_set_other _ _ (by omega)]
    exact h a ha

theorem State.Inv.putIbuf {s : State} (h : s.Inv) {addr width : Nat} (v : Word)
    (hl : bufAccessLegal s.params.bufCap addr width = true) : (putIbuf (writeBuf s.ibuf addr width v) s).Inv := by
  obtain ⟨hr, ⟨hi, ho, hcap, hout⟩, hrest⟩ := h
  exact ⟨hr, ⟨writeBuf_wf hi addr width v, ho, writeBuf_get_none v hl hcap, hout⟩, hrest⟩

/-- With the rejection cleared outside `RUN` the invariant holds. -/
theorem State.Inv.clearRej {s : State} (h : s.Inv) (hp : s.phase ≠ .run) :
    State.Inv { s with rej := false, rejCause := .none } := by
  obtain ⟨⟨hek, -, hio⟩, hb, hx, -, hquiet, hfatal⟩ := h
  exact ⟨⟨hek, by simp, hio⟩, hb, hx, fun hr => absurd hr hp, hquiet, hfatal⟩

theorem State.Inv.writeReg {s : State} (h : s.Inv) (hp : s.phase ≠ .run) (off : Nat) (v : Word) :
    (writeReg off v s).Inv := by
  rcases writeReg_cases off v s with e | ⟨_, e⟩ | ⟨key, klen, iv, ivlen, ilen, srcId, dstId, e⟩ <;> rw [e]
  · rcases writeStatus_cases v s with e | e <;> rw [e]
    · exact h
    · exact h.clearRej hp
  · rcases writeCtrl_cases v s with ⟨_, e⟩ | ⟨_, e⟩ <;> rw [e]
    · exact inv_resetEngine s
    · exact h
  · exact h

/-- A host access leaves the invariant. -/
theorem State.Inv.placedAccess {C : Config} {p : Place} {width : Nat} {data : Option Word} {s t : State} (h : s.Inv)
    (hp : s.phase ≠ .run) (ht : placedAccess C p width data s = .outcome (.next t)) : t.Inv := by
  rcases placedAccess_next ht with ⟨_, _, rfl⟩ | ⟨off, v, _, _, _, rfl⟩ | ⟨addr, v, _, _, hl, rfl⟩ | ⟨_, _, _, _, rfl⟩
  · exact h
  · exact h.writeReg hp off v
  · exact h.putIbuf v hl
  · exact h

/-- Settles O60: the parameters of the reset state are as good as any. -/
theorem resetHasInvariant : Obligations.ResetHasInvariant := inv_reset State.reset.params

/-- Settles O59, by the ways a step leads to a next state. What the outside world has in store is no part of the
invariant. -/
theorem stepKeepsInvariant : Obligations.StepKeepsInvariant := by
  intro s t h hst
  cases step_next hst with
  | noInput hi ht => subst ht; exact h
  | reset rest hi ht => subst ht; exact inv_resetEngine _
  | primAnswers as rest hi ht => subst ht; exact h
  | stored as rest hi hp ht => subst ht; exact h
  | served as rest hi hp ht => exact inv_runJob (s := { s with inputs := rest, answers := s.answers ++ as }) h ht
  | access a p rest hi hp ha ht => exact State.Inv.placedAccess (s := { s with inputs := rest }) h hp ht
  | rejected w c rest hp hc hn ht => subst ht; exact State.Inv.reject (s := { s with inputs := rest }) h hc hp
  | command w i rest hn hd he ht => exact inv_exec (s := { s with inputs := rest }) h ht

end Sys2Proof.Machine
end

section
/-! SUPPORT. What commands and other inputs change of the operands and of `CTX`; resets; platform addresses. -/

namespace Sys2Proof.Machine

/-! ## Operands -/

/-- Later answers change no operand, nor `CTX`, whether a command runs or not. -/
theorem serviceAnswers_frame {C : Config} {as : List StreamAnswer} {s t : State} (h : serviceAnswers C as s = .next t) :
    SameOperands s t ∧ t.ctx = s.ctx := by
  simp only [serviceAnswers] at h
  split at h
  · exact runJob_frame (s := { s with answers := s.answers ++ as }) h
  · cases h; exact ⟨.refl s, rfl⟩

/-- Settles O42, by what each way a command ends, and each later answer, leaves unchanged. -/
theorem operandsNeverWritten : Obligations.OperandsNeverWritten := by
  refine ⟨fun i s t h => exec_sameOperands h, fun s t as rest hi h => ?_⟩
  rw [step_serviceAnswers hi] at h
  exact (serviceAnswers_frame (s := { s with inputs := rest }) h).1

/-! ## The context -/

@[simp] theorem atWork_rej (p : Port) (n : Nat) (s : State) : (atWork p n s).rej = false := rfl
@[simp] theorem atWork_err (p : Port) (n : Nat) (s : State) : (atWork p n s).err = false := rfl

/-- `CTX` after a command that was not rejected and did not go FATAL, `err` telling a typed error (R32). -/
def CtxAfter (i : Instr) (err : Bool) (s : State) (c : Ctx) : Prop :=
  match i with
  | .cbcEnc | .cbcDec | .ctrEncPath | .ctrDecPath | .ctrEncStrm | .ctrDecStrm => c = s.ctx
  | .cbcInit dir => if err then c = Ctx.empty else c = Ctx.freshCbc dir s.keyOperand s.ivOperand
  | .ctrInit => if err then c = Ctx.empty else c = Ctx.freshCtr s.keyOperand s.ivOperand
  | .ctxDrop => c = Ctx.empty
  | .cbcBlocks => c = { s.ctx with chain := c.chain }
  | .ctrXor => c = { s.ctx with ctr := c.ctr, ks := c.ks, ksPos := c.ksPos }

theorem CommandLeaves.success_ctxAfter {i : Instr} {s : State} {c : Ctx} (h : CommandLeaves i .success s c) :
    CtxAfter i false s c := by
  cases i with
  | cbcInit _ | ctrInit => obtain ⟨_, rfl⟩ := h; rfl
  | cbcBlocks => obtain ⟨_, ch, rfl⟩ := h; rfl
  | ctrXor => obtain ⟨_, ctr, ks, pos, rfl, _⟩ := h; rfl
  | cbcEnc | cbcDec | ctxDrop | ctrEncPath | ctrDecPath | ctrEncStrm | ctrDecStrm => exact h

theorem CommandLeaves.error_ctxAfter {i : Instr} {e : TypedError} {s : State} {c : Ctx}
    (h : CommandLeaves i (.error e) s c) : CtxAfter i true s c := by
  cases i with
  | ctxDrop | cbcBlocks | ctrXor => exact h.elim
  | cbcEnc | cbcDec | cbcInit _ | ctrInit | ctrEncPath | ctrDecPath | ctrEncStrm | ctrDecStrm => exact h

/-- A streaming command leaves `CTX` as it met it. -/
theorem ctxAfter_streaming {i : Instr} (hi : IsStreaming i) {s : State} {c : Ctx} (h : c = s.ctx) (err : Bool) :
    CtxAfter i err s c := by
  simp only [IsStreaming, List.mem_cons, List.not_mem_nil, or_false] at hi
  rcases hi with rfl | rfl | rfl | rfl <;> exact h

theorem IsPath.isStreaming {i : Instr} (h : IsPath i) : IsStreaming i := by
  simp only [IsPath, IsStreaming, List.mem_cons, List.not_mem_nil, or_false] at *
  rcases h with h | h <;> simp [h]

theorem IsHandle.isStreaming {i : Instr} (h : IsHandle i) : IsStreaming i := by
  simp only [IsHandle, IsStreaming, List.mem_cons, List.not_mem_nil, or_false] at *
  rcases h with h | h <;> simp [h]

/-- How `CTX` stands after a command: as it was if the command was rejected or went FATAL, else as R32 lists. -/
theorem exec_ctx {i : Instr} {s t : State} (h : exec i s = .next t) :
    ((t.rej = true ∨ t.phase = .fatal) ∧ t.ctx = s.ctx) ∨
    (¬ (t.rej = true ∨ t.phase = .fatal) ∧ CtxAfter i t.err s t.ctx) ∨ (IsStreaming i ∧ t.ctx = s.ctx) := by
  cases exec_next h with
  | rejected c hc hp ht => subst ht; exact .inl ⟨.inl rfl, rfl⟩
  | ended e c p n hp hl ht =>
    subst ht
    rcases e with _ | e | _
    · exact .inr (.inl ⟨by simp [endCommand], hl.success_ctxAfter⟩)
    · exact .inr (.inl ⟨by simp [endCommand], hl.error_ctxAfter⟩)
    · exact .inl ⟨.inr rfl, hl⟩
  | output v c p n hp hl hv ht =>
    subst ht
    exact .inr (.inl ⟨by simp [endCommand], hl.success_ctxAfter⟩)
  | path dir hi hp ht => exact .inr (.inr ⟨hi.isStreaming, (begun_frame (pathBegin_frame dir s) ht).2⟩)
  | handle dir hi hp ht =>
    exact .inr (.inr ⟨hi.isStreaming, (begun_frame (s := s) (startCopy_frame _ (accept s)) ht).2⟩)

/-- A register write changes `CTX` only where it resets the engine. -/
theorem writeReg_ctx {off : Nat} {v : Word} {s : State} (h : (writeReg off v s).ctx ≠ s.ctx) :
    off = 0x010 ∧ v.getLsbD 0 = true ∧ writeReg off v s = resetEngine s := by
  rcases writeReg_cases off v s with e | ⟨ho, e⟩ | ⟨_, _, _, _, _, _, _, e⟩ <;> rw [e] at h ⊢
  · rcases writeStatus_cases v s with e | e <;> exact absurd (by rw [e]) h
  · rcases writeCtrl_cases v s with ⟨hv, e⟩ | ⟨_, e⟩
    · exact ⟨ho, hv, e⟩
    · exact absurd (by rw [e]) h
  · exact absurd rfl h

/-- An access that is no command word changes `CTX` only where it resets the engine. -/
theorem access_ctx {s t : State} {a : Access} {p : Place} {rest : List Input} (hi : s.inputs = .access a :: rest)
    (ha : a.placeIn s.params = some p)
    (ht : placedAccess Config.machine p a.width a.data { s with inputs := rest } = .outcome (.next t))
    (hne : t.ctx ≠ s.ctx) : TakesReset s ∧ t.ctx = Ctx.empty := by
  rcases placedAccess_next ht with ⟨_, _, rfl⟩ | ⟨off, v, rfl, hw, hd, rfl⟩ | ⟨_, _, _, _, _, rfl⟩ | ⟨_, _, _, _, rfl⟩
  · exact absurd rfl hne
  · obtain ⟨rfl, hv, e⟩ := writeReg_ctx hne
    obtain ⟨place, width, data⟩ := a
    obtain rfl : width = 4 := hw
    obtain rfl : data = some v := hd
    exact ⟨⟨rest, .inr ⟨place, v, hi, hv, Access.placeIn_reg ha⟩⟩, by rw [e]; rfl⟩
  · exact absurd rfl hne
  · exact absurd rfl hne

/-- Settles O43: the commands by the ways they end, the other inputs by the ways a step leads to a next state. -/
theorem contextChangesOnlyAsListed : Obligations.ContextChangesOnlyAsListed := by
  refine ⟨fun i s t h => ?_, fun s t h hne => ?_⟩
  · have key : if t.rej = true ∨ t.phase = .fatal then t.ctx = s.ctx else CtxAfter i t.err s t.ctx := by
      rcases exec_ctx h with ⟨hr, hc⟩ | ⟨hr, hc⟩ | ⟨hi, hc⟩
      · rwa [if_pos hr]
      · rwa [if_neg hr]
      · split
        · exact hc
        · exact ctxAfter_streaming hi hc _
    cases i <;> exact key
  · cases step_next h with
    | noInput hi ht => subst ht; exact absurd rfl hne
    | reset rest hi ht => subst ht; exact .inr ⟨⟨rest, .inl hi⟩, rfl⟩
    | primAnswers as rest hi ht => subst ht; exact absurd rfl hne
    | stored as rest hi hp ht => subst ht; exact absurd rfl hne
    | served as rest hi hp ht => exact absurd (runJob_frame ht).2 hne
    | access a p rest hi hp ha ht => exact .inr (access_ctx hi ha ht hne)
    | rejected w c rest hp hc hn ht => subst ht; exact absurd rfl hne
    | command w i rest hn hd he ht => exact .inl ⟨w, _, i, hn, rfl, hd, he⟩

/-! ## Resets -/

theorem writeReg_ctrl (v : Word) (s : State) : writeReg 0x010 v s = writeCtrl v s := rfl

/-- Settles O57: both resets are `resetEngine`. -/
theorem resetEntersResetState : Obligations.ResetEntersResetState := by
  intro s rest r
  refine ⟨fun hi => step_hardwareReset hi, fun v hp hi => ?_⟩
  rw [step_regWrite hp hi (by decide), writeReg_ctrl, writeCtrl]
  rfl

/-! ## Platform addresses -/

/-- An access at a platform address is the access to the place it names. -/
theorem hostAccess_platform {C : Config} {s : State} {addr width : Nat} {data : Option Word} {p : Place}
    (h : locate s.params addr = some p) :
    hostAccess C { place := .platform addr, width := width, data := data } s = placedAccess C p width data s :=
  hostAccess_of_place h

/-- Settles O54: the parameters' types keep the apertures apart. -/
theorem apertureAddresses : Obligations.ApertureAddresses := by
  intro s addr width data P at_
  have hri : Apart P.regBase 0x100 P.ibufBase P.bufCap := P.regIbufApart
  have hro : Apart P.regBase 0x100 P.obufBase P.obufCap := P.regObufApart
  have hio : Apart P.ibufBase P.bufCap P.obufBase P.obufCap := P.ibufObufApart
  refine ⟨fun h => ⟨hostAccess_platform (locate_reg P h), ?_, ?_⟩, fun h => ⟨hostAccess_platform (locate_ibuf P h), ?_⟩,
    fun h => hostAccess_platform (locate_obuf P h), fun hr hi ho => hostAccess_of_no_place (locate_none P hr hi ho)⟩
  all_goals omega

end Sys2Proof.Machine
end

section
/-! SUPPORT. The register map: what stands at each offset, what a write of an operand register shows, the fields of the
flag words. -/

namespace Sys2Proof.Machine

/-! ## Reads -/

theorem readReg_key (s : State) {w : Nat} (h : w < 8) : readReg s (0x040 + 4 * w) = regWord s.key w := by
  unfold readReg
  iterate 10 rw [if_neg (by omega)]
  rw [if_pos (by omega), show (0x040 + 4 * w - 0x040) / 4 = w by omega]

theorem readReg_iv (s : State) {w : Nat} (h : w < 4) : readReg s (0x060 + 4 * w) = regWord s.iv w := by
  unfold readReg
  iterate 11 rw [if_neg (by omega)]
  rw [if_pos (by omega), show (0x060 + 4 * w - 0x060) / 4 = w by omega]

theorem readReg_defaultIv (s : State) {w : Nat} (h : w < 4) :
    readReg s (0x070 + 4 * w) = regWord s.params.defaultIv w := by
  unfold readReg
  iterate 12 rw [if_neg (by omega)]
  rw [if_pos (by omega), show (0x070 + 4 * w - 0x070) / 4 = w by omega]

/-- A reserved offset reads 0. -/
theorem readReg_reserved (s : State) {off : Nat} (h : (0x030 ≤ off ∧ off ≤ 0x03C) ∨ 0x080 ≤ off) : readReg s off = 0 := by
  unfold readReg
  iterate 13 rw [if_neg (by omega)]

/-- Byte `4w + i` of a byte-array register stands in bits `8i + 7 : 8i` of its word `w` (`20_memory.md` R64). -/
theorem getElem?_eq_regWord_byte {n : Nat} (b : Bytes n) {w i : Nat} (hw : 4 * w + 4 ≤ n) (hi : i < 4) :
    b.list[4 * w + i]? = some ((regWord b w).extractLsb' (8 * i) 8) := by
  have hl : 4 * w + i < b.list.length := by rw [b.length_eq]; omega
  have hb : (regWord b w).extractLsb' (8 * i) 8 = b.list.getD (4 * w + i) 0 := byteOf_regWord b w hi
  rw [hb, List.getD_eq_getElem?_getD, List.getElem?_eq_getElem hl, Option.getD_some]

/-! ## Writes -/

theorem writeReg_key (s : State) (v : Word) {w : Nat} (h : w < 8) :
    writeReg (0x040 + 4 * w) v s = { s with key := setRegWord s.key w v } := by
  unfold writeReg
  iterate 7 rw [if_neg (by omega)]
  rw [if_pos (by omega), show (0x040 + 4 * w - 0x040) / 4 = w by omega]

theorem writeReg_iv (s : State) (v : Word) {w : Nat} (h : w < 4) :
    writeReg (0x060 + 4 * w) v s = { s with iv := setRegWord s.iv w v } := by
  unfold writeReg
  iterate 8 rw [if_neg (by omega)]
  rw [if_pos (by omega), show (0x060 + 4 * w - 0x060) / 4 = w by omega]

/-- A write of a read-only register or of a reserved offset changes nothing (`10_state.md` R36, R39). -/
theorem writeReg_ignored (s : State) (v : Word) {off : Nat} (h : ignoredOffset off) : writeReg off v s = s := by
  unfold ignoredOffset at h
  unfold writeReg
  iterate 9 rw [if_neg (by omega)]

/-- The operand offsets: the five whole registers, the words of `KEY` and the words of `IV`. -/
theorem operandOffsets_cases {off : Nat} (h : off ∈ operandOffsets) :
    off ∈ [0x014, 0x018, 0x01C, 0x024, 0x028] ∨ (∃ w < 8, off = 0x040 + 4 * w) ∨ ∃ w < 4, off = 0x060 + 4 * w := by
  revert off
  decide

theorem operandOffsets_legal {off : Nat} (h : off ∈ operandOffsets) : off % 4 = 0 ∧ off ≤ 0x0FC ∧ off ≠ 0 := by
  revert off
  decide

/-- The words of `KEY` after a write of one of them, as reads show them. -/
theorem readReg_setKey (s : State) (v : Word) {w off : Nat} (hw : w < 8) (ho : off % 4 = 0) :
    readReg { s with key := setRegWord s.key w v } off = if off = 0x040 + 4 * w then v else readReg s off := by
  by_cases hk : 0x040 ≤ off ∧ off ≤ 0x05C
  · obtain ⟨u, hu, rfl⟩ : ∃ u, u < 8 ∧ off = 0x040 + 4 * u := ⟨(off - 0x040) / 4, by omega, by omega⟩
    rw [readReg_key _ hu, readReg_key _ hu, regWord_setRegWord s.key v (by omega)]
    exact if_congr (by omega) rfl rfl
  · rw [if_neg (by omega)]
    simp only [readReg, hk, if_false]
    rfl

theorem readReg_setIv (s : State) (v : Word) {w off : Nat} (hw : w < 4) (ho : off % 4 = 0) :
    readReg { s with iv := setRegWord s.iv w v } off = if off = 0x060 + 4 * w then v else readReg s off := by
  by_cases hk : 0x060 ≤ off ∧ off ≤ 0x06C
  · obtain ⟨u, hu, rfl⟩ : ∃ u, u < 4 ∧ off = 0x060 + 4 * u := ⟨(off - 0x060) / 4, by omega, by omega⟩
    rw [readReg_iv _ hu, readReg_iv _ hu, regWord_setRegWord s.iv v (by omega)]
    exact if_congr (by omega) rfl rfl
  · rw [if_neg (by omega)]
    simp only [readReg, hk, if_false]
    rfl

/-- A write of an operand register is returned by a read there and shows at no other offset (`10_state.md` R40). -/
theorem readReg_writeReg (s : State) (v : Word) {off off' : Nat} (h : off ∈ operandOffsets) (ho : off' % 4 = 0) :
    readReg (writeReg off v s) off' = if off' = off then v else readReg s off' := by
  rcases operandOffsets_cases h with h | ⟨w, hw, rfl⟩ | ⟨w, hw, rfl⟩
  · split
    · subst off'
      simp only [List.mem_cons, List.not_mem_nil, or_false] at h
      rcases h with rfl | rfl | rfl | rfl | rfl <;> rfl
    · rename_i hne
      simp only [List.mem_cons, List.not_mem_nil, or_false] at h
      rcases h with rfl | rfl | rfl | rfl | rfl <;> simp only [readReg, hne, if_false] <;> rfl
  · rw [writeReg_key s v hw]; exact readReg_setKey s v hw ho
  · rw [writeReg_iv s v hw]; exact readReg_setIv s v hw ho

/-- The bytes of a byte-array register after a write of one of its words. -/
theorem setRegWord_bytes {n : Nat} (b : Bytes n) {w : Nat} (v : Word) (hw : 4 * w + 4 ≤ n) :
    (∀ i, i < 4 → (setRegWord b w v).list[4 * w + i]? = some (v.extractLsb' (8 * i) 8)) ∧
      ∀ j, (j < 4 * w ∨ 4 * w + 4 ≤ j) → (setRegWord b w v).list[j]? = b.list[j]? := by
  refine ⟨fun i hi => ?_, fun j hj => ?_⟩
  · rw [setRegWord_get b v hw, if_pos (by omega), Nat.add_sub_cancel_left]
    rfl
  · rw [setRegWord_get b v hw, if_neg (by omega)]

/-- Settles O51, by the register at each offset and read after write. -/
theorem operandRegistersReadBack : Obligations.OperandRegistersReadBack := by
  refine ⟨fun s => ⟨rfl, rfl, rfl, rfl, rfl, fun w i hw hi => ?_, fun w i hw hi => ?_⟩,
    fun s off v rest hp hi => ?_⟩
  · rw [readReg_key s hw]; exact getElem?_eq_regWord_byte s.key (by omega) hi
  · rw [readReg_iv s hw]; exact getElem?_eq_regWord_byte s.iv (by omega) hi
  intro t
  refine ⟨?_, ?_, ?_, ?_, ?_, fun w hw ho => ?_, fun w hw ho => ?_, fun ho => ?_⟩
  iterate 5 exact fun ho => by subst ho; exact step_regWrite hp hi (by decide)
  · subst ho
    refine ⟨setRegWord s.key w v, ?_, setRegWord_bytes s.key v (by omega)⟩
    rw [step_regWrite hp hi (by omega), writeReg_key t v hw]
  · subst ho
    refine ⟨setRegWord s.iv w v, ?_, setRegWord_bytes s.iv v (by omega)⟩
    rw [step_regWrite hp hi (by omega), writeReg_iv t v hw]
  · have hlegal : off % 4 = 0 ∧ off ≤ 0x0FC ∧ off ≠ 0 := operandOffsets_legal ho
    refine ⟨writeReg off v t, step_regWrite hp hi hlegal, ?_, fun off' h4 hne => ?_⟩
    · rw [readReg_writeReg t v ho hlegal.1, if_pos rfl]
    · rw [readReg_writeReg t v ho h4, if_neg hne]; rfl

/-! ## Ignored writes and reads -/

/-- A host write to `OBUF` changes nothing (`10_state.md` R37). -/
theorem step_obufWrite {s : State} {addr width : Nat} {v : Word} {rest : List Input} (hp : s.phase ≠ .run)
    (hl : bufAccessLegal s.params.obufCap addr width = true)
    (hi : s.inputs = .access { place := .obuf addr, width := width, data := some v } :: rest) :
    step s = .next { s with inputs := rest } := by
  refine step_outcome ?_
  rw [nextInput_cons _ hi, takeInput, if_neg hp, hostAccess_of_place (p := .obuf addr) rfl, placedAccess, obufAccess,
    if_pos hl]

/-- Settles O52: no branch of the register write is taken, and a read adds to the record alone. -/
theorem ignoredWritesAndPureReads : Obligations.IgnoredWritesAndPureReads := by
  intro s rest hp
  refine ⟨fun off v ho hi => ?_, fun addr width v hl hi => step_obufWrite hp hl hi, fun off h4 hle hi => ?_⟩
  · have hlegal : off % 4 = 0 ∧ off ≤ 0x0FC ∧ off ≠ 0 := by unfold ignoredOffset at ho; omega
    rw [step_regWrite hp hi hlegal, writeReg_ignored _ v ho]
  · exact step_regRead hp hi ⟨h4, hle⟩

/-! ## The flag words -/

/-- The flags and the reserved bit 3 of `STATUS` (`10_state.md` R25). -/
theorem statusWord_flags (s : State) : s.statusWord.getLsbD 0 = s.err ∧ s.statusWord.getLsbD 1 = s.rej ∧
    s.statusWord.getLsbD 2 = s.fatalFlag ∧ s.statusWord.getLsbD 3 = false := by
  have skip : ∀ {n m i : Nat} {x : BitVec n} {y : BitVec m}, m ≤ i → (x ++ y).getLsbD i = x.getLsbD (i - m) := by
    intro n m i x y h
    rw [BitVec.getLsbD_append, if_neg (Nat.not_lt.2 h)]
  have flag : ∀ {n : Nat} {x : BitVec n} {b : Bool}, (x ++ BitVec.ofBool b).getLsbD 0 = b := by
    intro n x b
    rw [BitVec.getLsbD_append, if_pos (by decide), BitVec.getLsbD_ofBool]
    simp
  unfold State.statusWord
  refine ⟨flag, (skip (by decide)).trans flag, ?_, ?_⟩
  · exact (skip (by decide)).trans ((skip (by decide)).trans flag)
  · exact (skip (by decide)).trans ((skip (by decide)).trans ((skip (by decide)).trans (flag (b := false))))

/-- The fields and the other reserved bits of `STATUS` (R25): each is what is left above the fields below it. -/
theorem statusWord_fields (s : State) : s.statusWord.extractLsb' 4 2 = s.ctx.kind.code ∧
    s.statusWord.extractLsb' 6 2 = 0#2 ∧ s.statusWord.extractLsb' 8 4 = s.rejCause.code ∧
    s.statusWord.extractLsb' 12 20 = 0#20 := by
  unfold State.statusWord
  refine ⟨?_, ?_, ?_, ?_⟩
  · iterate 4 refine (BitVec.extractLsb'_append_eq_of_le (by decide)).trans ?_
    exact BitVec.extractLsb'_append_eq_right
  · iterate 5 refine (BitVec.extractLsb'_append_eq_of_le (by decide)).trans ?_
    exact BitVec.extractLsb'_append_eq_right
  · iterate 6 refine (BitVec.extractLsb'_append_eq_of_le (by decide)).trans ?_
    exact BitVec.extractLsb'_append_eq_right
  · iterate 7 refine (BitVec.extractLsb'_append_eq_of_le (by decide)).trans ?_
    exact BitVec.extractLsb'_eq_self

/-- The fields and the reserved bits of `ERRKIND` (R26). -/
theorem errKindWord_fields (s : State) : s.errKindWord.extractLsb' 0 4 = s.errKind.code ∧
    s.errKindWord.extractLsb' 4 4 = 0#4 ∧ s.errKindWord.extractLsb' 8 4 = s.ioWhere.code ∧
    s.errKindWord.extractLsb' 12 20 = 0#20 := by
  unfold State.errKindWord
  refine ⟨BitVec.extractLsb'_append_eq_right, ?_, ?_, ?_⟩
  · refine (BitVec.extractLsb'_append_eq_of_le (by decide)).trans ?_
    exact BitVec.extractLsb'_append_eq_right
  · iterate 2 refine (BitVec.extractLsb'_append_eq_of_le (by decide)).trans ?_
    exact BitVec.extractLsb'_append_eq_right
  · iterate 3 refine (BitVec.extractLsb'_append_eq_of_le (by decide)).trans ?_
    exact BitVec.extractLsb'_eq_self

theorem fatalFlag_iff (s : State) : s.fatalFlag = true ↔ s.phase = .fatal := by
  simp [State.fatalFlag]

/-- Settles O53, by the fields of the two flag words. -/
theorem statusAndErrKindFields : Obligations.StatusAndErrKindFields := by
  refine ⟨fun s => ?_, rfl, rfl, rfl, rfl, fun s v rest hp hi => ?_⟩
  · obtain ⟨herr, hrej, hfatal, hres⟩ := statusWord_flags s
    obtain ⟨hkind, hres', hcause, hres''⟩ := statusWord_fields s
    obtain ⟨hek, her, hio, her'⟩ := errKindWord_fields s
    have hphase : (readReg s 0x004).getLsbD 2 = true ↔ s.phase = .fatal := hfatal ▸ fatalFlag_iff s
    refine ⟨herr, hrej, hphase, hres, hkind, hres', hcause, hres'', hek, her, hio, her', rfl, rfl, rfl,
      fun w i hw hi => ?_, rfl, rfl, fun off _ ho => readReg_reserved s (by omega)⟩
    rw [readReg_defaultIv s hw]
    exact getElem?_eq_regWord_byte s.params.defaultIv (by omega) hi
  · exact step_regWrite hp hi (by decide)

/-! ## Reset values -/

theorem regWord_zero (n w : Nat) : regWord (Bytes.zero n) w = 0#32 := by
  have hb : ∀ i, (Bytes.zero n).list.getD i 0 = 0#8 := by
    intro i
    rw [Bytes.zero, List.getD_eq_getElem?_getD, List.getElem?_replicate]
    split <;> rfl
  simp only [regWord, wordOf, hb]
  rfl

/-- Settles O56, by the kinds of offsets: `VERSION`, `DEFIV`, the whole registers, `KEY`, `IV`, the rest. -/
theorem resetValues : Obligations.ResetValues := by
  refine ⟨fun off h4 => ?_, rfl, rfl, rfl, rfl, rfl, fun _ => ⟨rfl, rfl⟩⟩
  by_cases hv : off = 0x02C
  · subst hv; rfl
  rw [if_neg hv]
  by_cases hd : 0x070 ≤ off ∧ off ≤ 0x07C
  · obtain ⟨w, hw, rfl⟩ : ∃ w, w < 4 ∧ off = 0x070 + 4 * w := ⟨(off - 0x070) / 4, by omega, by omega⟩
    rw [if_pos hd, readReg_defaultIv _ hw, show (0x070 + 4 * w - 0x070) / 4 = w by omega]
    rfl
  rw [if_neg hd]
  by_cases hs : off ∈ [0x004, 0x008, 0x00C, 0x014, 0x018, 0x01C, 0x020, 0x024, 0x028]
  · simp only [List.mem_cons, List.not_mem_nil, or_false] at hs
    rcases hs with rfl | rfl | rfl | rfl | rfl | rfl | rfl | rfl | rfl <;> rfl
  simp only [List.mem_cons, List.not_mem_nil, or_false, not_or] at hs
  simp only [readReg, hs, hv, hd, if_false]
  split
  · exact regWord_zero 32 _
  split
  · exact regWord_zero 16 _
  · rfl

end Sys2Proof.Machine
end

section
/-! SUPPORT. Host accesses to the buffers: which are legal, what a write stores, what a read answers. -/

namespace Sys2Proof.Machine

/-! ## Legal accesses -/

/-- A legal buffer access is a byte or an aligned word, all of it inside the buffer (`20_memory.md` R67). -/
theorem bufAccessLegal_iff {size addr width : Nat} :
    bufAccessLegal size addr width = true ↔
      (width = 1 ∨ (width = 4 ∧ addr % 4 = 0)) ∧ addr + width ≤ size := by
  simp only [bufAccessLegal, Bool.or_eq_true, Bool.and_eq_true, beq_iff_eq, decide_eq_true_eq]
  omega

/-- A legal register access is an aligned word below `0x100` (`20_memory.md` R66). -/
theorem regAccessLegal_iff {off width : Nat} :
    regAccessLegal off width = true ↔ width = 4 ∧ off % 4 = 0 ∧ off ≤ 0x0FC := by
  simp only [regAccessLegal, Bool.and_eq_true, beq_iff_eq, decide_eq_true_eq, and_assoc]

/-- A step that takes an access to a place, no command word, ends as that access does. -/
theorem step_placedAccess {s : State} {a : Access} {p : Place} {rest : List Input} {r : Result} (hp : s.phase ≠ .run)
    (hi : s.inputs = .access a :: rest) (ha : a.placeIn s.params = some p)
    (hr : placedAccess Config.machine p a.width a.data { s with inputs := rest } = .outcome r) : step s = r := by
  refine step_outcome ?_
  rw [nextInput_cons _ hi, takeInput, if_neg hp, hostAccess_of_place (s := { s with inputs := rest }) ha, hr]

/-! ## Writes -/

/-- A host write to `IBUF`. -/
theorem step_ibufWrite {s : State} {addr width : Nat} {v : Word} {rest : List Input} (hp : s.phase ≠ .run)
    (hl : bufAccessLegal s.params.bufCap addr width = true)
    (hi : s.inputs = .access { place := .ibuf addr, width := width, data := some v } :: rest) :
    step s = .next { s with inputs := rest, ibuf := writeBuf s.ibuf addr width v } :=
  step_placedAccess hp hi rfl (if_pos hl)

/-- The bytes of a buffer after a host write (`20_memory.md` R64). -/
theorem writeBuf_get (m : Memory) {addr width : Nat} (v : Word) (hw : width = 1 ∨ width = 4) (a : Nat) :
    Memory.get (writeBuf m addr width v) a =
      if addr ≤ a ∧ a < addr + width then some (byteOf v (a - addr)) else Memory.get m a := by
  by_cases h : addr ≤ a ∧ a < addr + width
  · obtain ⟨i, rfl⟩ : ∃ i, a = addr + i := ⟨a - addr, by omega⟩
    rw [if_pos h, Nat.add_sub_cancel_left]
    rcases hw with rfl | rfl
    · obtain rfl : i = 0 := by omega
      simp [writeBuf]
    · obtain rfl | rfl | rfl | rfl : i = 0 ∨ i = 1 ∨ i = 2 ∨ i = 3 := by omega
      all_goals simp [writeBuf, Memory.get_set]
  · rw [if_neg h]
    rcases hw with rfl | rfl
    · rw [writeBuf, if_pos rfl, Memory.get_set_other _ _ (by omega)]
    · rw [writeBuf, if_neg (by decide)]
      iterate 4 rw [Memory.get_set_other _ _ (by omega)]

/-- The low byte of a zero-extended byte. -/
theorem byteOf_setWidth (b : Byte) : byteOf (b.setWidth 32) 0 = b := by
  refine BitVec.eq_of_getLsbD_eq fun j hj => ?_
  simp only [byteOf, BitVec.getLsbD_extractLsb', BitVec.getLsbD_setWidth]
  simp [hj, show j < 32 by omega]

/-- The host's write of byte `i` of a word at its own address. -/
def byteWriteInput (addr : Nat) (v : Word) (i : Nat) : Input :=
  .access { place := .ibuf (addr + i), width := 1, data := some ((byteOf v i).setWidth 32) }

/-- A step that takes the write of one byte of a word stores that byte. -/
theorem step_byteWriteInput {s : State} {addr i : Nat} {v : Word} {rest : List Input} (hp : s.phase ≠ .run)
    (ha : addr + i < s.params.bufCap) (hi : s.inputs = byteWriteInput addr v i :: rest) :
    step s = .next { s with inputs := rest, ibuf := Memory.set s.ibuf (addr + i) (byteOf v i) } := by
  rw [step_ibufWrite hp (bufAccessLegal_iff.2 ⟨.inl rfl, ha⟩) hi, writeBuf, if_pos rfl, byteOf_setWidth]

/-- The four writes of the bytes of a word, one after another, come to the write of the word (`20_memory.md` R67). -/
theorem byteWrites_stepsTo {s : State} {addr : Nat} (v : Word) (rest : List Input) (hp : s.phase ≠ .run)
    (ha : addr + 4 ≤ s.params.bufCap) :
    StepsTo 4 { s with inputs := (List.range 4).map (byteWriteInput addr v) ++ rest }
      { s with inputs := rest, ibuf := writeBuf s.ibuf addr 4 v } := by
  have hb : ∀ i, i < 4 → addr + i < s.params.bufCap := fun i hi => by omega
  exact ⟨_, step_byteWriteInput (i := 0) hp (hb 0 (by decide)) rfl, _, step_byteWriteInput (i := 1) hp (hb 1 (by decide)) rfl,
    _, step_byteWriteInput (i := 2) hp (hb 2 (by decide)) rfl, _, step_byteWriteInput (i := 3) hp (hb 3 (by decide)) rfl, rfl⟩

/-- Settles O49, by what a write leaves at each address. -/
theorem hostWritesIbuf : Obligations.HostWritesIbuf := by
  intro s addr width v rest hp hl hwf hi
  obtain ⟨hw, hin⟩ := bufAccessLegal_iff.1 hl
  refine ⟨writeBuf s.ibuf addr width v, step_ibufWrite hp hl hi, writeBuf_wf hwf addr width v,
    writeBuf_get s.ibuf v (by omega), fun h4 => ?_⟩
  subst h4
  exact byteWrites_stepsTo v rest hp hin

/-! ## Reads -/

/-- A host read of bytes that hold a value gives them, the lower address less significant (`20_memory.md` R64). -/
theorem readBuf_of_get {C : Config} {s : State} {m : Memory} {addr width : Nat} {b : Nat → Byte}
    (hw : width = 1 ∨ width = 4) (h : ∀ i, i < width → Memory.get m (addr + i) = some (b i)) :
    readBuf C s m addr width = if width = 1 then (b 0).setWidth 32 else wordOf b := by
  have byte : ∀ i, i < width → readByte C s.draws m (addr + i) = b i := fun i hi => by
    rw [readByte, h i hi, Option.getD_some]
  rcases hw with rfl | rfl
  · rw [readBuf, if_pos rfl, if_pos rfl, ← byte 0 (by decide), Nat.add_zero]
  · rw [readBuf, if_neg (by decide), if_neg (by decide)]
    simp only [wordOf, byte, Nat.reduceLT]

/-- Settles O50: either read answers what `readBuf` gives and makes one draw. -/
theorem hostReadsBuffers : Obligations.HostReadsBuffers := by
  intro s addr width rest b hp value seen
  have read : ∀ {m : Memory} {size : Nat}, (∀ i, i < width → Memory.get m (addr + i) = some (b i)) →
      bufAccessLegal size addr width = true →
      readBuf Config.machine { s with inputs := rest } m addr width = value := by
    intro m size hb hl
    obtain ⟨hw, -⟩ := bufAccessLegal_iff.1 hl
    exact readBuf_of_get (by omega) hb
  refine ⟨fun hb hl hi => step_placedAccess hp hi rfl ?_, fun hb hl hi => step_placedAccess hp hi rfl ?_⟩
  · simp only [placedAccess, ibufAccess, hl, if_true, read hb hl]
    rfl
  · simp only [placedAccess, obufAccess, hl, if_true, read hb hl]
    rfl

/-! ## Accesses without a meaning -/

/-- Settles O55: none of them is legal (log 11), and in `RUN` none is looked at (log 12). -/
theorem outsideAccessesRefused : Obligations.OutsideAccessesRefused := by
  intro s a rest hi
  refine ⟨fun hp => step_outcome ?_, fun hp => ⟨fun off h hbad => ?_, fun addr h hbad => ?_, fun addr h hbad => ?_⟩⟩
  · rw [nextInput_cons _ hi, takeInput, if_pos hp]
  · have hl : ¬ regAccessLegal off a.width = true := by rw [regAccessLegal_iff]; omega
    exact step_placedAccess (p := .reg off) hp hi (by rw [Access.placeIn, h]) (if_neg hl)
  · have hl : ¬ bufAccessLegal s.params.bufCap addr a.width = true := by rw [bufAccessLegal_iff]; omega
    exact step_placedAccess (p := .ibuf addr) hp hi (by rw [Access.placeIn, h]) (if_neg hl)
  · have hl : ¬ bufAccessLegal s.params.obufCap addr a.width = true := by rw [bufAccessLegal_iff]; omega
    exact step_placedAccess (p := .obuf addr) hp hi (by rw [Access.placeIn, h]) (if_neg hl)

end Sys2Proof.Machine
end

section
/-! SUPPORT. A streaming command that waits for answers: it holds its job, has used up those in store, and goes on with
later ones as if they had been there. -/

namespace Sys2Proof.Machine

/-! ## In `RUN` a job is in progress -/

/-- In `RUN` there is a job: a command that was begun or went on either waits with its job or has ended. -/
def RunHasJob (s : State) : Prop := s.job ≠ none ∨ s.phase ≠ .run

theorem runHasJob_issue (j : Job) (aw : Await) (r : StreamReq) (s : State) : RunHasJob (issue j aw r s) :=
  .inl (by simp)

theorem runHasJob_release (j : Job) (e : Ending) (s : State) : RunHasJob (release j e s) := by
  rcases release_cases j e s with ⟨_, _, h⟩ | ⟨_, _, _, h⟩ | ⟨_, h⟩ <;> rw [h]
  · exact runHasJob_issue ..
  · exact runHasJob_issue ..
  · exact .inr (endCommand_phase e s)

theorem runHasJob_startCopy (j : Job) (s : State) : RunHasJob (startCopy j s) := by
  rcases startCopy_cases j s with ⟨_, h⟩ | ⟨e, _, h⟩ <;> rw [h]
  · exact runHasJob_issue ..
  · exact runHasJob_release ..

theorem runHasJob_copyChunk (C : Config) (j : Job) (d : List Byte) (s : State) : RunHasJob (copyChunk C j d s) := by
  rcases copyChunk_cases C j d s with ⟨_, _, _, _, h⟩ | ⟨_, _, _, h⟩ <;> rw [h]
  · exact runHasJob_issue ..
  · exact runHasJob_release ..

theorem runHasJob_onAnswer {C : Config} {j : Job} {a : StreamAnswer} {s t : State} (h : onAnswer C j a s = .next t) :
    RunHasJob t := by
  rcases onAnswer_next h with ⟨_, _, _, rfl⟩ | ⟨_, _, _, rfl⟩ | ⟨_, _, rfl⟩ | ⟨_, _, _, rfl⟩ | ⟨_, _, _, _, rfl⟩ |
    ⟨_, _, rfl⟩ | ⟨_, _, _, rfl⟩ | ⟨_, _, rfl⟩ | ⟨_, _, _, rfl⟩ | ⟨_, _, _, rfl⟩
  · exact runHasJob_issue ..
  · exact runHasJob_release ..
  · exact runHasJob_startCopy ..
  · exact runHasJob_release ..
  · exact runHasJob_copyChunk ..
  · exact runHasJob_release ..
  · exact runHasJob_release ..
  · exact runHasJob_issue ..
  · exact runHasJob_release ..
  · exact runHasJob_release ..

theorem runHasJob_runJob {C : Config} {s t : State} (hs : RunHasJob s) (h : runJob C s = .next t) : RunHasJob t :=
  serve_invariant (P := RunHasJob) (fun _ _ _ _ _ _ _ ha => runHasJob_onAnswer ha) hs h

/-! ## Going on with later answers -/

/-- A command that still runs has used up the answers in store (log 2). -/
theorem serve_waiting {C : Config} {as : List StreamAnswer} {s t : State} (ha : s.answers = as) (hj : t.job ≠ none)
    (h : serve C as s = .next t) : t.answers = [] := by
  induction as generalizing s with
  | nil => cases h; exact ha
  | cons a as ih =>
    rcases hs : s.job with _ | j
    · rw [serve_no_job C _ hs] at h; cases h; exact absurd hs hj
    · rw [serve_cons C a as hs] at h
      rcases ho : onAnswer C j a (takeAnswer a as s) with u | f | r <;> rw [ho] at h
      · obtain ⟨-, -, -, hu, -⟩ := same_onAnswer ho
        exact ih hu h
      · cases h
      · cases h

/-- Later answers given to a command that waits, and the same answers in store from the start. -/
theorem runJob_later {C : Config} {s u : State} (hs : RunHasJob s) (h : runJob C s = .next u) (hu : u.phase = .run)
    (bs : List StreamAnswer) (is : List Input) :
    runJob C (withOutside (s.answers ++ bs) is s) = serviceAnswers C bs { u with inputs := is } := by
  have hj : u.job ≠ none := (runHasJob_runJob hs h).resolve_right fun hn => hn hu
  have ha : u.answers = [] := serve_waiting rfl hj h
  calc runJob C (withOutside (s.answers ++ bs) is s)
      = serve C (s.answers ++ bs) (withOutside (s.answers ++ bs) is s) := rfl
    _ = serve C bs (withOutside bs is u) := by
      rw [serve_append, show serve C s.answers (withOutside s.answers s.inputs s) = .next u from h]
      simp only [hj, if_false]
    _ = serviceAnswers C bs { u with inputs := is } := by
      rw [serviceAnswers, if_pos hu, ha]
      rfl

/-- A path command, its later answers in store from the start. -/
theorem ctrPath_later {C : Config} {dir : Dir} {s u : State} (hp : s.phase = .idle) (h : ctrPath C dir s = .next u)
    (hu : u.phase = .run) (bs : List StreamAnswer) (is : List Input) :
    ctrPath C dir (withOutside (s.answers ++ bs) is s) = serviceAnswers C bs { u with inputs := is } := by
  rw [ctrPath_idle C dir hp] at h
  rw [ctrPath_idle C dir (s := withOutside (s.answers ++ bs) is s) hp]
  exact runJob_later (runHasJob_issue ..) h hu bs is

/-- A handle command, its later answers in store from the start. -/
theorem ctrStrm_later {C : Config} {dir : Dir} {s u : State} (hp : s.phase = .idle) (h : ctrStrm C dir s = .next u)
    (hu : u.phase = .run) (bs : List StreamAnswer) (is : List Input) :
    ctrStrm C dir (withOutside (s.answers ++ bs) is s) = serviceAnswers C bs { u with inputs := is } := by
  have hb : startCopy ⟨.handle, dir, .read⟩ (accept (withOutside (s.answers ++ bs) is s)) =
      withOutside (s.answers ++ bs) is (startCopy ⟨.handle, dir, .read⟩ (accept s)) :=
    startCopy_withOutside _ is _ (accept s)
  obtain ⟨-, -, -, ha, -⟩ := same_startCopy ⟨.handle, dir, .read⟩ (accept s)
  rw [ctrStrm_idle C dir hp] at h
  rw [ctrStrm_idle C dir (s := withOutside (s.answers ++ bs) is s) hp, hb]
  split at h
  · cases h
  · rename_i hne
    refine (if_neg hne).trans ?_
    rw [← accept_answers s, ← ha]
    exact runJob_later (runHasJob_startCopy ..) h hu bs is

/-- A streaming command is a path or a handle command in one direction. -/
theorem IsStreaming.exec_eq {i : Instr} (hi : IsStreaming i) :
    ∃ dir, exec i = ctrPath Config.machine dir ∨ exec i = ctrStrm Config.machine dir := by
  simp only [IsStreaming, List.mem_cons, List.not_mem_nil, or_false] at hi
  rcases hi with rfl | rfl | rfl | rfl
  · exact ⟨.enc, .inl rfl⟩
  · exact ⟨.dec, .inl rfl⟩
  · exact ⟨.enc, .inr rfl⟩
  · exact ⟨.dec, .inr rfl⟩

/-- A running command that goes on takes no input. -/
theorem runJob_inputs {C : Config} {s t : State} (h : runJob C s = .next t) : t.inputs = s.inputs := by
  refine serve_invariant (P := fun u => u.inputs = s.inputs) ?_ rfl h
  rintro u v j a as hu - hv
  obtain ⟨-, -, hi, -⟩ := same_onAnswer hv
  exact hi.trans hu

/-- No command takes an input. -/
theorem exec_inputs {i : Instr} {s t : State} (h : exec i s = .next t) : t.inputs = s.inputs := by
  cases exec_next h with
  | rejected c hc hp ht => subst ht; rfl
  | ended e c p n hp hl ht => subst ht; rcases e with _ | _ | _ <;> rfl
  | output v c p n hp hl hv ht => subst ht; rfl
  | path dir hi hp ht => exact (runJob_inputs ht).trans rfl
  | handle dir hi hp ht =>
    obtain ⟨-, -, hin, -⟩ := same_startCopy ⟨.handle, dir, .read⟩ (accept s)
    exact (runJob_inputs ht).trans hin

/-- Settles O41: what waits has used up its answers, and serving the rest of a list is serving the list. -/
theorem lateAnswersChangeNothing : Obligations.LateAnswersChangeNothing := by
  rintro s u i _ bs rest hi hp rfl hin he hu
  have hui : u.inputs = .serviceAnswers bs :: rest := (exec_inputs he).trans hin
  rw [step_serviceAnswers hui]
  obtain ⟨dir, h | h⟩ := hi.exec_eq <;> rw [h] at he ⊢
  · exact (ctrPath_later hp he hu bs rest).symm
  · exact (ctrStrm_later hp he hu bs rest).symm

end Sys2Proof.Machine
end

section
/-! SUPPORT. What the buffer, INIT and `CTX_DROP` commands add to the record and leave unchanged. -/

namespace Sys2Proof.Machine

/-! ## The record of the primitive port -/

/-- Between `p` and `q` the record grew by primitive requests alone. -/
def Port.Grew (p q : Port) : Prop := ∃ ev, q.log = p.log ++ ev ∧ primEvents ev = ev

theorem Port.Grew.refl (p : Port) : p.Grew p := ⟨[], by simp, rfl⟩

theorem Port.Grew.trans {p q r : Port} (h : p.Grew q) (h' : q.Grew r) : p.Grew r := by
  obtain ⟨ev, hl, hp⟩ := h
  obtain ⟨ev', hl', hp'⟩ := h'
  exact ⟨ev ++ ev', by rw [hl', hl, List.append_assoc], by rw [primEvents_append, hp, hp']⟩

theorem Port.ask_grew {C : Config} {dir : Dir} {k : List Byte} {b : Block} {p q : Port} {x : Except Byte Block}
    (h : p.ask C dir k b = (x, q)) : p.Grew q := by
  obtain ⟨_ | ⟨_ | c, rest⟩, log⟩ := p <;> cases h <;> exact ⟨_, rfl, rfl⟩

theorem cbcEncBlocks_grew {C : Config} {k : List Byte} {ch : Block} {xs : List Block} {p q : Port}
    {r : Except Byte (List Block × Block)} (h : cbcEncBlocks C k ch xs p = (r, q)) : p.Grew q := by
  induction xs generalizing ch p q r with
  | nil => cases h; exact .refl p
  | cons x xs ih =>
    simp only [cbcEncBlocks] at h
    split at h
    · rename_i hask
      cases h; exact Port.ask_grew hask
    · rename_i hask
      split at h <;> rename_i hrest <;> cases h <;> exact (Port.ask_grew hask).trans (ih hrest)

theorem cbcDecBlocks_grew {C : Config} {k : List Byte} {ch : Block} {cs : List Block} {p q : Port}
    {r : Except Byte (List Block × Block)} (h : cbcDecBlocks C k ch cs p = (r, q)) : p.Grew q := by
  induction cs generalizing ch p q r with
  | nil => cases h; exact .refl p
  | cons c cs ih =>
    simp only [cbcDecBlocks] at h
    split at h
    · rename_i hask
      cases h; exact Port.ask_grew hask
    · rename_i hask
      split at h <;> rename_i hrest <;> cases h <;> exact (Port.ask_grew hask).trans (ih hrest)

theorem cbcBlocksOf_grew {C : Config} {c : Ctx} {xs : List Block} {p q : Port} {r : Except Byte (List Block × Block)}
    (h : cbcBlocksOf C c xs p = (r, q)) : p.Grew q := by
  unfold cbcBlocksOf at h
  split at h
  · exact cbcEncBlocks_grew h
  · exact cbcDecBlocks_grew h

theorem ksRefill_grew {C : Config} {c : Ctx} {p q : Port} {r : Except Byte Ctx} (h : ksRefill C c p = (r, q)) :
    p.Grew q := by
  unfold ksRefill at h
  split at h
  · cases h; exact .refl p
  · split at h <;> rename_i hask <;> cases h <;> exact Port.ask_grew hask

theorem ksXor_grew {C : Config} {c : Ctx} {d : List Byte} {p q : Port} {r : Except Byte (List Byte × Ctx)}
    (h : ksXor C c d p = (r, q)) : p.Grew q := by
  induction d generalizing c p q r with
  | nil => cases h; exact .refl p
  | cons x d ih =>
    simp only [ksXor] at h
    split at h
    · rename_i hfill
      cases h; exact ksRefill_grew hfill
    · rename_i hfill
      split at h <;> rename_i hrest <;> cases h <;> exact (ksRefill_grew hfill).trans (ih hrest)

/-! ## The record of a command -/

theorem decEnd_port (C : Config) (pp : List Byte) (s : State) : (decEnd C pp s).port = s.port := by
  unfold decEnd
  split <;> rfl

/-- What a buffer command adds to the record: primitive requests (`20_memory.md` R61, R78). -/
theorem IsBuffer.exec_grew {i : Instr} (hi : IsBuffer i) {s t : State} (hp : s.phase = .idle) (h : exec i s = .next t) :
    s.port.Grew t.port := by
  simp only [IsBuffer, List.mem_cons, List.not_mem_nil, or_false] at hi
  rcases hi with rfl | rfl | rfl | rfl
  · rcases cbcEnc_cases Config.machine hp with ⟨_, e⟩ | ⟨_, _, _, e⟩ | ⟨_, _, _, p, hx, e⟩ | ⟨_, _, _, _, p, hx, e⟩ <;>
      cases e.symm.trans h
    · exact .refl _
    · exact .refl _
    · exact cbcEncBlocks_grew hx
    · exact cbcEncBlocks_grew hx
  · rcases cbcDec_cases Config.machine hp with ⟨_, e⟩ | ⟨_, _, _, e⟩ | ⟨_, _, _, e⟩ | ⟨_, _, _, _, p, hx, e⟩ |
      ⟨_, _, _, _, _, p, hx, e⟩ <;> cases e.symm.trans h
    · exact .refl _
    · exact .refl _
    · exact .refl _
    · exact cbcDecBlocks_grew hx
    · rw [decEnd_port]; exact cbcDecBlocks_grew hx
  · rcases cbcBlocks_cases Config.machine hp with ⟨_, _, e⟩ | ⟨_, _, _, _, p, hx, e⟩ | ⟨_, _, _, _, _, p, hx, e⟩ <;>
      cases e.symm.trans h
    · exact .refl _
    · exact cbcBlocksOf_grew hx
    · exact cbcBlocksOf_grew hx
  · rcases ctrXor_cases Config.machine hp with ⟨_, _, e⟩ | ⟨_, _, _, p, hx, e⟩ | ⟨_, _, _, _, p, hx, e⟩ <;>
      cases e.symm.trans h
    · exact .refl _
    · exact ksXor_grew hx
    · exact ksXor_grew hx

/-- An INIT command or `CTX_DROP` makes no request and no draw (`20_memory.md` R61). -/
theorem exec_port_of_not_buffer {i : Instr} (hs : ¬ IsStreaming i) (hb : ¬ IsBuffer i) {s t : State} (hp : s.phase = .idle)
    (h : exec i s = .next t) : t.port = s.port ∧ t.draws = s.draws := by
  cases i with
  | cbcEnc | cbcDec | cbcBlocks | ctrXor => exact absurd (by simp [IsBuffer]) hb
  | ctrEncPath | ctrDecPath | ctrEncStrm | ctrDecStrm => exact absurd (by simp [IsStreaming]) hs
  | cbcInit dir => rcases cbcInit_cases dir hp with ⟨_, _, e⟩ | ⟨_, e⟩ <;> cases e.symm.trans h <;> exact ⟨rfl, rfl⟩
  | ctrInit => rcases ctrInit_cases hp with ⟨_, _, e⟩ | ⟨_, e⟩ <;> cases e.symm.trans h <;> exact ⟨rfl, rfl⟩
  | ctxDrop => cases (ctxDrop_idle hp).symm.trans h; exact ⟨rfl, rfl⟩

/-! ## The frame -/

theorem endCommand_sameAround (e : Ending) (s : State) : SameAround s (endCommand e s) := by
  rcases e with _ | _ | _ <;> simp [endCommand, SameAround, SameOperands]

/-- What a command that is not a streaming command leaves unchanged (`10_state.md` R23, `20_memory.md` R61). -/
theorem exec_sameAround {i : Instr} (hs : ¬ IsStreaming i) {s t : State} (h : exec i s = .next t) : SameAround s t := by
  cases exec_next h with
  | rejected c hc hp ht => subst ht; exact ⟨.refl s, rfl, rfl, rfl, rfl⟩
  | ended e c p n hp hl ht => subst ht; exact endCommand_sameAround e (bindCtx c (atWork p n s))
  | output v c p n hp hl hv ht =>
    subst ht; exact endCommand_sameAround .success (bindCtx c (putOutput v (atWork p n s)))
  | path dir hi hp ht => exact absurd hi.isStreaming hs
  | handle dir hi hp ht => exact absurd hi.isStreaming hs

/-- Once accepted, a command leaves no byte of `OBUF` at or above `OLEN` a value (R38, `44_system.md` R202; log 6). -/
theorem exec_obuf_above {i : Instr} (hs : ¬ IsStreaming i) {s t : State} (h : exec i s = .next t) (hr : t.rej = false)
    (a : Nat) (ha : t.olen.toNat ≤ a) : Memory.get t.obuf a = none := by
  cases exec_next h with
  | rejected c hc hp ht => subst ht; cases hr
  | ended e c p n hp hl ht => subst ht; rcases e with _ | _ | _ <;> rfl
  | output v c p n hp hl hv ht =>
    subst ht
    have holen : (putOutput v (atWork p n s)).olen.toNat = v.length :=
      putOutput_olen_toNat (hv.trans_lt (bufCap_lt s.params))
    exact (putOutput_holds v (atWork p n s) a).trans (List.getElem?_eq_none (holen ▸ ha))
  | path dir hi hp ht => exact absurd hi.isStreaming hs
  | handle dir hi hp ht => exact absurd hi.isStreaming hs

/-- What a command that is not a streaming command does at the primitive port, in any phase. -/
theorem exec_port {i : Instr} (hs : ¬ IsStreaming i) {s t : State} (h : exec i s = .next t) :
    s.port.Grew t.port ∧ (¬ IsBuffer i → t.port = s.port ∧ t.draws = s.draws) := by
  rcases hp : s.phase with _ | _ | _
  · by_cases hb : IsBuffer i
    · exact ⟨hb.exec_grew hp h, fun hn => absurd hb hn⟩
    · obtain ⟨hport, hdraws⟩ := exec_port_of_not_buffer hs hb hp h
      exact ⟨hport ▸ .refl _, fun _ => ⟨hport, hdraws⟩⟩
  · rw [exec_run i hp] at h; cases h
  · rw [exec_fatal i hp] at h; cases h; exact ⟨.refl _, fun _ => ⟨rfl, rfl⟩⟩

/-- Settles O44, by how each command ends and what it adds to the record. -/
theorem bufferCommandFrame : Obligations.BufferCommandFrame := by
  intro i s t hs h
  obtain ⟨hgrew, hsame⟩ := exec_port hs h
  refine ⟨exec_sameAround hs h, hgrew, fun hb => ?_, exec_obuf_above hs h⟩
  obtain ⟨hport, hdraws⟩ := hsame hb
  exact ⟨congrArg Port.log hport, congrArg Port.plan hport, hdraws⟩

end Sys2Proof.Machine
end

section
/-! SUPPORT. The decoder and the encoder: the fields of a word and the word of the fields, which fields decode to what, and
what a step does with a command word in `IDLE` (`30_encoding.md`). -/

namespace Sys2Proof

/-! ## Words and fields -/

/-- Bit `j` of the word of the fields (`30_encoding.md` R90). -/
theorem CommandFields.toWord_bit (f : CommandFields) (j : Nat) :
    f.toWord.getLsbD j = if j < 8 then f.opc.getLsbD j else if j = 8 then f.dir else f.rsv.getLsbD (j - 9) := by
  have h : f.toWord.getLsbD j = if j < 8 then f.opc.getLsbD j else
      if j - 8 < 1 then (BitVec.ofBool f.dir).getLsbD (j - 8) else f.rsv.getLsbD (j - 8 - 1) := by
    unfold toWord
    iterate 2 refine BitVec.getLsbD_append.trans ?_; congr 1
  rw [h]
  obtain hj | rfl | hj : j < 8 ∨ j = 8 ∨ 8 < j := by omega
  · rw [if_pos hj, if_pos hj]
  · simp
  · rw [if_neg (by omega), if_neg (by omega), if_neg (by omega), if_neg (by omega), Nat.sub_sub]

@[simp] theorem CommandFields.ofWord_toWord (f : CommandFields) : ofWord f.toWord = f := by
  obtain ⟨opc, dir, rsv⟩ := f
  simp only [ofWord, mk.injEq]
  refine ⟨BitVec.eq_of_getLsbD_eq fun j hj => ?_, toWord_bit _ 8, BitVec.eq_of_getLsbD_eq fun j hj => ?_⟩
  · simp [toWord_bit, hj]
  · simp [toWord_bit, hj, show ¬ 9 + j < 8 by omega, show 9 + j ≠ 8 by omega]

@[simp] theorem CommandFields.toWord_ofWord (w : Word) : (ofWord w).toWord = w := by
  refine BitVec.eq_of_getLsbD_eq fun j hj => ?_
  rw [toWord_bit]
  obtain h | rfl | h : j < 8 ∨ j = 8 ∨ 8 < j := by omega
  · simp [ofWord, h]
  · simp [ofWord]
  · simp [ofWord, show ¬ j < 8 by omega, show j ≠ 8 by omega, show j - 9 < 23 by omega, show 9 + (j - 9) = j by omega]

theorem CommandFields.ofWord_eq_iff {w : Word} {f : CommandFields} : ofWord w = f ↔ w = f.toWord :=
  ⟨fun h => h ▸ (toWord_ofWord w).symm, fun h => h ▸ ofWord_toWord f⟩

/-! ## The opcode table -/

/-- The command an opcode names has that opcode, and only `CBC_INIT` looks at `DIR` (`30_encoding.md` R93). -/
theorem commandOf_eq_some_iff {opc : BitVec 8} {dir : Bool} {i : Instr} :
    commandOf opc dir = some i ↔ i.opcode = opc ∧ (opc = 0x03#8 → i = .cbcInit dir) := by
  constructor
  · intro h
    unfold commandOf at h
    split at h
    case h_3 hopc => cases h; exact ⟨BitVec.eq_of_toNat_eq hopc.symm, fun _ => rfl⟩
    case h_12 => cases h
    all_goals
      rename_i hopc
      cases h
      exact ⟨BitVec.eq_of_toNat_eq hopc.symm, fun h3 => absurd (h3 ▸ hopc) (by decide)⟩
  · rintro ⟨rfl, h⟩
    cases i with
    | cbcInit d => rw [h rfl]; rfl
    | _ => rfl

/-- The opcodes of the table (`30_encoding.md` R93, R94). -/
def tableOpcodes : List (BitVec 8) :=
  [0x01#8, 0x02#8, 0x03#8, 0x04#8, 0x05#8, 0x06#8, 0x07#8, 0x08#8, 0x09#8, 0x0A#8, 0x0B#8]

theorem mem_tableOpcodes_iff {opc : BitVec 8} : opc ∈ tableOpcodes ↔ ∃ i : Instr, i.opcode = opc := by
  constructor
  · intro h
    simp only [tableOpcodes, List.mem_cons, List.not_mem_nil, or_false] at h
    rcases h with rfl | rfl | rfl | rfl | rfl | rfl | rfl | rfl | rfl | rfl | rfl
    exacts [⟨.cbcEnc, rfl⟩, ⟨.cbcDec, rfl⟩, ⟨.cbcInit false, rfl⟩, ⟨.cbcBlocks, rfl⟩, ⟨.ctrInit, rfl⟩, ⟨.ctrXor, rfl⟩,
      ⟨.ctxDrop, rfl⟩, ⟨.ctrEncPath, rfl⟩, ⟨.ctrDecPath, rfl⟩, ⟨.ctrEncStrm, rfl⟩, ⟨.ctrDecStrm, rfl⟩]
  · rintro ⟨i, rfl⟩
    cases i <;> simp [tableOpcodes, Instr.opcode]

theorem commandOf_eq_none {opc : BitVec 8} (dir : Bool) (h : opc ∉ tableOpcodes) : commandOf opc dir = none :=
  Option.eq_none_iff_forall_ne_some.mpr fun i hi =>
    h (mem_tableOpcodes_iff.mpr ⟨i, (commandOf_eq_some_iff.mp hi).1⟩)

theorem exists_commandOf {opc : BitVec 8} (dir : Bool) (h : opc ∈ tableOpcodes) : ∃ i, commandOf opc dir = some i := by
  obtain ⟨i, hi⟩ := mem_tableOpcodes_iff.mp h
  by_cases h3 : opc = 0x03#8
  · exact ⟨.cbcInit dir, commandOf_eq_some_iff.mpr ⟨h3.symm, fun _ => rfl⟩⟩
  · exact ⟨i, commandOf_eq_some_iff.mpr ⟨hi, fun h => absurd h h3⟩⟩

/-- Only the two commands of `CBC_INIT` share an opcode. -/
theorem Instr.eq_of_opcode {i j : Instr} (h : j.opcode = i.opcode) (h3 : i.opcode ≠ 0x03#8) : j = i := by
  have hj : commandOf i.opcode false = some j := commandOf_eq_some_iff.mpr ⟨h, fun h => absurd h h3⟩
  have hi : commandOf i.opcode false = some i := commandOf_eq_some_iff.mpr ⟨rfl, fun h => absurd h h3⟩
  exact Option.some.inj (hj.symm.trans hi)

theorem Instr.opcode_of_dirBit {i : Instr} (h : i.dirBit = true) : i.opcode = 0x03#8 := by
  cases i with
  | cbcInit d => rfl
  | _ => cases h

theorem Instr.eq_cbcInit_dirBit {i : Instr} (h : i.opcode = 0x03#8) : i = .cbcInit i.dirBit := by
  cases i with
  | cbcInit d => rfl
  | _ => cases h

/-! ## The three outcomes of decoding -/

/-- `RSV ≠ 0`, or `DIR = 1` outside `CBC_INIT` (`30_encoding.md` R91). -/
def CommandFields.ReservedSet (f : CommandFields) : Prop := f.rsv ≠ 0#23 ∨ (f.dir = true ∧ f.opc ≠ 0x03#8)

theorem decodeFields_illegalOpcode {f : CommandFields} (h : f.opc ∉ tableOpcodes) :
    decodeFields f = .error .illegalOpcode := by
  rw [decodeFields, commandOf_eq_none f.dir h]

/-- Fields with a legal opcode: the reserved bits decide. -/
theorem decodeFields_of_commandOf {f : CommandFields} {i : Instr} (h : commandOf f.opc f.dir = some i) :
    (f.ReservedSet → decodeFields f = .error .reservedBits) ∧ (¬ f.ReservedSet → decodeFields f = .ok i) := by
  simp only [decodeFields, h, CommandFields.ReservedSet]
  by_cases hr : f.rsv = 0#23
  · by_cases hd : f.dir = true ∧ f.opc ≠ 0x03#8 <;> simp [hr, hd]
  · simp [hr]

theorem decodeFields_reservedBits {f : CommandFields} (ho : f.opc ∈ tableOpcodes) (h : f.ReservedSet) :
    decodeFields f = .error .reservedBits := by
  obtain ⟨i, hi⟩ := exists_commandOf f.dir ho
  exact (decodeFields_of_commandOf hi).1 h

theorem decodeFields_eq_ok_iff {f : CommandFields} {i : Instr} :
    decodeFields f = .ok i ↔ commandOf f.opc f.dir = some i ∧ ¬ f.ReservedSet := by
  constructor
  · intro h
    rcases hc : commandOf f.opc f.dir with _ | j
    · simp [decodeFields, hc] at h
    · obtain ⟨hset, hclear⟩ := decodeFields_of_commandOf hc
      by_cases hr : f.ReservedSet
      · cases (hset hr).symm.trans h
      · cases (hclear hr).symm.trans h
        exact ⟨rfl, hr⟩
  · rintro ⟨hc, hr⟩
    exact (decodeFields_of_commandOf hc).2 hr

/-! ## Decoding inverts encoding -/

/-- The fields of a command's word name it and have no reserved bit set, and no other fields do so. -/
theorem eq_fields_iff {f : CommandFields} {i : Instr} :
    f = i.fields ↔ commandOf f.opc f.dir = some i ∧ ¬ f.ReservedSet := by
  constructor
  · rintro rfl
    refine ⟨commandOf_eq_some_iff.mpr ⟨rfl, Instr.eq_cbcInit_dirBit⟩, ?_⟩
    rintro (hr | ⟨hd, ho⟩)
    · exact hr rfl
    · exact ho (Instr.opcode_of_dirBit hd)
  · rintro ⟨hc, hr⟩
    obtain ⟨hopc, hinit⟩ := commandOf_eq_some_iff.mp hc
    obtain ⟨hrsv, hdir⟩ := not_or.mp hr
    have hbit : f.dir = i.dirBit := by
      by_cases h3 : f.opc = 0x03#8
      · rw [hinit h3]; rfl
      · rw [Bool.eq_false_iff.mpr fun hd => hdir ⟨hd, h3⟩,
          Bool.eq_false_iff.mpr fun hb => h3 (hopc ▸ Instr.opcode_of_dirBit hb)]
    obtain ⟨opc, dir, rsv⟩ := f
    simp only [Instr.fields, CommandFields.mk.injEq]
    exact ⟨hopc.symm, hbit, not_not.mp hrsv⟩

/-- Settles O2: the word and its fields determine each other, and the fields decode to the command whose fields they are. -/
theorem decodeInvertsEncode : Obligations.DecodeInvertsEncode := by
  intro w i
  calc decode w = .ok i
    _ ↔ CommandFields.ofWord w = i.fields := decodeFields_eq_ok_iff.trans eq_fields_iff.symm
    _ ↔ w = encode i := CommandFields.ofWord_eq_iff

/-! ## The words of the table -/

/-- The row of `CBC_INIT` leaves bit 8 open: it takes the words of both directions (`30_encoding.md` R93). -/
theorem and_cbcInit_rowMask_iff (w : Word) :
    w &&& 0xFFFFFEFF#32 = 0x00000003#32 ↔ ∃ dir, w = encode (.cbcInit dir) := by
  constructor
  · intro h
    have hw : w = w &&& 0xFFFFFEFF#32 ||| w &&& BitVec.twoPow 32 8 := by
      rw [← BitVec.and_or_distrib_left]
      exact (BitVec.and_allOnes).symm
    rw [h, BitVec.and_twoPow] at hw
    refine ⟨w.getLsbD 8, hw.trans ?_⟩
    rcases w.getLsbD 8 <;> rfl
  · rintro ⟨_ | _, rfl⟩ <;> rfl

/-- A row of any other command takes the command's word alone. -/
theorem row_of_not_cbcInit {i : Instr} (h : i.opcode ≠ 0x03#8) :
    i.rowMask = BitVec.allOnes 32 ∧ i.rowMatch = encode i := by
  cases i with
  | cbcInit d => exact absurd rfl h
  | _ => exact ⟨rfl, rfl⟩

/-- A word is in a command's row exactly when it is the word of a command of that opcode. -/
theorem matchesRow_iff (w : Word) (i : Instr) :
    w &&& i.rowMask = i.rowMatch ↔ ∃ j : Instr, w = encode j ∧ j.opcode = i.opcode := by
  by_cases h : i.opcode = 0x03#8
  · rw [Instr.eq_cbcInit_dirBit h]
    refine (and_cbcInit_rowMask_iff w).trans ⟨fun ⟨dir, hw⟩ => ⟨_, hw, rfl⟩, fun ⟨j, hw, hj⟩ => ⟨j.dirBit, ?_⟩⟩
    rwa [← Instr.eq_cbcInit_dirBit hj]
  · obtain ⟨hmask, hmatch⟩ := row_of_not_cbcInit h
    rw [hmask, hmatch, BitVec.and_allOnes]
    exact ⟨fun hw => ⟨i, hw, rfl⟩, fun ⟨j, hw, hj⟩ => Instr.eq_of_opcode hj h ▸ hw⟩

/-- A word is in a command's row exactly when it decodes to a command of that opcode (`30_encoding.md` R93). -/
theorem matchesRow_iff_decode (w : Word) (i : Instr) :
    w &&& i.rowMask = i.rowMatch ↔ ∃ j, decode w = .ok j ∧ j.opcode = i.opcode := by
  simp only [matchesRow_iff, decodeInvertsEncode w]

/-- Settles O1: a row's words are the encodings of its commands, and a word decodes to one command only. -/
theorem opcodeTableRows : Obligations.OpcodeTableRows := by
  refine ⟨by decide, matchesRow_iff_decode, fun w i j hi hj => ?_, (decodeInvertsEncode _ _).mpr rfl,
    (decodeInvertsEncode _ _).mpr rfl⟩
  obtain ⟨i', hwi, hoi⟩ := (matchesRow_iff_decode w i).mp hi
  obtain ⟨j', hwj, hoj⟩ := (matchesRow_iff_decode w j).mp hj
  cases hwi.symm.trans hwj
  exact hoi.symm.trans hoj

/-- Settles O4: the words are encodings of their commands, or have the fields the decoder refuses. -/
theorem decodesWrittenWords : Obligations.DecodesWrittenWords := by
  refine ⟨?_, ?_, ?_, ?_, ?_, ?_, decodeFields_illegalOpcode (by decide), decodeFields_illegalOpcode (by decide),
    decodeFields_reservedBits (by decide) (.inr (by decide)), decodeFields_reservedBits (by decide) (.inl (by decide)),
    decodeFields_illegalOpcode (by decide)⟩
  all_goals exact (decodeInvertsEncode _ _).mpr rfl

/-! ## A step that takes a command word in `IDLE` -/

namespace Machine

theorem nextInput_commandInput {C : Config} {s : State} {w : Word} {rest : List Input} (hp : s.phase ≠ .run)
    (h : s.inputs = commandInput w :: rest) : nextInput C s = .command w { s with inputs := rest } := by
  rw [nextInput_cons C h, commandInput, takeInput, if_neg hp]
  rfl

theorem presented_of_decode_error {s : State} {w : Word} {e : DecodeError} (hp : s.phase ≠ .fatal)
    (h : decode w = .error e) : presented s w = .error (decodeCause e) := by
  simp [presented, hp, h]

theorem presented_of_decode_ok {s : State} {w : Word} {i : Instr} (hp : s.phase ≠ .fatal)
    (h : decode w = .ok i) : presented s w = .ok i := by
  simp [presented, hp, h]

/-- A word that spells no command is rejected for the reason decoding gives. -/
theorem step_of_decode_error {s : State} {w : Word} {e : DecodeError} {rest : List Input} (hp : s.phase = .idle)
    (h : s.inputs = commandInput w :: rest) (hd : decode w = .error e) :
    step s = .next (reject (decodeCause e) { s with inputs := rest }) := by
  have hc := presented_of_decode_error (s := { s with inputs := rest }) (by simp [hp]) hd
  rw [step, nextInput_commandInput (by simp [hp]) h]
  simp only [hc]

/-- A word that spells a command runs it. -/
theorem step_of_decode_ok {s : State} {w : Word} {i : Instr} {rest : List Input} (hp : s.phase = .idle)
    (h : s.inputs = commandInput w :: rest) (hd : decode w = .ok i) : step s = exec i { s with inputs := rest } := by
  have hc := presented_of_decode_ok (s := { s with inputs := rest }) (by simp [hp]) hd
  rw [step, nextInput_commandInput (by simp [hp]) h]
  simp only [hc]

/-- Settles O3: each outcome of decoding, with what the step makes of it. -/
theorem decodeThreeOutcomes : Obligations.DecodeThreeOutcomes := by
  intro s w rest hp hin
  refine ⟨fun ho => ?_, fun ho hr => ?_, fun ho hr => ?_⟩
  · exact step_of_decode_error hp hin (decodeFields_illegalOpcode ho)
  · exact step_of_decode_error hp hin (decodeFields_reservedBits ho hr)
  · obtain ⟨i, hi⟩ := exists_commandOf (CommandFields.ofWord w).dir ho
    obtain ⟨hopc, hinit⟩ := commandOf_eq_some_iff.mp hi
    exact ⟨i, hopc, hinit, step_of_decode_ok hp hin (decodeFields_eq_ok_iff.mpr ⟨hi, hr⟩)⟩

end Machine

end Sys2Proof
end

section
/-! SUPPORT. The validator: how each command that takes a key ends when an operand length is illegal. -/

namespace Sys2Proof.Machine

/-! ## An illegal length -/

/-- A key length other than the three legal ones fails first (`40_validator_padding.md` R120, R123). -/
theorem validate_of_keyLength_illegal {s : State} (h : keyLengthLegal s.klen = false) :
    validate s = .error .invalidKeyLength := by
  simp [validate, h]

/-- An illegal IV length fails once the key length is legal (R121, R123). -/
theorem validate_of_ivLength_illegal {s : State} (hk : keyLengthLegal s.klen = true)
    (hi : ivLengthLegal s.ivlen = false) : validate s = .error .invalidIvLength := by
  simp [validate, hk, hi]

/-- An accepted command that ends with a typed error before any request: what it reports and leaves
unchanged. -/
theorem endCommand_error_accept (e : TypedError) (s : State) :
    (endCommand (.error e) (accept s)).Raised e ∧ SameAround s (endCommand (.error e) (accept s)) ∧
      (endCommand (.error e) (accept s)).ctx = s.ctx ∧ (endCommand (.error e) (accept s)).log = s.log ∧
      (endCommand (.error e) (accept s)).primPlan = s.primPlan :=
  ⟨(stillRunning_accept s).raised e, endCommand_sameAround _ (accept s), rfl, rfl, rfl⟩

section

variable {s : State} {e : TypedError} (hp : s.phase = .idle) (he : validate s = .error e)
include hp he

/-- `CBC_ENC` raises the validator's error before it looks at its input (`41_cbc.md` R144). -/
theorem cbcEnc_of_validate_error (C : Config) (hr : s.InRange) :
    cbcEnc C s = .next (endCommand (.error e) (accept s)) := by
  rw [cbcEnc, whenIdle_of_idle hp, whenInRange_of hr]
  simp only [validate_accept, he, endCommand]

/-- `CBC_DEC` raises the validator's error before it looks at its input (R146). -/
theorem cbcDec_of_validate_error (C : Config) (hr : s.InRange) :
    cbcDec C s = .next (endCommand (.error e) (accept s)) := by
  rw [cbcDec, whenIdle_of_idle hp, whenInRange_of hr]
  simp only [validate_accept, he, endCommand]

/-- `CBC_INIT` raises the validator's error and empties the slot (R151, `60_exceptions.md` R225). -/
theorem cbcInit_of_validate_error (dir : Bool) :
    cbcInit dir s = .next (dropCtx (endCommand (.error e) (accept s))) := by
  rw [cbcInit, whenIdle_of_idle hp]
  simp only [validate_accept, he, endCommand]

/-- `CTR_INIT` raises the validator's error and empties the slot (`42_ctr.md` R166, R225). -/
theorem ctrInit_of_validate_error : ctrInit s = .next (dropCtx (endCommand (.error e) (accept s))) := by
  rw [ctrInit, whenIdle_of_idle hp]
  simp only [validate_accept, he, endCommand]

/-- A handle command raises the validator's error before its first request (`43_streaming.md` R189). -/
theorem ctrStrm_of_validate_error (C : Config) (dir : Dir) :
    ctrStrm C dir s = .next (endCommand (.error e) (accept s)) := by
  have hstart : startCopy ⟨.handle, dir, .read⟩ (accept s) = release ⟨.handle, dir, .read⟩ (.error e) (accept s) :=
    startCopy_error he
  rw [ctrStrm_idle C dir hp, hstart, if_neg, runJob_release_none C (.inl rfl)]
  rintro ⟨hj, -⟩
  cases hj

/-- A path command raises the validator's error once it has opened both objects, and closes both (R184, R185). -/
theorem ctrPath_of_validate_error (C : Config) (dir : Dir) {more : List StreamAnswer} (hne : s.srcId ≠ s.dstId)
    (ha : s.answers = [.ok, .ok, .ack, .ack] ++ more) :
    ctrPath C dir s = .next (endCommand (.error e) (closedBoth more (pathOpened dir (.ack :: .ack :: more) s))) := by
  have hstart : startCopy ⟨.path, dir, .createTrunc⟩ (pathOpened dir (.ack :: .ack :: more) s) =
      release ⟨.path, dir, .createTrunc⟩ (.error e) (pathOpened dir (.ack :: .ack :: more) s) :=
    startCopy_error he
  rw [ctrPath_opened C dir hp hne (rest := .ack :: .ack :: more) ha, hstart,
    runJob_release_both C rfl rfl rfl]

theorem exec_cbcEnc_cbcDec_of_validate_error {i : Instr} (hi : i ∈ [Instr.cbcEnc, .cbcDec]) (hr : s.InRange) :
    ∃ t, exec i s = .next t ∧ t.Raised e ∧ SameAround s t ∧ t.ctx = s.ctx ∧ t.log = s.log ∧ t.primPlan = s.primPlan := by
  refine ⟨endCommand (.error e) (accept s), ?_, endCommand_error_accept e s⟩
  simp only [List.mem_cons, List.not_mem_nil, or_false] at hi
  rcases hi with rfl | rfl
  · exact cbcEnc_of_validate_error hp he _ hr
  · exact cbcDec_of_validate_error hp he _ hr

theorem exec_init_of_validate_error {i : Instr} (hi : i ∈ [Instr.cbcInit true, .cbcInit false, .ctrInit]) :
    ∃ t, exec i s = .next t ∧ t.Raised e ∧ SameAround s t ∧ t.ctx = Ctx.empty ∧ t.log = s.log ∧
      t.primPlan = s.primPlan := by
  obtain ⟨hraised, hframe, -, hlog, hplan⟩ := endCommand_error_accept e s
  refine ⟨dropCtx (endCommand (.error e) (accept s)), ?_, hraised, hframe, rfl, hlog, hplan⟩
  simp only [List.mem_cons, List.not_mem_nil, or_false] at hi
  rcases hi with rfl | rfl | rfl
  · exact cbcInit_of_validate_error hp he true
  · exact cbcInit_of_validate_error hp he false
  · exact ctrInit_of_validate_error hp he

theorem exec_handle_of_validate_error {i : Instr} (hi : IsHandle i) :
    ∃ t, exec i s = .next t ∧ t.Raised e ∧ SameAround s t ∧ t.ctx = s.ctx ∧ t.log = s.log ∧ t.primPlan = s.primPlan := by
  refine ⟨endCommand (.error e) (accept s), ?_, endCommand_error_accept e s⟩
  simp only [IsHandle, List.mem_cons, List.not_mem_nil, or_false] at hi
  rcases hi with rfl | rfl
  · exact ctrStrm_of_validate_error hp he _ .enc
  · exact ctrStrm_of_validate_error hp he _ .dec

theorem exec_path_of_validate_error {i : Instr} {more : List StreamAnswer} (hi : IsPath i) (hne : s.srcId ≠ s.dstId)
    (ha : s.answers = [.ok, .ok, .ack, .ack] ++ more) :
    ∃ t, exec i s = .next t ∧ t.Raised e ∧ t.primPlan = s.primPlan ∧
      StreamEnd s t [.openRd s.srcId, .createTrunc s.dstId, .close s.dstId, .close s.srcId] more := by
  obtain ⟨dir, hexec⟩ : ∃ dir, exec i = ctrPath Config.machine dir := by
    simp only [IsPath, List.mem_cons, List.not_mem_nil, or_false] at hi
    rcases hi with rfl | rfl
    · exact ⟨.enc, rfl⟩
    · exact ⟨.dec, rfl⟩
  have hrun : StillRunning s (closedBoth more (pathOpened dir (.ack :: .ack :: more) s)) :=
    (stillRunning_pathOpened dir _ s).closedBoth more
  refine ⟨_, hexec ▸ ctrPath_of_validate_error hp he _ dir hne ha, hrun.raised e, rfl,
    hrun.streamEnd (.error e) rfl rfl rfl (List.append_assoc ..) rfl⟩

end

/-- Settles O10: the validator's first test, and how each kind of command ends when it fails. -/
theorem invalidKeyLengthRaised : Obligations.InvalidKeyLengthRaised := by
  intro s hp _ h16 h24 h32
  have he : validate s = .error .invalidKeyLength :=
    validate_of_keyLength_illegal (by simp [keyLengthLegal, h16, h24, h32])
  exact ⟨fun _ => exec_cbcEnc_cbcDec_of_validate_error hp he, fun _ => exec_init_of_validate_error hp he,
    fun _ => exec_handle_of_validate_error hp he, fun _ _ => exec_path_of_validate_error hp he⟩

/-- Settles O11: the validator's second test, and how each kind of command ends when it fails. -/
theorem invalidIvLengthRaised : Obligations.InvalidIvLengthRaised := by
  intro s hp _ hk h0 h16
  have he : validate s = .error .invalidIvLength :=
    validate_of_ivLength_illegal hk (by simp [ivLengthLegal, h0, h16])
  exact ⟨fun _ => exec_cbcEnc_cbcDec_of_validate_error hp he, fun _ => exec_init_of_validate_error hp he,
    fun _ => exec_handle_of_validate_error hp he, fun _ _ => exec_path_of_validate_error hp he⟩

end Sys2Proof.Machine
end

section
/-! SUPPORT. What `IV` and `IVLEN` hold matters to a command through the validator's answer alone. -/

namespace Sys2Proof.Machine

/-! ## Another `IV` that validates alike -/

/-- The state with another `IV` and its `IVLEN` changed by `w`. -/
def withIv (v : Block) (w : Word → Word) (s : State) : State := { s with iv := v, ivlen := w s.ivlen }

/-- With equal operands the validator answers alike. -/
theorem SameOperands.validate_eq {s t : State} (h : SameOperands s t) : validate t = validate s := by
  obtain ⟨hparams, hkey, hklen, hiv, hivlen, -⟩ := h
  simp only [validate, State.keyOperand, State.ivOperand, hparams, hkey, hklen, hiv, hivlen]

theorem SameOperands.withIv {s t : State} (h : SameOperands s t) (v : Block) (w : Word → Word) :
    SameOperands (withIv v w s) (withIv v w t) := by
  obtain ⟨hparams, hkey, hklen, -, hivlen, hilen, hsrc, hdst, hibuf⟩ := h
  exact ⟨hparams, hkey, hklen, rfl, congrArg w hivlen, hilen, hsrc, hdst, hibuf⟩

/-- `IV` and `IVLEN` replaced by contents that validate alike: an operation that changes no operand keeps this. -/
theorem validate_withIv_of_sameOperands {v : Block} {w : Word → Word} {s t : State} (h : SameOperands s t)
    (hv : validate (withIv v w s) = validate s) : validate (withIv v w t) = validate t :=
  (h.withIv v w).validate_eq.trans (hv.trans h.validate_eq.symm)

section

variable {v : Block} {w : Word → Word}

@[simp] theorem withIv_params (s : State) : (withIv v w s).params = s.params := rfl
@[simp] theorem withIv_ilen (s : State) : (withIv v w s).ilen = s.ilen := rfl
@[simp] theorem withIv_srcId (s : State) : (withIv v w s).srcId = s.srcId := rfl
@[simp] theorem withIv_dstId (s : State) : (withIv v w s).dstId = s.dstId := rfl
@[simp] theorem withIv_ctx (s : State) : (withIv v w s).ctx = s.ctx := rfl
@[simp] theorem withIv_phase (s : State) : (withIv v w s).phase = s.phase := rfl
@[simp] theorem withIv_scratch (s : State) : (withIv v w s).scratch = s.scratch := rfl
@[simp] theorem withIv_srcOpen (s : State) : (withIv v w s).srcOpen = s.srcOpen := rfl
@[simp] theorem withIv_dstOpen (s : State) : (withIv v w s).dstOpen = s.dstOpen := rfl
@[simp] theorem withIv_job (s : State) : (withIv v w s).job = s.job := rfl
@[simp] theorem port_withIv (s : State) : (withIv v w s).port = s.port := rfl
@[simp] theorem input_withIv (C : Config) (s : State) : (withIv v w s).input C = s.input C := rfl
theorem accept_withIv (s : State) : accept (withIv v w s) = withIv v w (accept s) := rfl

/-! ## The guards -/

theorem whenIdle_withIv {s : State} {k : State → Result} (h : k (withIv v w s) = mapNext (withIv v w) (k s)) :
    whenIdle (withIv v w s) k = mapNext (withIv v w) (whenIdle s k) := by
  unfold whenIdle
  rw [withIv_phase]
  rcases s.phase with _ | _ | _
  · exact h
  · rfl
  · rfl

theorem whenInRange_withIv {s : State} {k : State → Result} (h : k (withIv v w s) = mapNext (withIv v w) (k s)) :
    whenInRange (withIv v w s) k = mapNext (withIv v w) (whenInRange s k) := by
  by_cases hr : s.InRange
  · rw [whenInRange_of hr, whenInRange_of (s := withIv v w s) hr, h]
  · rw [whenInRange_of_not hr, whenInRange_of_not (s := withIv v w s) hr]
    rfl

/-! ## The buffer commands and the INIT commands -/

theorem cbcEnc_withIv (C : Config) {s : State} (h : validate (withIv v w s) = validate s) :
    cbcEnc C (withIv v w s) = mapNext (withIv v w) (cbcEnc C s) := by
  refine whenIdle_withIv (whenInRange_withIv ?_)
  simp only [validate_accept, h]
  rcases validate s with e | ⟨k, iv⟩
  · rfl
  · simp only [accept_withIv, input_withIv, port_withIv]
    rcases cbcEncBlocks C k iv _ (accept s).port with ⟨_ | ⟨c, _⟩, p⟩ <;> rfl

theorem cbcDec_withIv (C : Config) {s : State} (h : validate (withIv v w s) = validate s) :
    cbcDec C (withIv v w s) = mapNext (withIv v w) (cbcDec C s) := by
  refine whenIdle_withIv (whenInRange_withIv ?_)
  simp only [validate_accept, h]
  rcases validate s with e | ⟨k, iv⟩
  · rfl
  · dsimp only
    rw [accept_withIv, withIv_ilen, input_withIv, port_withIv]
    split
    · rfl
    · rcases cbcDecBlocks C k iv _ (accept s).port with ⟨_ | ⟨x, _⟩, p⟩
      · rfl
      · dsimp only
        rcases unpad (ofBlocks x) with _ | _ | _ <;> rfl

theorem cbcInit_withIv (dir : Bool) {s : State} (h : validate (withIv v w s) = validate s) :
    cbcInit dir (withIv v w s) = mapNext (withIv v w) (cbcInit dir s) := by
  refine whenIdle_withIv ?_
  simp only [validate_accept, h]
  rcases validate s with e | ⟨k, iv⟩ <;> rfl

theorem ctrInit_withIv {s : State} (h : validate (withIv v w s) = validate s) :
    ctrInit (withIv v w s) = mapNext (withIv v w) (ctrInit s) := by
  refine whenIdle_withIv ?_
  simp only [validate_accept, h]
  rcases validate s with e | ⟨k, iv⟩ <;> rfl

theorem cbcBlocks_withIv (C : Config) (s : State) :
    cbcBlocks C (withIv v w s) = mapNext (withIv v w) (cbcBlocks C s) := by
  refine whenIdle_withIv (whenInRange_withIv ?_)
  rw [withIv_ctx, withIv_ilen]
  split
  · rfl
  · split
    · rfl
    · simp only [accept_withIv, withIv_ctx, withIv_ilen, input_withIv, port_withIv]
      rcases cbcBlocksOf C (accept s).ctx _ (accept s).port with ⟨_ | ⟨y, ch⟩, p⟩ <;> rfl

theorem ctrXor_withIv (C : Config) (s : State) :
    ctrXor C (withIv v w s) = mapNext (withIv v w) (ctrXor C s) := by
  refine whenIdle_withIv (whenInRange_withIv ?_)
  rw [withIv_ctx]
  split
  · rfl
  · simp only [accept_withIv, withIv_ctx, input_withIv, port_withIv]
    rcases ksXor C (accept s).ctx _ (accept s).port with ⟨_ | ⟨e, c⟩, p⟩ <;> rfl

theorem ctxDrop_withIv (s : State) : ctxDrop (withIv v w s) = mapNext (withIv v w) (ctxDrop s) :=
  whenIdle_withIv rfl

/-! ## The streaming commands -/

theorem release_withIv (j : Job) (e : Ending) (s : State) :
    release j e (withIv v w s) = withIv v w (release j e s) := by
  unfold release
  rw [withIv_dstOpen, withIv_srcOpen]
  split
  · rfl
  · split
    · rfl
    · rcases e with _ | _ | _ <;> rfl

theorem startCopy_withIv (j : Job) {s : State} (h : validate (withIv v w s) = validate s) :
    startCopy j (withIv v w s) = withIv v w (startCopy j s) := by
  unfold startCopy
  rw [h]
  rcases validate s with e | ⟨k, iv⟩
  · exact release_withIv ..
  · rfl

theorem copyChunk_withIv (C : Config) (j : Job) (d : List Byte) (s : State) :
    copyChunk C j d (withIv v w s) = withIv v w (copyChunk C j d s) := by
  unfold copyChunk
  rw [withIv_scratch, port_withIv]
  rcases ksXor C s.scratch d s.port with ⟨code | ⟨e, c⟩, p⟩
  · exact release_withIv j _ (putPort p s)
  · rfl

theorem onAnswer_withIv (C : Config) (j : Job) (a : StreamAnswer) {s : State}
    (h : validate (withIv v w s) = validate s) :
    onAnswer C j a (withIv v w s) = mapNext (withIv v w) (onAnswer C j a s) := by
  have hstart : startCopy j (setDstOpen true (withIv v w s)) = withIv v w (startCopy j (setDstOpen true s)) :=
    startCopy_withIv j (s := setDstOpen true s) h
  obtain ⟨shape, dir, await⟩ := j
  unfold onAnswer
  rw [withIv_srcId, withIv_dstId, withIv_params]
  rcases await with _ | _ | _ | _ | e <;> rcases a with _ | d | _ | c | _ <;>
    simp only [mapNext, release_withIv, copyChunk_withIv, hstart]
  case openRd.ok => split <;> rfl
  case read.data => split <;> rfl
  case write.ok => rfl

theorem serve_withIv (C : Config) (as : List StreamAnswer) {s : State} (h : validate (withIv v w s) = validate s) :
    serve C as (withIv v w s) = mapNext (withIv v w) (serve C as s) := by
  induction as generalizing s with
  | nil => rfl
  | cons a as ih =>
    rcases hj : s.job with _ | j
    · rw [serve_no_job C _ hj, serve_no_job C _ (s := withIv v w s) hj]
      rfl
    · have hstep : onAnswer C j a (takeAnswer a as (withIv v w s)) =
          mapNext (withIv v w) (onAnswer C j a (takeAnswer a as s)) :=
        onAnswer_withIv C j a (s := takeAnswer a as s) h
      rw [serve_cons C a as hj, serve_cons C a as (s := withIv v w s) hj, hstep]
      rcases ho : onAnswer C j a (takeAnswer a as s) with t | f | r
      · obtain ⟨hsame, -⟩ := same_onAnswer ho
        exact ih (validate_withIv_of_sameOperands hsame h)
      · rfl
      · rfl

theorem ctrPath_withIv (C : Config) (dir : Dir) {s : State} (h : validate (withIv v w s) = validate s) :
    ctrPath C dir (withIv v w s) = mapNext (withIv v w) (ctrPath C dir s) :=
  whenIdle_withIv
    (serve_withIv C s.answers (s := issue ⟨.path, dir, .openRd⟩ .openRd (.openRd s.srcId) (accept s)) h)

theorem ctrStrm_withIv (C : Config) (dir : Dir) {s : State} (h : validate (withIv v w s) = validate s) :
    ctrStrm C dir (withIv v w s) = mapNext (withIv v w) (ctrStrm C dir s) := by
  refine whenIdle_withIv ?_
  have hstart : startCopy ⟨.handle, dir, .read⟩ (accept (withIv v w s)) =
      withIv v w (startCopy ⟨.handle, dir, .read⟩ (accept s)) := startCopy_withIv _ (s := accept s) h
  obtain ⟨hsame, -⟩ := startCopy_frame ⟨.handle, dir, .read⟩ (accept s)
  simp only [hstart, withIv_srcId, withIv_dstId, withIv_job]
  split
  · rfl
  · exact serve_withIv C _ (validate_withIv_of_sameOperands hsame h)

/-- A command does the same with an `IV` and an `IVLEN` that validate alike. -/
theorem exec_withIv (i : Instr) {s : State} (h : validate (withIv v w s) = validate s) :
    exec i (withIv v w s) = mapNext (withIv v w) (exec i s) := by
  cases i with
  | cbcEnc => exact cbcEnc_withIv _ h
  | cbcDec => exact cbcDec_withIv _ h
  | cbcInit dir => exact cbcInit_withIv dir h
  | cbcBlocks => exact cbcBlocks_withIv _ s
  | ctrInit => exact ctrInit_withIv h
  | ctrXor => exact ctrXor_withIv _ s
  | ctxDrop => exact ctxDrop_withIv s
  | ctrEncPath => exact ctrPath_withIv _ .enc h
  | ctrDecPath => exact ctrPath_withIv _ .dec h
  | ctrEncStrm => exact ctrStrm_withIv _ .enc h
  | ctrDecStrm => exact ctrStrm_withIv _ .dec h

end

/-! ## An empty IV -/

/-- With `IVLEN = 0` the validator does not look at `IV` (`40_validator_padding.md` R122). -/
theorem validate_withIv_of_empty (v : Block) {s : State} (h : s.ivlen = 0#32) :
    validate (withIv v id s) = validate s := by
  simp [validate, withIv, ivLengthLegal, State.keyOperand, State.ivOperand, h]

/-- `IVLEN = 0` validates as `IVLEN = 16` with `DEFAULT_IV` in `IV` (R122). -/
theorem validate_withIv_default {s : State} (h : s.ivlen = 0#32) :
    validate (withIv s.params.defaultIv (fun _ => 16#32) s) = validate s := by
  simp [validate, withIv, ivLengthLegal, State.keyOperand, State.ivOperand, h]

/-- Settles O12: both replacements of `IV` validate alike. -/
theorem emptyIvSelectsDefault : Obligations.EmptyIvSelectsDefault := fun i _ v h =>
  ⟨exec_withIv i (validate_withIv_of_empty v h), exec_withIv i (validate_withIv_default h)⟩

end Sys2Proof.Machine
end

section
/-! SUPPORT. The padding codec: the last byte `Pad` writes and what `Unpad` makes of a last byte. -/

namespace Sys2Proof.Machine

/-- The last byte of a padded sequence is the padding length (`40_validator_padding.md` R125). -/
theorem pad_getLast? (b : List Byte) : (pad b).getLast? = some (BitVec.ofNat 8 (padLen b.length)) := by
  have hpos : padLen b.length ≠ 0 := Nat.ne_of_gt (padLen_bounds b.length).1
  simp [pad, List.getLast?_append, List.getLast?_replicate, hpos]

/-- The padding length fits the byte that holds it. -/
theorem toNat_ofNat_padLen (n : Nat) : (BitVec.ofNat 8 (padLen n)).toNat = padLen n := by
  rw [BitVec.toNat_ofNat]
  exact Nat.mod_eq_of_lt ((padLen_bounds n).2.trans_lt (by decide))

/-- `Unpad` looks at the last byte alone (R126, R127). -/
theorem unpad_of_getLast? {b : List Byte} {n : Byte} (h : b.getLast? = some n) :
    unpad b = if b.length < n.toNat then .paddingError else .ok (b.take (b.length - n.toNat)) := by
  simp only [unpad, h, gt_iff_lt]

/-- `Unpad` undoes `Pad` (R129). -/
theorem unpad_pad (b : List Byte) : unpad (pad b) = .ok b := by
  have hlen : (pad b).length = b.length + padLen b.length := by simp [pad]
  rw [unpad_of_getLast? (pad_getLast? b), toNat_ofNat_padLen, hlen, if_neg (by omega), Nat.add_sub_cancel, pad,
    List.take_left]

/-- Settles O13: `Pad` by its definition and its last byte, `Unpad` by the last byte. -/
theorem paddingCodec : Obligations.PaddingCodec := by
  refine ⟨fun b => ?_, fun b n => ?_⟩
  · obtain ⟨hge, hle⟩ := padLen_bounds b.length
    exact ⟨rfl, pad_length b, pad_getLast? b, hge, hle⟩
  · rw [unpad_of_getLast? List.getLast?_concat, List.length_append, List.length_singleton]
    exact ⟨fun h => if_pos h, fun h => if_neg (Nat.not_lt.2 h)⟩

/-- Settles O14: the padding of the empty sequence is not the one byte 1, which `Unpad` makes empty. -/
theorem unpadUndoesPad : Obligations.UnpadUndoesPad :=
  ⟨unpad_pad, [1], [], by decide, by decide⟩

end Sys2Proof.Machine
end

section
/-! SUPPORT. The CBC commands and `CTR_XOR`, accepted and with operands in order: how each ends, by what its requests on the
primitive port gave. -/

namespace Sys2Proof.Machine

/-! ## What CBC makes of a byte sequence -/

/-- The chained encryption of `Pad(x)` (`41_cbc.md` R141, R144). -/
def cbcEncrypted (C : Config) (k : List Byte) (iv : Block) (x : List Byte) : List Byte :=
  ofBlocks (chainEnc (blockCipher C .enc k) iv (toBlocks ((pad x).length / 16) (pad x)))

/-- The chained decryption of the whole blocks of `x` (R142, R146). -/
def cbcDecrypted (C : Config) (k : List Byte) (iv : Block) (x : List Byte) : List Byte :=
  ofBlocks (chainDec (blockCipher C .dec k) iv (toBlocks (x.length / 16) x))

theorem pad_length_div (x : List Byte) : (pad x).length / 16 = x.length / 16 + 1 := by
  rw [pad_length]; omega

theorem cbcEncrypted_length (C : Config) (k : List Byte) (iv : Block) (x : List Byte) :
    (cbcEncrypted C k iv x).length = 16 * (x.length / 16 + 1) := by
  rw [cbcEncrypted, ofBlocks_length, chainEnc_length, toBlocks_length, pad_length_div]

theorem cbcDecrypted_length (C : Config) (k : List Byte) (iv : Block) {x : List Byte} (h : x.length % 16 = 0) :
    (cbcDecrypted C k iv x).length = x.length := by
  rw [cbcDecrypted, ofBlocks_length, chainDec_length, toBlocks_length]; omega

/-- Decryption undoes encryption, up to the padding (R149). -/
theorem cbcDecrypted_cbcEncrypted (C : Config) (k : List Byte) (iv : Block) (x : List Byte) :
    cbcDecrypted C k iv (cbcEncrypted C k iv x) = pad x := by
  have hblocks := toBlocks_ofBlocks (chainEnc (blockCipher C .enc k) iv (toBlocks (x.length / 16 + 1) (pad x)))
  rw [chainEnc_length, toBlocks_length] at hblocks
  rw [cbcDecrypted, cbcEncrypted_length, Nat.mul_div_cancel_left _ (by decide), cbcEncrypted, pad_length_div, hblocks,
    chainDec_chainEnc (blockCipher_dec_enc C k), ofBlocks_toBlocks (pad_length x)]

/-! ## The two ends of a buffer command that made its requests -/

/-- A buffer command that ended with success: its output `v`, the context `c` it left, its port `p` after the requests. -/
def bufferDone (c : Ctx) (v : List Byte) (p : Port) (s : State) : State :=
  endCommand .success (bindCtx c (putOutput v (putPort p (drawn (accept s)))))

/-- A buffer command that ended without an output, its port `p` after the requests. -/
def bufferStopped (e : Ending) (p : Port) (s : State) : State := endCommand e (putPort p (drawn (accept s)))

theorem bufferDone_succeeded (c : Ctx) (v : List Byte) (p : Port) (s : State) : (bufferDone c v p s).Succeeded :=
  ⟨rfl, rfl, rfl, rfl, rfl, rfl, rfl, rfl, rfl⟩

theorem bufferDone_sameAround (c : Ctx) (v : List Byte) (p : Port) (s : State) : SameAround s (bufferDone c v p s) := by
  simp [bufferDone, endCommand, SameAround, SameOperands]

theorem bufferDone_holds (c : Ctx) (v : List Byte) (p : Port) (s : State) : (bufferDone c v p s).obuf.HoldsExactly v :=
  putOutput_holds v (putPort p (drawn (accept s)))

/-- Stated for any context: a check by `rfl` with `s.ctx` for `c` would compare `s` with the state the command ends in,
field by field. -/
theorem bufferDone_ctx (c : Ctx) (v : List Byte) (p : Port) (s : State) : (bufferDone c v p s).ctx = c := rfl

theorem bufferDone_neverFaults (c : Ctx) (v : List Byte) {p : Port} (h : p.NeverFaults) (s : State) :
    PrimNeverFaults (bufferDone c v p s) := h

theorem bufferDone_params (c : Ctx) (v : List Byte) (p : Port) (s : State) : (bufferDone c v p s).params = s.params := by
  simp [bufferDone, endCommand]

theorem bufferDone_log (c : Ctx) (v : List Byte) (p : Port) (s : State) : (bufferDone c v p s).log = p.log := rfl

theorem bufferDone_olen (c : Ctx) (v : List Byte) (p : Port) (s : State) :
    (bufferDone c v p s).olen = BitVec.ofNat 32 v.length := rfl

theorem bufferDone_olen_toNat (c : Ctx) {v : List Byte} (p : Port) {s : State} (h : v.length ≤ s.params.obufCap) :
    (bufferDone c v p s).olen.toNat = v.length :=
  putOutput_olen_toNat (s := putPort p (drawn (accept s))) (h.trans_lt (bufCap_lt s.params))

/-- A buffer command that has made its draw and its requests has changed nothing else since acceptance. -/
theorem stillRunning_drawn (p : Port) (s : State) : StillRunning (drawn s) (putPort p (drawn (accept s))) :=
  (stillRunning_accept (drawn s)).putPort p

theorem bufferStopped_sameAround (e : Ending) (p : Port) (s : State) : SameAround s (bufferStopped e p s) := by
  rcases e with _ | _ | _ <;> simp [bufferStopped, endCommand, SameAround, SameOperands]

theorem bufferStopped_raised (e : TypedError) (p : Port) (s : State) : (bufferStopped (.error e) p s).Raised e :=
  (stillRunning_drawn p s).raised e

theorem bufferStopped_wentFatal (p : Port) (s : State) : (bufferStopped .fatal p s).WentFatal :=
  (stillRunning_drawn p s).wentFatal

theorem bufferStopped_ctx (e : Ending) (p : Port) (s : State) : (bufferStopped e p s).ctx = s.ctx := by
  rcases e with _ | _ | _ <;> rfl

theorem bufferStopped_log (e : Ending) (p : Port) (s : State) : (bufferStopped e p s).log = p.log := by
  rcases e with _ | _ | _ <;> rfl

theorem bufferStopped_primPlan (e : Ending) (p : Port) (s : State) : (bufferStopped e p s).primPlan = p.plan := by
  rcases e with _ | _ | _ <;> rfl

/-! ## `CBC_ENC` -/

/-- How `CBC_ENC` ends, by what its blocks gave (`41_cbc.md` R144, R157). -/
def cbcEncEnd (s : State) : Except Byte (List Block × Block) × Port → State
  | (.error _, p) => bufferStopped .fatal p s
  | (.ok (c, _), p) => bufferDone s.ctx (ofBlocks c) p s

section

variable {s : State} (hp : s.phase = .idle) (hr : s.InRange)
include hp hr

theorem cbcEnc_blocks (C : Config) (hv : s.Validates) :
    cbcEnc C s = .next (cbcEncEnd s (cbcEncBlocks C s.keyOperand s.ivOperand
      (toBlocks (s.ilen.toNat / 16 + 1) (pad (s.input C))) s.port)) := by
  rcases cbcEnc_cases C hp with ⟨hn, -⟩ | ⟨-, _, he, -⟩ | ⟨-, -, code, p, hx, e⟩ | ⟨-, -, c, ch, p, hx, e⟩
  · exact absurd hr hn
  · rw [validate_of hv] at he; cases he
  · rw [hx]; exact e
  · rw [hx]; exact e

/-- With good answers `CBC_ENC` puts out the chained encryption of the padded input. -/
theorem cbcEnc_good (C : Config) (hv : s.Validates) (hg : s.port.GoodFor (s.ilen.toNat / 16 + 1)) :
    ∃ ev, cbcEnc C s = .next (bufferDone s.ctx (cbcEncrypted C s.keyOperand s.ivOperand (s.input C))
        (s.port.after (s.ilen.toNat / 16 + 1) ev) s) ∧
      PrimEvents C (s.ilen.toNat / 16 + 1) .enc s.keyOperand ev := by
  obtain ⟨ev, e, hev⟩ := cbcEncBlocks_good C s.keyOperand s.ivOperand
    (toBlocks (s.ilen.toNat / 16 + 1) (pad (s.input C))) (p := s.port) (by rwa [toBlocks_length])
  rw [toBlocks_length] at e hev
  exact ⟨ev, by rw [cbcEnc_blocks hp hr C hv, e, cbcEncrypted, pad_length_div, input_length]; rfl, hev⟩

end

/-! ## `CBC_DEC` -/

/-- How `CBC_DEC` ends, by what its blocks gave (R146, R157). -/
def cbcDecEnd (C : Config) (s : State) : Except Byte (List Block × Block) × Port → State
  | (.error code, p) => bufferStopped (.error (faultError (C.primKind code))) p s
  | (.ok (x, _), p) => decEnd C (ofBlocks x) (putPort p (drawn (accept s)))

section

variable {s : State} (hp : s.phase = .idle) (hr : s.InRange) (hv : s.Validates)
include hp hr hv

/-- `CBC_DEC` on a length that is no whole number of blocks makes no request (R147). -/
theorem cbcDec_notFullBlocks (C : Config) (hm : s.ilen.toNat % 16 ≠ 0) :
    cbcDec C s = .next (endCommand (.error .cipherKeyError) (accept s)) := by
  rcases cbcDec_cases C hp with ⟨hn, -⟩ | ⟨-, _, he, -⟩ | ⟨-, -, -, e⟩ | ⟨-, -, h, -⟩ | ⟨-, -, h, -⟩
  · exact absurd hr hn
  · rw [validate_of hv] at he; cases he
  · exact e
  · exact absurd h hm
  · exact absurd h hm

variable (hm : s.ilen.toNat % 16 = 0)
include hm

theorem cbcDec_blocks (C : Config) :
    cbcDec C s = .next (cbcDecEnd C s (cbcDecBlocks C s.keyOperand s.ivOperand
      (toBlocks (s.ilen.toNat / 16) (s.input C)) s.port)) := by
  rcases cbcDec_cases C hp with ⟨hn, -⟩ | ⟨-, _, he, -⟩ | ⟨-, -, h, -⟩ | ⟨-, -, -, code, p, hx, e⟩ |
    ⟨-, -, -, x, ch, p, hx, e⟩
  · exact absurd hr hn
  · rw [validate_of hv] at he; cases he
  · exact absurd hm h
  · rw [hx]; exact e
  · rw [hx]; exact e

/-- With good answers `CBC_DEC` ends as the padding of the chained decryption has it. -/
theorem cbcDec_good (C : Config) (hg : s.port.GoodFor (s.ilen.toNat / 16)) :
    ∃ ev, cbcDec C s = .next (decEnd C (cbcDecrypted C s.keyOperand s.ivOperand (s.input C))
        (putPort (s.port.after (s.ilen.toNat / 16) ev) (drawn (accept s)))) ∧
      PrimEvents C (s.ilen.toNat / 16) .dec s.keyOperand ev := by
  obtain ⟨ev, e, hev⟩ := cbcDecBlocks_good C s.keyOperand s.ivOperand (toBlocks (s.ilen.toNat / 16) (s.input C))
    (p := s.port) (by rwa [toBlocks_length])
  rw [toBlocks_length] at e hev
  exact ⟨ev, by rw [cbcDec_blocks hp hr hv hm C, e, cbcDecrypted, input_length]; rfl, hev⟩

theorem cbcDec_of_unpad_ok (C : Config) (hg : s.port.GoodFor (s.ilen.toNat / 16)) {b : List Byte}
    (hu : unpad (cbcDecrypted C s.keyOperand s.ivOperand (s.input C)) = .ok b) :
    ∃ ev, cbcDec C s = .next (bufferDone s.ctx b (s.port.after (s.ilen.toNat / 16) ev) s) ∧
      PrimEvents C (s.ilen.toNat / 16) .dec s.keyOperand ev := by
  obtain ⟨ev, e, hev⟩ := cbcDec_good hp hr hv hm C hg
  rw [decEnd, hu] at e
  exact ⟨ev, e, hev⟩

theorem cbcDec_of_unpad_paddingError (C : Config) (hg : s.port.GoodFor (s.ilen.toNat / 16))
    (hu : unpad (cbcDecrypted C s.keyOperand s.ivOperand (s.input C)) = .paddingError) :
    ∃ ev, cbcDec C s = .next (bufferStopped (.error .paddingError) (s.port.after (s.ilen.toNat / 16) ev) s) ∧
      PrimEvents C (s.ilen.toNat / 16) .dec s.keyOperand ev := by
  obtain ⟨ev, e, hev⟩ := cbcDec_good hp hr hv hm C hg
  rw [decEnd, hu] at e
  exact ⟨ev, e, hev⟩

end

/-! ## `CBC_BLOCKS` -/

/-- The direction of a bound CBC context (`41_cbc.md` R153). -/
def Ctx.cbcDir (c : Ctx) : Dir := if c.kind = .cbcE then .enc else .dec

/-- What a bound CBC context makes of blocks when the primitive answers `ok` (R141, R142). -/
def Ctx.cbcOut (C : Config) (c : Ctx) (x : List Block) : List Block :=
  if c.kind = .cbcE then chainEnc (blockCipher C .enc c.boundKey) c.chain x
  else chainDec (blockCipher C .dec c.boundKey) c.chain x

/-- The context after those blocks: the chain is the last output block, or the last input block (R153). -/
def Ctx.cbcNext (C : Config) (c : Ctx) (x : List Block) : Ctx :=
  { c with chain := if c.kind = .cbcE then (c.cbcOut C x).getLastD c.chain else x.getLastD c.chain }

@[simp] theorem Ctx.cbcOut_length (C : Config) (c : Ctx) (x : List Block) : (c.cbcOut C x).length = x.length := by
  unfold Ctx.cbcOut
  split <;> simp

theorem cbcBlocksOf_good (C : Config) (c : Ctx) (x : List Block) {p : Port} (h : p.GoodFor x.length) :
    ∃ ev, cbcBlocksOf C c x p = (.ok (c.cbcOut C x, (c.cbcNext C x).chain), p.after x.length ev) ∧
      PrimEvents C x.length c.cbcDir c.boundKey ev := by
  unfold cbcBlocksOf Ctx.cbcNext Ctx.cbcOut Ctx.cbcDir
  by_cases hk : c.kind = .cbcE
  · simpa only [if_pos hk] using cbcEncBlocks_good C c.boundKey c.chain x h
  · simpa only [if_neg hk] using cbcDecBlocks_good C c.boundKey c.chain x h

/-- A fault at block `j` stops the blocks of a bound context there. -/
theorem cbcBlocksOf_fault (C : Config) (c : Ctx) (x : List Block) {p : Port} {j : Nat} {code : Byte}
    {rest : List PrimAnswer} (h : p.plan = List.replicate j .ok ++ .fault code :: rest) (hj : j < x.length) :
    ∃ ev b, cbcBlocksOf C c x p =
        (.error code, { plan := rest, log := p.log ++ ev ++ [.prim c.cbcDir c.boundKey b (.fault code)] }) ∧
      PrimEvents C j c.cbcDir c.boundKey ev := by
  unfold cbcBlocksOf Ctx.cbcDir
  by_cases hk : c.kind = .cbcE
  · simpa only [if_pos hk] using cbcEncBlocks_fault C c.boundKey c.chain x h hj
  · simpa only [if_neg hk] using cbcDecBlocks_fault C c.boundKey c.chain x h hj

/-- How `CBC_BLOCKS` ends, by what its blocks gave (R153, R157). -/
def cbcBlocksEnd (s : State) : Except Byte (List Block × Block) × Port → State
  | (.error _, p) => bufferStopped .fatal p s
  | (.ok (y, ch), p) => bufferDone { s.ctx with chain := ch } (ofBlocks y) p s

section

variable {s : State} (hp : s.phase = .idle) (hr : s.InRange) (hk : s.ctx.kind = .cbcE ∨ s.ctx.kind = .cbcD)
  (hm : s.ilen.toNat % 16 = 0)
include hp hr hk hm

theorem cbcBlocks_blocks (C : Config) :
    cbcBlocks C s = .next (cbcBlocksEnd s (cbcBlocksOf C s.ctx (toBlocks (s.ilen.toNat / 16) (s.input C)) s.port)) := by
  rw [cbcBlocks, whenIdle_of_idle hp, whenInRange_of hr, if_neg (by simp [s.ctx.isCbc_iff.2 hk]), if_neg (by simp [hm])]
  simp only [accept_ctx, accept_ilen, input_accept, port_accept]
  rcases cbcBlocksOf C s.ctx (toBlocks (s.ilen.toNat / 16) (s.input C)) s.port with ⟨_ | _, _⟩ <;> rfl

/-- With good answers `CBC_BLOCKS` puts out what the bound context makes of its blocks. -/
theorem cbcBlocks_good (C : Config) (hg : s.port.GoodFor (s.ilen.toNat / 16)) :
    ∃ ev, cbcBlocks C s = .next (bufferDone (s.ctx.cbcNext C (toBlocks (s.ilen.toNat / 16) (s.input C)))
        (ofBlocks (s.ctx.cbcOut C (toBlocks (s.ilen.toNat / 16) (s.input C)))) (s.port.after (s.ilen.toNat / 16) ev) s) ∧
      PrimEvents C (s.ilen.toNat / 16) s.ctx.cbcDir s.ctx.boundKey ev := by
  obtain ⟨ev, e, hev⟩ := cbcBlocksOf_good C s.ctx (toBlocks (s.ilen.toNat / 16) (s.input C)) (p := s.port)
    (by rwa [toBlocks_length])
  rw [toBlocks_length] at e hev
  exact ⟨ev, by rw [cbcBlocks_blocks hp hr hk hm C, e]; rfl, hev⟩

end

/-! ## `CBC_INIT` and `CTR_XOR` -/

/-- An INIT command that ended with success and bound `c` (`41_cbc.md` R150, `42_ctr.md` R165). -/
def initDone (c : Ctx) (s : State) : State := endCommand .success (bindCtx c (accept s))

theorem initDone_succeeded (c : Ctx) (s : State) : (initDone c s).Succeeded :=
  ⟨rfl, rfl, rfl, rfl, rfl, rfl, rfl, rfl, rfl⟩

theorem initDone_sameAround (c : Ctx) (s : State) : SameAround s (initDone c s) := by
  simp [initDone, endCommand, SameAround, SameOperands]

theorem initDone_ctx (c : Ctx) (s : State) : (initDone c s).ctx = c := rfl

theorem cbcInit_of_validates (dir : Bool) {s : State} (hp : s.phase = .idle) (hv : s.Validates) :
    cbcInit dir s = .next (initDone (Ctx.freshCbc dir s.keyOperand s.ivOperand) s) := by
  rcases cbcInit_cases dir hp with ⟨_, he, -⟩ | ⟨-, e⟩
  · rw [validate_of hv] at he; cases he
  · exact e

/-- How `CTR_XOR` ends, by what the keystream gave (`42_ctr.md` R168, R171). -/
def ctrXorEnd (s : State) : Except Byte (List Byte × Ctx) × Port → State
  | (.error _, p) => bufferStopped .fatal p s
  | (.ok (e, c), p) => bufferDone c e p s

theorem ctrXor_ksXor (C : Config) {s : State} (hp : s.phase = .idle) (hr : s.InRange) (hk : s.ctx.kind = .ctr) :
    ctrXor C s = .next (ctrXorEnd s (ksXor C s.ctx (s.input C) s.port)) := by
  rw [ctrXor, whenIdle_of_idle hp, whenInRange_of hr, if_neg (by simp [hk])]
  simp only [accept_ctx, input_accept, port_accept]
  rcases ksXor C s.ctx (s.input C) s.port with ⟨_ | _, _⟩ <;> rfl

end Sys2Proof.Machine
end

section
/-! SUPPORT. The CBC commands when the primitive answers `ok`: what they put out and leave bound. -/

namespace Sys2Proof.Machine

/-! ## Inputs -/

theorem ofNat_input_length (C : Config) (s : State) : BitVec.ofNat 32 (s.input C).length = s.ilen := by
  rw [input_length, BitVec.ofNat_toNat, BitVec.setWidth_eq]

/-- Bytes a memory holds from address 0 on are what a read there gives, whatever the draws. -/
theorem readBytes_of_get (C : Config) (n : Nat) {m : Memory} {bs : List Byte}
    (h : ∀ a, a < bs.length → Memory.get m a = bs[a]?) : readBytes C n m 0 bs.length = bs := by
  apply List.ext_getElem (by simp [readBytes])
  intro i h1 h2
  simp [readBytes, readByte, h i h2, h2]

theorem params_withInput (s : State) (x : List Byte) : (s.withInput x).params = s.params := by
  simp only [State.withInput]

theorem primNeverFaults_withInput {s : State} (h : PrimNeverFaults s) (x : List Byte) : PrimNeverFaults (s.withInput x) := by
  simpa only [PrimNeverFaults, State.withInput] using h

theorem validates_withInput {s : State} (h : s.Validates) (x : List Byte) : (s.withInput x).Validates := by
  simpa only [State.Validates, State.withInput] using h

theorem keyOperand_withInput (s : State) (x : List Byte) : (s.withInput x).keyOperand = s.keyOperand := by
  simp only [State.keyOperand, State.withInput]

theorem ivOperand_withInput (s : State) (x : List Byte) : (s.withInput x).ivOperand = s.ivOperand := by
  simp only [State.ivOperand, State.withInput]
  rfl

theorem withInput_ilen_toNat (s : State) {x : List Byte} (h : x.length ≤ s.params.bufCap) :
    (s.withInput x).ilen.toNat = x.length := by
  have := bufCap_lt s.params
  exact Nat.mod_eq_of_lt (by omega)

theorem withInput_inRange {s : State} {x : List Byte} (h : x.length ≤ s.params.bufCap) : (s.withInput x).InRange :=
  (withInput_ilen_toNat s h).trans_le h

theorem input_withInput (C : Config) (s : State) {x : List Byte} (h : x.length ≤ s.params.bufCap) :
    (s.withInput x).input C = x := by
  rw [State.input, withInput_ilen_toNat s h]
  exact readBytes_ofBytes C s.draws x

/-! ## `CBC_ENC` and `CBC_DEC` -/

/-- Settles O15: with good answers the blocks are the chain, one request a block. -/
theorem cbcEncEncrypts : Obligations.CbcEncEncrypts := by
  intro s hp hv hr hg
  obtain ⟨ev, e, hev⟩ := cbcEnc_good hp hr Config.machine hv ((State.port_neverFaults hg).good _)
  have hlen := cbcEncrypted_length Config.machine s.keyOperand s.ivOperand (s.input Config.machine)
  rw [input_length] at hlen
  refine ⟨_, ev, e, bufferDone_succeeded .., bufferDone_sameAround .., bufferDone_ctx .., bufferDone_holds _ _ _ _,
    bufferDone_olen_toNat _ _ (hlen.trans_le ?_), hlen, bufferDone_log .., hev⟩
  unfold State.InRange at hr
  rw [Params.obufCap]; omega

/-- The chained decryption a claim about `CBC_DEC` speaks of is that of its input. -/
theorem cbcDecrypted_inputBytes (s : State) :
    ofBlocks (chainDec s.decK s.ivOperand (toBlocks (s.ilen.toNat / 16) s.inputBytes)) =
      cbcDecrypted Config.machine s.keyOperand s.ivOperand s.inputBytes := by
  rw [cbcDecrypted, State.inputBytes, input_length, State.decK]

/-- What `Unpad` makes of the decrypted input, by its last byte (`40_validator_padding.md` R126). -/
theorem unpad_cbcDecrypted_input {s : State} (hm : s.ilen.toNat % 16 = 0) {n : Byte}
    (hn : (cbcDecrypted Config.machine s.keyOperand s.ivOperand s.inputBytes).getLast? = some n) :
    unpad (cbcDecrypted Config.machine s.keyOperand s.ivOperand s.inputBytes) =
      if s.ilen.toNat < n.toNat then .paddingError
      else .ok ((cbcDecrypted Config.machine s.keyOperand s.ivOperand s.inputBytes).take (s.ilen.toNat - n.toNat)) := by
  have hin : s.inputBytes.length = s.ilen.toNat := input_length Config.machine s
  rw [unpad_of_getLast? hn, cbcDecrypted_length _ _ _ (hin ▸ hm), hin]

/-- Settles O16: a last byte that does not exceed the length is taken off. -/
theorem cbcDecDecrypts : Obligations.CbcDecDecrypts := by
  intro s n hp hv hr hg hm
  dsimp only
  rw [cbcDecrypted_inputBytes]
  intro hn hle
  have hin : s.inputBytes.length = s.ilen.toNat := input_length Config.machine s
  have hu := unpad_cbcDecrypted_input hm hn
  rw [if_neg (Nat.not_lt.2 hle)] at hu
  obtain ⟨ev, e, hev⟩ := cbcDec_of_unpad_ok hp hr hv hm Config.machine ((State.port_neverFaults hg).good _) hu
  have hlen : ((cbcDecrypted Config.machine s.keyOperand s.ivOperand s.inputBytes).take
      (s.ilen.toNat - n.toNat)).length = s.ilen.toNat - n.toNat := by
    rw [List.length_take, cbcDecrypted_length _ _ _ (hin ▸ hm), hin, Nat.min_eq_left (Nat.sub_le ..)]
  refine ⟨_, ev, e, bufferDone_succeeded .., bufferDone_sameAround .., bufferDone_ctx .., bufferDone_holds _ _ _ _,
    (bufferDone_olen_toNat _ _ (hlen.trans_le ?_)).trans hlen, bufferDone_log .., hev⟩
  unfold State.InRange at hr
  rw [Params.obufCap]; omega

/-- `CBC_DEC` of no block makes no request and finds no last byte (`41_cbc.md` R147, `40_validator_padding.md` R128). -/
theorem cbcDec_empty (C : Config) {s : State} (hp : s.phase = .idle) (hv : s.Validates) (hr : s.InRange)
    (h0 : s.ilen.toNat = 0) :
    cbcDec C s = .next (bufferStopped (.error (faultError s.params.kindEmptyCt)) s.port s) := by
  rw [cbcDec_blocks hp hr hv (by omega) C, h0]
  rfl

/-- Settles O17: no request without whole blocks or without any; else the last byte decides. -/
theorem cbcDecOutcomes : Obligations.CbcDecOutcomes := by
  intro s hp hv hr
  dsimp only
  refine ⟨fun hm => ?_, fun h0 => ?_, fun n hg _ hm hn => ⟨fun hlt => ?_, fun hle => ?_⟩⟩
  · exact ⟨_, cbcDec_notFullBlocks hp hr hv _ hm, endCommand_error_accept .cipherKeyError s⟩
  · exact ⟨_, cbcDec_empty _ hp hv hr (congrArg BitVec.toNat h0), bufferStopped_raised .., bufferStopped_sameAround ..,
      bufferStopped_ctx .., bufferStopped_log .., bufferStopped_primPlan ..⟩
  · have hu := unpad_cbcDecrypted_input hm (cbcDecrypted_inputBytes s ▸ hn)
    rw [if_pos hlt] at hu
    obtain ⟨ev, e, -⟩ :=
      cbcDec_of_unpad_paddingError hp hr hv hm Config.machine ((State.port_neverFaults hg).good _) hu
    exact ⟨_, e, bufferStopped_raised .., bufferStopped_sameAround .., bufferStopped_ctx ..⟩
  · obtain ⟨t, ev, e, hs, ha, hc, -, ho, -⟩ := cbcDecDecrypts s n hp hv hr hg hm hn hle
    exact ⟨t, e, hs, ha, hc, ho⟩

/-- `CBC_DEC` of what its own operands encrypt `Pad(p)` to puts out `p` (R149). -/
theorem cbcDec_of_encrypted (C : Config) {s : State} (hp : s.phase = .idle) (hv : s.Validates) (hr : s.InRange)
    (hg : PrimNeverFaults s) {p : List Byte} (hin : s.input C = cbcEncrypted C s.keyOperand s.ivOperand p) :
    ∃ t, cbcDec C s = .next t ∧ t.Succeeded ∧ t.obuf.HoldsExactly p ∧ t.olen = BitVec.ofNat 32 p.length := by
  have hlen : s.ilen.toNat = 16 * (p.length / 16 + 1) := by rw [← input_length C, hin, cbcEncrypted_length]
  obtain ⟨ev, e, -⟩ := cbcDec_of_unpad_ok hp hr hv (by omega) C ((State.port_neverFaults hg).good _) (b := p)
    (by rw [hin, cbcDecrypted_cbcEncrypted, unpad_pad])
  exact ⟨_, e, bufferDone_succeeded .., bufferDone_holds _ _ _ _, rfl⟩

theorem SameOperands.validates {s t : State} (h : SameOperands s t) (hv : s.Validates) : t.Validates := by
  obtain ⟨-, -, hklen, -, hivlen, -⟩ := h
  rwa [State.Validates, hklen, hivlen]

theorem SameOperands.keyOperand_eq {s t : State} (h : SameOperands s t) : t.keyOperand = s.keyOperand := by
  obtain ⟨-, hkey, hklen, -⟩ := h
  rw [State.keyOperand, State.keyOperand, hkey, hklen]

theorem SameOperands.ivOperand_eq {s t : State} (h : SameOperands s t) : t.ivOperand = s.ivOperand := by
  obtain ⟨hparams, -, -, hiv, hivlen, -⟩ := h
  rw [State.ivOperand, State.ivOperand, hparams, hiv, hivlen]

/-- The state with its output as the next input, where `m` holds it. -/
def withOutputFed (m : Memory) (s : State) : State := { s with ibuf := m, ilen := s.olen }

@[simp] theorem withOutputFed_phase (m : Memory) (s : State) : (withOutputFed m s).phase = s.phase := rfl
@[simp] theorem withOutputFed_keyOperand (m : Memory) (s : State) : (withOutputFed m s).keyOperand = s.keyOperand := rfl
@[simp] theorem withOutputFed_ivOperand (m : Memory) (s : State) : (withOutputFed m s).ivOperand = s.ivOperand := rfl

/-- After `CBC_ENC` has put out the encrypted `Pad(p)`, `CBC_DEC` on that output gives `p` back (R149). -/
theorem cbcDec_after_cbcEnc (C : Config) {s : State} (hv : s.Validates) {p out : List Byte} {q : Port}
    (hq : q.NeverFaults) (hcap : out.length ≤ s.params.bufCap) {m : Memory}
    (hm : ∀ a, a < out.length → Memory.get m a = out[a]?)
    (hout : out = cbcEncrypted C s.keyOperand s.ivOperand p) :
    ∃ u, cbcDec C (withOutputFed m (bufferDone s.ctx out q s)) = .next u ∧ u.Succeeded ∧
      u.obuf.HoldsExactly p ∧ u.olen = BitVec.ofNat 32 p.length := by
  have holen := bufferDone_olen_toNat s.ctx q (hcap.trans (Nat.le_add_right _ 16))
  have hin : (withOutputFed m (bufferDone s.ctx out q s)).input C = out := by
    have hread := readBytes_of_get C (bufferDone s.ctx out q s).draws hm
    rwa [← holen] at hread
  obtain ⟨hsame, -⟩ := bufferDone_sameAround s.ctx out q s
  refine cbcDec_of_encrypted C (s := withOutputFed m (bufferDone s.ctx out q s)) (withOutputFed_phase ..) ?_
    ?_ hq ?_
  · exact hsame.validates hv
  · exact holen.trans_le hcap
  · rw [hin, withOutputFed_keyOperand, withOutputFed_ivOperand, hsame.keyOperand_eq, hsame.ivOperand_eq]; exact hout

/-- Settles O18: `CBC_DEC` meets the blocks of `Pad` encrypted with its own operands. -/
theorem cbcRoundTrip : Obligations.CbcRoundTrip := by
  intro s hp hv hcap hg
  have hin : s.inputBytes.length = s.ilen.toNat := input_length Config.machine s
  have hlen := cbcEncrypted_length Config.machine s.keyOperand s.ivOperand s.inputBytes
  rw [← pad_length] at hlen
  have hr : s.InRange := by
    rw [pad_length] at hcap
    rw [State.InRange]; omega
  obtain ⟨ev, e, -⟩ := cbcEnc_good hp hr Config.machine hv ((State.port_neverFaults hg).good _)
  refine ⟨_, _, e, bufferDone_succeeded .., bufferDone_holds _ _ _ _,
    bufferDone_olen_toNat _ _ ((hlen.trans_le hcap).trans (Nat.le_add_right _ 16)), fun m hm => ?_⟩
  obtain ⟨u, e', hs, ho, hl⟩ := cbcDec_after_cbcEnc Config.machine hv ((State.port_neverFaults hg).after _ ev)
    (hlen.trans_le hcap) hm rfl
  exact ⟨u, e', hs, ho, hl.trans (ofNat_input_length Config.machine s)⟩

end Sys2Proof.Machine
end

section
/-! SUPPORT. The CBC building block: what `CBC_INIT` binds, what `CBC_BLOCKS` puts out and leaves bound, and how both
compare to the one-shot commands. -/

namespace Sys2Proof.Machine

/-! ## `CBC_INIT` and one `CBC_BLOCKS` -/

/-- Settles O19: the slot holds a fresh context of the operands. -/
theorem cbcInitBinds : Obligations.CbcInitBinds := by
  intro s dir hp hv
  have hlen := keyOperand_length hv.1
  refine ⟨_, cbcInit_of_validates dir hp hv, initDone_succeeded .., initDone_sameAround .., rfl, rfl, rfl, rfl, rfl, ?_⟩
  rw [initDone_ctx]
  refine ⟨rfl, hlen, ?_, rfl, rfl, rfl, rfl⟩
  rw [← hlen]
  exact bytesOfList_pad (keyOperand_le s)

/-- Settles O21: with good answers the blocks are the chain of the bound direction, one request a block. -/
theorem cbcBlocksTransforms : Obligations.CbcBlocksTransforms := by
  intro s hp hr hk hm hg
  obtain ⟨ev, e, hev⟩ := cbcBlocks_good hp hr hk hm Config.machine ((State.port_neverFaults hg).good _)
  refine ⟨_, ev, e, bufferDone_succeeded .., bufferDone_sameAround .., bufferDone_ctx .., bufferDone_holds _ _ _ _, ?_,
    bufferDone_log .., hev⟩
  rw [bufferDone_olen, ofBlocks_length, Ctx.cbcOut_length, toBlocks_length, Nat.mul_div_cancel' (Nat.dvd_of_mod_eq_zero hm),
    BitVec.ofNat_toNat, BitVec.setWidth_eq]

/-! ## Inputs in two parts -/

theorem getLastD_append {α : Type} (xs ys : List α) (a : α) : (xs ++ ys).getLastD a = ys.getLastD (xs.getLastD a) := by
  rcases List.eq_nil_or_concat ys with rfl | ⟨zs, z, rfl⟩
  · simp
  · rw [List.concat_eq_append, ← List.append_assoc, List.getLastD_concat, List.getLastD_concat]

/-- Blocks in two parts: the second part goes through the context the first left (`41_cbc.md` R154). -/
theorem Ctx.cbcOut_append (C : Config) (c : Ctx) (xs ys : List Block) :
    c.cbcOut C (xs ++ ys) = c.cbcOut C xs ++ (c.cbcNext C xs).cbcOut C ys := by
  unfold Ctx.cbcNext Ctx.cbcOut
  by_cases hk : c.kind = .cbcE
  · simp only [if_pos hk, chainEnc_append]; rfl
  · simp only [if_neg hk, chainDec_append]; rfl

theorem Ctx.cbcNext_append (C : Config) (c : Ctx) (xs ys : List Block) :
    c.cbcNext C (xs ++ ys) = (c.cbcNext C xs).cbcNext C ys := by
  have hout := Ctx.cbcOut_append C c xs ys
  unfold Ctx.cbcNext at *
  by_cases hk : c.kind = .cbcE
  · simp only [if_pos hk, hout, getLastD_append]
  · simp only [if_neg hk, getLastD_append]

/-- `CBC_BLOCKS` on whole blocks `x` loaded into `IBUF`, with good answers. -/
theorem cbcBlocks_withInput (C : Config) {s : State} (hp : s.phase = .idle) (hk : s.ctx.kind = .cbcE ∨ s.ctx.kind = .cbcD)
    (hg : PrimNeverFaults s) {x : List Byte} (hm : x.length % 16 = 0) (hcap : x.length ≤ s.params.bufCap) :
    ∃ t, cbcBlocks C (s.withInput x) = .next t ∧ t.Succeeded ∧ t.params = s.params ∧ PrimNeverFaults t ∧
      t.ctx = s.ctx.cbcNext C (toBlocks (x.length / 16) x) ∧
      t.obuf.HoldsExactly (ofBlocks (s.ctx.cbcOut C (toBlocks (x.length / 16) x))) ∧ t.olen = BitVec.ofNat 32 x.length := by
  have hlen := withInput_ilen_toNat s hcap
  have hgood := State.port_neverFaults (primNeverFaults_withInput hg x)
  obtain ⟨ev, e, -⟩ := cbcBlocks_good (s := s.withInput x) hp (withInput_inRange hcap) hk (hlen ▸ hm) C
    (hgood.good _)
  rw [hlen, input_withInput C s hcap] at e
  refine ⟨_, e, bufferDone_succeeded .., (bufferDone_params ..).trans (params_withInput s x),
    bufferDone_neverFaults _ _ (hgood.after _ _) _, bufferDone_ctx .., bufferDone_holds _ _ _ _, ?_⟩
  rw [bufferDone_olen, ofBlocks_length, Ctx.cbcOut_length, toBlocks_length, Nat.mul_div_cancel' (Nat.dvd_of_mod_eq_zero hm)]

/-- The whole blocks of two sequences joined. -/
theorem toBlocks_append_whole {x₁ x₂ : List Byte} (hm₁ : x₁.length % 16 = 0) :
    toBlocks ((x₁ ++ x₂).length / 16) (x₁ ++ x₂) = toBlocks (x₁.length / 16) x₁ ++ toBlocks (x₂.length / 16) x₂ := by
  rw [List.length_append, show (x₁.length + x₂.length) / 16 = x₁.length / 16 + x₂.length / 16 by omega,
    toBlocks_append _ _ (by omega)]

/-- Settles O22: the second command goes on from the chain the first left. -/
theorem cbcBlocksSplits : Obligations.CbcBlocksSplits := by
  intro s x₁ x₂ hp hk hg hm₁ hm₂ hcap
  obtain ⟨t, e, hs, -, -, hctx, ho, -⟩ := cbcBlocks_withInput Config.machine hp hk hg (x := x₁ ++ x₂)
    (by rw [List.length_append]; omega) (by rwa [List.length_append])
  obtain ⟨t₁, e₁, hs₁, hparams₁, hg₁, hctx₁, ho₁, hl₁⟩ := cbcBlocks_withInput Config.machine hp hk hg hm₁ (by omega)
  have hk₁ : t₁.ctx.kind = .cbcE ∨ t₁.ctx.kind = .cbcD := by rw [hctx₁]; exact hk
  have hcap₂ : x₂.length ≤ t₁.params.bufCap := by rw [hparams₁]; omega
  obtain ⟨t₂, e₂, hs₂, -, -, hctx₂, ho₂, hl₂⟩ := cbcBlocks_withInput Config.machine hs₁.1 hk₁ hg₁ hm₂ hcap₂
  rw [toBlocks_append_whole hm₁] at hctx ho
  rw [Ctx.cbcOut_append, ofBlocks_append] at ho
  rw [hctx₁] at hctx₂ ho₂
  refine ⟨t, t₁, t₂, _, _, e, e₁, e₂, hs, hs₁, hs₂, ho₁, ho₂, ho, ?_, ?_, ?_⟩
  · rw [hl₁]; exact withInput_ilen_toNat s (by omega)
  · rw [hl₂]; exact withInput_ilen_toNat t₁ hcap₂
  · rw [hctx, hctx₂, Ctx.cbcNext_append]

/-! ## The building block and the one-shot commands -/

/-- `Unpad` fails exactly where the last byte exceeds the length (`40_validator_padding.md` R126). -/
theorem unpad_eq_paddingError_iff {b : List Byte} :
    unpad b = .paddingError ↔ ∃ n, b.getLast? = some n ∧ b.length < n.toNat := by
  rcases hl : b.getLast? with _ | n
  · simp [unpad, hl]
  · rw [unpad_of_getLast? hl]
    simp

theorem unpad_ne_emptyInput {b : List Byte} (h : b ≠ []) : unpad b ≠ .emptyInput := by
  rw [unpad_of_getLast? (List.getLast?_eq_some_getLast h)]
  split <;> simp

theorem State.Succeeded.not_raised {t : State} (h : t.Succeeded) (e : TypedError) : ¬ t.Raised e := by
  obtain ⟨-, herr, -⟩ := h
  rintro ⟨-, herr', -⟩
  exact absurd (herr.symm.trans herr') (by decide)

/-- `CBC_DEC` of some whole blocks ends as `Unpad` of the decrypted blocks `pp` does (`41_cbc.md` R146). -/
theorem cbcDec_as_unpad (C : Config) {s : State} (hp : s.phase = .idle) (hr : s.InRange) (hv : s.Validates)
    (hm : s.ilen.toNat % 16 = 0) (hpos : 0 < s.ilen.toNat) (hg : PrimNeverFaults s) {pp : List Byte}
    (hpp : pp = cbcDecrypted C s.keyOperand s.ivOperand (s.input C)) :
    ∃ t, cbcDec C s = .next t ∧
      (∀ q, unpad pp = .ok q → t.Succeeded ∧ t.obuf.HoldsExactly q ∧ t.olen.toNat = q.length) ∧
      (t.Raised .paddingError ↔ unpad pp = .paddingError) := by
  have hin := input_length C s
  have hlen : pp.length = s.ilen.toNat := by rw [hpp, cbcDecrypted_length _ _ _ (hin ▸ hm), hin]
  have hgood := (State.port_neverFaults hg).good (s.ilen.toNat / 16)
  rcases hu : unpad pp with b | _ | _
  · obtain ⟨ev, e, -⟩ := cbcDec_of_unpad_ok hp hr hv hm C hgood (hpp ▸ hu)
    have hb := unpad_ok_length hu
    refine ⟨_, e, fun q hq => ?_, iff_of_false ((bufferDone_succeeded ..).not_raised _) (by simp)⟩
    cases hq
    refine ⟨bufferDone_succeeded .., bufferDone_holds _ _ _ _, bufferDone_olen_toNat _ _ ?_⟩
    unfold State.InRange at hr
    rw [Params.obufCap]; omega
  · obtain ⟨ev, e, -⟩ := cbcDec_of_unpad_paddingError hp hr hv hm C hgood (hpp ▸ hu)
    exact ⟨_, e, by simp, iff_of_true (bufferStopped_raised ..) rfl⟩
  · exact absurd hu (unpad_ne_emptyInput (List.ne_nil_of_length_pos (hlen ▸ hpos)))

/-- A fresh context transforms with the operands, in the direction bound (`41_cbc.md` R150). -/
theorem cbcOut_freshCbc (C : Config) (s : State) (dir : Bool) (x : List Block) :
    (Ctx.freshCbc dir s.keyOperand s.ivOperand).cbcOut C x =
      if dir then chainEnc (blockCipher C .enc s.keyOperand) s.ivOperand x
      else chainDec (blockCipher C .dec s.keyOperand) s.ivOperand x := by
  rw [Ctx.cbcOut, boundKey_freshCbc]
  cases dir <;> rfl

/-- After `CBC_INIT`, `CBC_BLOCKS` on whole blocks `x` chains them with the operands. -/
theorem cbcBlocks_after_cbcInit (C : Config) (dir : Bool) {s : State} (hg : PrimNeverFaults s) {x : List Byte}
    (hm : x.length % 16 = 0) (hcap : x.length ≤ s.params.bufCap) :
    ∃ b, cbcBlocks C ((initDone (Ctx.freshCbc dir s.keyOperand s.ivOperand) s).withInput x) = .next b ∧ b.Succeeded ∧
      b.obuf.HoldsExactly (ofBlocks (if dir then
        chainEnc (blockCipher C .enc s.keyOperand) s.ivOperand (toBlocks (x.length / 16) x)
        else chainDec (blockCipher C .dec s.keyOperand) s.ivOperand (toBlocks (x.length / 16) x))) ∧
      b.olen = BitVec.ofNat 32 x.length := by
  obtain ⟨b, e, hs, -, -, -, ho, hl⟩ := cbcBlocks_withInput C
    (s := initDone (Ctx.freshCbc dir s.keyOperand s.ivOperand) s) rfl
    (by cases dir <;> simp [initDone_ctx, Ctx.freshCbc]) hg hm hcap
  rw [initDone_ctx, cbcOut_freshCbc] at ho
  exact ⟨b, e, hs, ho, hl⟩

/-- Settles O23: both make the same chain, which `CBC_DEC` unpads. -/
theorem buildingBlockAgreesWithOneShot : Obligations.BuildingBlockAgreesWithOneShot := by
  intro s hp hv hg
  refine ⟨fun p hcap => ?_, fun c hcap hpos hm => ?_⟩
  · have hpad := pad_length p
    obtain ⟨ev, e, -⟩ := cbcEnc_good (s := s.withInput p) hp (withInput_inRange (by omega)) Config.machine
      (validates_withInput hv p) ((State.port_neverFaults (primNeverFaults_withInput hg p)).good _)
    obtain ⟨b, e', hs, ho, hl⟩ := cbcBlocks_after_cbcInit Config.machine true hg (x := pad p) (by omega) hcap
    rw [input_withInput _ s (by omega), keyOperand_withInput, ivOperand_withInput] at e
    refine ⟨_, _, b, _, e, cbcInit_of_validates true hp hv, e', bufferDone_succeeded .., hs, bufferDone_holds _ _ _ _, ho,
      ?_⟩
    rw [bufferDone_olen, hl, cbcEncrypted_length, hpad]
  · have hlen := withInput_ilen_toNat s hcap
    obtain ⟨b, e', hs, ho, -⟩ := cbcBlocks_after_cbcInit Config.machine false hg hm hcap
    obtain ⟨t, e, hok, hraised⟩ := cbcDec_as_unpad Config.machine (s := s.withInput c) hp (withInput_inRange hcap)
      (validates_withInput hv c) (hlen ▸ hm) (hlen ▸ hpos) (primNeverFaults_withInput hg c) rfl
    rw [input_withInput _ s hcap, keyOperand_withInput, ivOperand_withInput] at hok hraised
    exact ⟨t, _, b, _, e, cbcInit_of_validates false hp hv, e', hs, ho, cbcDecrypted_length _ _ _ hm, hok,
      hraised.trans unpad_eq_paddingError_iff⟩

end Sys2Proof.Machine
end

section
/-! SUPPORT. A fault of the primitive: where it stops each buffer command, and how the command ends. -/

namespace Sys2Proof.Machine

/-- From `s` a buffer command stopped in `t` at its request `j`, the first that the primitive answered with a fault. -/
def StoppedAt (s t : State) (j : Nat) (code : Byte) (rest : List PrimAnswer) (dir : Dir) (k : List Byte) : Prop :=
  SameAround s t ∧ t.ctx = s.ctx ∧ t.primPlan = rest ∧
    ∃ ev b, PrimEvents Config.machine j dir k ev ∧ t.log = s.log ++ ev ++ [.prim dir k b (.fault code)]

theorem bufferStopped_stoppedAt (e : Ending) (s : State) {j : Nat} {code : Byte} {rest : List PrimAnswer} {dir : Dir}
    {k : List Byte} {ev : List Event} (b : Block) (hev : PrimEvents Config.machine j dir k ev) :
    StoppedAt s (bufferStopped e { plan := rest, log := s.port.log ++ ev ++ [.prim dir k b (.fault code)] } s) j code rest
      dir k :=
  ⟨bufferStopped_sameAround e _ s, bufferStopped_ctx e _ s, bufferStopped_primPlan e _ s, ev, b, hev, bufferStopped_log e _ s⟩

section

variable {s : State} {j : Nat} {code : Byte} {rest : List PrimAnswer} (hp : s.phase = .idle) (hr : s.InRange)
  (h : s.primPlan = List.replicate j .ok ++ .fault code :: rest)
include hp hr h

/-- `CBC_ENC` goes FATAL (`60_exceptions.md` R221). -/
theorem cbcEnc_fault (hv : s.Validates) (hj : j < s.ilen.toNat / 16 + 1) :
    ∃ t, cbcEnc Config.machine s = .next t ∧ t.WentFatal ∧ StoppedAt s t j code rest .enc s.keyOperand := by
  have e := cbcEnc_blocks hp hr Config.machine hv
  obtain ⟨ev, b, hx, hev⟩ := cbcEncBlocks_fault Config.machine s.keyOperand s.ivOperand
    (toBlocks (s.ilen.toNat / 16 + 1) (pad (s.input Config.machine))) (p := s.port) h (by rwa [toBlocks_length])
  rw [hx] at e
  exact ⟨_, e, bufferStopped_wentFatal .., bufferStopped_stoppedAt .fatal s b hev⟩

/-- `CBC_DEC` classifies the fault (`60_exceptions.md` R220). -/
theorem cbcDec_fault (hv : s.Validates) (hm : s.ilen.toNat % 16 = 0) (hj : j < s.ilen.toNat / 16) :
    ∃ t, cbcDec Config.machine s = .next t ∧ t.Raised (faultError (Config.machine.primKind code)) ∧
      StoppedAt s t j code rest .dec s.keyOperand := by
  have e := cbcDec_blocks hp hr hv hm Config.machine
  obtain ⟨ev, b, hx, hev⟩ := cbcDecBlocks_fault Config.machine s.keyOperand s.ivOperand
    (toBlocks (s.ilen.toNat / 16) (s.input Config.machine)) (p := s.port) h (by rwa [toBlocks_length])
  rw [hx] at e
  exact ⟨_, e, bufferStopped_raised .., bufferStopped_stoppedAt (.error _) s b hev⟩

/-- `CBC_BLOCKS` goes FATAL in either direction. -/
theorem cbcBlocks_fault (hk : s.ctx.kind = .cbcE ∨ s.ctx.kind = .cbcD) (hm : s.ilen.toNat % 16 = 0)
    (hj : j < s.ilen.toNat / 16) :
    ∃ t, cbcBlocks Config.machine s = .next t ∧ t.WentFatal ∧ StoppedAt s t j code rest s.ctx.cbcDir s.ctx.boundKey := by
  have e := cbcBlocks_blocks hp hr hk hm Config.machine
  obtain ⟨ev, b, hx, hev⟩ := cbcBlocksOf_fault Config.machine s.ctx
    (toBlocks (s.ilen.toNat / 16) (s.input Config.machine)) (p := s.port) h (by rwa [toBlocks_length])
  rw [hx] at e
  exact ⟨_, e, bufferStopped_wentFatal .., bufferStopped_stoppedAt .fatal s b hev⟩

/-- `CTR_XOR` goes FATAL (`42_ctr.md` R171). -/
theorem ctrXor_fault (hk : s.ctx.kind = .ctr) (hpos : s.ctx.ksPos ≤ 16) (hj : j < s.ctx.blocksFor s.ilen.toNat) :
    ∃ t, ctrXor Config.machine s = .next t ∧ t.WentFatal ∧ StoppedAt s t j code rest .enc s.ctx.boundKey := by
  have e := ctrXor_ksXor Config.machine hp hr hk
  obtain ⟨ev, b, hx, hev⟩ := ksXor_fault Config.machine hpos (s.input Config.machine) (p := s.port) h
    (by rwa [input_length])
  rw [hx] at e
  exact ⟨_, e, bufferStopped_wentFatal .., bufferStopped_stoppedAt .fatal s b hev⟩

end

theorem Ctx.cbcDir_enc {c : Ctx} (h : c.kind = .cbcE) : c.cbcDir = .enc := if_pos h

theorem Ctx.cbcDir_dec {c : Ctx} (h : c.kind = .cbcD) : c.cbcDir = .dec := if_neg (by simp [h])

/-- Settles O29: the chaining functions and the keystream stop at the fault, and each command ends on it. -/
theorem primFaultStopsTheCommand : Obligations.PrimFaultStopsTheCommand := by
  intro s j code rest hp hr h
  refine ⟨cbcEnc_fault hp hr h, cbcDec_fault hp hr h, fun hm hj => ⟨fun hk => ?_, fun hk => ?_⟩, ctrXor_fault hp hr h⟩
  · exact Ctx.cbcDir_enc hk ▸ cbcBlocks_fault hp hr h (.inl hk) hm hj
  · exact Ctx.cbcDir_dec hk ▸ cbcBlocks_fault hp hr h (.inr hk) hm hj

end Sys2Proof.Machine
end

section
/-! SUPPORT. The counter increment byte by byte: a carry reaches a byte when all bytes after it are `0xFF` (`42_ctr.md`
R162). -/

namespace Sys2Proof.Machine

/-- The big-endian number of a byte sequence of any length, as `be128` reads a block. -/
def beNat (l : List Byte) : Nat := l.foldl (fun n x => n * 256 + x.toNat) 0

theorem be128_eq_beNat (b : Block) : be128 b = beNat b.list := rfl

theorem beNat_concat (l : List Byte) (x : Byte) : beNat (l ++ [x]) = beNat l * 256 + x.toNat := foldl_byte_append l x 0

theorem beNat_lt (l : List Byte) : beNat l < 256 ^ l.length := foldl_byte_lt l

theorem beNat_append (a b : List Byte) : beNat (a ++ b) = beNat a * 256 ^ b.length + beNat b := by
  induction b using List.reverseRecOn with
  | nil => simp [beNat]
  | append_singleton b x ih =>
    rw [← List.append_assoc, beNat_concat, beNat_concat, ih, List.length_append, List.length_singleton, Nat.pow_succ]
    ring

/-- One more than a byte sequence wraps exactly when every byte of it is `0xFF`. -/
theorem beNat_add_one_eq_pow_iff (l : List Byte) : beNat l + 1 = 256 ^ l.length ↔ l.all (· == 0xFF#8) = true := by
  induction l using List.reverseRecOn with
  | nil => simp [beNat]
  | append_singleton l x ih =>
    have hl := beNat_lt l
    have hx := x.isLt
    have h255 : x = 0xFF#8 ↔ x.toNat = 255 := BitVec.toNat_inj.symm
    rw [beNat_concat, List.length_append, List.length_singleton, Nat.pow_succ, List.all_append, Bool.and_eq_true, ← ih]
    simp only [List.all_cons, List.all_nil, Bool.and_true, beq_iff_eq, h255]
    omega

/-- One is added to the whole sequence: `a` gets the carry out of `b`. -/
theorem beNat_append_add_one_div (a b : List Byte) :
    (beNat (a ++ b) + 1) / 256 ^ b.length = if b.all (· == 0xFF#8) then beNat a + 1 else beNat a := by
  have hb := beNat_lt b
  have hw := beNat_add_one_eq_pow_iff b
  rw [beNat_append, Nat.add_assoc, Nat.add_comm, Nat.add_mul_div_right _ _ (Nat.pow_pos (by decide))]
  split
  · rw [hw.2 ‹_›, Nat.div_self (Nat.pow_pos (by decide)), Nat.add_comm]
  · rw [Nat.div_eq_of_lt (lt_of_le_of_ne hb (mt hw.1 ‹_›)), Nat.zero_add]

theorem ofNat_beNat_concat (l : List Byte) (x : Byte) : BitVec.ofNat 8 (beNat (l ++ [x])) = x := by
  have hx := x.isLt
  rw [beNat_concat]
  apply BitVec.eq_of_toNat_eq
  rw [BitVec.toNat_ofNat]
  omega

/-- The byte before `b`, once one is added to the whole sequence. -/
theorem ofNat_beNat_add_one_div (a : List Byte) (x : Byte) (b : List Byte) :
    BitVec.ofNat 8 ((beNat (a ++ [x] ++ b) + 1) / 256 ^ b.length) = if b.all (· == 0xFF#8) then x + 1#8 else x := by
  rw [beNat_append_add_one_div]
  split
  · rw [BitVec.ofNat_add, ofNat_beNat_concat]
  · exact ofNat_beNat_concat a x

theorem bytes128_mod (n : Nat) : bytes128 (n % 2 ^ 128) = bytes128 n := by
  rw [← be128_bytes128, bytes128_be128]

theorem inc128_eq_bytes128 (cb : Block) : inc128 cb = bytes128 (be128 cb + 1) := bytes128_mod _

theorem bytes128_getElem? (n : Nat) {i : Nat} (h : i < 16) :
    (bytes128 n).list[i]? = some (BitVec.ofNat 8 (n / 256 ^ (15 - i))) := by
  simp [bytes128, h]

/-- A byte of the incremented counter block (R162). -/
theorem inc128_getElem? (cb : Block) {i : Nat} (h : i < 16) : (inc128 cb).list[i]? =
    cb.list[i]?.map fun x => if (cb.list.drop (i + 1)).all (· == 0xFF#8) then x + 1#8 else x := by
  have hi : i < cb.list.length := cb.length_eq.symm ▸ h
  have hsplit : cb.list.take i ++ [cb.list[i]] ++ cb.list.drop (i + 1) = cb.list := by
    rw [List.take_append_getElem, List.take_append_drop]
  have hlen : (cb.list.drop (i + 1)).length = 15 - i := by rw [List.length_drop, cb.length_eq]; omega
  have hbyte := ofNat_beNat_add_one_div (cb.list.take i) cb.list[i] (cb.list.drop (i + 1))
  rw [hsplit, hlen] at hbyte
  rw [inc128_eq_bytes128, bytes128_getElem? _ h, be128_eq_beNat, hbyte, List.getElem?_eq_getElem hi, Option.map_some]

/-- Settles O24: as a number by the law of `be128` and `bytes128`, byte by byte by where the carry stops. -/
theorem counterIncrement : Obligations.CounterIncrement := fun cb =>
  ⟨be128_inc128 cb, bytes128_be128 _, fun _ h => inc128_getElem? cb h⟩

end Sys2Proof.Machine
end

section
/-! SUPPORT. The CTR commands when the primitive answers `ok`: what `CTR_INIT` binds, what `CTR_XOR` puts out and leaves
bound, on one input, on pieces of one and on its own output. -/

namespace Sys2Proof.Machine

/-! ## `CTR_INIT` and one `CTR_XOR` -/

theorem ctrInit_of_validates {s : State} (hp : s.phase = .idle) (hv : s.Validates) :
    ctrInit s = .next (initDone (Ctx.freshCtr s.keyOperand s.ivOperand) s) := by
  rcases ctrInit_cases hp with ⟨_, he, -⟩ | ⟨-, e⟩
  · rw [validate_of hv] at he; cases he
  · exact e

/-- Settles O25: the slot holds a fresh context of the operands. -/
theorem ctrInitBinds : Obligations.CtrInitBinds := by
  intro s hp hv
  have hlen := keyOperand_length hv.1
  refine ⟨_, ctrInit_of_validates hp hv, initDone_succeeded .., initDone_sameAround .., rfl, rfl, rfl, rfl, rfl, ?_⟩
  rw [initDone_ctx]
  refine ⟨rfl, hlen, ?_, rfl, rfl, rfl, rfl⟩
  rw [← hlen]
  exact bytesOfList_pad (keyOperand_le s)

/-- With good answers `CTR_XOR` puts out the input XORed with the stream of the context (`42_ctr.md` R163, R168). -/
theorem ctrXor_good (C : Config) {s : State} (hp : s.phase = .idle) (hr : s.InRange) (hk : s.ctx.kind = .ctr)
    (hpos : s.ctx.ksPos ≤ 16) (hg : s.port.GoodFor (s.ctx.blocksFor s.ilen.toNat)) :
    ∃ ev, ctrXor C s = .next (bufferDone (s.ctx.advanced (blockCipher C .enc s.ctx.boundKey) s.ilen.toNat)
        (xorStream (s.ctx.stream (blockCipher C .enc s.ctx.boundKey)) 0 (s.input C))
        (s.port.after (s.ctx.blocksFor s.ilen.toNat) ev) s) ∧
      PrimEvents C (s.ctx.blocksFor s.ilen.toNat) .enc s.ctx.boundKey ev := by
  have hlen := input_length C s
  obtain ⟨ev, e, hev⟩ := ksXor_good C hpos (s.input C) (p := s.port) (hlen ▸ hg)
  rw [hlen] at e hev
  exact ⟨ev, by rw [ctrXor_ksXor C hp hr hk, e]; rfl, hev⟩

/-- Settles O26: with good answers the output is the stream of the context, a request a block. -/
theorem ctrXorTransforms : Obligations.CtrXorTransforms := by
  intro s hp hr hk hpos hg
  obtain ⟨ev, e, hev⟩ := ctrXor_good Config.machine hp hr hk hpos ((State.port_neverFaults hg).good _)
  refine ⟨_, ev, e, bufferDone_succeeded .., bufferDone_sameAround .., bufferDone_ctx .., bufferDone_holds _ _ _ _, ?_,
    bufferDone_log .., hev⟩
  rw [bufferDone_olen, xorStream_length, ofNat_input_length]

/-! ## Pieces -/

/-- `CTR_XOR` on bytes `x` loaded into `IBUF`, with good answers. -/
theorem ctrXor_withInput (C : Config) {s : State} (hp : s.phase = .idle) (hk : s.ctx.kind = .ctr)
    (hpos : s.ctx.ksPos ≤ 16) (hg : PrimNeverFaults s) {x : List Byte} (hcap : x.length ≤ s.params.bufCap) :
    ∃ t, ctrXor C (s.withInput x) = .next t ∧ t.Succeeded ∧ SameAround (s.withInput x) t ∧ PrimNeverFaults t ∧
      t.ctx = s.ctx.advanced (blockCipher C .enc s.ctx.boundKey) x.length ∧
      t.obuf.HoldsExactly (xorStream (s.ctx.stream (blockCipher C .enc s.ctx.boundKey)) 0 x) ∧
      t.olen.toNat = x.length := by
  have hlen := withInput_ilen_toNat s hcap
  have hgood := State.port_neverFaults (primNeverFaults_withInput hg x)
  obtain ⟨ev, e, -⟩ := ctrXor_good C (s := s.withInput x) hp (withInput_inRange hcap) hk hpos (hgood.good _)
  rw [hlen, input_withInput C s hcap] at e
  refine ⟨_, e, bufferDone_succeeded .., bufferDone_sameAround .., bufferDone_neverFaults _ _ (hgood.after _ _) _,
    bufferDone_ctx .., bufferDone_holds _ _ _ _, ?_⟩
  rw [bufferDone_olen_toNat, xorStream_length]
  rw [xorStream_length, params_withInput]
  exact hcap.trans (Nat.le_add_right _ 16)

/-- `CTR_XOR` on pieces goes through the stream of the context as on their concatenation (`42_ctr.md` R164). -/
theorem xorPieces_of_bound {s : State} (ds : List (List Byte)) (hp : s.phase = .idle) (hk : s.ctx.kind = .ctr)
    (hpos : s.ctx.ksPos ≤ 16) (hg : PrimNeverFaults s) (hcap : ∀ d ∈ ds, d.length ≤ s.params.bufCap) {E : Block → Block}
    (hE : blockCipher Config.machine .enc s.ctx.boundKey = E) :
    ∃ u, XorPieces s ds (xorStream (s.ctx.stream E) 0 ds.flatten) u ∧ u.ctx = s.ctx.advanced E ds.flatten.length := by
  induction ds generalizing s with
  | nil => exact ⟨s, ⟨rfl, rfl⟩, (Ctx.advanced_zero hpos).symm⟩
  | cons d ds ih =>
    obtain ⟨hd, hds⟩ := List.forall_mem_cons.1 hcap
    obtain ⟨t, e, hs, ⟨⟨hparams, -⟩, -⟩, hgt, hctx, ho, hl⟩ := ctrXor_withInput Config.machine hp hk hpos hg hd
    rw [hE] at hctx ho
    obtain ⟨u, hu, hctxu⟩ := ih hs.1 (by rw [hctx, Ctx.kind_advanced, hk]) (by rw [hctx]; exact Ctx.advanced_ksPos_le hpos _)
      hgt (by rw [hparams, params_withInput]; exact hds) (by rw [hctx, Ctx.boundKey_advanced, hE])
    refine ⟨u, ⟨t, _, _, e, hs, ho, hl.trans (xorStream_length ..).symm, hu, ?_⟩, ?_⟩
    · rw [List.flatten_cons, xorStream_append]
      refine congrArg _ (xorStream_congr _ fun n => ?_)
      rw [hctx, Ctx.stream_advanced hpos, Nat.zero_add, Nat.zero_add]
    · rw [hctxu, hctx, Ctx.advanced_advanced hpos, List.flatten_cons, List.length_append]

/-- A fresh context after some bytes (`42_ctr.md` R164): its position in the last of the blocks they needed. -/
theorem advanced_freshCtr (E : Block → Block) (k : List Byte) (iv : Block) {n : Nat} (h : 0 < n) :
    (Ctx.freshCtr k iv).advanced E n = { Ctx.freshCtr k iv with
      ctr := bytes128 ((be128 iv + (n + 15) / 16) % 2 ^ 128)
      ks := E (bytes128 ((be128 iv + ((n + 15) / 16 - 1)) % 2 ^ 128))
      ksPos := n - 16 * ((n + 15) / 16 - 1) } := by
  have hq : (16 + n - 16 + 15) / 16 = (n + 15) / 16 := by rw [Nat.add_sub_cancel_left]
  have hpos : 16 + n - 16 * ((n + 15) / 16) = n - 16 * ((n + 15) / 16 - 1) := by omega
  simp only [Ctx.advanced, Ctx.freshCtr, hq, hpos]
  rw [if_neg (by omega)]

/-- Settles O27: the stream of a fresh context is the keystream of the operands. -/
theorem ctrPositionLaw : Obligations.CtrPositionLaw := by
  intro s ds hp hv hg hcap
  obtain ⟨u, hu, hctx⟩ := xorPieces_of_bound (s := initDone (Ctx.freshCtr s.keyOperand s.ivOperand) s) ds rfl rfl
    (ksPos_freshCtr ..) hg hcap (E := s.encK) (by rw [initDone_ctx, boundKey_freshCtr, State.encK])
  rw [initDone_ctx] at hu hctx
  rw [stream_freshCtr_eq] at hu
  refine ⟨_, u, ctrInit_of_validates hp hv, hu, fun h0 => ?_, fun hpos => ?_⟩
  · rw [hctx, h0, Ctx.advanced_zero (ksPos_freshCtr ..), initDone_ctx]
  · rw [hctx, advanced_freshCtr _ _ _ hpos, initDone_ctx]

/-! ## The transform is its own inverse -/

/-- Loading `IBUF` and what keeps the operands after it leave the key and the IV as they were. -/
theorem sameOperands_withInput {s t : State} {x : List Byte} (h : SameOperands (s.withInput x) t) :
    t.params = s.params ∧ (s.Validates → t.Validates) ∧ t.keyOperand = s.keyOperand ∧ t.ivOperand = s.ivOperand :=
  ⟨h.1.trans (params_withInput s x), fun hv => h.validates (validates_withInput hv x),
    h.keyOperand_eq.trans (keyOperand_withInput s x), h.ivOperand_eq.trans (ivOperand_withInput s x)⟩

theorem initDone_withInput_sameOperands (c : Ctx) (s : State) (x : List Byte) :
    SameOperands (s.withInput x) ((initDone c s).withInput x) := by
  simp [initDone, endCommand, State.withInput, SameOperands]

/-- After `CTR_INIT`, `CTR_XOR` on `x` puts out `x` XORed with the keystream of the operands. -/
theorem ctrXor_after_ctrInit (C : Config) {s : State} (hg : PrimNeverFaults s) {x : List Byte}
    (hcap : x.length ≤ s.params.bufCap) :
    ∃ t, ctrXor C ((initDone (Ctx.freshCtr s.keyOperand s.ivOperand) s).withInput x) = .next t ∧ t.Succeeded ∧
      SameOperands (s.withInput x) t ∧ PrimNeverFaults t ∧
      t.obuf.HoldsExactly (xorStream (keystream (blockCipher C .enc s.keyOperand) s.ivOperand) 0 x) ∧
      t.olen.toNat = x.length := by
  obtain ⟨t, e, hs, ⟨hsame, -⟩, hgt, -, ho, hl⟩ := ctrXor_withInput C
    (s := initDone (Ctx.freshCtr s.keyOperand s.ivOperand) s) rfl rfl (ksPos_freshCtr ..) hg hcap
  rw [initDone_ctx, boundKey_freshCtr, stream_freshCtr_eq] at ho
  exact ⟨t, e, hs, (initDone_withInput_sameOperands ..).trans hsame, hgt, ho, hl⟩

/-- Settles O28: both times the keystream is that of the same operands. -/
theorem ctrSelfInverse : Obligations.CtrSelfInverse := by
  intro s p hp hv hg hcap
  obtain ⟨b, e, hs, hsame, hgb, ho, -⟩ := ctrXor_after_ctrInit Config.machine hg hcap
  obtain ⟨hparams, hvb, hkey, hiv⟩ := sameOperands_withInput hsame
  have hlen := xorStream_length (keystream (blockCipher Config.machine .enc s.keyOperand) s.ivOperand) 0 p
  obtain ⟨d, e', hs', -, -, ho', hl'⟩ := ctrXor_after_ctrInit Config.machine hgb (x := xorStream _ 0 p)
    (hlen.trans_le (hparams ▸ hcap))
  rw [hkey, hiv, xorStream_xorStream] at ho'
  exact ⟨_, b, _, d, _, ctrInit_of_validates hp hv, e, hs, ho, hlen, ctrInit_of_validates hs.1 (hvb hv), e', hs', ho',
    hl'.trans hlen⟩

end Sys2Proof.Machine
end

section
/-! SUPPORT. A streaming command whose source is copied to its end: the requests it has made, the bytes it has written, and
that they are those of `CTR_XOR`. -/

namespace Sys2Proof.Machine

/-! ## Path and handle commands as functions -/

theorem IsPath.exec_eq {i : Instr} (hi : IsPath i) : ∃ dir, exec i = ctrPath Config.machine dir := by
  simp only [IsPath, List.mem_cons, List.not_mem_nil, or_false] at hi
  rcases hi with rfl | rfl
  · exact ⟨.enc, rfl⟩
  · exact ⟨.dec, rfl⟩

theorem IsHandle.exec_eq {i : Instr} (hi : IsHandle i) : ∃ dir, exec i = ctrStrm Config.machine dir := by
  simp only [IsHandle, List.mem_cons, List.not_mem_nil, or_false] at hi
  rcases hi with rfl | rfl
  · exact ⟨.enc, rfl⟩
  · exact ⟨.dec, rfl⟩

/-! ## The end of the source -/

/-- What a path command from `s` adds to the record once its source is at the end. -/
def eofEvents (s : State) : List Event :=
  [.answer .eof, .request (.close s.dstId), .answer .ack, .request (.close s.srcId), .answer .ack]

/-- A path command that finds its source at the end closes both files and ends with success (`43_streaming.md` R184). -/
theorem runJob_path_eof (C : Config) {s u : State} {dir : Dir} {more : List StreamAnswer} {ev : List Event}
    (h : StillRunning s u) (hj : u.job = some ⟨.path, dir, .read⟩) (hd : u.dstOpen = true) (hs : u.srcOpen = true)
    (ha : u.answers = .eof :: .ack :: .ack :: more) (hl : u.log = s.log ++ ev) :
    ∃ t, runJob C u = .next t ∧ t.Succeeded ∧ StreamEnd s t (requests (ev ++ eofEvents s)) more ∧
      t.log = s.log ++ (ev ++ eofEvents s) := by
  have e := (runJob_read_eof C hj ha).trans
    (runJob_release_both C (s := takeAnswer .eof (.ack :: .ack :: more) u) hd hs rfl)
  have hrun := (h.takeAnswer .eof (.ack :: .ack :: more)).closedBoth more
  have hlog : (closedBoth more (takeAnswer .eof (.ack :: .ack :: more) u)).log = s.log ++ (ev ++ eofEvents s) := by
    obtain ⟨-, -, -, -, -, -, hsrc, hdst, -⟩ := h.operands
    simp [closedBoth, takeAnswer, eofEvents, hl, hsrc, hdst]
  exact ⟨_, e, hrun.succeeded, hrun.streamEnd .success rfl rfl rfl hlog rfl, hlog⟩

/-- A handle command that finds its source at the end ends with success (`43_streaming.md` R189). -/
theorem runJob_handle_eof (C : Config) {s u : State} {dir : Dir} {more : List StreamAnswer} {ev : List Event}
    (h : StillRunning s u) (hj : u.job = some ⟨.handle, dir, .read⟩) (hd : u.dstOpen = false) (hs : u.srcOpen = false)
    (ha : u.answers = .eof :: more) (hl : u.log = s.log ++ ev) :
    ∃ t, runJob C u = .next t ∧ t.Succeeded ∧ StreamEnd s t (requests ev) more ∧
      t.log = s.log ++ (ev ++ [Event.answer .eof]) := by
  have e := (runJob_read_eof C hj ha).trans (runJob_release_none C (.inl rfl))
  have hrun := h.takeAnswer .eof more
  have hlog : (takeAnswer .eof more u).log = s.log ++ (ev ++ [Event.answer .eof]) := by simp [hl]
  exact ⟨_, e, hrun.succeeded, hrun.streamEnd .success hs hd rfl hlog (by simp), hlog⟩

section

variable {s : State} {ds : List (List Byte)} {more : List StreamAnswer} (h : s.phase = .idle) (hv : s.Validates)
  (hne : s.srcId ≠ s.dstId) (hl : LegalChunks s.params ds) (hg : s.port.GoodFor ((ds.flatten.length + 15) / 16))
include h hv hne hl hg

/-- A path command that copies its whole source (`43_streaming.md` R184). -/
theorem ctrPath_succeeds (C : Config) {dir : Dir}
    (ha : s.answers = [StreamAnswer.ok, .ok] ++ goodChunks ds ++ [StreamAnswer.eof, .ack, .ack] ++ more) :
    ∃ t ev, ctrPath C dir s = .next t ∧ t.Succeeded ∧
      StreamEnd s t ([StreamReq.openRd s.srcId, .createTrunc s.dstId] ++ copyRequests s.srcId s.dstId s.params.chunk
        (keystream (blockCipher C .enc s.keyOperand) s.ivOperand) 0 ds ++
        [StreamReq.close s.dstId, .close s.srcId]) more ∧
      t.log = s.log ++ ev ∧ PrimEvents C ((ds.flatten.length + 15) / 16) .enc s.keyOperand (primEvents ev) := by
  obtain ⟨ev, e, hreqs, hprim⟩ := ctrPath_copied C (dir := dir) h hv hne hl hg (ha.trans (List.append_assoc ..))
  obtain ⟨t, et, hs, hend, hlog⟩ := runJob_path_eof C
    ((stillRunning_pathBegun dir (goodChunks ds ++ ([StreamAnswer.eof, .ack, .ack] ++ more)) s).copying _ _ _ ev)
    rfl rfl rfl rfl ((congrArg (· ++ ev) (pathBegun_log ..)).trans (List.append_assoc ..))
  refine ⟨t, _, e.trans et, hs, ?_, hlog, ?_⟩
  · simpa [eofEvents, ← hreqs] using hend
  · simpa [eofEvents] using hprim

/-- A handle command that copies its whole source (`43_streaming.md` R189). -/
theorem ctrStrm_succeeds (C : Config) {dir : Dir} (hs : s.srcOpen = false) (hd : s.dstOpen = false)
    (ha : s.answers = goodChunks ds ++ [StreamAnswer.eof] ++ more) :
    ∃ t ev, ctrStrm C dir s = .next t ∧ t.Succeeded ∧
      StreamEnd s t (copyRequests s.srcId s.dstId s.params.chunk
        (keystream (blockCipher C .enc s.keyOperand) s.ivOperand) 0 ds) more ∧
      t.log = s.log ++ ev ∧ PrimEvents C ((ds.flatten.length + 15) / 16) .enc s.keyOperand (primEvents ev) := by
  obtain ⟨ev, e, hreqs, hprim⟩ := ctrStrm_copied C (dir := dir) h hv hne hl hg (ha.trans (List.append_assoc ..))
  obtain ⟨t, et, hsucc, hend, hlog⟩ := runJob_handle_eof C ((stillRunning_strmBegun dir s).copying _ _ _ ev) rfl hd hs rfl
    ((congrArg (· ++ ev) (strmBegun_log ..)).trans (List.append_assoc ..))
  refine ⟨t, _, e.trans et, hsucc, ?_, hlog, ?_⟩
  · rwa [← hreqs]
  · simpa using hprim

end

/-! ## The bytes handed to the sink -/

theorem requests_map_request (rs : List StreamReq) : requests (rs.map .request) = rs := by
  induction rs with
  | nil => rfl
  | cons r rs ih => rw [List.map_cons, requests_request, ih]

/-- The bytes written are those of the requests alone. -/
theorem written_of_requests {ev : List Event} {rs : List StreamReq} (h : requests ev = rs) :
    written ev = written (rs.map .request) := by
  rw [written, written, requests_map_request, h]

theorem written_append (a b : List Event) : written (a ++ b) = written a ++ written b := by
  rw [written, written, written, requests_append, List.flatMap_append]

theorem written_write (id : Word) (d : List Byte) (ev : List Event) :
    written (.request (.write id d) :: ev) = d ++ written ev := rfl

theorem written_read (id : Word) (max : Nat) (ev : List Event) :
    written (.request (.read id max) :: ev) = written ev := rfl

/-- A copy writes the source XORed with the keystream, however it was cut (`43_streaming.md` R181). -/
theorem written_copyRequests (src dst : Word) (max : Nat) (ks : Nat → Byte) (off : Nat) (ds : List (List Byte)) :
    written ((copyRequests src dst max ks off ds).map .request) = xorStream ks off ds.flatten := by
  induction ds generalizing off with
  | nil => rfl
  | cons d ds ih =>
    rw [copyRequests, List.map_cons, List.map_cons, written_read, written_write, ih, List.flatten_cons, xorStream_append]

/-- The opens and closes around a copy write nothing. -/
theorem written_opens_closes (src dst : Word) (rs : List StreamReq) :
    written (([StreamReq.openRd src, .createTrunc dst] ++ rs ++ [StreamReq.close dst, .close src]).map .request) =
      written (rs.map .request) := by
  rw [List.map_append, List.map_append, written_append, written_append]
  exact List.append_nil _

theorem StreamEnd.exists_log {s t : State} {reqs : List StreamReq} {more : List StreamAnswer}
    (h : StreamEnd s t reqs more) : ∃ ev, t.log = s.log ++ ev ∧ requests ev = reqs := by
  obtain ⟨-, -, -, -, -, -, -, -, -, hlog⟩ := h
  exact hlog

/-- A streaming command that copies its whole source writes it XORed with the keystream of the operands. -/
theorem streaming_written {s : State} {i : Instr} {ds : List (List Byte)} {more : List StreamAnswer} (hp : s.phase = .idle)
    (hq : s.Quiet) (hv : s.Validates) (hg : PrimNeverFaults s) (hne : s.srcId ≠ s.dstId) (hl : LegalChunks s.params ds)
    (hi : (IsPath i ∧ s.answers = [StreamAnswer.ok, .ok] ++ goodChunks ds ++ [StreamAnswer.eof, .ack, .ack] ++ more) ∨
      (IsHandle i ∧ s.answers = goodChunks ds ++ [StreamAnswer.eof] ++ more)) :
    ∃ t ev, exec i s = .next t ∧ t.Succeeded ∧ t.log = s.log ++ ev ∧
      written ev = xorStream s.operandStream 0 ds.flatten := by
  have hgood := (State.port_neverFaults hg).good ((ds.flatten.length + 15) / 16)
  obtain ⟨-, hsrc, hdst, -⟩ := hq
  rcases hi with ⟨hi, ha⟩ | ⟨hi, ha⟩ <;> obtain ⟨dir, hexec⟩ := hi.exec_eq <;> rw [hexec]
  · obtain ⟨t, -, e, hs, hend, -⟩ := ctrPath_succeeds hp hv hne hl hgood Config.machine (dir := dir) ha
    obtain ⟨ev, hlog, hreqs⟩ := hend.exists_log
    exact ⟨t, ev, e, hs, hlog,
      (written_of_requests hreqs).trans ((written_opens_closes ..).trans (written_copyRequests ..))⟩
  · obtain ⟨t, -, e, hs, hend, -⟩ := ctrStrm_succeeds hp hv hne hl hgood Config.machine (dir := dir) hsrc hdst ha
    obtain ⟨ev, hlog, hreqs⟩ := hend.exists_log
    exact ⟨t, ev, e, hs, hlog, (written_of_requests hreqs).trans (written_copyRequests ..)⟩

/-- Settles O37: both go through the keystream of the operands from its start. -/
theorem streamingAgreesWithCtrXor : Obligations.StreamingAgreesWithCtrXor := by
  intro s i ds more hp hq hv hg hne hl hcap hi
  obtain ⟨t, ev, e, hs, hlog, hw⟩ := streaming_written hp hq hv hg hne hl hi
  obtain ⟨v, exor, hsv, -, -, ho, hlen⟩ := ctrXor_after_ctrInit Config.machine hg hcap
  exact ⟨t, ev, _, v, _, e, hs, hlog, ctrInit_of_validates hp hv, exor, hsv, ho, hlen.trans (xorStream_length ..).symm, hw⟩

end Sys2Proof.Machine
end

section
/-! SUPPORT. Path and handle commands alike, by their shape: where a copy of good chunks stands, and how the command ends
there, copied to the end, on an I/O error or on a primitive fault. -/

namespace Sys2Proof.Machine

/-! ## What a shape opens and closes -/

/-- The streaming command of a shape and a direction. -/
def streamCommand (C : Config) (shape : Shape) (dir : Dir) (s : State) : Result :=
  match shape with
  | .path => ctrPath C dir s
  | .handle => ctrStrm C dir s

/-- The requests of a command before its copy (`43_streaming.md` R184, R189). -/
def Shape.opens (shape : Shape) (s : State) : List StreamReq :=
  match shape with
  | .path => [.openRd s.srcId, .createTrunc s.dstId]
  | .handle => []

/-- The requests of a command after its copy (`43_streaming.md` R185, R189). -/
def Shape.closes (shape : Shape) (s : State) : List StreamReq :=
  match shape with
  | .path => [.close s.dstId, .close s.srcId]
  | .handle => []

/-- The answers that open what a command opens. -/
def Shape.oks : Shape → List StreamAnswer
  | .path => [.ok, .ok]
  | .handle => []

/-- The answers that close what a command opened. -/
def Shape.acks : Shape → List StreamAnswer
  | .path => [.ack, .ack]
  | .handle => []

/-- The open flags while a command copies (R35). -/
def Shape.holds : Shape → Bool
  | .path => true
  | .handle => false

/-- A command has ended in the way `e`. -/
def State.EndedAs (t : State) (e : Ending) : Prop :=
  match e with
  | .success => t.Succeeded
  | .error e => t.Raised e
  | .fatal => t.WentFatal

theorem StillRunning.endedAs {s u : State} (h : StillRunning s u) (e : Ending) : (endCommand e u).EndedAs e := by
  cases e with
  | success => exact h.succeeded
  | error e => exact h.raised e
  | fatal => exact h.wentFatal

theorem endCommand_primPlan (e : Ending) (s : State) : (endCommand e s).primPlan = s.primPlan := by
  rcases e with _ | _ | _ <;> rfl

/-! ## A command in its copy -/

/-- A command begun in `s` holds what its shape holds while it copies; it has made the requests `reqs`, and the service
has the answers `as` in store. -/
structure InCopy (s u : State) (shape : Shape) (reqs : List StreamReq) (as : List StreamAnswer) : Prop where
  running : StillRunning s u
  srcOpen : u.srcOpen = shape.holds
  dstOpen : u.dstOpen = shape.holds
  answers : u.answers = as
  log : ∃ ev, u.log = s.log ++ ev ∧ requests ev = reqs

namespace InCopy

variable {s u : State} {shape : Shape} {reqs : List StreamReq} {as : List StreamAnswer}

theorem takeAnswer {a : StreamAnswer} (h : InCopy s u shape reqs (a :: as)) :
    InCopy s (takeAnswer a as u) shape reqs as := by
  obtain ⟨ev, hlog, hreqs⟩ := h.log
  exact ⟨h.running.takeAnswer a as, h.srcOpen, h.dstOpen, rfl, ev ++ [.answer a], by simp [hlog], by simp [hreqs]⟩

theorem issue (h : InCopy s u shape reqs as) (j : Job) (aw : Await) (r : StreamReq) :
    InCopy s (issue j aw r u) shape (reqs ++ [r]) as := by
  obtain ⟨ev, hlog, hreqs⟩ := h.log
  exact ⟨h.running.issue j aw r, h.srcOpen, h.dstOpen, h.answers, ev ++ [.request r], by simp [hlog], by simp [hreqs]⟩

/-- Events that hold no stream-port request, and answers served. -/
theorem copying (h : InCopy s u shape reqs as) (c : Ctx) (as' : List StreamAnswer) (n : Nat) {ev : List Event}
    (hev : requests ev = []) : InCopy s (copying c as' n ev u) shape reqs as' := by
  obtain ⟨ev', hlog, hreqs⟩ := h.log
  exact ⟨h.running.copying c as' n ev, h.srcOpen, h.dstOpen, rfl, ev' ++ ev, by simp [hlog], by simp [hreqs, hev]⟩

@[inherit_doc copying]
theorem faulted (h : InCopy s u shape reqs as) (as' : List StreamAnswer) (plan : List PrimAnswer) {ev : List Event}
    (hev : requests ev = []) : InCopy s (faulted as' plan ev u) shape reqs as' := by
  obtain ⟨ev', hlog, hreqs⟩ := h.log
  exact ⟨h.running.faulted as' plan ev, h.srcOpen, h.dstOpen, rfl, ev' ++ ev,
    (congrArg (· ++ ev) hlog).trans (List.append_assoc ..), by simp [hreqs, hev]⟩

/-- Released, the command closes what it opened and ends in the way `e` (`43_streaming.md` R185, R189). -/
theorem release_ends {more : List StreamAnswer} (h : InCopy s u shape reqs (shape.acks ++ more)) (C : Config)
    (dir : Dir) (aw : Await) (e : Ending) :
    ∃ t, runJob C (release ⟨shape, dir, aw⟩ e u) = .next t ∧ t.EndedAs e ∧
      StreamEnd s t (reqs ++ shape.closes s) more ∧ t.primPlan = u.primPlan := by
  obtain ⟨ev, hlog, hreqs⟩ := h.log
  obtain ⟨-, -, -, -, -, -, hsrc, hdst, -⟩ := h.running.operands
  cases shape with
  | path =>
    have hrun := h.running.closedBoth more
    refine ⟨_, runJob_release_both C h.dstOpen h.srcOpen h.answers, hrun.endedAs e, ?_, endCommand_primPlan ..⟩
    exact hrun.streamEnd e rfl rfl rfl
      (ev := ev ++ [.request (.close s.dstId), .answer .ack, .request (.close s.srcId), .answer .ack])
      (by simp [closedBoth, hlog, hsrc, hdst]) (by simp [hreqs, Shape.closes])
  | handle =>
    refine ⟨_, runJob_release_none C (.inl rfl), h.running.endedAs e, ?_, endCommand_primPlan ..⟩
    exact h.running.streamEnd e h.srcOpen h.dstOpen h.answers hlog (by simp [hreqs, Shape.closes])

end InCopy

/-! ## After the good chunks -/

/-- The requests of a command up to the `READ` after the chunks `ds`. -/
def copiedRequests (C : Config) (shape : Shape) (s : State) (ds : List (List Byte)) : List StreamReq :=
  shape.opens s ++ copyRequests s.srcId s.dstId s.params.chunk
    (keystream (blockCipher C .enc s.keyOperand) s.ivOperand) 0 ds

/-- The scratch context of a command after `n` bytes of its copy (`42_ctr.md` R164, `43_streaming.md` R180). -/
def scratchAfter (C : Config) (s : State) (n : Nat) : Ctx :=
  (Ctx.freshCtr s.keyOperand s.ivOperand).advanced (blockCipher C .enc s.keyOperand) n

theorem boundKey_scratchAfter (C : Config) (s : State) (n : Nat) : (scratchAfter C s n).boundKey = s.keyOperand := by
  rw [scratchAfter, Ctx.boundKey_advanced, boundKey_freshCtr]

theorem ksPos_scratchAfter (C : Config) (s : State) (n : Nat) : (scratchAfter C s n).ksPos ≤ 16 :=
  Ctx.advanced_ksPos_le (ksPos_freshCtr ..) n

/-- The scratch context gives the keystream of the operands from where the copy stands. -/
theorem stream_scratchAfter (C : Config) (s : State) (n t : Nat) :
    (scratchAfter C s n).stream (blockCipher C .enc s.keyOperand) t =
      keystream (blockCipher C .enc s.keyOperand) s.ivOperand (n + t) := by
  rw [scratchAfter, Ctx.stream_advanced (ksPos_freshCtr ..), stream_freshCtr]

/-- The blocks of the whole are those of the copy so far and those of the next chunk. -/
theorem blocksFor_scratchAfter (C : Config) (s : State) (n m : Nat) :
    (n + m + 15) / 16 = (n + 15) / 16 + (scratchAfter C s n).blocksFor m := by
  rw [← blocksFor_freshCtr s.keyOperand s.ivOperand (n + m), ← blocksFor_freshCtr s.keyOperand s.ivOperand n]
  exact Ctx.blocksFor_add (ksPos_freshCtr ..) n m

/-- A command begun in `s` has copied the good chunks `ds` and waits on the `READ` after them, with the answers `as` in
store. -/
structure Copied (C : Config) (s u : State) (shape : Shape) (dir : Dir) (ds : List (List Byte)) (as : List StreamAnswer) :
    Prop extends InCopy s u shape (copiedRequests C shape s ds) as where
  job : u.job = some ⟨shape, dir, .read⟩
  scratch : u.scratch = scratchAfter C s ds.flatten.length
  primPlan : u.primPlan = s.primPlan.drop ((ds.flatten.length + 15) / 16)

/-- A streaming command reaches the end of the good chunks in store (`43_streaming.md` R176, R184, R189). -/
theorem streamCommand_copied (C : Config) (shape : Shape) (dir : Dir) {s : State} {ds : List (List Byte)}
    {as : List StreamAnswer} (hp : s.phase = .idle) (hq : s.Quiet) (hv : s.Validates) (hne : s.srcId ≠ s.dstId)
    (hl : LegalChunks s.params ds) (hg : s.port.GoodFor ((ds.flatten.length + 15) / 16))
    (ha : s.answers = shape.oks ++ goodChunks ds ++ as) :
    ∃ u, streamCommand C shape dir s = runJob C u ∧ Copied C s u shape dir ds as := by
  obtain ⟨-, hsrc, hdst, -⟩ := hq
  cases shape with
  | path =>
    obtain ⟨ev, e, hreqs, -⟩ := ctrPath_copied C (dir := dir) hp hv hne hl hg ha
    refine ⟨_, e, ⟨(stillRunning_pathBegun ..).copying _ _ _ ev, rfl, rfl, rfl, _,
      (congrArg (· ++ ev) (pathBegun_log ..)).trans (List.append_assoc ..), ?_⟩, rfl, rfl, rfl⟩
    simp [copiedRequests, Shape.opens, ← hreqs]
  | handle =>
    obtain ⟨ev, e, hreqs, -⟩ := ctrStrm_copied C (dir := dir) hp hv hne hl hg ha
    exact ⟨_, e, ⟨(stillRunning_strmBegun ..).copying _ _ _ ev, hsrc, hdst, rfl, _,
      (congrArg (· ++ ev) (strmBegun_log ..)).trans (List.append_assoc ..), hreqs⟩, rfl, rfl, rfl⟩

/-! ## How a copy ends early -/

namespace Copied

variable {C : Config} {s u : State} {shape : Shape} {dir : Dir} {ds : List (List Byte)} {d : List Byte}
  {more : List StreamAnswer}

/-- An error at the `READ` after the good chunks (`43_streaming.md` R192). -/
theorem read_ioerr {code : Word} (h : Copied C s u shape dir ds (.ioerr code :: (shape.acks ++ more))) :
    ∃ t, runJob C u = .next t ∧ t.Raised (.ioError .read code) ∧
      StreamEnd s t (copiedRequests C shape s ds ++ shape.closes s) more := by
  obtain ⟨t, e, hend, hstream, -⟩ :=
    h.toInCopy.takeAnswer.release_ends C dir .read (.error (.ioError .read code))
  exact ⟨t, (runJob_read_ioerr C h.job h.answers).trans e, hend, hstream⟩

/-- The chunk after the good ones is read and, transformed, handed to the sink (`43_streaming.md` R176). -/
theorem chunk_written {as : List StreamAnswer} (hd : 1 ≤ d.length ∧ d.length ≤ s.params.chunk) (hg : PrimNeverFaults s)
    (h : Copied C s u shape dir ds (.data d :: as)) :
    ∃ v, runJob C u = runJob C v ∧ v.job = some ⟨shape, dir, .write⟩ ∧
      InCopy s v shape (copiedRequests C shape s ds ++ [.write s.dstId
        (xorStream (keystream (blockCipher C .enc s.keyOperand) s.ivOperand) ds.flatten.length d)]) as := by
  obtain ⟨hparams, -, -, -, -, -, -, hdst, -⟩ := h.running.operands
  have hgood : u.port.NeverFaults := by
    intro a ha
    rw [State.port_plan, h.primPlan] at ha
    exact hg a (List.mem_of_mem_drop ha)
  obtain ⟨ev, hev, e⟩ := runJob_read_chunk C h.job (by simp [chunkLegal, hparams, hd.1, hd.2]) h.answers
    (h.scratch ▸ ksPos_scratchAfter ..) (hgood.good _)
  rw [h.scratch, boundKey_scratchAfter, hdst,
    xorStream_congr (off' := ds.flatten.length) d fun t => (stream_scratchAfter C s _ _).trans (by rw [Nat.zero_add])] at e
  exact ⟨_, e, rfl, (h.toInCopy.copying _ as _ (ev := .answer (.data d) :: ev) hev.requests).issue ..⟩

/-- An error at the `WRITE` of the chunk after the good ones (`43_streaming.md` R192). -/
theorem write_ioerr {code : Word} (hd : 1 ≤ d.length ∧ d.length ≤ s.params.chunk) (hg : PrimNeverFaults s)
    (h : Copied C s u shape dir ds (.data d :: .ioerr code :: (shape.acks ++ more))) :
    ∃ t, runJob C u = .next t ∧ t.Raised (.ioError .write code) ∧
      StreamEnd s t (copiedRequests C shape s ds ++ [.write s.dstId
        (xorStream (keystream (blockCipher C .enc s.keyOperand) s.ivOperand) ds.flatten.length d)] ++
        shape.closes s) more := by
  obtain ⟨v, e, hj, hv⟩ := h.chunk_written hd hg
  obtain ⟨t, e', hend, hstream, -⟩ := hv.takeAnswer.release_ends C dir .write (.error (.ioError .write code))
  exact ⟨t, e.trans ((runJob_write_ioerr C hj hv.answers).trans e'), hend, hstream⟩

/-- A primitive fault in the chunk after the good ones: what was opened is closed, then the command ends as its direction
says (`43_streaming.md` R183). -/
theorem prim_fault {j : Nat} {code : Byte} {rest : List PrimAnswer} (hd : 1 ≤ d.length ∧ d.length ≤ s.params.chunk)
    (hp : s.primPlan = List.replicate j .ok ++ .fault code :: rest) (hlo : (ds.flatten.length + 15) / 16 ≤ j)
    (hhi : j < (ds.flatten.length + d.length + 15) / 16)
    (h : Copied C s u shape dir ds (.data d :: (shape.acks ++ more))) :
    ∃ t, runJob C u = .next t ∧ t.EndedAs (copyFault C s.params dir code) ∧
      StreamEnd s t (copiedRequests C shape s ds ++ shape.closes s) more ∧ t.primPlan = rest := by
  obtain ⟨hparams, -⟩ := h.running.operands
  have hplan : u.primPlan = List.replicate (j - (ds.flatten.length + 15) / 16) .ok ++ .fault code :: rest := by
    rw [h.primPlan, hp, List.drop_append_of_le_length (by simpa using hlo), List.drop_replicate]
  rw [blocksFor_scratchAfter C s] at hhi
  obtain ⟨ev, b, hev, e⟩ := runJob_read_fault C h.job (by simp [chunkLegal, hparams, hd.1, hd.2]) h.answers
    (h.scratch ▸ ksPos_scratchAfter ..) hplan (by rw [h.scratch]; omega)
  rw [hparams] at e
  obtain ⟨t, e', hend, hstream, hrest⟩ := (h.toInCopy.faulted (shape.acks ++ more) rest
    (ev := .answer (.data d) :: (ev ++ [.prim .enc u.scratch.boundKey b (.fault code)]))
    (by simp [hev.requests])).release_ends C dir .read (copyFault C s.params dir code)
  exact ⟨t, e.trans e', hend, hstream, hrest⟩

end Copied

end Sys2Proof.Machine
end

section
/-! SUPPORT. The streaming commands by how the service and the primitive answer: copied to the end, stopped by an I/O error,
stopped by a primitive fault. -/

namespace Sys2Proof.Machine

/-! ## Copied to the end -/

/-- Settles O33: the two opens, the copy of the good chunks, the two closes. -/
theorem pathCopies : Obligations.PathCopies := by
  intro s i ds more hi hp _ hv hg hne hl ha
  obtain ⟨dir, hexec⟩ := hi.exec_eq
  rw [hexec]
  exact ctrPath_succeeds hp hv hne hl ((State.port_neverFaults hg).good _) Config.machine ha

/-- Settles O34: the copy of the good chunks alone. -/
theorem handleCopies : Obligations.HandleCopies := by
  intro s i ds more hi hp hq hv hg hne hl ha
  obtain ⟨-, hsrc, hdst, -⟩ := hq
  obtain ⟨dir, hexec⟩ := hi.exec_eq
  rw [hexec]
  exact ctrStrm_succeeds hp hv hne hl ((State.port_neverFaults hg).good _) Config.machine hsrc hdst ha

/-- Settles O38: each writes its source XORed with the keystream of its operands, and both have the same of each. -/
theorem chunkIndependence : Obligations.ChunkIndependence := by
  intro s₁ s₂ i₁ i₂ ds₁ ds₂ more₁ more₂ h hkey hiv hds
  obtain ⟨hp₁, hq₁, hv₁, hg₁, hne₁, hl₁, hi₁⟩ := h (s₁, i₁, ds₁, more₁) (by simp)
  obtain ⟨hp₂, hq₂, hv₂, hg₂, hne₂, hl₂, hi₂⟩ := h (s₂, i₂, ds₂, more₂) (by simp)
  obtain ⟨t₁, ev₁, e₁, hs₁, hlog₁, hw₁⟩ := streaming_written hp₁ hq₁ hv₁ hg₁ hne₁ hl₁ hi₁
  obtain ⟨t₂, ev₂, e₂, hs₂, hlog₂, hw₂⟩ := streaming_written hp₂ hq₂ hv₂ hg₂ hne₂ hl₂ hi₂
  have hstream : s₁.operandStream = s₂.operandStream := by
    simp only [State.operandStream, State.encK, hkey, hiv]
  exact ⟨t₁, t₂, ev₁, ev₂, e₁, e₂, hs₁, hs₂, hlog₁, hlog₂, by rw [hw₁, hw₂, hstream, hds], hw₁⟩

/-! ## I/O errors -/

theorem LegalChunks.init {P : Params} {ds : List (List Byte)} {d : List Byte} (h : LegalChunks P (ds ++ [d])) :
    LegalChunks P ds := fun x hx => h x (List.mem_append_left _ hx)

theorem LegalChunks.last {P : Params} {ds : List (List Byte)} {d : List Byte} (h : LegalChunks P (ds ++ [d])) :
    1 ≤ d.length ∧ d.length ≤ P.chunk := h d (by simp)

/-- A path command that waits on its first request (`43_streaming.md` R184, step 1). -/
def pathStarted (dir : Dir) (s : State) : State :=
  issue ⟨.path, dir, .openRd⟩ .openRd (.openRd s.srcId) (accept s)

theorem stillRunning_pathStarted (dir : Dir) (s : State) : StillRunning s (pathStarted dir s) :=
  (stillRunning_accept s).issue _ _ _

/-- An error at `OPEN_RD`: nothing is open, nothing is closed (`43_streaming.md` R192). -/
theorem ctrPath_open_ioerr (C : Config) (dir : Dir) {s : State} {code : Word} {more : List StreamAnswer}
    (hp : s.phase = .idle) (hq : s.Quiet) (ha : s.answers = .ioerr code :: more) :
    ∃ t, ctrPath C dir s = .next t ∧ t.Raised (.ioError .openRd code) ∧ StreamEnd s t [.openRd s.srcId] more := by
  obtain ⟨-, hsrc, hdst, -⟩ := hq
  have hrun := (stillRunning_pathStarted dir s).takeAnswer (.ioerr code) more
  have e := (runJob_open_ioerr C (s := pathStarted dir s) rfl ha).trans (runJob_release_none C (.inr ⟨hdst, hsrc⟩))
  exact ⟨_, (ctrPath_idle C dir hp).trans e, hrun.raised _, hrun.streamEnd (.error (.ioError .openRd code)) hsrc hdst rfl
    (ev := [.request (.openRd s.srcId), .answer (.ioerr code)]) (List.append_assoc ..) rfl⟩

/-- A path command whose source is open waits on its second request (`43_streaming.md` R184, step 2). -/
theorem ctrPath_srcOpened (C : Config) (dir : Dir) {s : State} {as : List StreamAnswer} (hp : s.phase = .idle)
    (hne : s.srcId ≠ s.dstId) (ha : s.answers = .ok :: as) :
    ∃ u, ctrPath C dir s = runJob C u ∧ StillRunning s u ∧ u.job = some ⟨.path, dir, .createTrunc⟩ ∧ u.srcOpen = true ∧
      u.dstOpen = s.dstOpen ∧ u.answers = as ∧
      u.log = s.log ++ [.request (.openRd s.srcId), .answer .ok, .request (.createTrunc s.dstId)] :=
  ⟨_, (ctrPath_idle C dir hp).trans (runJob_open_ok C (s := pathStarted dir s) rfl ha hne),
    (((stillRunning_pathStarted dir s).takeAnswer .ok as).setSrcOpen true).issue _ _ _, rfl, rfl, rfl, rfl,
    (List.append_assoc ..).trans (List.append_assoc ..)⟩

/-- An error at `CREATE_TRUNC`: the source alone is open and is closed (`43_streaming.md` R192). -/
theorem ctrPath_create_ioerr (C : Config) (dir : Dir) {s : State} {code : Word} {more : List StreamAnswer}
    (hp : s.phase = .idle) (hq : s.Quiet) (hne : s.srcId ≠ s.dstId) (ha : s.answers = .ok :: .ioerr code :: .ack :: more) :
    ∃ t, ctrPath C dir s = .next t ∧ t.Raised (.ioError .createTrunc code) ∧
      StreamEnd s t [.openRd s.srcId, .createTrunc s.dstId, .close s.srcId] more := by
  obtain ⟨-, -, hdst, -⟩ := hq
  obtain ⟨u, e, hu, hj, hus, hud, hua, hlog⟩ := ctrPath_srcOpened C dir hp hne ha
  obtain ⟨-, -, -, -, -, -, hid, -⟩ := hu.operands
  have hrun := (hu.takeAnswer (.ioerr code) (.ack :: more)).closedSrc more
  have e' := (runJob_create_ioerr C hj hua).trans (runJob_release_src C (hud.trans hdst) hus rfl)
  refine ⟨_, e.trans e', hrun.raised _, hrun.streamEnd (.error (.ioError .createTrunc code)) rfl (hud.trans hdst) rfl
    (ev := [.request (.openRd s.srcId), .answer .ok, .request (.createTrunc s.dstId), .answer (.ioerr code),
      .request (.close s.srcId), .answer .ack]) ?_ rfl⟩
  simp [closedSrc, hlog, hid]

section

variable {s : State} {ds : List (List Byte)} {d : List Byte} {code : Word} {more : List StreamAnswer}
  (hp : s.phase = .idle) (hq : s.Quiet) (hv : s.Validates) (hg : PrimNeverFaults s) (hne : s.srcId ≠ s.dstId)
  (hl : LegalChunks s.params (ds ++ [d]))
include hp hq hv hg hne hl

/-- An error at the `READ` after the good chunks, in a command of either shape. -/
theorem streamCommand_read_ioerr (C : Config) (shape : Shape) (dir : Dir)
    (ha : s.answers = shape.oks ++ goodChunks ds ++ .ioerr code :: (shape.acks ++ more)) :
    ∃ t, streamCommand C shape dir s = .next t ∧ t.Raised (.ioError .read code) ∧
      StreamEnd s t (copiedRequests C shape s ds ++ shape.closes s) more := by
  obtain ⟨u, e, hu⟩ := streamCommand_copied C shape dir hp hq hv hne hl.init ((State.port_neverFaults hg).good _) ha
  obtain ⟨t, e', ht⟩ := hu.read_ioerr
  exact ⟨t, e.trans e', ht⟩

/-- An error at the `WRITE` of the chunk after the good ones, in a command of either shape. -/
theorem streamCommand_write_ioerr (C : Config) (shape : Shape) (dir : Dir)
    (ha : s.answers = shape.oks ++ goodChunks ds ++ .data d :: .ioerr code :: (shape.acks ++ more)) :
    ∃ t, streamCommand C shape dir s = .next t ∧ t.Raised (.ioError .write code) ∧
      StreamEnd s t (copiedRequests C shape s ds ++ [.write s.dstId
        (xorStream (keystream (blockCipher C .enc s.keyOperand) s.ivOperand) ds.flatten.length d)] ++
        shape.closes s) more := by
  obtain ⟨u, e, hu⟩ := streamCommand_copied C shape dir hp hq hv hne hl.init ((State.port_neverFaults hg).good _) ha
  obtain ⟨t, e', ht⟩ := hu.write_ioerr hl.last hg
  exact ⟨t, e.trans e', ht⟩

end

/-- Settles O35: with nothing, with the source, and with both open, the release closes what is open. -/
theorem pathIoErrors : Obligations.PathIoErrors := by
  intro s i ds d code more hi hp hq hne
  obtain ⟨dir, hexec⟩ := hi.exec_eq
  rw [hexec]
  refine ⟨ctrPath_open_ioerr _ dir hp hq, ctrPath_create_ioerr _ dir hp hq hne, fun hv hg hl =>
    ⟨fun ha => ?_, fun ha => ?_⟩⟩
  · exact streamCommand_read_ioerr hp hq hv hg hne hl Config.machine .path dir (ha.trans (List.append_assoc ..))
  · obtain ⟨t, e, hraised, hend⟩ :=
      streamCommand_write_ioerr hp hq hv hg hne hl Config.machine .path dir (ha.trans (List.append_assoc ..))
    exact ⟨t, e, hraised, by rwa [List.append_assoc] at hend⟩

/-- Settles O36: nothing is open, so that the command ends at once. -/
theorem handleIoErrors : Obligations.HandleIoErrors := by
  intro s i ds d code more hi hp hq hne hv hg hl
  obtain ⟨dir, hexec⟩ := hi.exec_eq
  rw [hexec]
  refine ⟨fun ha => ?_, fun ha => ?_⟩
  · obtain ⟨t, e, hraised, hend⟩ :=
      streamCommand_read_ioerr hp hq hv hg hne hl Config.machine .handle dir (ha.trans (List.append_assoc ..))
    exact ⟨t, e, hraised, (List.append_nil _ ▸ hend :)⟩
  · obtain ⟨t, e, hraised, hend⟩ :=
      streamCommand_write_ioerr hp hq hv hg hne hl Config.machine .handle dir (ha.trans (List.append_assoc ..))
    exact ⟨t, e, hraised, (List.append_nil _ ▸ hend :)⟩

/-! ## Primitive faults -/

/-- A streaming command of either shape whose copy is stopped by a primitive fault (`43_streaming.md` R183). -/
theorem streamCommand_prim_fault (C : Config) (shape : Shape) (dir : Dir) {s : State} {ds : List (List Byte)}
    {d : List Byte} {j : Nat} {code : Byte} {rest : List PrimAnswer} {more : List StreamAnswer} (hp : s.phase = .idle)
    (hq : s.Quiet) (hv : s.Validates) (hne : s.srcId ≠ s.dstId) (hl : LegalChunks s.params (ds ++ [d]))
    (hplan : s.primPlan = List.replicate j .ok ++ .fault code :: rest) (hlo : (ds.flatten.length + 15) / 16 ≤ j)
    (hhi : j < (ds.flatten.length + d.length + 15) / 16)
    (ha : s.answers = shape.oks ++ goodChunks ds ++ .data d :: (shape.acks ++ more)) :
    ∃ t, streamCommand C shape dir s = .next t ∧ t.EndedAs (copyFault C s.params dir code) ∧
      StreamEnd s t (copiedRequests C shape s ds ++ shape.closes s) more ∧ t.primPlan = rest := by
  have hgood : s.port.GoodFor ((ds.flatten.length + 15) / 16) := by
    intro a ha
    rw [State.port_plan, hplan, List.take_append_of_le_length (by simpa using hlo)] at ha
    exact List.eq_of_mem_replicate (List.mem_of_mem_take ha)
  obtain ⟨u, e, hu⟩ := streamCommand_copied C shape dir hp hq hv hne hl.init hgood ha
  obtain ⟨t, e', ht⟩ := hu.prim_fault hl.last hplan hlo hhi
  exact ⟨t, e.trans e', ht⟩

/-- Settles O32: the copy stands at the good chunks when the fault releases what the command opened. -/
theorem primFaultInCopy : Obligations.PrimFaultInCopy := by
  intro s ds d j code rest more hp hq hv hne hl hplan hlo hhi
  have stopped := fun shape dir ha => streamCommand_prim_fault (more := more) Config.machine shape dir hp hq hv hne hl hplan
    hlo hhi ha
  have handle := stopped .handle
  simp only [Shape.closes, List.append_nil] at handle
  refine ⟨fun ha => ?_, fun ha => ?_⟩
  · exact ⟨stopped .path .enc (ha.trans (List.append_assoc ..)), stopped .path .dec (ha.trans (List.append_assoc ..))⟩
  · exact ⟨handle .enc (ha.trans (List.append_assoc ..)), handle .dec (ha.trans (List.append_assoc ..))⟩

end Sys2Proof.Machine
end

section
/-! SUPPORT. What one answer does to a running command, whatever it is: a new request or the end. From it, what a streaming
command leaves unchanged. -/

namespace Sys2Proof.Machine

/-! ## A new request or the end -/

/-- The state after work between an answer and the next request: the open flags, the scratch context and the primitive port
may differ. -/
def worked (src dst : Bool) (c : Ctx) (p : Port) (s : State) : State :=
  { s with srcOpen := src, dstOpen := dst, scratch := c, primPlan := p.plan, log := p.log }

/-- The job `j` leads from `s` to `t` by work that makes no stream-port request, and then by its end or by one request, which is
never `OPEN_RD`. A handle command in its copy opens and closes nothing. -/
inductive Moved (j : Job) (s t : State) : Prop
  | issued (src dst : Bool) (c : Ctx) (p : Port) (aw : Await) (r : StreamReq) (hp : s.port.Grew p) (haw : aw ≠ .openRd)
      (hh : j.shape = .handle → j.await = .read ∨ j.await = .write →
        (src = s.srcOpen ∧ dst = s.dstOpen) ∧ (aw = .read ∨ aw = .write))
      (ht : t = issue j aw r (worked src dst c p s))
  | ended (src dst : Bool) (c : Ctx) (p : Port) (e : Ending) (hp : s.port.Grew p)
      (hh : j.shape = .handle → j.await = .read ∨ j.await = .write → src = s.srcOpen ∧ dst = s.dstOpen)
      (ht : t = endCommand e (worked src dst c p s))

theorem moved_release (j : Job) (e : Ending) (s : State) : Moved j s (release j e s) := by
  rcases release_cases j e s with ⟨hs, _, h⟩ | ⟨hs, _, _, h⟩ | ⟨_, h⟩ <;> rw [h]
  · exact .issued s.srcOpen false s.scratch s.port _ _ (.refl _) (by simp) (by simp [hs]) rfl
  · exact .issued false s.dstOpen s.scratch s.port _ _ (.refl _) (by simp) (by simp [hs]) rfl
  · exact .ended s.srcOpen s.dstOpen s.scratch s.port e (.refl _) (fun _ _ => ⟨rfl, rfl⟩) rfl

theorem moved_startCopy (j : Job) (s : State) : Moved j s (startCopy j s) := by
  rcases startCopy_cases j s with ⟨_, h⟩ | ⟨e, _, h⟩ <;> rw [h]
  · exact .issued s.srcOpen s.dstOpen _ s.port .read _ (.refl _) (by simp) (fun _ _ => ⟨⟨rfl, rfl⟩, .inl rfl⟩) rfl
  · exact moved_release j _ s

/-- Work before a move is work of the move. -/
theorem Moved.after_worked {j : Job} {s t : State} {src dst : Bool} {c : Ctx} {p : Port} (hp : s.port.Grew p)
    (hh : j.shape = .handle → j.await = .read ∨ j.await = .write → src = s.srcOpen ∧ dst = s.dstOpen)
    (h : Moved j (worked src dst c p s) t) : Moved j s t := by
  cases h with
  | issued src' dst' c' p' aw r hp' haw hh' ht =>
    refine .issued src' dst' c' p' aw r (hp.trans hp') haw (fun hj hw => ?_) ht
    obtain ⟨⟨hs, hd⟩, hr⟩ := hh' hj hw
    exact ⟨⟨hs.trans (hh hj hw).1, hd.trans (hh hj hw).2⟩, hr⟩
  | ended src' dst' c' p' e hp' hh' ht =>
    refine .ended src' dst' c' p' e (hp.trans hp') (fun hj hw => ?_) ht
    obtain ⟨hs, hd⟩ := hh' hj hw
    exact ⟨hs.trans (hh hj hw).1, hd.trans (hh hj hw).2⟩

theorem moved_copyChunk (C : Config) (j : Job) (d : List Byte) (s : State) : Moved j s (copyChunk C j d s) := by
  rcases copyChunk_cases C j d s with ⟨e, c, p, hx, h⟩ | ⟨code, p, hx, h⟩ <;> rw [h]
  · exact .issued s.srcOpen s.dstOpen c p .write _ (ksXor_grew hx) (by simp) (fun _ _ => ⟨⟨rfl, rfl⟩, .inr rfl⟩) rfl
  · exact .after_worked (ksXor_grew hx) (fun _ _ => ⟨rfl, rfl⟩) (moved_release j _ (putPort p s))

/-- Whatever the answer, the command makes one request or ends (`43_streaming.md` R176, R184, R185, R189). -/
theorem moved_onAnswer {C : Config} {j : Job} {a : StreamAnswer} {s t : State} (h : onAnswer C j a s = .next t) :
    Moved j s t := by
  rcases onAnswer_next h with ⟨hw, _, _, rfl⟩ | ⟨_, _, _, rfl⟩ | ⟨hw, _, rfl⟩ | ⟨_, _, _, rfl⟩ | ⟨_, _, _, _, rfl⟩ |
    ⟨_, _, rfl⟩ | ⟨_, _, _, rfl⟩ | ⟨_, _, rfl⟩ | ⟨_, _, _, rfl⟩ | ⟨_, _, _, rfl⟩
  · exact .issued true s.dstOpen s.scratch s.port _ _ (.refl _) (by simp) (by simp [hw]) rfl
  · exact moved_release ..
  · exact .after_worked (.refl _) (by simp [hw]) (moved_startCopy j (setDstOpen true s))
  · exact moved_release ..
  · exact moved_copyChunk ..
  · exact moved_release ..
  · exact moved_release ..
  · exact .issued s.srcOpen s.dstOpen s.scratch s.port .read _ (.refl _) (by simp) (fun _ _ => ⟨⟨rfl, rfl⟩, .inl rfl⟩) rfl
  · exact moved_release ..
  · exact moved_release ..

namespace Moved

variable {j : Job} {s t : State}

theorem log_prefix (h : Moved j s t) : s.log <+: t.log := by
  cases h with
  | issued src dst c p aw r hp haw hh ht =>
    obtain ⟨ev, hlog, -⟩ := hp
    exact ⟨ev ++ [.request r], by rw [ht, issue_log, worked, hlog, State.port_log, List.append_assoc]⟩
  | ended src dst c p e hp hh ht =>
    obtain ⟨ev, hlog, -⟩ := hp
    refine ⟨ev, ?_⟩
    rw [ht]
    rcases e with _ | _ | _ <;> exact hlog.symm

theorem obuf_eq (h : Moved j s t) : t.obuf = s.obuf := by
  cases h with
  | issued src dst c p aw r hp haw hh ht => rw [ht]; rfl
  | ended src dst c p e hp hh ht => rw [ht]; rcases e with _ | _ | _ <;> rfl

theorem olen_zero (h : Moved j s t) (hs : s.olen = 0) : t.olen = 0 := by
  cases h with
  | issued src dst c p aw r hp haw hh ht => rw [ht]; exact hs
  | ended src dst c p e hp hh ht =>
    rw [ht]
    rcases e with _ | _ | _
    · exact hs
    · rfl
    · rfl

/-- The job stays the job it is, in another place, or there is none. -/
theorem job_cases (h : Moved j s t) : t.job = none ∨ ∃ aw, aw ≠ .openRd ∧ t.job = some { j with await := aw } := by
  cases h with
  | issued src dst c p aw r hp haw hh ht => exact .inr ⟨aw, haw, by rw [ht, issue_job]⟩
  | ended src dst c p e hp hh ht => rw [ht]; exact .inl (by rcases e with _ | _ | _ <;> rfl)

/-- As long as there is a job the phase stays. -/
theorem phase_eq (h : Moved j s t) (hj : t.job ≠ none) : t.phase = s.phase := by
  cases h with
  | issued src dst c p aw r hp haw hh ht => rw [ht]; rfl
  | ended src dst c p e hp hh ht => subst ht; exact absurd (by rcases e with _ | _ | _ <;> rfl) hj

end Moved

/-! ## Handle commands open and close nothing -/

/-- The open flags are `src` and `dst`, and a job, if there is one, is that of a handle command in its copy. -/
def HandleHolds (src dst : Bool) (u : State) : Prop :=
  u.srcOpen = src ∧ u.dstOpen = dst ∧ ∀ j, u.job = some j → j.shape = .handle ∧ (j.await = .read ∨ j.await = .write)

theorem Moved.handleHolds {j : Job} {s t : State} (h : Moved j s t) (hs : j.shape = .handle)
    (hw : j.await = .read ∨ j.await = .write) : HandleHolds s.srcOpen s.dstOpen t := by
  cases h with
  | issued src dst c p aw r hp haw hh ht =>
    obtain ⟨⟨hsrc, hdst⟩, hr⟩ := hh hs hw
    subst ht
    refine ⟨hsrc, hdst, fun k hk => ?_⟩
    cases hk; exact ⟨hs, hr⟩
  | ended src dst c p e hp hh ht =>
    obtain ⟨hsrc, hdst⟩ := hh hs hw
    subst ht
    rcases e with _ | _ | _ <;> exact ⟨hsrc, hdst, nofun⟩

theorem runJob_handleHolds {C : Config} {src dst : Bool} {u t : State} (hu : HandleHolds src dst u)
    (h : runJob C u = .next t) : HandleHolds src dst t := by
  refine serve_invariant (P := HandleHolds src dst) ?_ hu h
  rintro v w j a as ⟨rfl, rfl, hj⟩ hvj hw
  exact (moved_onAnswer hw).handleHolds (hj j hvj).1 (hj j hvj).2

/-! ## The frame of a streaming command -/

/-- What a streaming command begun in `s` has changed by `u`: no operand, not `CTX`; no byte of `OBUF` is a result, and the
record has grown (`43_streaming.md` R179, R180). -/
structure StreamFrame (s u : State) : Prop where
  operands : SameOperands s u
  ctx : u.ctx = s.ctx
  inputs : u.inputs = s.inputs
  draws : u.draws = s.draws
  log : s.log <+: u.log
  olen : u.olen = 0
  obuf : u.obuf = []

theorem streamFrame_accept (s : State) : StreamFrame s (accept s) :=
  ⟨.refl s, rfl, rfl, rfl, List.prefix_rfl, rfl, rfl⟩

/-- One move keeps the frame. -/
theorem StreamFrame.move {s u t : State} {j : Job} (h : StreamFrame s u) (hm : Moved j u t) (hs : SameWhileRunning u t) :
    StreamFrame s t := by
  obtain ⟨ho, hc, hi, -, hd⟩ := hs
  exact ⟨h.operands.trans ho, hc.trans h.ctx, hi.trans h.inputs, hd.trans h.draws, h.log.trans hm.log_prefix,
    hm.olen_zero h.olen, hm.obuf_eq.trans h.obuf⟩

theorem StreamFrame.runJob {C : Config} {s u t : State} (h : StreamFrame s u) (hr : runJob C u = .next t) :
    StreamFrame s t := by
  refine serve_invariant (P := StreamFrame s) ?_ h hr
  intro v w j a as hv _ hw
  have htaken : StreamFrame s (takeAnswer a as v) := { hv with log := hv.log.trans (List.prefix_append ..) }
  exact htaken.move (moved_onAnswer hw) (same_onAnswer hw)

theorem streamFrame_pathStarted (dir : Dir) (s : State) : StreamFrame s (pathStarted dir s) :=
  { streamFrame_accept s with log := List.prefix_append .. }

theorem streamFrame_startCopy (j : Job) (s : State) : StreamFrame s (startCopy j (accept s)) :=
  (streamFrame_accept s).move (moved_startCopy ..) (same_startCopy ..)

/-- The answers used are the first of those in store. -/
theorem serve_answers {C : Config} {as : List StreamAnswer} {s t : State} (ha : s.answers = as)
    (h : serve C as s = .next t) : ∃ used, as = used ++ t.answers := by
  induction as generalizing s with
  | nil => cases h; exact ⟨[], ha.symm⟩
  | cons a as ih =>
    rcases hj : s.job with _ | j
    · rw [serve_no_job C _ hj] at h; cases h; exact ⟨[], ha.symm⟩
    · rw [serve_cons C a as hj] at h
      rcases ho : onAnswer C j a (takeAnswer a as s) with u | f | r <;> rw [ho] at h
      · obtain ⟨-, -, -, hu, -⟩ := same_onAnswer ho
        obtain ⟨used, hused⟩ := ih hu h
        exact ⟨a :: used, congrArg (a :: ·) hused⟩
      · cases h
      · cases h

theorem runJob_answers {C : Config} {s t : State} (h : runJob C s = .next t) : ∃ used, s.answers = used ++ t.answers :=
  serve_answers rfl h

/-- A streaming command that answers a next state was rejected in FATAL, or began and went on. -/
theorem streamCommand_next {C : Config} {shape : Shape} {dir : Dir} {s t : State}
    (h : streamCommand C shape dir s = .next t) :
    (s.phase = .fatal ∧ t = reject .fatalState s) ∨ (s.phase = .idle ∧ ∃ u, StreamFrame s u ∧ u.answers = s.answers ∧
      (shape = .handle → HandleHolds s.srcOpen s.dstOpen u) ∧ runJob C u = .next t) := by
  cases shape with
  | path =>
    rw [streamCommand, ctrPath] at h
    refine (whenIdle_next h).imp_right fun ⟨hp, e⟩ => ⟨hp, _, streamFrame_pathStarted dir s, rfl, nofun, e⟩
  | handle =>
    rw [streamCommand, ctrStrm] at h
    refine (whenIdle_next h).imp_right fun ⟨hp, e⟩ => ?_
    obtain ⟨-, -, -, ha, -⟩ := same_startCopy ⟨.handle, dir, .read⟩ (accept s)
    refine ⟨hp, _, streamFrame_startCopy ⟨.handle, dir, .read⟩ s, ha, fun _ => ?_, ?_⟩
    · exact (moved_startCopy ..).handleHolds (s := accept s) rfl (.inl rfl)
    · dsimp only at e
      split at e
      · cases e
      · exact e

/-- A streaming command by its shape. -/
theorem IsStreaming.exec_shape {i : Instr} (hi : IsStreaming i) :
    ∃ shape dir, exec i = streamCommand Config.machine shape dir ∧ (IsPath i ↔ shape = .path) ∧
      (IsHandle i ↔ shape = .handle) := by
  simp only [IsStreaming, List.mem_cons, List.not_mem_nil, or_false] at hi
  rcases hi with rfl | rfl | rfl | rfl
  · exact ⟨.path, .enc, rfl, by simp [IsPath], by simp [IsHandle]⟩
  · exact ⟨.path, .dec, rfl, by simp [IsPath], by simp [IsHandle]⟩
  · exact ⟨.handle, .enc, rfl, by simp [IsPath], by simp [IsHandle]⟩
  · exact ⟨.handle, .dec, rfl, by simp [IsPath], by simp [IsHandle]⟩

/-- Settles O45: acceptance has the frame and every answer keeps it. -/
theorem streamingCommandFrame : Obligations.StreamingCommandFrame := by
  intro i s t hi h
  obtain ⟨shape, dir, hexec, -, hhandle⟩ := hi.exec_shape
  rw [hexec] at h
  rcases streamCommand_next h with ⟨-, rfl⟩ | ⟨-, u, hu, hua, hholds, hr⟩
  · exact ⟨.refl s, rfl, rfl, rfl, ⟨[], (List.append_nil _).symm⟩, ⟨[], rfl⟩, nofun, fun _ => ⟨rfl, rfl⟩⟩
  · have ht := hu.runJob hr
    obtain ⟨ev, hlog⟩ := ht.log
    refine ⟨ht.operands, ht.ctx, ht.inputs, ht.draws, ⟨ev, hlog.symm⟩, hua ▸ runJob_answers hr,
      fun _ => ⟨ht.olen, ht.obuf⟩, fun hh => ?_⟩
    obtain ⟨hsrc, hdst, -⟩ := runJob_handleHolds (hholds (hhandle.1 hh)) hr
    exact ⟨hsrc, hdst⟩

end Sys2Proof.Machine
end

section
/-! SUPPORT. When a command is refused: buffer, INIT and `CTX_DROP` commands never from `IDLE`, streaming commands on one
object used twice or on an answer their outstanding request does not admit. -/

namespace Sys2Proof.Machine

/-! ## Commands that are never refused -/

/-- Outside `RUN` a command that is not a streaming command answers a next state. -/
theorem exec_answers {i : Instr} (hi : ¬ IsStreaming i) {s : State} (hp : s.phase ≠ .run) : ∃ t, exec i s = .next t := by
  rcases hs : s.phase with _ | _ | _
  · cases i with
    | cbcEnc =>
      rcases cbcEnc_cases Config.machine hs with ⟨_, e⟩ | ⟨_, _, _, e⟩ | ⟨_, _, _, _, _, e⟩ | ⟨_, _, _, _, _, _, e⟩ <;>
        exact ⟨_, e⟩
    | cbcDec =>
      rcases cbcDec_cases Config.machine hs with ⟨_, e⟩ | ⟨_, _, _, e⟩ | ⟨_, _, _, e⟩ | ⟨_, _, _, _, _, _, e⟩ |
        ⟨_, _, _, _, _, _, _, e⟩ <;> exact ⟨_, e⟩
    | cbcInit dir => rcases cbcInit_cases dir hs with ⟨_, _, e⟩ | ⟨_, e⟩ <;> exact ⟨_, e⟩
    | cbcBlocks =>
      rcases cbcBlocks_cases Config.machine hs with ⟨_, _, e⟩ | ⟨_, _, _, _, _, _, e⟩ | ⟨_, _, _, _, _, _, _, e⟩ <;>
        exact ⟨_, e⟩
    | ctrInit => rcases ctrInit_cases hs with ⟨_, _, e⟩ | ⟨_, e⟩ <;> exact ⟨_, e⟩
    | ctrXor =>
      rcases ctrXor_cases Config.machine hs with ⟨_, _, e⟩ | ⟨_, _, _, _, _, e⟩ | ⟨_, _, _, _, _, _, e⟩ <;> exact ⟨_, e⟩
    | ctxDrop => exact ⟨_, ctxDrop_idle hs⟩
    | ctrEncPath | ctrDecPath | ctrEncStrm | ctrDecStrm => exact absurd (by simp [IsStreaming]) hi
  · exact absurd hs hp
  · exact ⟨_, exec_fatal i hs⟩

/-! ## A running command -/

/-- A command in progress is in `RUN`. -/
theorem runJob_phase {C : Config} {s t : State} (hs : s.job ≠ none → s.phase = .run) (h : runJob C s = .next t)
    (ht : t.job ≠ none) : t.phase = .run := by
  refine serve_invariant (P := fun u => u.job ≠ none → u.phase = .run) ?_ hs h ht
  intro u v j a as hu hj hv hvj
  exact ((moved_onAnswer hv).phase_eq hvj).trans (hu (by simp [hj]))

/-- No answer leads to `OPEN_RD`. -/
theorem onAnswer_ne_openRd {C : Config} {k j : Job} {a : StreamAnswer} {s t : State} (h : onAnswer C k a s = .next t)
    (hj : t.job = some j) : j.await ≠ .openRd := by
  rcases (moved_onAnswer h).job_cases with hn | ⟨aw, haw, hk⟩
  · cases hn.symm.trans hj
  · cases hk.symm.trans hj; exact haw

/-- A command waits on `OPEN_RD` before its first answer only. -/
theorem runJob_openRd {C : Config} {s t : State} {j : Job} (h : runJob C s = .next t) (hj : t.job = some j)
    (ho : j.await = .openRd) : s.answers = [] := by
  rcases ha : s.answers with _ | ⟨a, as⟩
  · rfl
  · rw [runJob, ha] at h
    rcases hs : s.job with _ | k
    · rw [serve_no_job C _ hs] at h
      cases h
      cases hs.symm.trans hj
    · rw [serve_cons C a as hs] at h
      rcases hv : onAnswer C k a (takeAnswer a as s) with v | f | r <;> rw [hv] at h
      · exact absurd ho (serve_invariant (P := fun u => ∀ j, u.job = some j → j.await ≠ .openRd)
          (fun _ _ _ _ _ _ _ hw _ => onAnswer_ne_openRd hw) (fun _ => onAnswer_ne_openRd hv) h j hj)
      · cases h
      · cases h

/-- When a command `f`, with any answers in store the command that goes on from `b`, is refused: it waits on `OPEN_RD` of
the object that is its sink too and is answered `ok`, or after some of the answers in store it waits on a request to which
R74 does not list the next. -/
theorem runJob_refused {C : Config} {b : State} {r : Refusal} (hb : b.job ≠ none → b.phase = .run)
    {f : List StreamAnswer → Result} (hf : ∀ as, f as = runJob C (withOutside as b.inputs b)) :
    f b.answers = .refused r ↔
      (r = .sameStreamObject ∧ b.srcId = b.dstId ∧ (∃ j, b.job = some j ∧ j.await = .openRd) ∧
        ∃ more, b.answers = .ok :: more) ∨
      (r = .badServiceAnswer ∧ ∃ used a more u j, b.answers = used ++ a :: more ∧ f used = .next u ∧ u.phase = .run ∧
        u.job = some j ∧ ¬ j.await.Admits b.params a) := by
  simp only [hf]
  rw [show runJob C (withOutside b.answers b.inputs b) = serve C b.answers (withOutside b.answers b.inputs b) from rfl,
    serve_refused]
  constructor
  · rintro ⟨used, a, more, u, j, ha, hu, hj, ho⟩
    have hrun : runJob C (withOutside used b.inputs b) = .next u := hu
    obtain ⟨⟨hparams, -⟩, -⟩ := runJob_frame hrun
    rcases onAnswer_refused.1 ho with ⟨hr, hbad⟩ | ⟨hr, haw, rfl, hid⟩
    · exact .inr ⟨hr, used, a, more, u, j, ha, hrun, runJob_phase (s := withOutside used b.inputs b) hb hrun (by simp [hj]),
        hj, hparams ▸ hbad⟩
    · obtain rfl : used = [] := runJob_openRd hrun hj haw
      cases hu
      exact .inl ⟨hr, hid, ⟨j, hj, haw⟩, more, ha⟩
  · rintro (⟨hr, hid, ⟨j, hj, haw⟩, more, ha⟩ | ⟨hr, used, a, more, u, j, ha, hrun, -, hj, hbad⟩)
    · exact ⟨[], .ok, more, withOutside [] b.inputs b, j, ha, rfl, hj, onAnswer_refused.2 (.inr ⟨hr, haw, rfl, hid⟩)⟩
    · obtain ⟨⟨hparams, -⟩, -⟩ := runJob_frame hrun
      exact ⟨used, a, more, u, j, ha, hrun, hj, onAnswer_refused.2 (.inl ⟨hr, hparams ▸ hbad⟩)⟩

/-! ## Path and handle commands from `IDLE` -/

/-- A handle command after its validation (`43_streaming.md` R189, steps 1 and 2). -/
def strmStarted (dir : Dir) (s : State) : State := startCopy ⟨.handle, dir, .read⟩ (accept s)

theorem strmStarted_withAnswers (dir : Dir) (s : State) (as : List StreamAnswer) :
    strmStarted dir { s with answers := as } = withOutside as s.inputs (strmStarted dir s) :=
  startCopy_withOutside as s.inputs _ (accept s)

/-- A handle command goes on to its copy exactly when the operands validate; it never waits on `OPEN_RD`. -/
theorem strmStarted_job (dir : Dir) (s : State) :
    ((strmStarted dir s).job.isSome = true ↔ s.Validates) ∧ ∀ j, (strmStarted dir s).job = some j → j.await ≠ .openRd := by
  rcases startCopy_cases ⟨.handle, dir, .read⟩ (accept s) with ⟨hv, e⟩ | ⟨err, he, e⟩ <;> rw [strmStarted, e]
  · have hv : s.Validates := hv
    simp [hv]
  · have hn : ¬ s.Validates := by
      intro hv
      rw [validate_accept, validate_of hv] at he
      cases he
    simp [release, endCommand, hn]

theorem strmStarted_phase (dir : Dir) (s : State) (h : (strmStarted dir s).job ≠ none) :
    (strmStarted dir s).phase = .run :=
  (moved_startCopy ⟨.handle, dir, .read⟩ (accept s)).phase_eq h

theorem ctrStrm_same (C : Config) (dir : Dir) {s : State} (hp : s.phase = .idle) (h : s.Validates ∧ s.srcId = s.dstId) :
    ctrStrm C dir s = .refused .sameStreamObject :=
  (ctrStrm_idle C dir hp).trans (if_pos ⟨(strmStarted_job dir s).1.2 h.1, h.2⟩)

theorem ctrStrm_started (C : Config) (dir : Dir) {s : State} (hp : s.phase = .idle)
    (h : ¬ (s.Validates ∧ s.srcId = s.dstId)) : ctrStrm C dir s = runJob C (strmStarted dir s) :=
  (ctrStrm_idle C dir hp).trans (if_neg fun ⟨hj, hid⟩ => h ⟨(strmStarted_job dir s).1.1 hj, hid⟩)

/-- When a streaming command is refused from `IDLE` (`43_streaming.md` R194, `20_memory.md` R74). -/
theorem streamCommand_refused {C : Config} {shape : Shape} {dir : Dir} {s : State} {r : Refusal} (hp : s.phase = .idle) :
    streamCommand C shape dir s = .refused r ↔
      (r = .sameStreamObject ∧ s.srcId = s.dstId ∧
        ((shape = .path ∧ ∃ more, s.answers = .ok :: more) ∨ (shape = .handle ∧ s.Validates))) ∨
      (r = .badServiceAnswer ∧ ∃ used a more u j, s.answers = used ++ a :: more ∧
        streamCommand C shape dir { s with answers := used } = .next u ∧ u.phase = .run ∧ u.job = some j ∧
        ¬ j.await.Admits s.params a) := by
  cases shape with
  | path =>
    refine (runJob_refused (b := pathStarted dir s) (fun _ => rfl)
      (f := fun as => streamCommand C .path dir { s with answers := as }) fun as => ctrPath_idle C dir hp).trans
      (or_congr_left ?_)
    simp [pathStarted]
  | handle =>
    by_cases hsame : s.Validates ∧ s.srcId = s.dstId
    · have refused : ∀ as, streamCommand C .handle dir { s with answers := as } = .refused .sameStreamObject :=
        fun as => ctrStrm_same C dir hp hsame
      rw [show streamCommand C .handle dir s = _ from refused s.answers]
      refine ⟨fun h => .inl ⟨(Host.Outcome.refused.inj h).symm, hsame.2, .inr ⟨rfl, hsame.1⟩⟩, ?_⟩
      rintro (⟨rfl, -⟩ | ⟨-, used, a, more, u, j, -, e, -⟩)
      · rfl
      · cases (refused used).symm.trans e
    · obtain ⟨⟨hparams, -⟩, -, hin, ha, -⟩ := same_startCopy ⟨.handle, dir, .read⟩ (accept s)
      have started : ∀ as, streamCommand C .handle dir { s with answers := as } =
          runJob C (withOutside as (strmStarted dir s).inputs (strmStarted dir s)) := by
        intro as
        rw [show (strmStarted dir s).inputs = s.inputs from hin, ← strmStarted_withAnswers]
        exact ctrStrm_started C dir hp hsame
      have h := runJob_refused (r := r) (strmStarted_phase dir s) started
      rw [show (strmStarted dir s).answers = s.answers from ha, show (strmStarted dir s).params = s.params from hparams] at h
      refine h.trans (or_congr_left (iff_of_false ?_ ?_))
      · rintro ⟨-, -, ⟨j, hj, haw⟩, -⟩
        exact (strmStarted_job dir s).2 j hj haw
      · rintro ⟨-, hid, ⟨hs, -⟩ | ⟨-, hv⟩⟩
        · cases hs
        · exact hsame ⟨hv, hid⟩

theorem streamCommand_ne_fault (C : Config) (shape : Shape) (dir : Dir) {s : State} (hp : s.phase = .idle) (f : Fault) :
    streamCommand C shape dir s ≠ .fault f := by
  cases shape with
  | path =>
    rw [streamCommand, ctrPath_idle C dir hp]
    exact serve_ne_fault C s.answers _ f
  | handle =>
    rw [streamCommand, ctrStrm_idle C dir hp]
    split
    · simp
    · exact serve_ne_fault C _ _ f

/-! ## All commands -/

theorem exec_ne_fault (i : Instr) (s : State) (f : Fault) : exec i s ≠ .fault f := by
  rcases hp : s.phase with _ | _ | _
  · by_cases hi : IsStreaming i
    · obtain ⟨shape, dir, hexec, -⟩ := hi.exec_shape
      rw [hexec]
      exact streamCommand_ne_fault _ shape dir hp f
    · obtain ⟨t, e⟩ := exec_answers hi (s := s) (by simp [hp])
      simp [e]
  · simp [exec_run i hp]
  · simp [exec_fatal i hp]

/-- Settles O9, by the phase, and from `IDLE` by whether the command is a streaming command. -/
theorem refusalsOfCommands : Obligations.RefusalsOfCommands := by
  refine fun i s => ⟨exec_ne_fault i s, fun r => ?_⟩
  have hphase : s.phase = .idle ∨ s.phase = .run ∨ s.phase = .fatal := by cases s.phase <;> simp
  rcases hphase with hp | hp | hp
  · by_cases hi : IsStreaming i
    · obtain ⟨shape, dir, hexec, hpath, hhandle⟩ := hi.exec_shape
      rw [hexec, streamCommand_refused hp, hpath, hhandle]
      simp [hi, hp]
    · obtain ⟨t, e⟩ := exec_answers hi (s := s) (by simp [hp])
      have hpath : ¬ IsPath i := fun h => hi h.isStreaming
      have hhandle : ¬ IsHandle i := fun h => hi h.isStreaming
      simp [e, hi, hpath, hhandle, hp]
  · have refused : ∀ as, exec i { s with answers := as } = .refused .accessWhileRunning := fun as => exec_run i hp
    rw [show exec i s = _ from refused s.answers]
    refine ⟨fun h => .inl ⟨(Host.Outcome.refused.inj h).symm, hp⟩, ?_⟩
    rintro (⟨rfl, -⟩ | ⟨-, hidle, -⟩ | ⟨-, -, used, a, more, u, j, -, e, -⟩)
    · rfl
    · cases hp.symm.trans hidle
    · cases (refused used).symm.trans e
  · have rejected : ∀ as, exec i { s with answers := as } = .next (reject .fatalState { s with answers := as }) :=
      fun as => exec_fatal i hp
    rw [show exec i s = _ from rejected s.answers]
    refine iff_of_false nofun ?_
    rintro (⟨-, hrun⟩ | ⟨-, hidle, -⟩ | ⟨-, -, used, a, more, u, j, -, e, hrun, -⟩)
    · cases hp.symm.trans hrun
    · cases hp.symm.trans hidle
    · obtain rfl := Host.Outcome.next.inj ((rejected used).symm.trans e)
      cases hp.symm.trans hrun

end Sys2Proof.Machine
end

section
/-! SUPPORT. The handles of a path command: on every way through its copy the closes made and the closes still owed are those
of the handles that were opened. -/

namespace Sys2Proof.Machine

/-! ## One answer, by the outstanding request of a path command -/

section

variable {C : Config} {shape : Shape} {dir : Dir} {a : StreamAnswer} {s t : State}

theorem onAnswer_openRd_next (h : onAnswer C ⟨shape, dir, .openRd⟩ a s = .next t) :
    (a = .ok ∧ t = issue ⟨shape, dir, .openRd⟩ .createTrunc (.createTrunc s.dstId) (setSrcOpen true s)) ∨
    ∃ c, a = .ioerr c ∧ t = release ⟨shape, dir, .openRd⟩ (.error (.ioError .openRd c)) s := by
  have h' := onAnswer_next h
  simp only [reduceCtorEq, false_and, true_and, exists_false, or_false] at h'
  exact h'.imp_left fun ⟨ha, _, ht⟩ => ⟨ha, ht⟩

theorem onAnswer_createTrunc_next (h : onAnswer C ⟨shape, dir, .createTrunc⟩ a s = .next t) :
    (a = .ok ∧ t = startCopy ⟨shape, dir, .createTrunc⟩ (setDstOpen true s)) ∨
    ∃ c, a = .ioerr c ∧ t = release ⟨shape, dir, .createTrunc⟩ (.error (.ioError .createTrunc c)) s := by
  simpa using onAnswer_next h

theorem onAnswer_read_next (h : onAnswer C ⟨shape, dir, .read⟩ a s = .next t) :
    (∃ d, t = copyChunk C ⟨shape, dir, .read⟩ d s) ∨ ∃ e, t = release ⟨shape, dir, .read⟩ e s := by
  have h' := onAnswer_next h
  simp only [reduceCtorEq, false_and, true_and, exists_false, false_or, or_false] at h'
  rcases h' with ⟨d, -, -, ht⟩ | ⟨-, ht⟩ | ⟨c, -, ht⟩
  · exact .inl ⟨d, ht⟩
  · exact .inr ⟨_, ht⟩
  · exact .inr ⟨_, ht⟩

theorem onAnswer_write_next (h : onAnswer C ⟨shape, dir, .write⟩ a s = .next t) :
    t = issue ⟨shape, dir, .write⟩ .read (.read s.srcId s.params.chunk) s ∨ ∃ e, t = release ⟨shape, dir, .write⟩ e s := by
  have h' := onAnswer_next h
  simp only [reduceCtorEq, false_and, true_and, exists_false, false_or, or_false] at h'
  rcases h' with ⟨-, ht⟩ | ⟨c, -, ht⟩
  · exact .inl ht
  · exact .inr ⟨_, ht⟩

theorem onAnswer_close_next {e : Ending} (h : onAnswer C ⟨shape, dir, .close e⟩ a s = .next t) :
    t = release ⟨shape, dir, .close e⟩ e s := by
  have h' := onAnswer_next h
  simp only [reduceCtorEq, false_and, exists_false, false_or, Await.close.injEq] at h'
  obtain ⟨e', rfl, -, ht⟩ := h'
  exact ht

end

/-! ## Closes made and closes owed -/

theorem requests_of_primEvents {ev : List Event} (h : primEvents ev = ev) : requests ev = [] := by
  refine List.filterMap_eq_nil_iff.2 fun e he => ?_
  have hprim := List.filter_eq_self.1 h e he
  cases e with
  | prim dir key block r => rfl
  | request r | answer a | hostRead p width value => cases hprim

/-- The events of a path command show which handles were opened, so that `closes` is what it has to close: both, the source
alone, or nothing (`43_streaming.md` R185). -/
inductive Opened (s : State) (ev : List Event) : (closes : List StreamReq) → Prop
  | both (h : OpenedDst s ev) : Opened s ev [.close s.dstId, .close s.srcId]
  | source (c : Word) (h : [.request (.openRd s.srcId), .answer .ok, .request (.createTrunc s.dstId),
      .answer (.ioerr c)] <+: ev) : Opened s ev [.close s.srcId]
  | nothing (c : Word) (h : [.request (.openRd s.srcId), .answer (.ioerr c)] <+: ev) : Opened s ev []

theorem Opened.append {s : State} {ev : List Event} {closes : List StreamReq} (h : Opened s ev closes) (ev' : List Event) :
    Opened s (ev ++ ev') closes := by
  cases h with
  | both h => exact .both (h.trans (List.prefix_append ..))
  | source c h => exact .source c (h.trans (List.prefix_append ..))
  | nothing c h => exact .nothing c (h.trans (List.prefix_append ..))

/-- What was opened, in the terms of `43_streaming.md` R186. -/
theorem Opened.opened {s : State} {ev : List Event} {closes : List StreamReq} (h : Opened s ev closes) :
    (OpenedDst s ev ∧ closes = [.close s.dstId, .close s.srcId]) ∨
      (OpenedSrc s ev ∧ ¬ OpenedDst s ev ∧ closes = [.close s.srcId]) ∨ (¬ OpenedSrc s ev ∧ closes = []) := by
  cases h with
  | both h => exact .inl ⟨h, rfl⟩
  | source c h =>
    refine .inr (.inl ⟨.trans ⟨_, rfl⟩ h, fun hd => ?_, rfl⟩)
    have := List.prefix_of_prefix_length_le hd h (Nat.le_refl _)
    simp at this
  | nothing c h =>
    refine .inr (.inr ⟨fun hs => ?_, rfl⟩)
    have := List.prefix_of_prefix_length_le hs h (Nat.le_refl _)
    simp at this

/-- The closes a path command still owes, by its open flags: the sink's first. -/
def owed (s : State) (src dst : Bool) : List StreamReq :=
  (if dst then [.close s.dstId] else []) ++ (if src then [.close s.srcId] else [])

/-- The requests among `ev` are `front`, none of it a `CLOSE`, and the closes `made`; these and the closes `left` are what
the command has to close. -/
structure Releasing (s : State) (ev : List Event) (front made left : List StreamReq) : Prop where
  requests_eq : requests ev = front ++ made
  noClose : ∀ id, .close id ∉ front
  opened : Opened s ev (made ++ left)
  openRd : (requests ev).count (.openRd s.srcId) = 1
  createTrunc : (requests ev).count (.createTrunc s.dstId) ≤ 1

namespace Releasing

variable {s : State} {ev : List Event} {front made left : List StreamReq}

theorem quiet (h : Releasing s ev front made left) {ev' : List Event} (hq : requests ev' = []) :
    Releasing s (ev ++ ev') front made left := by
  have hreqs : requests (ev ++ ev') = requests ev := by rw [requests_append, hq, List.append_nil]
  exact ⟨hreqs.trans h.requests_eq, h.noClose, h.opened.append ev', hreqs ▸ h.openRd, hreqs ▸ h.createTrunc⟩

/-- A request of the copy. -/
theorem request {r : StreamReq} (h : Releasing s ev front [] left)
    (hr : (∃ id n, r = .read id n) ∨ ∃ id d, r = .write id d) :
    Releasing s (ev ++ [.request r]) (front ++ [r]) [] left := by
  refine ⟨by simpa using h.requests_eq, fun id => ?_, h.opened.append _, ?_, ?_⟩
  · have := h.noClose id
    rcases hr with ⟨_, _, rfl⟩ | ⟨_, _, rfl⟩ <;> simpa using this
  · rw [requests_append, List.count_append, h.openRd]
    rcases hr with ⟨_, _, rfl⟩ | ⟨_, _, rfl⟩ <;> simp
  · rw [requests_append, List.count_append]
    rcases hr with ⟨_, _, rfl⟩ | ⟨_, _, rfl⟩ <;> simpa using h.createTrunc

/-- One of the closes owed is made. -/
theorem close {id : Word} (h : Releasing s ev front made (.close id :: left)) :
    Releasing s (ev ++ [.request (.close id)]) front (made ++ [.close id]) left := by
  refine ⟨?_, h.noClose, ?_, ?_, ?_⟩
  · simp [h.requests_eq]
  · simpa using h.opened.append [.request (.close id)]
  · simpa [requests_append, List.count_append] using h.openRd
  · simpa [requests_append, List.count_append] using h.createTrunc

end Releasing

/-! ## Where a path command is -/

/-- A path command begun in `s` is on its way, with its job, its open flags and the events `ev`: opening the source, opening
the sink, reading, writing, closing, or ended (`43_streaming.md` R184, R185). -/
inductive PathAt (s : State) (job : Option Job) (src dst : Bool) (ev : List Event) : Prop
  | opening (dir : Dir) (hj : job = some ⟨.path, dir, .openRd⟩) (hs : src = false) (hd : dst = false)
      (he : ev = [.request (.openRd s.srcId)])
  | creating (dir : Dir) (hj : job = some ⟨.path, dir, .createTrunc⟩) (hs : src = true) (hd : dst = false)
      (he : ev = [.request (.openRd s.srcId), .answer .ok, .request (.createTrunc s.dstId)])
  | reading (dir : Dir) (front : List StreamReq) (hj : job = some ⟨.path, dir, .read⟩)
      (h : Releasing s ev front [] (owed s src dst))
  | writing (dir : Dir) (front : List StreamReq) (hj : job = some ⟨.path, dir, .write⟩)
      (h : Releasing s ev front [] (owed s src dst))
  | closing (dir : Dir) (e : Ending) (front made : List StreamReq) (hj : job = some ⟨.path, dir, .close e⟩)
      (h : Releasing s ev front made (owed s src dst))
  | ended (front made : List StreamReq) (hj : job = none) (hs : src = false) (hd : dst = false)
      (h : Releasing s ev front made [])

/-- The state `u` uses the objects that `s` names, and its record is that of `s` and then `ev`. -/
def Recorded (s u : State) (ev : List Event) : Prop := u.srcId = s.srcId ∧ u.dstId = s.dstId ∧ u.log = s.log ++ ev

/-- The record of the command begun in `s` shows where it is in `u`. -/
def PathRecord (s u : State) : Prop := ∃ ev, Recorded s u ev ∧ PathAt s u.job u.srcOpen u.dstOpen ev

theorem Recorded.takeAnswer {s u : State} {ev : List Event} (h : Recorded s u ev) (a : StreamAnswer)
    (as : List StreamAnswer) : Recorded s (takeAnswer a as u) (ev ++ [.answer a]) := by
  obtain ⟨hsrc, hdst, hl⟩ := h
  exact ⟨hsrc, hdst, by rw [takeAnswer_log, hl, List.append_assoc]⟩

theorem Recorded.issue {s u : State} {ev : List Event} (h : Recorded s u ev) (j : Job) (aw : Await) (r : StreamReq) :
    Recorded s (issue j aw r u) (ev ++ [.request r]) := by
  obtain ⟨hsrc, hdst, hl⟩ := h
  exact ⟨hsrc, hdst, by rw [issue_log, hl, List.append_assoc]⟩

/-- A release makes the next close owed, or ends the command when none is (`43_streaming.md` R185). -/
theorem pathRecord_release {s u : State} {ev : List Event} {front made : List StreamReq} (hu : Recorded s u ev)
    (h : Releasing s ev front made (owed s u.srcOpen u.dstOpen)) (dir : Dir) (aw : Await) (e : Ending) :
    PathRecord s (release ⟨.path, dir, aw⟩ e u) := by
  obtain ⟨hsrc, hdst, hl⟩ := hu
  rcases release_cases ⟨.path, dir, aw⟩ e u with ⟨-, hd, hr⟩ | ⟨-, hd, hs, hr⟩ | ⟨hopen, hr⟩ <;> rw [hr]
  · rw [hd] at h
    rw [hdst]
    exact ⟨_, Recorded.issue (u := setDstOpen false u) ⟨hsrc, hdst, hl⟩ .., .closing dir e front _ rfl h.close⟩
  · rw [hd, hs] at h
    rw [hsrc]
    refine ⟨_, Recorded.issue (u := setSrcOpen false u) ⟨hsrc, hdst, hl⟩ ..,
      .closing dir e front (made ++ [.close s.srcId]) rfl ?_⟩
    rw [show (issue ⟨.path, dir, aw⟩ (.close e) (.close s.srcId) (setSrcOpen false u)).dstOpen = false from hd]
    exact h.close
  · obtain ⟨hd, hs⟩ := hopen rfl
    rw [hd, hs] at h
    rcases e with _ | _ | _ <;> exact ⟨ev, ⟨hsrc, hdst, hl⟩, .ended front made rfl hs hd h⟩

/-- A chunk is written, or a fault releases the handles. -/
theorem pathRecord_copyChunk {s u : State} {ev : List Event} {front : List StreamReq} (hu : Recorded s u ev)
    (h : Releasing s ev front [] (owed s u.srcOpen u.dstOpen)) (C : Config) (dir : Dir) (d : List Byte) :
    PathRecord s (copyChunk C ⟨.path, dir, .read⟩ d u) := by
  obtain ⟨hsrc, hdst, hl⟩ := hu
  have asked : ∀ p : Port, u.port.Grew p → ∃ evp, requests evp = [] ∧ Recorded s (putPort p u) (ev ++ evp) := by
    rintro p ⟨evp, hp, hprim⟩
    exact ⟨evp, requests_of_primEvents hprim, hsrc, hdst, by rw [putPort_log, hp, State.port_log, hl, List.append_assoc]⟩
  rcases copyChunk_cases C ⟨.path, dir, .read⟩ d u with ⟨x, c, p, hx, e⟩ | ⟨code, p, hx, e⟩ <;> rw [e] <;>
    obtain ⟨evp, hq, hrec⟩ := asked p (ksXor_grew hx)
  · exact ⟨_, Recorded.issue (u := setScratch c (putPort p u)) hrec .., .writing dir _ rfl
      ((h.quiet hq).request (.inr ⟨_, _, rfl⟩))⟩
  · exact pathRecord_release hrec (h.quiet hq) dir _ _

/-- One answer, on the record as it came, leaves the record of a path command. -/
theorem pathRecord_onAnswer {C : Config} {s u t : State} {j : Job} {a : StreamAnswer} {ev : List Event}
    (hu : Recorded s u (ev ++ [.answer a])) (h : PathAt s u.job u.srcOpen u.dstOpen ev) (hj : u.job = some j)
    (ho : onAnswer C j a u = .next t) : PathRecord s t := by
  cases h with
  | opening dir hk hs hd he =>
    cases hk.symm.trans hj
    subst he
    rcases onAnswer_openRd_next ho with ⟨rfl, rfl⟩ | ⟨c, rfl, rfl⟩
    · rw [hu.2.1]
      exact ⟨_, Recorded.issue (u := setSrcOpen true u) hu .., .creating dir rfl rfl hd rfl⟩
    · refine pathRecord_release (front := [.openRd s.srcId]) (made := []) hu ?_ dir _ _
      exact ⟨rfl, by simp, by simpa [owed, hs, hd] using Opened.nothing c List.prefix_rfl, by simp, by simp⟩
  | creating dir hk hs hd he =>
    cases hk.symm.trans hj
    subst he
    rcases onAnswer_createTrunc_next ho with ⟨rfl, rfl⟩ | ⟨c, rfl, rfl⟩
    · have hrel : Releasing s _ [.openRd s.srcId, .createTrunc s.dstId] [] (owed s u.srcOpen true) :=
        ⟨rfl, by simp, by simpa [owed, hs] using Opened.both List.prefix_rfl, by simp, by simp⟩
      rcases startCopy_cases ⟨.path, dir, .createTrunc⟩ (setDstOpen true u) with ⟨-, e⟩ | ⟨_, -, e⟩ <;> rw [e]
      · exact ⟨_, Recorded.issue (u := setScratch _ (setDstOpen true u)) hu .., .reading dir _ rfl
          (hrel.request (.inl ⟨_, _, rfl⟩))⟩
      · exact pathRecord_release (u := setDstOpen true u) hu hrel dir _ _
    · refine pathRecord_release (front := [.openRd s.srcId, .createTrunc s.dstId]) (made := []) hu ?_ dir _ _
      exact ⟨rfl, by simp, by simpa [owed, hs, hd] using Opened.source c List.prefix_rfl, by simp, by simp⟩
  | reading dir front hk hrel =>
    cases hk.symm.trans hj
    have hrel := hrel.quiet (ev' := [.answer a]) rfl
    rcases onAnswer_read_next ho with ⟨d, rfl⟩ | ⟨e, rfl⟩
    · exact pathRecord_copyChunk hu hrel C dir d
    · exact pathRecord_release hu hrel dir _ _
  | writing dir front hk hrel =>
    cases hk.symm.trans hj
    have hrel := hrel.quiet (ev' := [.answer a]) rfl
    rcases onAnswer_write_next ho with rfl | ⟨e, rfl⟩
    · exact ⟨_, hu.issue .., .reading dir _ rfl (hrel.request (.inl ⟨_, _, rfl⟩))⟩
    · exact pathRecord_release hu hrel dir _ _
  | closing dir e front made hk hrel =>
    cases hk.symm.trans hj
    rw [onAnswer_close_next ho]
    exact pathRecord_release hu (hrel.quiet (ev' := [.answer a]) rfl) dir _ _
  | ended front made hk hs hd hrel => cases hk.symm.trans hj

/-! ## Every execution of a path command -/

/-- What holds of a path command begun in `s` between two answers. -/
def OnPath (s u : State) : Prop := PathRecord s u ∧ (u.job ≠ none → u.phase = .run)

theorem onPath_pathStarted (dir : Dir) {s : State} (hq : s.Quiet) : OnPath s (pathStarted dir s) := by
  obtain ⟨-, hs, hd, -⟩ := hq
  exact ⟨⟨_, ⟨rfl, rfl, rfl⟩, .opening dir rfl hs hd rfl⟩, fun _ => rfl⟩

theorem OnPath.runJob {C : Config} {s u t : State} (h : OnPath s u) (hr : runJob C u = .next t) : OnPath s t := by
  obtain ⟨hrec, hrun⟩ := h
  refine ⟨serve_invariant (P := PathRecord s) ?_ hrec hr, runJob_phase hrun hr⟩
  rintro v w j a as ⟨ev, hv, hat⟩ hj hw
  exact pathRecord_onAnswer (hv.takeAnswer a as) hat hj hw

/-- What every batch of answers keeps holds at the end of them. -/
theorem afterAnswers_invariant {P : State → Prop}
    (batch : ∀ (u t : State) (as : List StreamAnswer), P u → runJob Config.machine (withOutside (u.answers ++ as) [] u) =
      .next t → P t) {batches : List (List StreamAnswer)} {u t : State} (hu : P u) (h : AfterAnswers batches u t) : P t := by
  induction batches generalizing u with
  | nil => cases h; exact hu
  | cons as batches ih =>
    obtain ⟨hp, v, hv, hrest⟩ := h
    rw [step_serviceAnswers rfl, serviceAnswers, if_pos hp] at hv
    exact ih (batch u v as hu hv) hrest

/-- Settles O40: closes made and closes owed are those of the handles opened, and at the end none is owed. -/
theorem exactlyOnceRelease : Obligations.ExactlyOnceRelease := by
  intro s u t i batches hi hp hq he hafter ht
  obtain ⟨dir, hexec⟩ := hi.exec_eq
  rw [hexec, ctrPath_idle _ dir hp] at he
  have hu : OnPath s u := (onPath_pathStarted dir hq).runJob he
  obtain ⟨⟨ev, ⟨-, -, hl⟩, hat⟩, hrun⟩ :=
    afterAnswers_invariant (P := OnPath s) (fun _ _ _ hv hr => OnPath.runJob (u := withOutside _ [] _) hv hr) hu hafter
  have hj : t.job = none := by
    by_contra hj
    exact ht (hrun hj)
  cases hat with
  | ended front made _ hs hd hrel =>
    refine ⟨hs, hd, ev, front, made, hl, hrel.requests_eq, hrel.noClose, ?_, hrel.openRd, hrel.createTrunc⟩
    simpa using hrel.opened.opened
  | opening dir hk | creating dir hk | reading dir front hk | writing dir front hk | closing dir e front made hk =>
    cases hj.symm.trans hk

end Sys2Proof.Machine
end

section
/-! SUPPORT. The encrypt and the decrypt command of a shape side by side: whatever is answered they do the same on the ports;
they differ in the direction they remember and in how a primitive fault ends them. -/

namespace Sys2Proof.Machine

/-! ## Two states that differ in their reports -/

/-- What a command reports: the phase and the result registers that its end writes. -/
structure Report where
  phase : Phase
  err : Bool
  errKind : ErrKind
  ioWhere : IoWhere
  ioErr : Word
  olen : Word

def State.report (s : State) : Report := ⟨s.phase, s.err, s.errKind, s.ioWhere, s.ioErr, s.olen⟩

/-- The state with another report and another job. -/
def withReport (ρ : Report) (job : Option Job) (s : State) : State :=
  { s with
    phase := ρ.phase, err := ρ.err, errKind := ρ.errKind, ioWhere := ρ.ioWhere, ioErr := ρ.ioErr, olen := ρ.olen
    job := job }

/-- The states differ at most in their reports and jobs; under the premise `P` their reports are equal and the primitive
never faults. -/
def Matched (P : Prop) (s u : State) : Prop :=
  ∃ ρ job, u = withReport ρ job s ∧ (P → ρ = s.report ∧ PrimNeverFaults s)

/-- A job and the same job of the decrypt command; a release may remember another end, but not under `P`. -/
inductive Job.Twin (P : Prop) : Job → Job → Prop
  | same (shape : Shape) (dir : Dir) (aw : Await) : Job.Twin P ⟨shape, dir, aw⟩ ⟨shape, .dec, aw⟩
  | closing (shape : Shape) (dir : Dir) (e e' : Ending) (he : P → e = e') :
      Job.Twin P ⟨shape, dir, .close e⟩ ⟨shape, .dec, .close e'⟩

/-- Matched states of two commands that go on side by side, or have both ended. -/
def Paired (P : Prop) (s u : State) : Prop := Matched P s u ∧ Option.Rel (Job.Twin P) s.job u.job

/-- Outcomes of one kind, their next states related by `R`. -/
inductive SameOutcome (R : State → State → Prop) : Result → Result → Prop
  | next {t u : State} (h : R t u) : SameOutcome R (.next t) (.next u)
  | fault (f : Fault) : SameOutcome R (.fault f) (.fault f)
  | refused (r : Refusal) : SameOutcome R (.refused r) (.refused r)

theorem SameOutcome.exists_next {R : State → State → Prop} {x y : Result} (h : SameOutcome R x y) {t : State}
    (ht : x = .next t) : ∃ u, y = .next u ∧ R t u := by
  cases h with
  | next h => cases ht; exact ⟨_, rfl, h⟩
  | fault f => cases ht
  | refused r => cases ht

theorem SameOutcome.refused_iff {R : State → State → Prop} {x y : Result} (h : SameOutcome R x y) (r : Refusal) :
    x = .refused r ↔ y = .refused r := by
  cases h with
  | next h => exact iff_of_false nofun nofun
  | fault f => exact Iff.rfl
  | refused q => exact Iff.rfl

theorem Matched.refl {P : Prop} {s : State} (hP : P → PrimNeverFaults s) : Matched P s s :=
  ⟨s.report, s.job, rfl, fun hp => ⟨rfl, hP hp⟩⟩

/-- Two states served side by side stay related when each answer keeps them so. -/
theorem serve_related {C : Config} {P : Prop} (step : ∀ {s u : State} {j k : Job} (a : StreamAnswer), Matched P s u →
      j.Twin P k → SameOutcome (Paired P) (onAnswer C j a s) (onAnswer C k a u))
    (as : List StreamAnswer) {s u : State} (h : Paired P s u) : SameOutcome (Paired P) (serve C as s) (serve C as u) := by
  induction as generalizing s u with
  | nil => exact .next h
  | cons a as ih =>
    obtain ⟨⟨ρ, job, hu, hP⟩, hjobs⟩ := h
    have htaken : Matched P (takeAnswer a as s) (takeAnswer a as u) := ⟨ρ, job, congrArg (takeAnswer a as) hu, hP⟩
    rcases hj : s.job with _ | j <;> rcases hk : u.job with _ | k <;> rw [hj, hk] at hjobs
    · rw [serve_no_job C _ hj, serve_no_job C _ hk]
      exact .next ⟨⟨ρ, job, hu, hP⟩, by rw [hj, hk]; exact hjobs⟩
    · cases hjobs
    · cases hjobs
    · obtain ⟨htwin⟩ := hjobs
      have hstep := step a htaken htwin
      rw [serve_cons C a as hj, serve_cons C a as hk]
      generalize onAnswer C j a (takeAnswer a as s) = x, onAnswer C k a (takeAnswer a as u) = y at hstep
      cases hstep with
      | next hpair => exact ih hpair
      | fault f => exact .fault f
      | refused r => exact .refused r

/-! ## What is left of the primitive's answers -/

theorem Port.ask_plan {C : Config} {dir : Dir} {k : List Byte} {b : Block} {p q : Port} {x : Except Byte Block}
    (h : p.ask C dir k b = (x, q)) : q.plan <:+ p.plan := by
  obtain ⟨_ | ⟨_ | c, rest⟩, log⟩ := p <;> cases h
  · exact List.suffix_rfl
  · exact List.suffix_cons ..
  · exact List.suffix_cons ..

theorem ksRefill_plan {C : Config} {c : Ctx} {p q : Port} {r : Except Byte Ctx} (h : ksRefill C c p = (r, q)) :
    q.plan <:+ p.plan := by
  unfold ksRefill at h
  split at h
  · cases h; exact List.suffix_rfl
  · split at h <;> rename_i hask <;> cases h <;> exact Port.ask_plan hask

/-- The keystream uses up the first of the primitive's answers. -/
theorem ksXor_plan {C : Config} {c : Ctx} {d : List Byte} {p q : Port} {r : Except Byte (List Byte × Ctx)}
    (h : ksXor C c d p = (r, q)) : q.plan <:+ p.plan := by
  induction d generalizing c p q r with
  | nil => cases h; exact List.suffix_rfl
  | cons x d ih =>
    simp only [ksXor] at h
    split at h
    · rename_i hfill
      cases h; exact ksRefill_plan hfill
    · rename_i hfill
      split at h <;> rename_i hrest <;> cases h <;> exact (ih hrest).trans (ksRefill_plan hfill)

/-! ## Side by side -/

theorem onAnswer_openRd_ok (C : Config) (shape : Shape) (dir : Dir) (s : State) :
    onAnswer C ⟨shape, dir, .openRd⟩ .ok s = if s.srcId = s.dstId then .refused .sameStreamObject
      else .next (issue ⟨shape, dir, .openRd⟩ .createTrunc (.createTrunc s.dstId) (setSrcOpen true s)) := rfl

/-- What a running command looks at is the same. -/
structure SameSight (s u : State) : Prop where
  params : u.params = s.params
  srcId : u.srcId = s.srcId
  dstId : u.dstId = s.dstId
  validate : validate u = validate s
  srcOpen : u.srcOpen = s.srcOpen
  dstOpen : u.dstOpen = s.dstOpen
  scratch : u.scratch = s.scratch
  port : u.port = s.port
  answers : u.answers = s.answers

section

variable {P : Prop} {s u : State} (h : Matched P s u)
include h

theorem Matched.sight : SameSight s u := by
  obtain ⟨ρ, job, rfl, -⟩ := h
  constructor <;> rfl

theorem Matched.issue {shape : Shape} {dir : Dir} {aw₀ aw₀' aw aw' : Await}
    (htwin : Job.Twin P ⟨shape, dir, aw⟩ ⟨shape, .dec, aw'⟩) (r : StreamReq) :
    Paired P (issue ⟨shape, dir, aw₀⟩ aw r s) (issue ⟨shape, .dec, aw₀'⟩ aw' r u) := by
  obtain ⟨ρ, job, rfl, hP⟩ := h
  exact ⟨⟨ρ, _, rfl, hP⟩, .some htwin⟩

theorem Matched.setSrcOpen (b : Bool) : Matched P (setSrcOpen b s) (setSrcOpen b u) := by
  obtain ⟨ρ, job, rfl, hP⟩ := h
  exact ⟨ρ, job, rfl, hP⟩

theorem Matched.setDstOpen (b : Bool) : Matched P (setDstOpen b s) (setDstOpen b u) := by
  obtain ⟨ρ, job, rfl, hP⟩ := h
  exact ⟨ρ, job, rfl, hP⟩

theorem Matched.setScratch (c : Ctx) : Matched P (setScratch c s) (setScratch c u) := by
  obtain ⟨ρ, job, rfl, hP⟩ := h
  exact ⟨ρ, job, rfl, hP⟩

theorem Matched.putPort {p : Port} (hp : P → p.NeverFaults) : Matched P (putPort p s) (putPort p u) := by
  obtain ⟨ρ, job, rfl, hP⟩ := h
  exact ⟨ρ, job, rfl, fun hprem => ⟨(hP hprem).1, hp hprem⟩⟩

/-- Both end, in one way under `P`. -/
theorem Matched.endCommand {e e' : Ending} (he : P → e = e') : Paired P (endCommand e s) (endCommand e' u) := by
  obtain ⟨ρ, job, rfl, hP⟩ := h
  have hnone : ∀ (e : Ending) (v : State), (Machine.endCommand e v).job = none := by
    intro e v; rcases e with _ | _ | _ <;> rfl
  refine ⟨⟨(Machine.endCommand e' (withReport ρ job s)).report, none, ?_, fun hp => ?_⟩, ?_⟩
  · rcases e with _ | _ | _ <;> rcases e' with _ | _ | _ <;> rfl
  · obtain ⟨rfl, hgood⟩ := hP hp
    obtain rfl := he hp
    refine ⟨by rcases e with _ | _ | _ <;> rfl, ?_⟩
    rwa [PrimNeverFaults, endCommand_primPlan]
  · rw [hnone, hnone]; exact .none

/-- Both release: they close the same, or both end (`43_streaming.md` R185). -/
theorem Matched.release (shape : Shape) (dir : Dir) (aw aw' : Await) {e e' : Ending} (he : P → e = e') :
    Paired P (release ⟨shape, dir, aw⟩ e s) (release ⟨shape, .dec, aw'⟩ e' u) := by
  unfold Machine.release
  rw [h.sight.dstOpen, h.sight.srcOpen, h.sight.dstId, h.sight.srcId]
  split
  · exact (h.setDstOpen false).issue (.closing shape dir e e' he) _
  · split
    · exact (h.setSrcOpen false).issue (.closing shape dir e e' he) _
    · exact h.endCommand he

theorem Matched.startCopy (shape : Shape) (dir : Dir) (aw : Await) :
    Paired P (startCopy ⟨shape, dir, aw⟩ s) (startCopy ⟨shape, .dec, aw⟩ u) := by
  unfold Machine.startCopy
  rw [h.sight.validate, h.sight.srcId, h.sight.params]
  rcases validate s with e | ⟨k, iv⟩
  · exact h.release shape dir aw aw (e := .error e) (e' := .error e) fun _ => rfl
  · exact (h.setScratch (Ctx.freshCtr k iv)).issue (.same shape dir .read) _

/-- Both write the chunk transformed, or both release on a fault, each as its direction says (`43_streaming.md` R183). -/
theorem Matched.copyChunk (C : Config) (shape : Shape) (dir : Dir) (d : List Byte) :
    Paired P (copyChunk C ⟨shape, dir, .read⟩ d s) (copyChunk C ⟨shape, .dec, .read⟩ d u) := by
  have hgood : P → s.port.NeverFaults := by
    obtain ⟨ρ, job, -, hP⟩ := h
    exact fun hp => (hP hp).2
  unfold Machine.copyChunk
  rw [h.sight.dstId, h.sight.scratch, h.sight.port]
  rcases hx : ksXor C s.scratch d s.port with ⟨code | ⟨e, c⟩, p⟩
  · have never : ¬ P := fun hp => ksXor_error hx (hgood hp)
    exact (h.putPort fun hp => (never hp).elim).release shape dir .read .read fun hp => (never hp).elim
  · have hp' : P → p.NeverFaults := fun hp a ha => hgood hp a ((ksXor_plan hx).subset ha)
    exact ((h.putPort hp').setScratch c).issue (.same shape dir .write) _

/-- An answer to both. -/
theorem Matched.onAnswer {C : Config} {j k : Job} (a : StreamAnswer) (htwin : j.Twin P k) :
    SameOutcome (Paired P) (onAnswer C j a s) (onAnswer C k a u) := by
  have release := fun shape dir aw e => h.release shape dir aw aw (e := e) (e' := e) fun _ => rfl
  cases htwin with
  | closing shape dir e e' he =>
    cases a with
    | ack => exact .next (h.release shape dir (.close e) (.close e') he)
    | ok | data d | eof | ioerr c => exact .refused .badServiceAnswer
  | same shape dir aw =>
    cases aw with
    | openRd =>
      cases a with
      | ok =>
        rw [onAnswer_openRd_ok, onAnswer_openRd_ok, h.sight.srcId, h.sight.dstId]
        split
        · exact .refused .sameStreamObject
        · exact .next ((h.setSrcOpen true).issue (.same shape dir .createTrunc) _)
      | ioerr c => exact .next (release shape dir .openRd (.error (.ioError .openRd c)))
      | data d | eof | ack => exact .refused .badServiceAnswer
    | createTrunc =>
      cases a with
      | ok => exact .next ((h.setDstOpen true).startCopy shape dir .createTrunc)
      | ioerr c => exact .next (release shape dir .createTrunc (.error (.ioError .createTrunc c)))
      | data d | eof | ack => exact .refused .badServiceAnswer
    | read =>
      cases a with
      | data d =>
        rw [onAnswer_read_data, onAnswer_read_data, h.sight.params]
        split
        · exact .next (h.copyChunk C shape dir d)
        · exact .refused .badServiceAnswer
      | eof => exact .next (release shape dir .read .success)
      | ioerr c => exact .next (release shape dir .read (.error (.ioError .read c)))
      | ok | ack => exact .refused .badServiceAnswer
    | write =>
      cases a with
      | ok =>
        rw [onAnswer_write_ok, onAnswer_write_ok, h.sight.srcId, h.sight.params]
        exact .next (h.issue (.same shape dir .read) _)
      | ioerr c => exact .next (release shape dir .write (.error (.ioError .write c)))
      | data d | eof | ack => exact .refused .badServiceAnswer
    | close e =>
      cases a with
      | ack => exact .next (release shape dir (.close e) e)
      | ok | data d | eof | ioerr c => exact .refused .badServiceAnswer

end

/-- Both go on with the same answers in store. -/
theorem Paired.runJob {P : Prop} {s u : State} (h : Paired P s u) (C : Config) :
    SameOutcome (Paired P) (runJob C s) (runJob C u) := by
  rw [Machine.runJob, Machine.runJob, h.1.sight.answers]
  exact serve_related (fun a hm htwin => hm.onAnswer a htwin) s.answers h

/-! ## The commands -/

/-- The encrypt and the decrypt command of a shape, from one idle state. -/
theorem streamCommand_paired (C : Config) (shape : Shape) {s : State} (hp : s.phase = .idle) :
    SameOutcome (Paired (PrimNeverFaults s)) (streamCommand C shape .enc s) (streamCommand C shape .dec s) := by
  have hacc : Matched (PrimNeverFaults s) (accept s) (accept s) := .refl id
  cases shape with
  | path =>
    simp only [streamCommand, ctrPath_idle C _ hp]
    exact Paired.runJob (hacc.issue (.same .path .enc .openRd) _) C
  | handle =>
    by_cases hsame : s.Validates ∧ s.srcId = s.dstId
    · simp only [streamCommand, ctrStrm_same C _ hp hsame]
      exact .refused _
    · simp only [streamCommand, ctrStrm_started C _ hp hsame]
      exact Paired.runJob (hacc.startCopy .handle .enc .read) C

/-- Without a primitive fault paired states differ in the direction they remember alone. -/
theorem Paired.eq_of {P : Prop} {t u : State} (h : Paired P t u) (hP : P) :
    u = { t with job := t.job.map fun j => { j with dir := .dec } } := by
  obtain ⟨⟨ρ, job, rfl, hprem⟩, hjobs⟩ := h
  obtain ⟨rfl, -⟩ := hprem hP
  have hjob : job = t.job.map fun j => { j with dir := .dec } := by
    change Option.Rel (Job.Twin P) t.job job at hjobs
    rcases hj : t.job with _ | j <;> rw [hj] at hjobs <;> rcases hjobs with ⟨_ | ⟨_, _, e, e', he⟩⟩ | _
    · rfl
    · rfl
    · rw [he hP]; rfl
  rw [hjob]
  rfl

/-- Settles O39: served side by side, the two commands stay paired. -/
theorem encryptAndDecryptMoveTheSameBytes : Obligations.EncryptAndDecryptMoveTheSameBytes := by
  intro s r hr hp
  have hshape : ∃ shape, exec r.1 = streamCommand Config.machine shape .enc ∧
      exec r.2 = streamCommand Config.machine shape .dec := by
    simp only [List.mem_cons, List.not_mem_nil, or_false] at hr
    rcases hr with rfl | rfl
    · exact ⟨.path, rfl, rfl⟩
    · exact ⟨.handle, rfl, rfl⟩
  obtain ⟨shape, henc, hdec⟩ := hshape
  rw [henc, hdec]
  have h := streamCommand_paired Config.machine shape hp
  refine ⟨fun t ht => ?_, h.refused_iff⟩
  obtain ⟨u, hu, hpair⟩ := h.exists_next ht
  refine ⟨u, hu, ?_, ?_, ?_, hpair.eq_of⟩ <;>
  · obtain ⟨⟨ρ, job, rfl, -⟩, -⟩ := hpair
    rfl

end Sys2Proof.Machine
end

section
/-! SUPPORT. A command word from its acceptance checks on: which check of the command itself fails, that an accepted command
clears the rejection and never looks at what earlier commands reported, and what it is when no check fails. -/

namespace Sys2Proof.Machine

/-! ## Acceptance checks 4 to 6 -/

/-- The first of the acceptance checks 4 to 6 that fails for a command (`44_system.md` R201). -/
def commandRejection (i : Instr) (s : State) : Option RejCause :=
  match i with
  | .cbcEnc | .cbcDec => if s.params.bufCap < s.ilen.toNat then some .lenRange else none
  | .cbcBlocks =>
    if s.params.bufCap < s.ilen.toNat then some .lenRange
    else if !s.ctx.isCbc then some .noContext
    else if s.ilen.toNat % 16 ≠ 0 then some .notFullBlocks
    else none
  | .ctrXor =>
    if s.params.bufCap < s.ilen.toNat then some .lenRange
    else if s.ctx.kind ≠ .ctr then some .noContext
    else none
  | .cbcInit _ | .ctrInit | .ctxDrop | .ctrEncPath | .ctrDecPath | .ctrEncStrm | .ctrDecStrm => none

/-- A failing check rejects the command with its cause. -/
theorem exec_of_commandRejection {i : Instr} {s : State} {c : RejCause} (hp : s.phase = .idle)
    (h : commandRejection i s = some c) : exec i s = .next (reject c s) := by
  cases i with
  | cbcEnc | cbcDec =>
    simp only [commandRejection, Option.ite_none_right_eq_some, Option.some.injEq] at h
    obtain ⟨hr, rfl⟩ := h
    simp only [exec, execCbcEnc, execCbcDec, cbcEnc, cbcDec, whenIdle_of_idle hp, whenInRange, if_pos hr]
  | cbcBlocks | ctrXor =>
    simp only [exec, execCbcBlocks, execCtrXor, cbcBlocks, ctrXor, whenIdle_of_idle hp, whenInRange]
    simp only [commandRejection] at h
    split_ifs at h ⊢ <;> cases h <;> rfl
  | cbcInit _ | ctrInit | ctxDrop | ctrEncPath | ctrDecPath | ctrEncStrm | ctrDecStrm => cases h

/-! ## What acceptance makes alike -/

/-- States that acceptance makes equal fail the same check. -/
theorem commandRejection_congr {s s' : State} (h : accept s' = accept s) (i : Instr) :
    commandRejection i s' = commandRejection i s := by
  have hparams : s'.params = s.params := by simpa using congrArg State.params h
  have hilen : s'.ilen = s.ilen := by simpa using congrArg State.ilen h
  have hctx : s'.ctx = s.ctx := by simpa using congrArg State.ctx h
  simp only [commandRejection, hparams, hilen, hctx]

/-- A command that no check rejects goes on from the state after acceptance alone (`44_system.md` R202). -/
theorem exec_congr {i : Instr} {s s' : State} (hp : s.phase = .idle) (hp' : s'.phase = .idle) (h : accept s' = accept s)
    (hc : commandRejection i s = none) : exec i s' = exec i s := by
  have hc' : commandRejection i s' = none := (commandRejection_congr h i).trans hc
  have hsrc : s'.srcId = s.srcId := by simpa using congrArg State.srcId h
  have hdst : s'.dstId = s.dstId := by simpa using congrArg State.dstId h
  cases i with
  | cbcEnc | cbcDec =>
    simp only [commandRejection, ite_eq_right_iff, reduceCtorEq, imp_false] at hc hc'
    simp only [exec, execCbcEnc, execCbcDec, cbcEnc, cbcDec, whenIdle_of_idle hp, whenIdle_of_idle hp', whenInRange,
      if_neg hc, if_neg hc', h]
  | cbcBlocks | ctrXor =>
    simp only [exec, execCbcBlocks, execCtrXor, cbcBlocks, ctrXor, whenIdle_of_idle hp, whenIdle_of_idle hp', whenInRange]
    simp only [commandRejection] at hc hc'
    split_ifs at hc hc' ⊢
    rw [h]
  | cbcInit dir => simp only [exec, execCbcInit, cbcInit, whenIdle_of_idle hp, whenIdle_of_idle hp', h]
  | ctrInit => simp only [exec, execCtrInit, ctrInit, whenIdle_of_idle hp, whenIdle_of_idle hp', h]
  | ctxDrop => simp only [exec, execCtxDrop, ctxDrop_idle hp, ctxDrop_idle hp', h]
  | ctrEncPath | ctrDecPath =>
    simp only [exec, execCtrEncPath, execCtrDecPath, ctrPath_idle _ _ hp, ctrPath_idle _ _ hp', h, hsrc]
  | ctrEncStrm | ctrDecStrm =>
    simp only [exec, execCtrEncStrm, execCtrDecStrm, ctrStrm_idle _ _ hp, ctrStrm_idle _ _ hp', h, hsrc, hdst]

/-- Settles O46: the checks look at operands and `CTX`, and acceptance clears what the states may differ in. -/
theorem earlierResultsDoNotMatter : Obligations.EarlierResultsDoNotMatter := by
  intro i s s' hp hp' ho hctx hscratch hsrc hdst hjob hout
  have h : accept s' = accept s := by
    obtain ⟨hparams, hkey, hklen, hiv, hivlen, hilen, hsrcId, hdstId, hibuf⟩ := ho
    obtain ⟨hinputs, hanswers, hplan, hdraws, hlog⟩ := hout
    simp only [accept, *]
  rcases hc : commandRejection i s with _ | c
  · exact .inr (exec_congr hp hp' h hc)
  · exact .inl ⟨c, exec_of_commandRejection hp hc,
      exec_of_commandRejection hp' ((commandRejection_congr h i).trans hc)⟩

/-! ## The rejection flags -/

/-- A running command does not touch the rejection flags. -/
theorem Moved.rejection_eq {j : Job} {s t : State} (h : Moved j s t) : t.rej = s.rej ∧ t.rejCause = s.rejCause := by
  cases h with
  | issued src dst c p aw r hp haw hh ht => rw [ht]; exact ⟨rfl, rfl⟩
  | ended src dst c p e hp hh ht => rw [ht]; rcases e with _ | _ | _ <;> exact ⟨rfl, rfl⟩

theorem runJob_rejection {C : Config} {s t : State} (h : runJob C s = .next t) :
    t.rej = s.rej ∧ t.rejCause = s.rejCause := by
  refine serve_invariant (P := fun u => u.rej = s.rej ∧ u.rejCause = s.rejCause) ?_ ⟨rfl, rfl⟩ h
  rintro u v j a as ⟨hr, hc⟩ - hv
  obtain ⟨hr', hc'⟩ := (moved_onAnswer hv).rejection_eq
  exact ⟨hr'.trans hr, hc'.trans hc⟩

/-- A command was rejected, or it was accepted and has the rejection flags clear (`44_system.md` R202). -/
theorem CommandCase.rejected_or_accepted {i : Instr} {s t : State} (h : CommandCase i s t) :
    (∃ c, t = reject c s) ∨ (t.rej = false ∧ t.rejCause = .none) := by
  cases h with
  | rejected c hc hp ht => exact .inl ⟨c, ht⟩
  | ended e c p n hp hl ht => rw [ht]; rcases e with _ | _ | _ <;> exact .inr ⟨rfl, rfl⟩
  | output v c p n hp hl hv ht => rw [ht]; exact .inr ⟨rfl, rfl⟩
  | path dir hi hp ht => exact .inr (runJob_rejection ht)
  | handle dir hi hp ht =>
    obtain ⟨hr, hc⟩ := runJob_rejection ht
    obtain ⟨hr', hc'⟩ := (moved_startCopy ⟨.handle, dir, .read⟩ (accept s)).rejection_eq
    exact .inr ⟨hr.trans hr', hc.trans hc'⟩

/-- A command that no check rejects leaves the rejection flags clear: a rejection would keep `OLEN`, and what an accepted
command does cannot depend on it. -/
theorem exec_accepted {i : Instr} {s t : State} (hp : s.phase = .idle) (hc : commandRejection i s = none)
    (h : exec i s = .next t) : t.rej = false ∧ t.rejCause = .none := by
  have h' : exec i { s with olen := ~~~s.olen } = .next t :=
    (exec_congr (s' := { s with olen := ~~~s.olen }) hp hp rfl hc).trans h
  rcases (exec_next h).rejected_or_accepted with ⟨c, ht⟩ | hacc
  · rcases (exec_next h').rejected_or_accepted with ⟨c', ht'⟩ | hacc
    · have holen : s.olen = ~~~s.olen := congrArg State.olen (ht.symm.trans ht')
      bv_omega
    · exact hacc
  · exact hacc

/-! ## The order of the checks -/

theorem mem_tableOpcodes_iff_range {opc : BitVec 8} : opc ∈ tableOpcodes ↔ 0x01#8 ≤ opc ∧ opc ≤ 0x0B#8 := by
  simp only [tableOpcodes, List.mem_cons, List.not_mem_nil, or_false]
  bv_omega

theorem firstRejection_of_fatal {s : State} (h : s.phase = .fatal) (w : Word) :
    firstRejection s w = some .fatalState := if_pos h

/-- The checks 2 and 3 are the decoder's (`30_encoding.md` R91). -/
theorem firstRejection_of_decode_error {s : State} {w : Word} {e : DecodeError} (hp : s.phase = .idle)
    (h : decode w = .error e) : firstRejection s w = some (decodeCause e) := by
  have hfatal : s.phase ≠ .fatal := by simp [hp]
  by_cases ho : (CommandFields.ofWord w).opc ∈ tableOpcodes
  · by_cases hr : (CommandFields.ofWord w).ReservedSet
    · cases h.symm.trans (decodeFields_reservedBits ho hr)
      rw [firstRejection, if_neg hfatal, if_neg (not_not.mpr (mem_tableOpcodes_iff_range.mp ho)), decodeCause]
      exact if_pos hr
    · obtain ⟨i, hi⟩ := exists_commandOf (CommandFields.ofWord w).dir ho
      cases h.symm.trans ((decodeFields_of_commandOf hi).2 hr)
  · cases h.symm.trans (decodeFields_illegalOpcode ho)
    rw [firstRejection, if_neg hfatal, if_pos (mt mem_tableOpcodes_iff_range.mpr ho), decodeCause]

/-- For a word that spells a command the checks left are those of the command. -/
theorem firstRejection_encode {s : State} (hp : s.phase = .idle) (i : Instr) :
    firstRejection s (encode i) = commandRejection i s := by
  rw [firstRejection, encode, CommandFields.ofWord_toWord]
  cases i <;> simp [hp, Instr.fields, Instr.opcode, Instr.dirBit, commandRejection, Ctx.isCbc]

/-- In FATAL a command word is rejected, whatever it is. -/
theorem step_of_fatal {s : State} {w : Word} {rest : List Input} (hp : s.phase = .fatal)
    (h : s.inputs = commandInput w :: rest) : step s = .next (reject .fatalState { s with inputs := rest }) := by
  rw [step, nextInput_commandInput (by simp [hp]) h]
  simp only [presented, hp, if_true]

/-- Settles O6: in FATAL the first check fails, the decoder makes the next two, and the command those that are left. -/
theorem acceptanceOrder : Obligations.AcceptanceOrder := by
  intro s w rest hrun hin
  have hphase : s.phase = .idle ∨ s.phase = .fatal := by
    cases hp : s.phase <;> simp_all
  rcases hphase with hp | hp
  · rcases hd : decode w with e | i
    · rw [firstRejection_of_decode_error hp hd]
      refine ⟨fun c hc => ?_, nofun⟩
      cases hc
      exact step_of_decode_error hp hin hd
    · obtain rfl := (decodeInvertsEncode w i).mp hd
      rw [firstRejection_encode hp]
      have hstep := step_of_decode_ok hp hin hd
      refine ⟨fun c hc => ?_, fun hc => ⟨i, rfl, hstep, fun t ht => ?_⟩⟩
      · exact hstep.trans (exec_of_commandRejection (s := { s with inputs := rest }) hp hc)
      · exact exec_accepted (s := { s with inputs := rest }) hp hc (hstep.symm.trans ht)
  · rw [firstRejection_of_fatal hp]
    refine ⟨fun c hc => ?_, nofun⟩
    cases hc
    exact step_of_fatal hp hin

/-! ## Commands seen from outside -/

theorem decode_of_decodeTableWord {n w : Nat} {i : Instr} (h : decodeTableWord n w = some i) :
    decode (commandWord n w) = .ok i := by
  unfold decodeTableWord at h
  split at h
  · cases h; assumption
  · cases h

/-- In `IDLE`, the word of `withFetchWord` taken off the inputs leaves the state it was placed in. -/
theorem withFetchWord_taken {s : State} (hp : s.phase = .idle) (n w : Nat) :
    { s.withFetchWord n w with inputs := s.inputs } = s := by
  cases s
  cases hp
  rfl

/-- Settles O5: the word is decoded and run in `IDLE`, not looked at in FATAL, and `withFetchWord` only places it. -/
theorem stepRunsDecodedCommand : Obligations.StepRunsDecodedCommand := by
  refine ⟨fun s w i rest hd hin => ⟨fun hp => step_of_decode_ok hp hin hd, fun hp => step_of_fatal hp hin⟩,
    fun s w i hd hp => ?_⟩
  have hidle : (s.withFetchWord 32 w).phase = .idle := by simp [State.withFetchWord, withCommand, hp]
  have hstep := step_of_decode_ok (rest := s.inputs) hidle rfl (decode_of_decodeTableWord hd)
  rwa [withFetchWord_taken hp] at hstep

/-- Settles O8: with no answer in store the command stays at its first request. -/
theorem pathCommandWaitsAfterAcceptance : Obligations.PathCommandWaitsAfterAcceptance := by
  intro s r hr hp ha
  have waits : ∀ dir, ctrPath Config.machine dir s = .next (pathStarted dir s) := fun dir =>
    (ctrPath_idle Config.machine dir hp).trans (runJob_no_answer _ ha)
  simp only [List.mem_cons, List.not_mem_nil, or_false] at hr
  rcases hr with rfl | rfl
  · exact waits .enc
  · exact waits .dec

/-- Settles O47: `CTX_DROP` is accepted and completes with the empty slot, which is no CTR context. -/
theorem ctxDropEmptiesSlot : Obligations.CtxDropEmptiesSlot := by
  intro s hp
  refine ⟨initDone Ctx.empty s, ctxDrop_idle hp, initDone_succeeded _ s, initDone_sameAround _ s, rfl, rfl, rfl, rfl, rfl, rfl,
    fun hs => hs.symm, fun hr => exec_of_commandRejection rfl ?_⟩
  have hlen : ¬ s.params.bufCap < s.ilen.toNat := Nat.not_lt.mpr hr
  exact (if_neg hlen).trans (if_pos (by simp [initDone_ctx, Ctx.empty]))

end Sys2Proof.Machine
end

section
/-! SUPPORT. The phase: which accesses and commands change it. -/

namespace Sys2Proof.Machine

/-- A register write resets the engine or keeps the phase. -/
theorem writeReg_phase (off : Nat) (v : Word) (s : State) :
    (off = 0x010 ∧ v.getLsbD 0 = true ∧ writeReg off v s = resetEngine s) ∨ (writeReg off v s).phase = s.phase := by
  rcases writeReg_cases off v s with e | ⟨ho, e⟩ | ⟨_, _, _, _, _, _, _, e⟩ <;> rw [e]
  · rcases writeStatus_cases v s with e | e <;> rw [e] <;> exact .inr rfl
  · rcases writeCtrl_cases v s with ⟨hv, e⟩ | ⟨_, e⟩ <;> rw [e]
    · exact .inl ⟨ho, hv, rfl⟩
    · exact .inr rfl
  · exact .inr rfl

/-- An access that is no command word resets the engine or keeps the phase. -/
theorem access_phase {s t : State} {a : Access} {p : Place} {rest : List Input} (hi : s.inputs = .access a :: rest)
    (ha : a.placeIn s.params = some p)
    (ht : placedAccess Config.machine p a.width a.data { s with inputs := rest } = .outcome (.next t)) :
    (TakesReset s ∧ t.phase = .idle) ∨ t.phase = s.phase := by
  rcases placedAccess_next ht with ⟨_, _, rfl⟩ | ⟨off, v, rfl, hw, hd, rfl⟩ | ⟨_, _, _, _, _, rfl⟩ | ⟨_, _, _, _, rfl⟩
  · exact .inr rfl
  · rcases writeReg_phase off v { s with inputs := rest } with ⟨rfl, hv, e⟩ | e
    · obtain ⟨place, width, data⟩ := a
      obtain rfl : width = 4 := hw
      obtain rfl : data = some v := hd
      exact .inl ⟨⟨rest, .inr ⟨place, v, hi, hv, Access.placeIn_reg ha⟩⟩, by rw [e]; rfl⟩
    · exact .inr e
  · exact .inr rfl
  · exact .inr rfl

/-- A command that changes the phase was accepted, from `IDLE`. -/
theorem exec_phase {i : Instr} {s t : State} (h : exec i s = .next t) (hne : t.phase ≠ s.phase) :
    s.phase = .idle ∧ t.rej = false := by
  rcases (exec_next h).rejected_or_accepted with ⟨c, rfl⟩ | ⟨hr, -⟩
  · exact absurd rfl hne
  · rcases hp : s.phase with _ | _ | _
    · exact ⟨rfl, hr⟩
    · rw [exec_run i hp] at h; cases h
    · rw [exec_fatal i hp] at h; cases h; exact absurd rfl hne

/-- Settles O58, by the ways a step leads to a next state. -/
theorem phaseTransitions : Obligations.PhaseTransitions := by
  intro s t h hne
  cases step_next h with
  | noInput hi ht => subst ht; exact absurd rfl hne
  | primAnswers as rest hi ht => subst ht; exact absurd rfl hne
  | stored as rest hi hp ht => subst ht; exact absurd rfl hne
  | rejected w c rest hp hc hn ht => subst ht; exact absurd rfl hne
  | reset rest hi ht =>
    subst ht
    exact ⟨fun hp => absurd hp.symm hne, fun _ => .inr ⟨rest, hi, rfl⟩, fun _ => ⟨⟨rest, .inl hi⟩, rfl⟩⟩
  | served as rest hi hp ht => simp [hp, hi]
  | access a p rest hi hp ha ht =>
    rcases access_phase hi ha ht with ⟨hr, hidle⟩ | e
    · exact ⟨fun hp => absurd (hidle.trans hp.symm) hne, fun hrun => absurd hrun hp, fun _ => ⟨hr, hidle⟩⟩
    · exact absurd e hne
  | command w i rest hn hd he ht =>
    obtain ⟨hidle, hr⟩ := exec_phase ht hne
    have hidle : s.phase = .idle := hidle
    exact ⟨fun _ => ⟨w, _, i, hn, hd, he, hr⟩, by simp [hidle], by simp [hidle]⟩

end Sys2Proof.Machine
end

section
/-! SUPPORT. What a rejected command leaves. -/

namespace Sys2Proof.Machine

theorem commandRejection_ne_none {i : Instr} {s : State} {c : RejCause} (h : commandRejection i s = some c) :
    c ≠ .none := by
  cases i with
  | cbcEnc | cbcDec | cbcBlocks | ctrXor =>
    simp only [commandRejection] at h
    split_ifs at h <;> cases h <;> simp
  | cbcInit _ | ctrInit | ctxDrop | ctrEncPath | ctrDecPath | ctrEncStrm | ctrDecStrm => cases h

/-- A command that ends with `REJ` set was rejected: once accepted it has the flag clear. -/
theorem exec_rejected {i : Instr} {s t : State} (h : exec i s = .next t) (hr : t.rej = true) :
    ∃ c, c ≠ .none ∧ t = reject c s := by
  rcases hp : s.phase with _ | _ | _
  · rcases hc : commandRejection i s with _ | c
    · cases (exec_accepted hp hc h).1.symm.trans hr
    · cases (exec_of_commandRejection hp hc).symm.trans h
      exact ⟨c, commandRejection_ne_none hc, rfl⟩
  · rw [exec_run i hp] at h; cases h
  · rw [exec_fatal i hp] at h; cases h; exact ⟨.fatalState, by simp, rfl⟩

/-- Settles O7: a rejection writes the flag and its cause alone (`60_exceptions.md` R227). -/
theorem rejectionChangesNothingElse : Obligations.RejectionChangesNothingElse := by
  intro i s t h hr
  obtain ⟨c, hc, rfl⟩ := exec_rejected h hr
  exact ⟨rfl, hc⟩

end Sys2Proof.Machine
end

section
/-! SUPPORT. Which commands and steps go FATAL: a decrypt command never does, and nothing does while the primitive never
faults. -/

namespace Sys2Proof.Machine

/-! ## A primitive that never faults -/

section

variable {C : Config} {p q : Port} (hp : p.NeverFaults)
include hp

theorem Port.NeverFaults.cbcEncBlocks {k : List Byte} {ch : Block} {xs : List Block} {r : Except Byte (List Block × Block)}
    (h : cbcEncBlocks C k ch xs p = (r, q)) : q.NeverFaults := by
  obtain ⟨ev, e, -⟩ := cbcEncBlocks_good C k ch xs (hp.good _)
  cases e.symm.trans h
  exact hp.after _ ev

theorem Port.NeverFaults.cbcDecBlocks {k : List Byte} {ch : Block} {cs : List Block} {r : Except Byte (List Block × Block)}
    (h : cbcDecBlocks C k ch cs p = (r, q)) : q.NeverFaults := by
  obtain ⟨ev, e, -⟩ := cbcDecBlocks_good C k ch cs (hp.good _)
  cases e.symm.trans h
  exact hp.after _ ev

/-- The blocks of a bound context do not fault either. -/
theorem Port.NeverFaults.cbcBlocksOf {c : Ctx} {x : List Block} {r : Except Byte (List Block × Block)}
    (h : cbcBlocksOf C c x p = (r, q)) : (∃ y, r = .ok y) ∧ q.NeverFaults := by
  obtain ⟨ev, e, -⟩ := cbcBlocksOf_good C c x (hp.good _)
  cases e.symm.trans h
  exact ⟨⟨_, rfl⟩, hp.after _ ev⟩

theorem Port.NeverFaults.ksXor {c : Ctx} {d : List Byte} {r : Except Byte (List Byte × Ctx)}
    (h : ksXor C c d p = (r, q)) : q.NeverFaults :=
  fun a ha => hp a ((ksXor_plan h).subset ha)

end

/-! ## Not FATAL, nor about to be -/

/-- What began in `s` has led to `t` and is neither FATAL nor, waiting, about to become so; the primitive, if it never
faulted, still never does (`60_exceptions.md` R221, R222). -/
structure Unharmed (s t : State) : Prop where
  phase : t.phase ≠ .fatal
  job : ∀ j, t.job = some j → j.await ≠ .close .fatal
  plan : PrimNeverFaults s → PrimNeverFaults t

/-- Every end but FATAL. -/
theorem unharmed_endCommand {s u : State} {e : Ending} (he : e ≠ .fatal) (hg : PrimNeverFaults s → PrimNeverFaults u) :
    Unharmed s (endCommand e u) := by
  rcases e with _ | e | _
  · exact ⟨nofun, nofun, hg⟩
  · exact ⟨nofun, nofun, hg⟩
  · exact absurd rfl he

section

variable {s u : State} (hp : u.phase ≠ .fatal) (hg : PrimNeverFaults s → PrimNeverFaults u)
include hp hg

theorem unharmed_issue (j : Job) {aw : Await} (haw : aw ≠ .close .fatal) (r : StreamReq) : Unharmed s (issue j aw r u) :=
  ⟨hp, fun k hk => by cases hk; exact haw, hg⟩

theorem unharmed_release (j : Job) {e : Ending} (he : e ≠ .fatal) : Unharmed s (release j e u) := by
  have hclose : Await.close e ≠ .close .fatal := fun h => he (Await.close.inj h)
  rcases release_cases j e u with ⟨_, _, h⟩ | ⟨_, _, _, h⟩ | ⟨_, h⟩ <;> rw [h]
  · exact unharmed_issue (u := setDstOpen false u) hp hg j hclose _
  · exact unharmed_issue (u := setSrcOpen false u) hp hg j hclose _
  · exact unharmed_endCommand he hg

theorem unharmed_startCopy (j : Job) : Unharmed s (startCopy j u) := by
  rcases startCopy_cases j u with ⟨_, h⟩ | ⟨e, _, h⟩ <;> rw [h]
  · exact unharmed_issue (u := setScratch (Ctx.freshCtr u.keyOperand u.ivOperand) u) hp hg j (by simp) _
  · exact unharmed_release hp hg j (by simp)

/-- A fault in a chunk is classified in a decrypt command, and does not occur while the primitive never faults (R183). -/
theorem unharmed_copyChunk {C : Config} {j : Job} (hf : j.dir = .dec ∨ PrimNeverFaults u) (d : List Byte) :
    Unharmed s (copyChunk C j d u) := by
  rcases copyChunk_cases C j d u with ⟨e, c, p, hx, h⟩ | ⟨code, p, hx, h⟩ <;> rw [h] <;>
    have hport : PrimNeverFaults s → PrimNeverFaults (putPort p u) := fun hs => (State.port_neverFaults (hg hs)).ksXor hx
  · exact unharmed_issue (u := setScratch c (putPort p u)) hp hport j (by simp) _
  · refine unharmed_release (u := putPort p u) hp hport j ?_
    rcases hf with hdec | hnever
    · simp [copyFault, hdec]
    · exact absurd hnever (ksXor_error hx)

/-- Whatever the answer, a decrypt command is unharmed, and so is any while the primitive never faults. -/
theorem unharmed_onAnswer {C : Config} {j : Job} {a : StreamAnswer} {t : State} (hj : j.await ≠ .close .fatal)
    (hf : j.dir = .dec ∨ PrimNeverFaults u) (h : onAnswer C j a u = .next t) : Unharmed s t := by
  rcases onAnswer_next h with ⟨_, _, _, rfl⟩ | ⟨_, _, _, rfl⟩ | ⟨_, _, rfl⟩ | ⟨_, _, _, rfl⟩ | ⟨d, _, _, _, rfl⟩ |
    ⟨_, _, rfl⟩ | ⟨_, _, _, rfl⟩ | ⟨_, _, rfl⟩ | ⟨_, _, _, rfl⟩ | ⟨e, hw, _, rfl⟩
  · exact unharmed_issue (u := setSrcOpen true u) hp hg j (by simp) _
  · exact unharmed_release hp hg j (by simp)
  · exact unharmed_startCopy (u := setDstOpen true u) hp hg j
  · exact unharmed_release hp hg j (by simp)
  · exact unharmed_copyChunk hp hg hf d
  · exact unharmed_release hp hg j (by simp)
  · exact unharmed_release hp hg j (by simp)
  · exact unharmed_issue hp hg j (by simp) _
  · exact unharmed_release hp hg j (by simp)
  · exact unharmed_release hp hg j fun he => hj (hw.trans (congrArg Await.close he))

end

/-! ## A running command -/

/-- The job, if there is one, is of a command in direction `dir`. -/
def HasDir (dir : Dir) (s : State) : Prop := ∀ j, s.job = some j → j.dir = dir

theorem exists_hasDir (s : State) : ∃ dir, HasDir dir s := by
  rcases hj : s.job with _ | j
  · exact ⟨.enc, fun k hk => by cases hj.symm.trans hk⟩
  · exact ⟨j.dir, fun k hk => by cases hj.symm.trans hk; rfl⟩

theorem Moved.hasDir {j : Job} {s t : State} (h : Moved j s t) : HasDir j.dir t := by
  intro k hk
  rcases h.job_cases with hn | ⟨aw, -, hj⟩
  · cases hn.symm.trans hk
  · cases hj.symm.trans hk; rfl

theorem HasDir.runJob {C : Config} {dir : Dir} {s t : State} (hs : HasDir dir s) (h : runJob C s = .next t) :
    HasDir dir t :=
  serve_invariant (P := HasDir dir) (fun _ _ j _ _ hu hj hv => hu j hj ▸ (moved_onAnswer hv).hasDir) hs h

/-- A command that goes on stays unharmed if it decrypts or the primitive never faults. -/
theorem Unharmed.runJob {C : Config} {dir : Dir} {s u t : State} (hu : Unharmed s u) (hd : HasDir dir u)
    (hf : dir = .dec ∨ PrimNeverFaults s) (h : runJob C u = .next t) : Unharmed s t := by
  refine (serve_invariant (P := fun v => Unharmed s v ∧ HasDir dir v) ?_ ⟨hu, hd⟩ h).1
  rintro v w j a as ⟨hv, hdv⟩ hj hw
  obtain rfl := hdv j hj
  exact ⟨unharmed_onAnswer (u := takeAnswer a as v) hv.phase hv.plan (hv.job j hj) (hf.imp_right hv.plan) hw,
    (moved_onAnswer hw).hasDir⟩

/-- A streaming command that starts. -/
theorem streamCommand_unharmed {C : Config} {shape : Shape} {dir : Dir} {s t : State} (hp : s.phase = .idle)
    (hf : dir = .dec ∨ PrimNeverFaults s) (h : streamCommand C shape dir s = .next t) :
    Unharmed s t ∧ HasDir dir t := by
  have accepted : (accept s).phase ≠ .fatal := by simp
  have begun : ∃ u, Unharmed s u ∧ HasDir dir u ∧ runJob C u = .next t := by
    cases shape with
    | path =>
      rw [streamCommand, ctrPath_idle C dir hp] at h
      exact ⟨_, unharmed_issue accepted (s := s) id _ (aw := .openRd) (by simp) _, fun j hj => by cases hj; rfl, h⟩
    | handle =>
      rw [streamCommand, ctrStrm_idle C dir hp] at h
      split at h
      · cases h
      · exact ⟨_, unharmed_startCopy accepted (s := s) id _, (moved_startCopy ⟨.handle, dir, .read⟩ _).hasDir, h⟩
  obtain ⟨u, hu, hd, hr⟩ := begun
  exact ⟨hu.runJob hd hf hr, hd.runJob hr⟩

/-! ## Commands -/

/-- The commands whose faults all lie inside the decrypt boundary (`60_exceptions.md` R217, R218). -/
def IsDecrypt (i : Instr) : Prop := i ∈ [Instr.cbcDec, .ctrDecPath, .ctrDecStrm]

theorem decEnd_unharmed {C : Config} {pp : List Byte} {s u : State} (hg : PrimNeverFaults s → PrimNeverFaults u) :
    Unharmed s (decEnd C pp u) := by
  unfold decEnd
  split
  · exact unharmed_endCommand (e := .error _) (by simp) hg
  · exact unharmed_endCommand (e := .error _) (by simp) hg
  · exact unharmed_endCommand (e := .success) (by simp) hg

/-- `CBC_DEC` classifies every fault (`41_cbc.md` R146). -/
theorem cbcDec_rejected_or_unharmed {C : Config} {s t : State} (hp : s.phase = .idle) (h : cbcDec C s = .next t) :
    (∃ c, t = reject c s) ∨ Unharmed s t := by
  rcases cbcDec_cases C hp with ⟨_, e⟩ | ⟨_, err, _, e⟩ | ⟨_, _, _, e⟩ | ⟨_, _, _, code, p, hx, e⟩ |
    ⟨_, _, _, x, ch, p, hx, e⟩ <;> cases e.symm.trans h
  · exact .inl ⟨_, rfl⟩
  · exact .inr (unharmed_endCommand (e := .error _) (u := accept s) (by simp) id)
  · exact .inr (unharmed_endCommand (e := .error _) (u := accept s) (by simp) id)
  · exact .inr (unharmed_endCommand (e := .error _) (u := putPort p (drawn (accept s))) (by simp)
      fun hg => (State.port_neverFaults hg).cbcDecBlocks hx)
  · exact .inr (decEnd_unharmed (u := putPort p (drawn (accept s))) fun hg => (State.port_neverFaults hg).cbcDecBlocks hx)

section

variable {C : Config} {s t : State} (hp : s.phase = .idle) (hg : PrimNeverFaults s)
include hp hg

theorem cbcEnc_rejected_or_unharmed (h : cbcEnc C s = .next t) : (∃ c, t = reject c s) ∨ Unharmed s t := by
  rcases cbcEnc_cases C hp with ⟨_, e⟩ | ⟨_, err, _, e⟩ | ⟨_, _, code, p, hx, e⟩ | ⟨_, _, c, ch, p, hx, e⟩ <;>
    cases e.symm.trans h
  · exact .inl ⟨_, rfl⟩
  · exact .inr (unharmed_endCommand (e := .error _) (u := accept s) (by simp) id)
  · exact absurd hg (cbcEncBlocks_error hx)
  · exact .inr (unharmed_endCommand (e := .success) (u := putOutput _ (putPort p (drawn (accept s)))) (by simp)
      fun hg => (State.port_neverFaults hg).cbcEncBlocks hx)

theorem cbcBlocks_rejected_or_unharmed (h : cbcBlocks C s = .next t) : (∃ c, t = reject c s) ∨ Unharmed s t := by
  rcases cbcBlocks_cases C hp with ⟨c, _, e⟩ | ⟨_, _, _, code, p, hx, e⟩ | ⟨_, _, _, y, ch, p, hx, e⟩ <;>
    cases e.symm.trans h
  · exact .inl ⟨c, rfl⟩
  · obtain ⟨⟨y, hy⟩, -⟩ := (State.port_neverFaults hg).cbcBlocksOf hx
    cases hy
  · exact .inr (unharmed_endCommand (e := .success) (u := bindCtx _ (putOutput _ (putPort p (drawn (accept s))))) (by simp)
      fun hg => ((State.port_neverFaults hg).cbcBlocksOf hx).2)

theorem ctrXor_rejected_or_unharmed (h : ctrXor C s = .next t) : (∃ c, t = reject c s) ∨ Unharmed s t := by
  rcases ctrXor_cases C hp with ⟨c, _, e⟩ | ⟨_, _, code, p, hx, e⟩ | ⟨_, _, x, c, p, hx, e⟩ <;> cases e.symm.trans h
  · exact .inl ⟨c, rfl⟩
  · exact absurd hg (ksXor_error hx)
  · exact .inr (unharmed_endCommand (e := .success) (u := bindCtx c (putOutput x (putPort p (drawn (accept s))))) (by simp)
      fun hg => (State.port_neverFaults hg).ksXor hx)

end

/-- From `IDLE` a decrypt command, and any command while the primitive never faults, was rejected or is unharmed. -/
theorem exec_rejected_or_unharmed {i : Instr} {s t : State} (hf : IsDecrypt i ∨ PrimNeverFaults s) (hp : s.phase = .idle)
    (h : exec i s = .next t) : (∃ c, t = reject c s) ∨ Unharmed s t := by
  have good : ¬ IsDecrypt i → PrimNeverFaults s := hf.resolve_left
  cases i with
  | cbcEnc => exact cbcEnc_rejected_or_unharmed hp (good (by simp [IsDecrypt])) h
  | cbcDec => exact cbcDec_rejected_or_unharmed hp h
  | cbcInit dir =>
    rcases cbcInit_cases dir hp with ⟨err, _, e⟩ | ⟨_, e⟩ <;> cases e.symm.trans h
    · exact .inr (unharmed_endCommand (e := .error err) (u := dropCtx (accept s)) (by simp) id)
    · exact .inr (unharmed_endCommand (e := .success) (u := bindCtx _ (accept s)) (by simp) id)
  | cbcBlocks => exact cbcBlocks_rejected_or_unharmed hp (good (by simp [IsDecrypt])) h
  | ctrInit =>
    rcases ctrInit_cases hp with ⟨err, _, e⟩ | ⟨_, e⟩ <;> cases e.symm.trans h
    · exact .inr (unharmed_endCommand (e := .error err) (u := dropCtx (accept s)) (by simp) id)
    · exact .inr (unharmed_endCommand (e := .success) (u := bindCtx _ (accept s)) (by simp) id)
  | ctrXor => exact ctrXor_rejected_or_unharmed hp (good (by simp [IsDecrypt])) h
  | ctxDrop =>
    cases (ctxDrop_idle hp).symm.trans h
    exact .inr (unharmed_endCommand (e := .success) (u := dropCtx (accept s)) (by simp) id)
  | ctrEncPath => exact .inr (streamCommand_unharmed (shape := .path) hp (.inr (good (by simp [IsDecrypt]))) h).1
  | ctrDecPath => exact .inr (streamCommand_unharmed (shape := .path) hp (.inl rfl) h).1
  | ctrEncStrm => exact .inr (streamCommand_unharmed (shape := .handle) hp (.inr (good (by simp [IsDecrypt]))) h).1
  | ctrDecStrm => exact .inr (streamCommand_unharmed (shape := .handle) hp (.inl rfl) h).1

/-- A command that is not a streaming command leaves no job of its own. -/
theorem exec_job_of_not_streaming {i : Instr} (hs : ¬ IsStreaming i) {s t : State} (h : exec i s = .next t) :
    t.job = s.job ∨ t.job = none := by
  cases exec_next h with
  | rejected c hc hp ht => subst ht; exact .inl rfl
  | ended e c p n hp hl ht => subst ht; rcases e with _ | _ | _ <;> exact .inr rfl
  | output v c p n hp hl hv ht => subst ht; exact .inr rfl
  | path dir hi hp ht => exact absurd hi.isStreaming hs
  | handle dir hi hp ht => exact absurd hi.isStreaming hs

/-- A decrypt command waits as a decrypt command. -/
theorem IsDecrypt.hasDir {i : Instr} (hi : IsDecrypt i) {s t : State} (hp : s.phase = .idle) (hj : s.job = none)
    (h : exec i s = .next t) : HasDir .dec t := by
  simp only [IsDecrypt, List.mem_cons, List.not_mem_nil, or_false] at hi
  rcases hi with rfl | rfl | rfl
  · intro j htj
    rcases exec_job_of_not_streaming (by simp [IsStreaming]) h with e | e <;> simp [e, hj] at htj
  · exact (streamCommand_unharmed (shape := .path) hp (.inl rfl) h).2
  · exact (streamCommand_unharmed (shape := .handle) hp (.inl rfl) h).2

/-- Settles O30, for a command that starts by its ways to end, and for one that goes on by what each answer does. -/
theorem decryptNeverFatal : Obligations.DecryptNeverFatal := by
  refine ⟨fun i s t hi hp h => ?_, fun s t j as rest hp hj hd hw hin h => ?_⟩
  · rcases exec_rejected_or_unharmed (.inl hi) hp h with ⟨c, rfl⟩ | ht
    · exact ⟨by simp [hp], fun j hj hn => by cases hn.symm.trans hj⟩
    · exact ⟨ht.phase, fun j hj hn => ⟨IsDecrypt.hasDir hi hp hn h j hj, ht.job j hj⟩⟩
  · rw [step_serviceAnswers hin, serviceAnswers, if_pos hp] at h
    have only : ∀ k, s.job = some k → k = j := fun k hk => Option.some.inj (hk.symm.trans hj)
    have hs : Unharmed s { s with inputs := rest, answers := s.answers ++ as } :=
      ⟨by simp [hp], fun k hk => only k hk ▸ hw, id⟩
    have hdir : HasDir .dec { s with inputs := rest, answers := s.answers ++ as } := fun k hk => only k hk ▸ hd
    have ht := hs.runJob hdir (.inl rfl) h
    exact ⟨ht.phase, fun k hk => ⟨hdir.runJob h k hk, ht.job k hk⟩⟩

/-! ## Steps -/

/-- A reset enters `IDLE` with no job, and keeps the primitive's answers (`10_state.md` R43; log 14). -/
theorem unharmed_resetEngine (s : State) : Unharmed s (resetEngine s) := ⟨by simp [State.reset], by simp [State.reset], id⟩

section

variable {s : State} (hs : Unharmed s s)
include hs

theorem unharmed_writeReg (off : Nat) (v : Word) : Unharmed s (writeReg off v s) := by
  rcases writeReg_cases off v s with e | ⟨_, e⟩ | ⟨_, _, _, _, _, _, _, e⟩ <;> rw [e]
  · rcases writeStatus_cases v s with e | e <;> rw [e]
    · exact hs
    · exact { hs with }
  · rcases writeCtrl_cases v s with ⟨_, e⟩ | ⟨_, e⟩ <;> rw [e]
    · exact unharmed_resetEngine s
    · exact hs
  · exact { hs with }

theorem unharmed_placedAccess {C : Config} {p : Place} {width : Nat} {data : Option Word} {t : State}
    (h : placedAccess C p width data s = .outcome (.next t)) : Unharmed s t := by
  rcases placedAccess_next h with ⟨_, _, rfl⟩ | ⟨off, v, _, _, _, rfl⟩ | ⟨_, _, _, _, _, rfl⟩ | ⟨_, _, _, _, rfl⟩
  · exact { hs with }
  · exact unharmed_writeReg hs off v
  · exact { hs with }
  · exact hs

end

/-- A command presented to an unharmed state, while the primitive never faults. -/
theorem exec_keeps_unharmed {i : Instr} {s t : State} (hs : Unharmed s s) (hg : PrimNeverFaults s) (h : exec i s = .next t) :
    Unharmed s t := by
  rcases hp : s.phase with _ | _ | _
  · rcases exec_rejected_or_unharmed (.inr hg) hp h with ⟨c, rfl⟩ | ht
    · exact { hs with }
    · exact ht
  · rw [exec_run i hp] at h; cases h
  · exact absurd hp hs.phase

/-- Settles O31, by the ways a step leads to a next state: new answers of the primitive are `ok`, and while all are no
command goes FATAL. -/
theorem noFatalWithoutPrimFault : Obligations.NoFatalWithoutPrimFault := by
  intro s t hg hin hp hj h
  have hs : Unharmed s s := ⟨hp, hj, id⟩
  have ht : Unharmed s t := by
    cases step_next h with
    | noInput hi ht => subst ht; exact hs
    | reset rest hi ht => subst ht; exact { unharmed_resetEngine s with }
    | primAnswers as rest hi ht =>
      subst ht
      exact ⟨hp, hj, fun _ a ha => (List.mem_append.1 ha).elim (hg a) (hin as rest hi a)⟩
    | stored as rest hi _ ht => subst ht; exact { hs with }
    | served as rest hi _ ht =>
      obtain ⟨dir, hd⟩ := exists_hasDir s
      exact Unharmed.runJob (u := { s with inputs := rest, answers := s.answers ++ as }) { hs with } hd (.inr hg) ht
    | access a p rest hi _ ha ht => exact { unharmed_placedAccess (s := { s with inputs := rest }) { hs with } ht with }
    | rejected w c rest _ hc hn ht => subst ht; exact { hs with }
    | command w i rest hn hd he ht => exact { exec_keeps_unharmed (s := { s with inputs := rest }) { hs with } hg ht with }
  exact ⟨ht.plan hg, ht.phase, ht.job⟩

end Sys2Proof.Machine
end

section
/-! SUPPORT. `CTX` after a failed INIT, and how long a command that is not a streaming command takes: its phase at the end
and its primitive requests (`70_reset_and_hazards.md`). -/

namespace Sys2Proof.Machine

/-! ## A failed INIT -/

/-- The use commands are rejected while the slot is empty (`44_system.md` R201). -/
theorem exec_use_of_emptySlot {i : Instr} (hi : i ∈ [Instr.cbcBlocks, .ctrXor]) {s : State} (hp : s.phase = .idle)
    (hc : s.ctx = Ctx.empty) (hr : s.InRange) : exec i s = .next (reject .noContext s) := by
  have hlen : ¬ s.params.bufCap < s.ilen.toNat := Nat.not_lt.mpr hr
  refine exec_of_commandRejection hp ?_
  simp only [List.mem_cons, List.not_mem_nil, or_false] at hi
  rcases hi with rfl | rfl
  · exact (if_neg hlen).trans (if_pos (by simp [hc, Ctx.isCbc, Ctx.empty]))
  · exact (if_neg hlen).trans (if_pos (by simp [hc, Ctx.empty]))

/-- Settles O20: the validator fails with one of its two errors, and an INIT command that raises it leaves the
empty slot. -/
theorem failedInitEmptiesSlot : Obligations.FailedInitEmptiesSlot := by
  intro s i hi hp hv
  obtain ⟨e, he, hkind⟩ : ∃ e, validate s = .error e ∧ (e = .invalidKeyLength ∨ e = .invalidIvLength) := by
    rcases validate_cases s with ⟨h, -⟩ | ⟨-, he⟩ | ⟨-, -, he⟩
    · exact absurd h hv
    · exact ⟨_, he, .inl rfl⟩
    · exact ⟨_, he, .inr rfl⟩
  obtain ⟨t, ht, hraised, -, hctx, -, -⟩ := exec_init_of_validate_error hp he hi
  exact ⟨t, e, ht, hraised, hkind, hctx, fun u hu hut hr =>
    ⟨exec_use_of_emptySlot (by simp) hu (hut.trans hctx) hr, exec_use_of_emptySlot (by simp) hu (hut.trans hctx) hr⟩⟩

/-! ## How many requests a buffer command makes -/

theorem Port.ask_log_length {C : Config} {dir : Dir} {k : List Byte} {b : Block} {p q : Port} {x : Except Byte Block}
    (h : p.ask C dir k b = (x, q)) : q.log.length = p.log.length + 1 := by
  obtain ⟨_ | ⟨_ | c, rest⟩, log⟩ := p <;> cases h <;> exact List.length_append

theorem cbcEncBlocks_log_length {C : Config} {k : List Byte} {ch : Block} {xs : List Block} {p q : Port}
    {r : Except Byte (List Block × Block)} (h : cbcEncBlocks C k ch xs p = (r, q)) :
    q.log.length ≤ p.log.length + xs.length := by
  induction xs generalizing ch p q r with
  | nil => cases h; exact Nat.le_refl _
  | cons x xs ih =>
    simp only [cbcEncBlocks] at h
    rw [List.length_cons]
    split at h <;> rename_i hask <;> have := Port.ask_log_length hask
    · cases h; omega
    · split at h <;> rename_i hrest <;> cases h <;> have := ih hrest <;> omega

theorem cbcDecBlocks_log_length {C : Config} {k : List Byte} {ch : Block} {cs : List Block} {p q : Port}
    {r : Except Byte (List Block × Block)} (h : cbcDecBlocks C k ch cs p = (r, q)) :
    q.log.length ≤ p.log.length + cs.length := by
  induction cs generalizing ch p q r with
  | nil => cases h; exact Nat.le_refl _
  | cons c cs ih =>
    simp only [cbcDecBlocks] at h
    rw [List.length_cons]
    split at h <;> rename_i hask <;> have := Port.ask_log_length hask
    · cases h; omega
    · split at h <;> rename_i hrest <;> cases h <;> have := ih hrest <;> omega

theorem cbcBlocksOf_log_length {C : Config} {c : Ctx} {xs : List Block} {p q : Port}
    {r : Except Byte (List Block × Block)} (h : cbcBlocksOf C c xs p = (r, q)) :
    q.log.length ≤ p.log.length + xs.length := by
  unfold cbcBlocksOf at h
  split at h
  · exact cbcEncBlocks_log_length h
  · exact cbcDecBlocks_log_length h

/-- A refill leaves a context with a byte left as it is; else it makes one request and, if it is answered, starts the new
block (`42_ctr.md` R163). -/
theorem ksRefill_log_length {C : Config} {c : Ctx} {p q : Port} {r : Except Byte Ctx} (h : ksRefill C c p = (r, q)) :
    (r = .ok c ∧ q = p) ∨ (16 ≤ c.ksPos ∧ q.log.length = p.log.length + 1 ∧ ∀ c', r = .ok c' → c'.ksPos = 0) := by
  unfold ksRefill at h
  split at h
  · cases h; exact .inl ⟨rfl, rfl⟩
  · rename_i hpos
    have hpos : 16 ≤ c.ksPos := Nat.not_lt.mp hpos
    split at h <;> rename_i hask <;> cases h
    · exact .inr ⟨hpos, Port.ask_log_length hask, fun _ hc => by cases hc⟩
    · exact .inr ⟨hpos, Port.ask_log_length hask, fun _ hc => by cases hc; rfl⟩

/-- `KsXor` makes at most the requests that its bytes need, whatever is answered. -/
theorem ksXor_log_length {C : Config} {c : Ctx} {d : List Byte} {p q : Port} {r : Except Byte (List Byte × Ctx)}
    (h : ksXor C c d p = (r, q)) : q.log.length ≤ p.log.length + c.blocksFor d.length := by
  induction d generalizing c p q r with
  | nil => cases h; exact Nat.le_add_right _ _
  | cons x d ih =>
    simp only [ksXor] at h
    rw [List.length_cons]
    split at h <;> rename_i c₁ p₁ hfill
    · cases h
      rcases ksRefill_log_length hfill with ⟨hc, -⟩ | ⟨hpos, hlog, -⟩
      · cases hc
      · simp only [Ctx.blocksFor]; omega
    · have hq : q.log.length ≤ p₁.log.length + Ctx.blocksFor { c₁ with ksPos := c₁.ksPos + 1 } d.length := by
        split at h <;> rename_i hrest <;> cases h <;> exact ih hrest
      rcases ksRefill_log_length hfill with ⟨hc, rfl⟩ | ⟨hpos, hlog, hzero⟩
      · cases hc
        rwa [Ctx.blocksFor_next] at hq
      · simp only [Ctx.blocksFor, hzero c₁ rfl] at hq ⊢
        omega

/-- The keystream bytes of a buffer need at most one block more than whole blocks lie in it. -/
theorem Ctx.blocksFor_le {c : Ctx} (h : c.ksPos ≤ 16) (T : Nat) : c.blocksFor T ≤ T / 16 + 1 := by
  unfold Ctx.blocksFor; omega

/-- What a buffer command asks of the primitive, in `IDLE` (`70_reset_and_hazards.md` R259). -/
theorem IsBuffer.exec_log_length {i : Instr} (hi : IsBuffer i) {s t : State} (hp : s.phase = .idle)
    (h : exec i s = .next t) (hc : s.ctx.ksPos ≤ 16) : t.port.log.length ≤ s.port.log.length + (s.ilen.toNat / 16 + 1) := by
  simp only [IsBuffer, List.mem_cons, List.not_mem_nil, or_false] at hi
  rcases hi with rfl | rfl | rfl | rfl
  · rcases cbcEnc_cases Config.machine hp with ⟨_, e⟩ | ⟨_, _, _, e⟩ | ⟨_, _, _, p, hx, e⟩ | ⟨_, _, _, _, p, hx, e⟩ <;>
      cases e.symm.trans h
    · exact Nat.le_add_right _ _
    · exact Nat.le_add_right _ _
    · exact (cbcEncBlocks_log_length hx).trans (by simp)
    · exact (cbcEncBlocks_log_length hx).trans (by simp)
  · rcases cbcDec_cases Config.machine hp with ⟨_, e⟩ | ⟨_, _, _, e⟩ | ⟨_, _, _, e⟩ | ⟨_, _, _, _, p, hx, e⟩ |
      ⟨_, _, _, _, _, p, hx, e⟩ <;> cases e.symm.trans h
    · exact Nat.le_add_right _ _
    · exact Nat.le_add_right _ _
    · exact Nat.le_add_right _ _
    · exact (cbcDecBlocks_log_length hx).trans (by simp)
    · rw [decEnd_port]; exact (cbcDecBlocks_log_length hx).trans (by simp)
  · rcases cbcBlocks_cases Config.machine hp with ⟨_, _, e⟩ | ⟨_, _, _, _, p, hx, e⟩ | ⟨_, _, _, _, _, p, hx, e⟩ <;>
      cases e.symm.trans h
    · exact Nat.le_add_right _ _
    · exact (cbcBlocksOf_log_length hx).trans (by simp)
    · exact (cbcBlocksOf_log_length hx).trans (by simp)
  · have stream : s.ctx.blocksFor (s.input Config.machine).length ≤ s.ilen.toNat / 16 + 1 := by
      rw [input_length]; exact Ctx.blocksFor_le hc _
    rcases ctrXor_cases Config.machine hp with ⟨_, _, e⟩ | ⟨_, _, _, p, hx, e⟩ | ⟨_, _, _, _, p, hx, e⟩ <;>
      cases e.symm.trans h
    · exact Nat.le_add_right _ _
    · exact (ksXor_log_length hx).trans (Nat.add_le_add_left stream _)
    · exact (ksXor_log_length hx).trans (Nat.add_le_add_left stream _)

/-- What a command that is not a streaming command asks of the primitive, in any phase. -/
theorem exec_log_length {i : Instr} (hs : ¬ IsStreaming i) {s t : State} (h : exec i s = .next t)
    (hc : s.ctx.ksPos ≤ 16) : t.port.log.length ≤ s.port.log.length + (s.ilen.toNat / 16 + 1) := by
  rcases hp : s.phase with _ | _ | _
  · by_cases hb : IsBuffer i
    · exact hb.exec_log_length hp h hc
    · obtain ⟨hport, -⟩ := exec_port_of_not_buffer hs hb hp h
      exact hport ▸ Nat.le_add_right _ _
  · rw [exec_run i hp] at h; cases h
  · rw [exec_fatal i hp] at h; cases h; exact Nat.le_add_right _ _

/-! ## The end of a command -/

/-- A command that is not a streaming command runs to its end in one step. -/
theorem exec_ends {i : Instr} (hs : ¬ IsStreaming i) {s t : State} (h : exec i s = .next t) : t.phase ≠ .run := by
  cases exec_next h with
  | rejected c hc hp ht => rw [ht]; exact hp
  | ended e c p n hp hl ht => rw [ht]; exact endCommand_phase e _
  | output v c p n hp hl hv ht => rw [ht]; exact endCommand_phase .success _
  | path dir hi hp ht => exact absurd hi.isStreaming hs
  | handle dir hi hp ht => exact absurd hi.isStreaming hs

/-- Settles O48: such a command is never refused, ends, and adds to the record no more than its requests. -/
theorem bufferCommandsEnd : Obligations.BufferCommandsEnd := by
  intro i s hs hp
  obtain ⟨t, h⟩ := exec_answers hs hp
  obtain ⟨ev, hlog, -⟩ := (exec_port hs h).1
  refine ⟨t, ev, h, exec_ends hs h, hlog, fun hc => ?_⟩
  have hlen := exec_log_length hs h hc
  rw [hlog, List.length_append] at hlen
  omega

end Sys2Proof.Machine
end
